-- ==== Sys2Proof/Word.lean ====
section
/-!
DEFINITION. The word types of the CW4120 (spec/00_scope.md "Addresses and sizes", spec/12 R169).
-/
namespace Sys2Proof

/-- One byte, and one byte lane of a port. -/
abbrev Byte := BitVec 8

/-- A 16-bit field: sequences, tickets, ring indices, saturating counters. -/
abbrev Half := BitVec 16

/-- A 32-bit field: wrapping counters, tick counter values, notice value32. -/
abbrev Quad := BitVec 32

/-- A memory or system address (32 bits). -/
abbrev Addr := BitVec 32

/-- One 8-byte word, the width of both ports; byte lane `k` is bits `8k+7` to `8k`. -/
abbrev Word := BitVec 64

/-- A lane number, 0 to 15. -/
abbrev LaneNo := Fin 16

/-- A system-port tag, 0 to 7. -/
abbrev Tag := Fin 8

end Sys2Proof
end

