-- ==== Sys2Proof/Syntax.lean ====
section
/-!
DEFINITION. The commands of the block: one constructor of `Instr` for each row of spec/opcode_table.json, in the
table's order, and the operand types they carry.
-/
namespace Sys2Proof

/-- The direction of a transaction. -/
inductive Direction where
  | read
  | write
  deriving DecidableEq, Repr

/-- A transaction as it is presented to the system port (R161). -/
structure Transaction where
  address   : Addr
  direction : Direction
  /-- The size in bytes; any other size than 1, 2, 4 or 8 is refused MISALIGNED (R93). -/
  size      : Nat
  master    : BitVec 4
  tag       : Tag
  /-- 8 bytes of write data, of which only the byte lanes of address and size are meaningful. -/
  data      : Word
  deriving DecidableEq, Repr

/-- An 8-byte write of the command word without its code (12.3): who writes it, and the bytes 1 to 7. -/
structure CommandWrite where
  master  : BitVec 4
  tag     : Tag
  lane    : Byte
  flags   : Byte
  /-- Byte 3, ignored by the part (R126). -/
  unused3 : Byte
  ticket  : Half
  /-- Bytes 6 and 7, ignored by the part (R126). -/
  unused6 : Half
  deriving DecidableEq, Repr

/-- Which of a lane's two lines (R22). -/
inductive Line where
  | put
  | take
  deriving DecidableEq, Repr

/-- A response of the memory controller (R163): it carries no identifier. -/
inductive MemResponse where
  | ok (data : Word)
  | error
  deriving DecidableEq, Repr

/-- The commands: one constructor for each row of spec/opcode_table.json. -/
inductive Instr where
  | hardReset
  | resetRelease (cfgb : BitVec 8) (autold : Bool)
  | tick
  | holdExpiry (lane : LaneNo) (line : Line)
  | commandWaiterExpiry
  | memoryRequestAbandon (place : Fin 8)
  | statusIntervalExpiry
  | systemPortTransaction (t : Transaction)
  | bodyPut (t : Transaction)
  | finalPut (t : Transaction)
  | putStatusRead (t : Transaction)
  | dataRead (t : Transaction)
  | headInfoRead (t : Transaction)
  | release (t : Transaction)
  | tappedAccess (t : Transaction)
  | noticeConsumerIndex (master : BitVec 4) (tag : Tag) (value : Quad)
  | loadSetup (w : CommandWrite)
  | loadApertures (w : CommandWrite)
  | openLane (w : CommandWrite)
  | closeLane (w : CommandWrite)
  | flushLane (w : CommandWrite)
  | resetLane (w : CommandWrite)
  | writeStatus (w : CommandWrite)
  | unknownCommand (code : Byte) (w : CommandWrite)
  | commandWaiterHandover
  | memoryRequestIssue
  | passThroughEnd (r : MemResponse)
  | bodyWriteEnd (r : MemResponse)
  | headerWriteEnd (r : MemResponse)
  | captureWriteEnd (r : MemResponse)
  | scanReadEnd (r : MemResponse)
  | headFetchEnd (r : MemResponse)
  | takeReadEnd (r : MemResponse)
  | imageReadEnd (r : MemResponse)
  | responseWriteEnd (r : MemResponse)
  | noticeWriteEnd (r : MemResponse)
  | statusWriteEnd (r : MemResponse)
  | lateResponse (r : MemResponse)
  | putTakeWaitEnd (lane : LaneNo)
  | heldEntryWake (lane : LaneNo) (line : Line)
  | parcelCut (lane : LaneNo)
  | drainCompletion (lane : LaneNo)
  | laneDiscard (lane : LaneNo)
  | apertureReplacement
  | noticeWrite
  | statusWriteBack
  | generationEnd
  deriving DecidableEq, Repr

end Sys2Proof
end

