-- ==== Sys2Proof/Config.lean ====
section
/-!
DEFINITION. What an implementation fixes, and the free values: constants of the spec's own that several files use,
and the one choice that the spec leaves free (R82).
-/
namespace Sys2Proof.Config

/-- FREE VALUE (no body, nothing can evaluate it). Where two woken entries share a hold start, R82 lets either be
re-evaluated first: the entry with the smaller key goes first. The first argument is `State.choices`, a counter that
every wake advances; the second names the entry's line (2 * lane, + 1 for the take line). -/
opaque wakeKey : Nat → Nat → Nat

/-- The held table has six entries (5.2). -/
def heldEntries : Nat := 6

/-- The outstanding list has eight entries (R163). -/
def outstandingEntries : Nat := 8

/-- The pending list holds eight notices (R138). -/
def waitingNotices : Nat := 8

/-- A lane holds at most 65535 parcels (R15). -/
def parcelLimit : Nat := 65535

/-- A segment has 512 bytes (R23). -/
def segmentBytes : Nat := 512

/-- How many parts one event may have before the model stops following them: far more than eight tags can cause. -/
def eventFuel : Nat := 4096

end Sys2Proof.Config
end

