-- ==== Sys2Proof/Machine/State.lean ====
section
/-!
DEFINITION. The state of the CW4120, block by block as spec/00_scope.md "Block overview" lists it, the reasons a step
can stop, and the state after a hard reset.
-/
namespace Sys2Proof.Machine

/-! ## Lanes (spec/01_lanes_and_parcels.md) -/

/-- The lane states of section 1.2. -/
inductive LaneState where
  | closed
  | opened
  | draining
  | faulted
  deriving DecidableEq, Repr

/-- The busy mark (R7). -/
inductive BusyMark where
  | clear
  | flush
  | reset
  deriving DecidableEq, Repr

/-- Why a lane entered FAULTED (R155). -/
inductive FaultCause where
  | none
  | memoryErrors
  | headerWrite
  | headerCheck
  deriving DecidableEq, Repr

/-- The full action of a descriptor; `unset` is the field value 0 of a lane that was never opened (R1). -/
inductive FullAction where
  | unset
  | hold
  | refuse
  | evict
  deriving DecidableEq, Repr

/-- The empty action of a descriptor; `unset` is the field value 0 of a lane that was never opened (R1). -/
inductive EmptyAction where
  | unset
  | hold
  | fill
  deriving DecidableEq, Repr

/-- The descriptor copy (R9). -/
structure Descriptor where
  autoOpen       : Bool
  autoRelease    : Bool
  fullAction     : FullAction
  emptyAction    : EmptyAction
  faultThreshold : Nat
  quota          : Nat
  maxLength      : Nat
  holdLimit      : Half
  readyThreshold : Nat
  deriving DecidableEq, Repr

/-- A parcel header as it is stored (12.5). -/
structure Header where
  length   : Half
  check    : Half
  sequence : Half
  tag      : Byte
  flags    : Byte
  deriving DecidableEq, Repr

/-- The open parcel (R11): where its header slot lies, its body length so far, its flags so far, its sequence. -/
structure OpenParcel where
  segment  : Nat
  offset   : Nat
  length   : Nat
  flags    : Byte
  sequence : Half
  deriving DecidableEq, Repr

/-- The head cache (R19): the stored header and the bytes consumed. -/
structure HeadCache where
  header   : Header
  consumed : Nat
  deriving DecidableEq, Repr

/-- How a memory-port request ended (00 "Memory outcomes"). -/
inductive MemOutcome where
  | ok (data : Word)
  | error
  | timeout
  deriving DecidableEq, Repr

/-- What a put-line entry is: a put into the body or the final region (R39), or a capture with the HOLD option of its
TAP entry and the outcome of its tapped access (R110). -/
inductive PutKind where
  | body
  | final (tag : Byte)
  | capture (hold : Bool) (outcome : MemOutcome)
  deriving DecidableEq, Repr

/-- One entry of the scan list (R50): the header slot of a ready parcel and the header stored there. -/
structure Scanned where
  segment : Nat
  offset  : Nat
  header  : Header
  deriving DecidableEq, Repr

/-- The stages of section 3.2. An entry that is waiting or held is `waiting`; the held table says which. -/
inductive PutStage where
  | waiting
  | waitTake
  | scanning (list : List Scanned)
  | writingBody (left : Nat) (failed : Bool)
  | writingHeader (failed : Bool)
  deriving DecidableEq, Repr

/-- An entry of the put line (R22). `linked` says that the start of a capture linked a segment (R13). -/
structure PutEntry where
  tx     : Transaction
  entry  : Fin 23
  kind   : PutKind
  stage  : PutStage
  linked : Bool
  deriving DecidableEq, Repr

/-- The three take operations (R57). -/
inductive TakeKind where
  | data
  | info
  | release
  deriving DecidableEq, Repr

/-- Where a take operation stands: waiting or held; head fetch in flight (R59); body reads in flight, with the bytes it
takes, the reads left, whether one failed, and the bytes got so far (R63). -/
inductive TakeStage where
  | waiting
  | fetching
  | reading (take : Nat) (left : Nat) (failed : Bool) (got : List Byte)
  deriving DecidableEq, Repr

/-- An entry of the take line (R22). -/
structure TakeEntry where
  tx    : Transaction
  entry : Fin 23
  kind  : TakeKind
  stage : TakeStage
  deriving DecidableEq, Repr

/-- The lane context of section 1.1. `chain` is the lane's part of the link table: the segments it holds, head segment
first, each linked to the one after it and the last to END. -/
structure Lane where
  state      : LaneState
  busy       : BusyMark
  desc       : Descriptor
  chain      : List Nat
  headOffset : Nat
  tailOffset : Nat
  ready      : Nat
  openParcel : Option OpenParcel
  /-- The cut header write of CLOSE LANE is in flight (R4). -/
  cutting    : Bool
  putSeq     : Half
  takeSeq    : Half
  cache      : Option HeadCache
  gap        : Bool
  errors     : Nat
  cause      : FaultCause
  armed      : Bool
  closed     : Quad
  released   : Quad
  evicted    : Half
  refusals   : Half
  expiries   : Half
  overreads  : Half
  putLine    : List PutEntry
  takeLine   : List TakeEntry
  deriving DecidableEq, Repr

/-! ## Segment pool (spec/02_the_segment_pool.md) -/

/-- The pool block. `freeList` is the free list as the link table threads it, top first (R26). -/
structure Pool where
  base      : Addr
  count     : Nat
  freeList  : List Nat
  minFree   : Nat
  watermark : Nat
  armed     : Bool
  deriving DecidableEq, Repr

/-! ## Hold unit (spec/05_holding_and_the_microsecond_tick.md) -/

/-- The wait kinds of section 5.2. -/
inductive WaitKind where
  | space
  | pool
  | parcel
  | capture
  deriving DecidableEq, Repr

/-- An entry of the held table (R78). `due`: its deadline was reached and its expiry has not been taken (R83). -/
structure HeldEntry where
  tag      : Tag
  lane     : LaneNo
  line     : Line
  kind     : WaitKind
  start    : Quad
  deadline : Quad
  due      : Bool
  deriving DecidableEq, Repr

/-- The command write in the waiter slot (R87). `due`: as for a held entry (R88). -/
structure Waiter where
  tx       : Transaction
  arrival  : Quad
  deadline : Quad
  due      : Bool
  deriving DecidableEq, Repr

/-- The hold unit. -/
structure HoldUnit where
  divider      : BitVec 8
  cycle        : Nat
  ticks        : Quad
  setupMark    : Quad
  commandLimit : Half
  held         : List HeldEntry
  highWater    : Nat
  waiter       : Option Waiter
  deriving DecidableEq, Repr

/-! ## Aperture decoder (spec/06_apertures_and_decode.md) -/

/-- The guard modes of R97. -/
inductive GuardMode where
  | noWrite
  | noRead
  | noAccess
  deriving DecidableEq, Repr

/-- An entry of the aperture table with the fields its kind uses (R103): base, size exponent, and the rest. -/
inductive Aperture where
  | invalid
  | pass (base : Addr) (exponent : Nat) (target : Addr)
  | guard (base : Addr) (exponent : Nat) (mode : GuardMode) (mask : BitVec 16)
  | put (base : Addr) (exponent : Nat) (lane : LaneNo)
  | take (base : Addr) (exponent : Nat) (lane : LaneNo)
  | tap (base : Addr) (exponent : Nat) (lane : LaneNo) (reads : Bool) (hold : Bool)
  deriving DecidableEq, Repr

/-- The loss-run state of a TAP entry (R118). -/
structure LossRun where
  running : Bool
  count   : Quad
  deriving DecidableEq, Repr

/-- The aperture decoder, and the refusal counters and the tap loss counter it owns (R149). `guard` is the pool guard
range: its first address and the address after its last (R95). -/
structure Decoder where
  cfgb          : BitVec 8
  guard         : Option (Nat × Nat)
  poolOpen      : Bool
  entries       : Vector Aperture 23
  runs          : Vector LossRun 23
  frozen        : List Transaction
  guardRefusals : Quad
  otherRefusals : Quad
  tapLost       : Quad
  deriving DecidableEq, Repr

/-! ## System port (spec/11_ports_straps_and_bring_up.md) -/

/-- What the tag table records of an outstanding transaction (R161). -/
structure TagEntry where
  master    : BitVec 4
  direction : Direction
  size      : Nat
  address   : Addr
  deriving DecidableEq, Repr

/-- One answer of the system port (R162). -/
structure Response where
  tag   : Tag
  error : Bool
  data  : Word
  deriving DecidableEq, Repr

/-- The system port. `presented`: transactions offered and not yet taken, in order (R161). `responses`: the answers
given in the latest event. -/
structure SystemPort where
  tags      : Vector (Option TagEntry) 8
  freeze    : Bool
  presented : List Transaction
  responses : List Response
  deriving DecidableEq, Repr

/-! ## Memory port (spec/11_ports_straps_and_bring_up.md) -/

/-- The lane and the HOLD option of the TAP entry that captures a forwarded access, and its index (R109). -/
structure TapRequest where
  lane  : LaneNo
  entry : Fin 23
  hold  : Bool
  deriving DecidableEq, Repr

/-- Who owns a memory request, which also gives its class (R153, 12.4). -/
inductive Owner where
  | forward (tx : Transaction) (source : Byte) (tap : Option TapRequest)
  | bodyWrite (lane : LaneNo)
  | headerWrite (lane : LaneNo)
  | captureWrite (lane : LaneNo)
  | scanRead (lane : LaneNo)
  | headFetch (lane : LaneNo)
  | takeRead (lane : LaneNo)
  | imageRead (offset : Nat) (ticket : Half)
  | responseWrite (ticket : Half)
  | noticeWrite
  | statusWrite (index : Nat)
  deriving DecidableEq, Repr

/-- A memory request (R163). `master` is the id a MEMORY_ERROR notice of it carries (R153); `address` is the address of
its first enabled byte. -/
structure MemRequest where
  owner   : Owner
  master  : Byte
  address : Addr
  write   : Bool
  enables : BitVec 8
  data    : Word
  deriving DecidableEq, Repr

/-- An entry of the outstanding list (R163, R165). `due`: a tick has reached its deadline; it is abandoned in
the event of that tick. -/
structure Outstanding where
  request   : MemRequest
  issueTick : Quad
  deadline  : Option Quad
  due       : Bool
  abandoned : Bool
  deriving DecidableEq, Repr

/-- The memory port: the requests waiting in the four classes of R164, the outstanding list, the memory response limit,
and the two counters. The status class waits as indices 1 to 74 of the writes of R148, because their data is taken
at issue (R149). -/
structure MemoryPort where
  noticeQ     : List MemRequest
  commandQ    : List MemRequest
  systemQ     : List MemRequest
  statusQ     : List Nat
  outstanding : List Outstanding
  limit       : Half
  errors      : Quad
  timeouts    : Half
  deriving DecidableEq, Repr

/-! ## Command unit (spec/08_the_control_block_and_commands.md) -/

/-- The current command (R124), with the master id of its write (R127). -/
structure Command where
  code   : Byte
  lane   : Byte
  flags  : Byte
  ticket : Half
  master : Byte
  deriving DecidableEq, Repr

/-- The steps of autoload (R167). -/
inductive AutoStep where
  | setup
  | apertures
  | descriptor (lane : LaneNo)
  deriving DecidableEq, Repr

/-- What the running command waits for: image reads (R129), the table replacement (R104), the end of a close (R135),
a discard (R136), a write-back, running or marked to follow (R137). -/
inductive CommandWork where
  | none
  | images (left : Nat) (words : List (Nat × Word)) (failed : Option Nat)
  | freezing (table : Vector Aperture 23)
  | closing (lane : LaneNo)
  | emptying (lane : LaneNo)
  | status (follow : Bool)
  deriving DecidableEq, Repr

/-- The command unit. -/
structure CommandUnit where
  running  : Bool
  current  : Command
  autoload : Option AutoStep
  work     : CommandWork
  taken    : Quad
  deriving DecidableEq, Repr

/-! ## Notice writer and status writer (spec/09) -/

/-- The notice kinds of section 9.1. -/
inductive NoticeKind where
  | parcelReady
  | holdExpired
  | accessRefused
  | parcelEvicted
  | laneClosed
  | laneFaulted
  | memoryError
  | tapLoss
  | poolLow
  | commandDone
  | noticeLoss
  deriving DecidableEq, Repr

/-- A notice as its producer hands it over (R138). -/
structure Notice where
  kind    : NoticeKind
  source  : Byte
  reason  : Byte
  master  : Byte
  value16 : Half
  address : Addr
  value32 : Quad
  deriving DecidableEq, Repr

/-- The notice write unended (R140): the loss count carried if it is a NOTICE_LOSS (R142), the requests that have not
ended, whether one failed, and whether it belongs to a ring that LOAD SETUP replaced (R145). -/
structure NoticeWrite where
  carried : Option Half
  left    : Nat
  failed  : Bool
  stale   : Bool
  deriving DecidableEq, Repr

/-- The notice writer, with the pin INT_N (true: high, deasserted). `waiting` is the pending list of R138. -/
structure NoticeWriter where
  ringBase    : Addr
  entries     : Nat
  producer    : Half
  consumer    : Half
  loss        : Half
  mask        : BitVec 11
  enable      : Bool
  waiting     : List Notice
  write       : Option NoticeWrite
  badConsumer : Half
  writeErrors : Half
  intN        : Bool
  deriving DecidableEq, Repr

/-- The status writer. `left`: how many of writes 1 to 73 have not ended; `snapshot`: the words of the record being
written (R149); `expiryDue`: an expiry of the interval has not been taken. -/
structure StatusWriter where
  interval   : Half
  timer      : Nat
  generation : Quad
  inProgress : Bool
  followOn   : Bool
  left       : Nat
  snapshot   : List Word
  expiryDue  : Bool
  deriving DecidableEq, Repr

/-! ## The machine -/

/-- A part of the event in progress that is still to be done. -/
inductive Task where
  | evalPut (lane : LaneNo)
  | evalTake (lane : LaneNo)
  | wake (lane : LaneNo) (line : Line)
  | laneTests (lane : LaneNo)
  | waitEnd (lane : LaneNo)
  | handover
  | thaw
  | decode (t : Transaction)
  | takePresented
  deriving DecidableEq, Repr

/-- The whole state. `pending` is the queue of commands. `todo` and `choices` are the model's own: the parts of the
event in progress (empty between events), and the counter that selects the next free value. `rst`: RST_N is low. -/
structure State where
  pending : List Instr
  rst     : Bool
  autold  : Bool
  sys     : SystemPort
  dec     : Decoder
  lanes   : Vector Lane 16
  pool    : Pool
  hold    : HoldUnit
  cmd     : CommandUnit
  notice  : NoticeWriter
  status  : StatusWriter
  port    : MemoryPort
  todo    : List Task
  choices : Nat
  deriving DecidableEq, Repr

/-- The reasons a step can stop with a fault. -/
inductive Fault where
  /-- Raised by no meaning: the spec stops the block nowhere (its "faults" are lane states). Safe. -/
  | stopped
  deriving DecidableEq, Repr

/-- The reasons a step can be refused. -/
inductive Refusal where
  /-- A command without a meaning yet; raised by refused arms of `exec` only. Safe. -/
  | notModelled (mnemonic : String)
  deriving DecidableEq, Repr

/-! ## Reset (R166) -/

/-- The descriptor of a lane that was never opened: every field 0 (R1). -/
def Descriptor.zero : Descriptor :=
  { autoOpen := false, autoRelease := false, fullAction := .unset, emptyAction := .unset, faultThreshold := 0,
    quota := 0, maxLength := 0, holdLimit := 0, readyThreshold := 0 }

/-- The empty form of a lane context (R1). Unset positions are held as 0. -/
def Lane.empty : Lane :=
  { state := .closed, busy := .clear, desc := .zero, chain := [], headOffset := 0, tailOffset := 0, ready := 0,
    openParcel := none, cutting := false, putSeq := 0, takeSeq := 0, cache := none, gap := false, errors := 0,
    cause := .none, armed := false, closed := 0, released := 0, evicted := 0, refusals := 0, expiries := 0,
    overreads := 0, putLine := [], takeLine := [] }

/-- No pool (R24). -/
def Pool.empty : Pool :=
  { base := 0, count := 0, freeList := [], minFree := 0, watermark := 0, armed := false }

/-- The hold unit after a hard reset (R90). -/
def HoldUnit.init : HoldUnit :=
  { divider := 100, cycle := 0, ticks := 0, setupMark := 0, commandLimit := 1000, held := [], highWater := 0,
    waiter := none }

/-- A loss-run state that is clear with count 0 (R91). -/
def LossRun.clear : LossRun := { running := false, count := 0 }

/-- The decoder after a hard reset (R91). -/
def Decoder.init : Decoder :=
  { cfgb := 0, guard := none, poolOpen := false, entries := Vector.replicate 23 .invalid,
    runs := Vector.replicate 23 .clear, frozen := [], guardRefusals := 0, otherRefusals := 0, tapLost := 0 }

/-- The system port in hard reset (R166). -/
def SystemPort.init : SystemPort :=
  { tags := Vector.replicate 8 none, freeze := false, presented := [], responses := [] }

/-- The memory port in hard reset (R166). -/
def MemoryPort.init : MemoryPort :=
  { noticeQ := [], commandQ := [], systemQ := [], statusQ := [], outstanding := [], limit := 0, errors := 0,
    timeouts := 0 }

/-- The empty current command (R123). -/
def Command.none : Command := { code := 0, lane := 0, flags := 0, ticket := 0, master := 0 }

/-- The command unit after a hard reset (R123). -/
def CommandUnit.init : CommandUnit :=
  { running := false, current := .none, autoload := none, work := .none, taken := 0 }

/-- The notice writer after a hard reset (R145). -/
def NoticeWriter.init : NoticeWriter :=
  { ringBase := 0, entries := 0, producer := 0, consumer := 0, loss := 0, mask := 0x7FF, enable := false,
    waiting := [], write := none, badConsumer := 0, writeErrors := 0, intN := true }

/-- The status writer after a hard reset (R146). -/
def StatusWriter.init : StatusWriter :=
  { interval := 0, timer := 0, generation := 0, inProgress := false, followOn := false, left := 0, snapshot := [],
    expiryDue := false }

/-- The machine in hard reset, RST_N low and every block at its reset values (R166). The straps are sampled when RST_N
rises; until then their fields hold 0 (DESIGN CHOICE, log 1). -/
def State.reset : State :=
  { pending := [], rst := true, autold := false, sys := .init, dec := .init, lanes := Vector.replicate 16 .empty,
    pool := .empty, hold := .init, cmd := .init, notice := .init, status := .init, port := .init, todo := [],
    choices := 0 }

end Sys2Proof.Machine
end

