-- ==== Sys2Proof/Machine/Operands.lean ====
section
/-!
DEFINITION. Bytes, byte lanes and byte order (R169), the bytes of an access (00 "Bytes of an access"), alignment (R93).
-/
namespace Sys2Proof.Machine

/-- Byte lane `k` of a word. -/
def byteOf (w : Word) (k : Nat) : Byte := w.extractLsb' (8 * k) 8

/-- The 16-bit little-endian field at byte offset `k` of a word (R169). -/
def halfOf (w : Word) (k : Nat) : Half := w.extractLsb' (8 * k) 16

/-- The 32-bit little-endian field at byte offset `k` of a word (R169). -/
def quadOf (w : Word) (k : Nat) : Quad := w.extractLsb' (8 * k) 32

/-- The word whose byte lanes 0, 1, … hold the given bytes, and 0x00 beyond them; bytes after the eighth are dropped. -/
def packBytes (bs : List Byte) : Word :=
  (bs.take 8).foldr (fun b w => (w <<< 8) ||| b.zeroExtend 64) 0

/-- The word of four 16-bit fields at offsets 0, 2, 4 and 6 (R169). -/
def packHalves (a b c d : Half) : Word := d ++ c ++ b ++ a

/-- The word of two 32-bit fields at offsets 0 and 4 (R169). -/
def packQuads (a b : Quad) : Word := b ++ a

/-- The 16-bit field of two bytes, the first at the lower offset (R169). -/
def packPair (a b : Byte) : Half := b ++ a

/-- Byte enables for `count` byte lanes from lane `first` on. -/
def laneMask (first count : Nat) : BitVec 8 := BitVec.ofNat 8 ((2 ^ count - 1) * 2 ^ first)

/-- The word with 0x00 in every byte lane that is not enabled (R162). -/
def maskWord (enables : BitVec 8) (w : Word) : Word :=
  packBytes ((List.range 8).map fun k => if enables.getLsbD k then byteOf w k else 0)

/-- The bytes of the enabled lanes in increasing address order. -/
def enabledBytes (enables : BitVec 8) (w : Word) : List Byte :=
  ((List.range 8).filter fun k => enables.getLsbD k).map (byteOf w)

/-- The word that carries the bytes from byte lane `first` on. -/
def placeBytes (first : Nat) (bs : List Byte) : Word := packBytes (List.replicate first 0 ++ bs)

/-- The first byte lane of a transaction: its address modulo 8. -/
def firstLane (t : Transaction) : Nat := t.address.toNat % 8

/-- The byte lanes of a transaction (00 "Addresses and sizes"). -/
def laneEnables (t : Transaction) : BitVec 8 := laneMask (firstLane t) t.size

/-- The bytes of a write, in the order in which they are appended (00 "Bytes of an access"). -/
def writeBytes (t : Transaction) : List Byte := enabledBytes (laneEnables t) t.data

/-- The sizes of R93: any other size is refused MISALIGNED. -/
def legalSize (n : Nat) : Bool := n == 1 || n == 2 || n == 4 || n == 8

/-- A transaction is naturally aligned: its size is 1, 2, 4 or 8 and its address a multiple of it (R93). -/
def aligned (t : Transaction) : Bool := legalSize t.size && t.address.toNat % t.size == 0

/-- 1 for a write, 0 for a read: value32 of a refusal (R101). -/
def directionCode : Direction → Quad
  | .read => 0
  | .write => 1

/-- The master id as the master byte of a notice. -/
def masterByte (t : Transaction) : Byte := t.master.zeroExtend 8

/-- The index of an aperture entry, 1 to 23, as a byte. -/
def entryByte (i : Fin 23) : Byte := BitVec.ofNat 8 (i.val + 1)

/-- A number rounded up to a multiple of 8. -/
def roundUp8 (n : Nat) : Nat := (n + 7) / 8 * 8

/-- The pieces of an access to `bs` from chain position `pos` on, cut at the word boundary (R51): one or two. -/
def wordPieces (pos : Nat) (bs : List Byte) : List (Nat × List Byte) :=
  let room := 8 - pos % 8
  if bs.isEmpty then []
  else if bs.length ≤ room then [(pos, bs)]
  else [(pos, bs.take room), (pos + room, bs.drop room)]

end Sys2Proof.Machine
end

