-- ==== Sys2Proof/Machine/Flags.lean ====
section
/-!
DEFINITION. Codes and flag values of chapter 12, saturating counters (00 "Counters"), the header check (R171) and the
words built from flags: stored headers, and the words returned on the system port (12.6).
-/
namespace Sys2Proof.Machine

/-! ## Parcel flags (12.5) -/

def flagDamaged : Byte := 0x01
def flagCut : Byte := 0x02
def flagClipped : Byte := 0x04
def flagCapture : Byte := 0x08
def flagEmpty : Byte := 0x10
def flagGap : Byte := 0x20

/-- The flags byte of a head info or release word: GAP added when the gap mark is set (R65, R66, R70, R72). -/
def withGap (gap : Bool) (flags : Byte) : Byte := if gap then flags ||| flagGap else flags

/-! ## Counters -/

/-- One more, saturating at 65535 (00 "Counters"). -/
def satInc (c : Half) : Half := if c = 0xFFFF then c else c + 1

/-! ## Codes (12.2 to 12.4, 12.7) -/

def LaneState.code : LaneState → Byte
  | .closed => 0
  | .opened => 1
  | .draining => 2
  | .faulted => 3

def FaultCause.code : FaultCause → Byte
  | .none => 0
  | .memoryErrors => 1
  | .headerWrite => 2
  | .headerCheck => 3

def NoticeKind.code : NoticeKind → Nat
  | .parcelReady => 1
  | .holdExpired => 2
  | .accessRefused => 3
  | .parcelEvicted => 4
  | .laneClosed => 5
  | .laneFaulted => 6
  | .memoryError => 7
  | .tapLoss => 8
  | .poolLow => 9
  | .commandDone => 10
  | .noticeLoss => 11

/-- The request class code of an owner (12.4); notice and status writes have none (R153). -/
def Owner.classCode : Owner → Quad
  | .forward _ _ _ => 1
  | .bodyWrite _ => 2
  | .headerWrite _ => 3
  | .captureWrite _ => 4
  | .scanRead _ => 5
  | .headFetch _ => 6
  | .takeRead _ => 7
  | .imageRead _ _ => 8
  | .responseWrite _ => 9
  | .noticeWrite => 0
  | .statusWrite _ => 0

/-- The reasons of 12.4. -/
def reasonUnknownCommand : Byte := 0x01
def reasonBadMagic : Byte := 0x02
def reasonLanesNotClosed : Byte := 0x03
def reasonBadPool : Byte := 0x04
def reasonBadRing : Byte := 0x05
def reasonBadEntry : Byte := 0x06
def reasonBadDescriptor : Byte := 0x07
def reasonBadLaneNumber : Byte := 0x08
def reasonLaneState : Byte := 0x09
def reasonImageReadError : Byte := 0x0A
def reasonMisaligned : Byte := 0x10
def reasonPool : Byte := 0x11
def reasonGuard : Byte := 0x12
def reasonCommandSize : Byte := 0x13
def reasonCommandBusy : Byte := 0x14
def reasonCommandQueueFull : Byte := 0x15
def reasonLaneNotOpen : Byte := 0x16
def reasonLaneFaulted : Byte := 0x17
def reasonLaneBusy : Byte := 0x18
def reasonLaneFull : Byte := 0x19
def reasonWrongDirection : Byte := 0x1A
def reasonExpired : Byte := 0x20
def reasonTableFull : Byte := 0x21
def reasonResponseError : Byte := 0x28
def reasonTimeout : Byte := 0x29
def reasonRunStart : Byte := 0x30
def reasonRunEnd : Byte := 0x31

/-- Outcomes of a response word (12.3). -/
def outcomeInProgress : Byte := 1
def outcomeDone : Byte := 2
def outcomeRejected : Byte := 3

/-- Command codes (12.3). -/
def codeLoadSetup : Byte := 0x01
def codeLoadApertures : Byte := 0x02
def codeOpenLane : Byte := 0x03
def codeCloseLane : Byte := 0x04
def codeFlushLane : Byte := 0x05
def codeResetLane : Byte := 0x06
def codeWriteStatus : Byte := 0x07

/-! ## Headers -/

/-- The check of a header: length + sequence + 256 * tag + flags + 0x5A5A modulo 65536 (R171). -/
def headerCheck (length sequence : Half) (tag flags : Byte) : Half :=
  length + sequence + (tag ++ flags) + 0x5A5A

/-- The header the part writes when a parcel closes (R13). -/
def closingHeader (length sequence : Half) (tag flags : Byte) : Header :=
  { length := length, check := headerCheck length sequence tag flags, sequence := sequence, tag := tag,
    flags := flags }

/-- A header as it lies in memory (12.5). -/
def Header.word (h : Header) : Word := packHalves h.length h.check h.sequence (packPair h.tag h.flags)

/-- The header read from a header slot (12.5). -/
def Header.ofWord (w : Word) : Header :=
  { length := halfOf w 0, check := halfOf w 2, sequence := halfOf w 4, tag := byteOf w 6, flags := byteOf w 7 }

/-- The four tests of R60, against the sequence expected. -/
def Header.passes (h : Header) (expected : Half) : Bool :=
  h.check == headerCheck h.length h.sequence h.tag h.flags && h.sequence == expected && h.length != 0
    && h.flags.extractLsb' 4 4 == 0

/-! ## Words returned on the system port (12.6) -/

/-- The head info word (R65). -/
def headInfoWord (c : HeadCache) (gap : Bool) : Word :=
  packHalves c.header.length (c.header.length - BitVec.ofNat 16 c.consumed) c.header.sequence
    (packPair c.header.tag (withGap gap c.header.flags))

/-- The release word, with the ready count after the release (R66). -/
def releaseWord (h : Header) (readyAfter : Nat) (gap : Bool) : Word :=
  packHalves h.length (BitVec.ofNat 16 readyAfter) h.sequence (packPair h.tag (withGap gap h.flags))

/-- The empty head info word and the empty release word: every field 0 but the flags (R70, R72). -/
def emptyWord (gap : Bool) : Word := packHalves 0 0 0 (packPair 0 (withGap gap flagEmpty))

/-- The room in the tail segment: 512 less the tail offset, or 0 when the lane holds no segment (R40, R43). -/
def Lane.room (l : Lane) : Nat := if l.chain.isEmpty then 0 else Config.segmentBytes - l.tailOffset

/-- The free bytes of the put status word, from the pool's free count (R40). -/
def Lane.freeBytes (l : Lane) (free : Nat) : Nat :=
  if l.state = .opened && l.busy = .clear then
    min (l.desc.quota - l.chain.length) free * Config.segmentBytes + l.room
  else 0

/-- The open parcel's body length so far, or 0 (R40, R150). -/
def Lane.openLength (l : Lane) : Nat :=
  match l.openParcel with
  | some p => p.length
  | none => 0

/-- The put status word (R40). -/
def putStatusWord (l : Lane) (free : Nat) : Word :=
  packQuads (BitVec.ofNat 32 (l.freeBytes free))
    (packPair (BitVec.ofNat 8 (min l.ready 255)) l.state.code ++ BitVec.ofNat 16 l.openLength)

/-! ## Records -/

/-- The response word (12.3). -/
def responseWord (ticket : Half) (outcome reason detail code : Byte) : Word :=
  packHalves ticket (packPair outcome reason) (packPair detail code) 0

/-- The first word of a notice record, with its sequence (12.7). -/
def noticeWord0 (n : Notice) (sequence : Half) : Word :=
  packHalves (packPair (BitVec.ofNat 8 n.kind.code) n.source) (packPair n.reason n.master) sequence n.value16

/-- The second word of a notice record (12.7). -/
def noticeWord1 (n : Notice) : Word := packQuads n.address n.value32

/-- Bits 2 to 1 and bit 0 of a capture's direction and outcome byte (12.5). -/
def captureCode (d : Direction) (o : MemOutcome) : Byte :=
  (match o with
    | .ok _ => 0
    | .error => 2
    | .timeout => 4) |||
  (match d with
    | .read => 0
    | .write => 1)

/-- The data field of a capture body (R111): the write data or the read data in the byte lanes of the access, 0x00 in
every other lane, and in all of them for a read that did not end OK. -/
def captureData (t : Transaction) (o : MemOutcome) : Word :=
  match t.direction, o with
  | .write, _ => maskWord (laneEnables t) t.data
  | .read, .ok d => maskWord (laneEnables t) d
  | .read, _ => 0

/-- The first word of a capture body: the address, then data bytes 0 to 3 (12.5). -/
def captureWord0 (t : Transaction) (o : MemOutcome) : Word := packQuads t.address (quadOf (captureData t o) 0)

/-- The second word of a capture body: data bytes 4 to 7, master, size, direction and outcome, entry index (12.5). -/
def captureWord1 (t : Transaction) (o : MemOutcome) (entry : Fin 23) : Word :=
  packQuads (quadOf (captureData t o) 4)
    (packPair (captureCode t.direction o) (entryByte entry) ++
      packPair (masterByte t) (BitVec.ofNat 8 t.size))

end Sys2Proof.Machine
end

