-- ==== Sys2Proof/Machine/Ops.lean ====
section
/-!
DEFINITION. The named operations that the blocks share: lane contexts, answers of the system port, notices and INT_N,
memory requests, the segment pool, the held table and its wakes.
-/
namespace Sys2Proof.Machine

/-! ## Small updates -/

/-- The lane context of lane `n`. -/
def State.lane (s : State) (n : LaneNo) : Lane := s.lanes[n.val]

/-- The state with another context for lane `n`. -/
def State.setLane (s : State) (n : LaneNo) (l : Lane) : State := { s with lanes := s.lanes.set n.val l }

/-- The state with lane `n`'s context changed by `f`. -/
def State.updLane (s : State) (n : LaneNo) (f : Lane → Lane) : State := s.setLane n (f (s.lane n))

/-- Parts of the event in progress that are still to be done, after those already noted. -/
def State.schedule (s : State) (ts : List Task) : State := { s with todo := s.todo ++ ts }

/-- The lane number as the source byte of a notice. -/
def laneByte (n : LaneNo) : Byte := BitVec.ofNat 8 n.val

/-- An address of the control block: its base, CFGB * 16 MiB, plus an offset (R94). -/
def State.controlAddress (s : State) (offset : Nat) : Addr :=
  s.dec.cfgb.zeroExtend 32 <<< 24 + BitVec.ofNat 32 offset

/-! ## Answers (R162) -/

/-- The answer under a tag: the tag entry becomes free and the response is given. -/
def State.answer (s : State) (tag : Tag) (error : Bool) (data : Word) : State :=
  { s with sys := { s.sys with
      tags := s.sys.tags.set tag.val none
      responses := s.sys.responses ++ [{ tag := tag, error := error, data := data }] } }

/-- ERROR carries no data (R162). -/
def State.answerError (s : State) (t : Transaction) : State := s.answer t.tag true 0

/-- OK carries, for a read, the data in the byte lanes of the transaction and 0x00 in the others (R162). -/
def State.answerOk (s : State) (t : Transaction) (data : Word) : State :=
  match t.direction with
  | .read => s.answer t.tag false (maskWord (laneEnables t) data)
  | .write => s.answer t.tag false 0

/-- The answer of a forwarded access with its memory outcome (R100, R115). -/
def State.answerOutcome (s : State) (t : Transaction) : MemOutcome → State
  | .ok d => s.answerOk t d
  | .error => s.answerError t
  | .timeout => s.answerError t

/-! ## The notice writer (R138 to R144) -/

/-- The number of unconsumed notices (R140). -/
def NoticeWriter.unconsumed (w : NoticeWriter) : Nat := (w.producer - w.consumer).toNat

/-- The ring is full (R140). -/
def NoticeWriter.full (w : NoticeWriter) : Bool := w.unconsumed == w.entries

/-- The kind mask enables a kind (12.7). -/
def NoticeWriter.enables (w : NoticeWriter) (k : NoticeKind) : Bool := w.mask.getLsbD (k.code - 1)

/-- INT_N is low exactly when interrupt enable is on and the indices differ (R144). -/
def NoticeWriter.driveIntN (w : NoticeWriter) : NoticeWriter :=
  { w with intN := !(w.enable && w.producer != w.consumer) }

/-- The address of the slot of the producer index (R140). -/
def NoticeWriter.slotAddress (w : NoticeWriter) : Addr :=
  w.ringBase + BitVec.ofNat 32 (16 * (w.producer.toNat % w.entries))

/-- The two 8-byte writes of a notice, first word first (R140). -/
def NoticeWriter.requests (w : NoticeWriter) (n : Notice) : List MemRequest :=
  [{ owner := .noticeWrite, master := 0xFF, address := w.slotAddress, write := true, enables := 0xFF,
     data := noticeWord0 n w.producer },
   { owner := .noticeWrite, master := 0xFF, address := w.slotAddress + 8, write := true, enables := 0xFF,
     data := noticeWord1 n }]

/-- The NOTICE_LOSS notice as it stands (R142). -/
def NoticeWriter.lossNotice (w : NoticeWriter) : Notice :=
  { kind := .noticeLoss, source := 0xFF, reason := 0, master := 0xFF, value16 := w.loss, address := 0,
    value32 := w.writeErrors.zeroExtend 32 }

/-- Step 1 of R140 applies: a loss to report, its kind enabled, and room. -/
def NoticeWriter.reportsLoss (w : NoticeWriter) : Bool := w.loss != 0 && w.enables .noticeLoss && !w.full

/-- The choice of R140, over the pending list: the notice writer afterwards and the requests of the write chosen. A
NOTICE_LOSS comes first here, also before the COMMAND_DONE of LOAD SETUP that R145 gives sequence 0, where notices were lost
between the application and the end of a write to the old ring: then NOTICE_LOSS takes sequence 0 (DESIGN CHOICE,
log 38). -/
def NoticeWriter.choose (w : NoticeWriter) : List Notice → NoticeWriter × List MemRequest
  | [] =>
    if w.reportsLoss then
      ({ w with waiting := [], write := some { carried := some w.loss, left := 2, failed := false, stale := false } },
        w.requests w.lossNotice)
    else ({ w with waiting := [] }, [])
  | n :: rest =>
    if w.reportsLoss then
      ({ w with
          waiting := n :: rest
          write := some { carried := some w.loss, left := 2, failed := false, stale := false } },
        w.requests w.lossNotice)
    else if w.full then NoticeWriter.choose { w with loss := satInc w.loss } rest
    else
      ({ w with
          waiting := n :: rest
          write := some { carried := none, left := 2, failed := false, stale := false } },
        w.requests n)

/-- The notice writer chooses its next write if it has none unended, and issues it (R140). -/
def State.chooseNotice (s : State) : State :=
  if s.notice.write.isSome then s
  else
    let (w, rs) := s.notice.choose s.notice.waiting
    { s with notice := w, port := { s.port with noticeQ := s.port.noticeQ ++ rs } }

/-- The notice writer takes a notice (R138). -/
def State.produce (s : State) (n : Notice) : State :=
  if !s.notice.enables n.kind then s
  else if s.notice.entries == 0 || Config.waitingNotices ≤ s.notice.waiting.length then
    { s with notice := { s.notice with loss := satInc s.notice.loss } }
  else ({ s with notice := { s.notice with waiting := s.notice.waiting ++ [n] } }).chooseNotice

/-- Both writes of the notice write have ended (R141, R142, R145). -/
def State.noticeWriteDone (s : State) (w : NoticeWrite) (failed : Bool) : State :=
  let s := { s with notice := { s.notice with write := none } }
  if w.stale then s.chooseNotice
  else
    let rest := if w.carried.isSome then s.notice.waiting else s.notice.waiting.tail
    let s := { s with notice := { s.notice with waiting := rest } }
    if failed then
      ({ s with notice := { s.notice with
          loss := satInc s.notice.loss
          writeErrors := satInc s.notice.writeErrors } }).chooseNotice
    else
      ({ s with notice := { s.notice with
          producer := s.notice.producer + 1
          loss := s.notice.loss - w.carried.getD 0 }.driveIntN }).chooseNotice

/-- One request of the notice write has ended (R141). -/
def State.noticeRequestEnded (s : State) (ok : Bool) : State :=
  match s.notice.write with
  | none => s
  | some w =>
    let failed := w.failed || !ok
    if w.left ≤ 1 then s.noticeWriteDone w failed
    else { s with notice := { s.notice with write := some { w with left := w.left - 1, failed := failed } } }

/-- A proposed consumer index (R143). -/
def State.consumerWrite (s : State) (value : Quad) : State :=
  let v : Half := value.setWidth 16
  let w := s.notice
  if (v - w.consumer).toNat ≤ (w.producer - w.consumer).toNat then
    if v = w.consumer then s
    else ({ s with notice := { w with consumer := v }.driveIntN }).chooseNotice
  else { s with notice := { w with badConsumer := satInc w.badConsumer } }

/-! ## Memory requests (R163, R164) -/

/-- A system-port-derived request is created. -/
def State.request (s : State) (r : MemRequest) : State :=
  { s with port := { s.port with systemQ := s.port.systemQ ++ [r] } }

/-- Several system-port-derived requests are created, in order. -/
def State.requestAll (s : State) (rs : List MemRequest) : State :=
  { s with port := { s.port with systemQ := s.port.systemQ ++ rs } }

/-- Command unit requests are created, in order. -/
def State.commandRequests (s : State) (rs : List MemRequest) : State :=
  { s with port := { s.port with commandQ := s.port.commandQ ++ rs } }

/-- The request that forwards a transaction to an address (R100, R109). -/
def forwardRequest (t : Transaction) (address : Addr) (source : Byte) (tap : Option TapRequest) : MemRequest :=
  { owner := .forward t source tap, master := masterByte t, address := address,
    write := t.direction == .write, enables := laneEnables t,
    data := match t.direction with
      | .write => maskWord (laneEnables t) t.data
      | .read => 0 }

/-- A whole-word request. -/
def wordRequest (owner : Owner) (master : Byte) (address : Addr) (write : Bool) (data : Word) : MemRequest :=
  { owner := owner, master := master, address := address, write := write, enables := 0xFF, data := data }

/-- An outcome is a memory-port failure (00 "Memory outcomes"). -/
def MemOutcome.failed : MemOutcome → Bool
  | .ok _ => false
  | .error => true
  | .timeout => true

/-- The reason of a MEMORY_ERROR notice (R153). -/
def MemOutcome.reason : MemOutcome → Byte
  | .ok _ => 0
  | .error => reasonResponseError
  | .timeout => reasonTimeout

/-- The MEMORY_ERROR notice of a failed request (R153). -/
def memoryErrorNotice (r : MemRequest) (o : MemOutcome) (source : Byte) (value16 : Half) : Notice :=
  { kind := .memoryError, source := source, reason := o.reason, master := r.master, value16 := value16,
    address := r.address, value32 := r.owner.classCode }

/-- A memory-port failure is counted (R152). -/
def State.countFailure (s : State) (o : MemOutcome) : State :=
  if o.failed then { s with port := { s.port with errors := s.port.errors + 1 } } else s

/-! ## Refusals (R101, R139) -/

/-- The ACCESS_REFUSED notice of a transaction (R101, R139). -/
def refusalNotice (t : Transaction) (source reason : Byte) : Notice :=
  { kind := .accessRefused, source := source, reason := reason, master := masterByte t,
    value16 := BitVec.ofNat 16 t.size, address := t.address, value32 := directionCode t.direction }

/-- A lane engine refuses a transaction: answered ERROR, counted by the lane, noticed (R2, R21, R139). -/
def State.laneRefuse (s : State) (n : LaneNo) (entry : Fin 23) (t : Transaction) (reason : Byte) : State :=
  ((s.answerError t).updLane n fun l => { l with refusals := satInc l.refusals }).produce
    (refusalNotice t (entryByte entry) reason)

/-! ## The held table and its wakes (5.2, 5.3) -/

/-- The held entry of a lane's line, if it has one. -/
def State.heldOf (s : State) (n : LaneNo) (line : Line) : Option HeldEntry :=
  s.hold.held.find? fun e => e.lane == n && e.line == line

/-- The held entry of a line leaves the table (R78). -/
def State.unhold (s : State) (n : LaneNo) (line : Line) : State :=
  { s with hold := { s.hold with held := s.hold.held.filter fun e => !(e.lane == n && e.line == line) } }

/-- How many ticks ago an entry was first held, modulo 2^32: the larger, the earlier its hold start. -/
def State.age (s : State) (e : HeldEntry) : Nat := (s.hold.ticks - e.start).toNat

/-- `a` ranks before `b` among pool waiters: by hold start, then by lane number (R33). -/
def State.ranksBefore (s : State) (a b : HeldEntry) : Bool :=
  s.age b < s.age a || (s.age a == s.age b && a.lane.val < b.lane.val)

/-- An entry put in its place in a sorted list. -/
def insertEntry (before : HeldEntry → HeldEntry → Bool) (e : HeldEntry) : List HeldEntry → List HeldEntry
  | [] => [e]
  | x :: xs => if before e x then e :: x :: xs else x :: insertEntry before e xs

/-- Entries sorted by `before`. -/
def sortEntries (before : HeldEntry → HeldEntry → Bool) : List HeldEntry → List HeldEntry
  | [] => []
  | x :: xs => insertEntry before x (sortEntries before xs)

/-- The pool waiters in rank order (R33). -/
def State.poolWaiters (s : State) : List HeldEntry :=
  sortEntries s.ranksBefore (s.hold.held.filter fun e => e.kind == .pool)

/-- The number of a held entry's line, for the free value of R82. -/
def HeldEntry.lineNumber (e : HeldEntry) : Nat :=
  2 * e.lane.val + (match e.line with
    | .put => 0
    | .take => 1)

/-- The order in which entries woken by one event are evaluated: by hold start, and where two share it, by a free
value (R82). -/
def State.wakesBefore (s : State) (a b : HeldEntry) : Bool :=
  s.age b < s.age a ||
    (s.age a == s.age b && Config.wakeKey s.choices a.lineNumber < Config.wakeKey s.choices b.lineNumber)

/-- The held entries that `p` picks are woken: each is evaluated in this event (R82). -/
def State.wake (s : State) (p : HeldEntry → Bool) : State :=
  let es := sortEntries s.wakesBefore (s.hold.held.filter p)
  if es.isEmpty then s
  else ({ s with choices := s.choices + 1 }).schedule (es.map fun (e : HeldEntry) => .wake e.lane e.line)

/-! ## The segment pool (spec/02) -/

/-- The free count (R31). -/
def Pool.freeCount (p : Pool) : Nat := p.freeList.length

/-- The first F pool waiters in rank order, F the free count (R33). -/
def State.firstWaiters (s : State) : List HeldEntry := s.poolWaiters.take s.pool.freeCount

/-- A push of segments wakes this entry: one of the first F pool waiters (R33), or a held capture when the free count
is greater than the number of pool waiters (R35). -/
def State.wokenByPush (s : State) (e : HeldEntry) : Bool :=
  (e.kind == .pool && s.firstWaiters.contains e)
    || (e.kind == .capture && s.poolWaiters.length < s.pool.freeCount)

/-- Segments are pushed one by one, the first of the list first, and arming follows the free count (R26, R28, R32). -/
def State.pushSegments (s : State) (segs : List Nat) : State :=
  let free := segs.reverse ++ s.pool.freeList
  { s with pool := { s.pool with
      freeList := free
      armed := s.pool.armed || (!segs.isEmpty && s.pool.watermark ≤ free.length) } }

/-- Segments return to the pool in a lane event, which wakes those the push wakes and those `also` picks (R28, R68). -/
def State.returnSegments (s : State) (segs : List Nat) (also : HeldEntry → Bool) : State :=
  let s := s.pushSegments segs
  s.wake fun e => also e || (!segs.isEmpty && s.wokenByPush e)

/-- A pool waiter has left the held table without a segment: others are woken if segments are free (R34). -/
def State.waiterLeft (s : State) : State :=
  s.wake fun e => e.kind == .pool && s.firstWaiters.contains e

/-- W of R27: the pool waiters that a claim of lane `n` counts. A put held for POOL counts those that rank before it,
every other claimant counts all. For a put held for SPACE the spec says both: R27 counts the waiters that rank before a
held put, R34 lets it claim like a put that is not a pool waiter; the model counts all (DESIGN CHOICE, log 35). -/
def State.aheadAtPool (s : State) (n : LaneNo) : Nat :=
  match s.heldOf n .put with
  | some e =>
    if e.kind == .pool then (s.poolWaiters.filter fun w => s.ranksBefore w e).length
    else s.poolWaiters.length
  | none => s.poolWaiters.length

/-- A claim of lane `n` would be granted (R27). -/
def State.claimGranted (s : State) (n : LaneNo) : Bool := s.aheadAtPool n < s.pool.freeCount

/-- The POOL_LOW notice (R32). -/
def State.poolLowNotice (s : State) (master : Byte) : Notice :=
  { kind := .poolLow, source := 0xFF, reason := 0, master := master,
    value16 := BitVec.ofNat 16 s.pool.freeCount, address := s.pool.base,
    value32 := BitVec.ofNat 32 s.pool.watermark }

/-- A granted claim takes the top segment: the pop of R26, min free (R31) and POOL_LOW (R32). -/
def State.popSegment (s : State) (master : Byte) : State :=
  let free := s.pool.freeList.tail
  let low := s.pool.watermark ≤ s.pool.freeCount && free.length < s.pool.watermark
  let s' := { s with pool := { s.pool with
      freeList := free
      minFree := min s.pool.minFree free.length
      armed := s.pool.armed && !low } }
  if low && s.pool.armed then s'.produce (s'.poolLowNotice master) else s'

/-- The segment that the next pop takes (R26). -/
def State.topSegment (s : State) : Option Nat := s.pool.freeList.head?

/-- The address of a chain position (R23). -/
def State.poolAddress (s : State) (segment offset : Nat) : Addr :=
  s.pool.base + BitVec.ofNat 32 (512 * segment + offset)

/-- The segment that follows `k` in a list of linked segments, if `k` is in it: `none` inside for END. -/
def nextIn (k : Nat) : List Nat → Option (Option Nat)
  | [] => none
  | x :: xs => if x = k then some xs.head? else nextIn k xs

/-- The link table entry of segment `k`: the list that holds it, a chain or the free list, gives its successor or END
(2.2, R37). -/
def State.linkEntry (s : State) (k : Nat) : Option (Option Nat) :=
  (s.pool.freeList :: s.lanes.toList.map Lane.chain).findSome? (nextIn k)

end Sys2Proof.Machine
end

