-- ==== Sys2Proof/Machine/LaneOps.lean ====
section
/-!
DEFINITION. What every lane operation shares: leaving a line, losses and placements of captures (R118), holding and the
end of a hold (R78 to R84), the consecutive error count (R154), entering FAULTED (R155), a parcel becoming ready (R13).
-/
namespace Sys2Proof.Machine

/-! ## In flight (3.2, R58) -/

/-- A put-line entry is in flight: it waits for a take, scans or writes (3.2). -/
def PutEntry.inFlight (e : PutEntry) : Bool := e.stage != .waiting

/-- A put-line entry is not in flight: it waits in its line, held or not. A change of the lane's state answers it (R86). -/
def PutEntry.notInFlight (e : PutEntry) : Bool := !e.inFlight

/-- A take-line entry is in flight (R58). -/
def TakeEntry.inFlight (e : TakeEntry) : Bool := e.stage != .waiting

/-- A put operation of the lane is in flight. -/
def Lane.putInFlight (l : Lane) : Bool := l.putLine.any PutEntry.inFlight

/-- A take operation of the lane is in flight. -/
def Lane.takeInFlight (l : Lane) : Bool := l.takeLine.any TakeEntry.inFlight

/-- Nothing of the lane is in flight: neither line, nor a cut header write (R7, R135). -/
def Lane.idle (l : Lane) : Bool := !l.putInFlight && !l.takeInFlight && !l.cutting

/-- A put of the lane is scanning, which pauses the take line (R49). -/
def Lane.scanning (l : Lane) : Bool :=
  l.putLine.any fun e => match e.stage with
    | .scanning _ => true
    | _ => false

/-- Room or none: PARCEL_READY arming after the ready count fell (R56). -/
def Lane.rearm (l : Lane) : Lane := { l with armed := l.armed || decide (l.ready < l.desc.readyThreshold) }

/-- The header slot address of a lane's open parcel. -/
def State.openSlot (s : State) (n : LaneNo) : Addr :=
  match (s.lane n).openParcel with
  | some p => s.poolAddress p.segment p.offset
  | none => 0

/-! ## Captures settled (R115, R118) -/

/-- The TAP_LOSS notice (R118). -/
def tapLossNotice (e : PutEntry) (n : LaneNo) (reason : Byte) (value32 : Quad) : Notice :=
  { kind := .tapLoss, source := entryByte e.entry, reason := reason, master := masterByte e.tx,
    value16 := BitVec.ofNat 16 n.val, address := e.tx.address, value32 := value32 }

/-- A loss is counted and applied to the loss-run state of the entry the capture carries (R118). -/
def State.captureLost (s : State) (n : LaneNo) (e : PutEntry) : State :=
  let run := s.dec.runs[e.entry.val]
  let s := { s with dec := { s.dec with
      tapLost := s.dec.tapLost + 1
      runs := s.dec.runs.set e.entry.val
        (if run.running then { run with count := run.count + 1 } else { running := true, count := 1 }) } }
  if run.running then s else s.produce (tapLossNotice e n reasonRunStart 1)

/-- A placement is applied to the loss-run state of the entry the capture carries (R118). -/
def State.capturePlaced (s : State) (n : LaneNo) (e : PutEntry) : State :=
  let run := s.dec.runs[e.entry.val]
  if run.running then
    ({ s with dec := { s.dec with runs := s.dec.runs.set e.entry.val .clear } }).produce
      (tapLossNotice e n reasonRunEnd run.count)
  else s

/-- A capture is lost and its access answered with its own memory outcome (R115, R118). -/
def State.discardCapture (s : State) (n : LaneNo) (e : PutEntry) (o : MemOutcome) : State :=
  (s.captureLost n e).answerOutcome e.tx o

/-- A put-line entry is answered by a change of its lane's state: a put ERROR, a capture discarded (R86, R117). -/
def State.answerByChange (s : State) (n : LaneNo) (e : PutEntry) : State :=
  match e.kind with
  | .capture _ o => s.discardCapture n e o
  | .body => s.answerError e.tx
  | .final _ => s.answerError e.tx

/-! ## Leaving a line (R55, R58) -/

/-- A held entry that leaves the table without going on, which may wake pool waiters (R34). -/
def State.dropHeld (s : State) (n : LaneNo) (line : Line) : State :=
  match s.heldOf n line with
  | none => s
  | some e => if e.kind == .pool then (s.unhold n line).waiterLeft else s.unhold n line

/-- The first entry of the put line leaves it; the lane's tests are made and the next entry is evaluated (R55). -/
def State.leavePutLine (s : State) (n : LaneNo) : State :=
  ((s.dropHeld n .put).updLane n fun l => { l with putLine := l.putLine.tail }).schedule
    [.laneTests n, .evalPut n]

/-- The first entry of the put line, a put that waited for a take or scanned, leaves it with its answer: the take line
goes on before the next put is evaluated, which might scan in its turn (R49, R55, R58). -/
def State.leaveScan (s : State) (n : LaneNo) : State :=
  ((s.dropHeld n .put).updLane n fun l => { l with putLine := l.putLine.tail }).schedule
    [.laneTests n, .evalTake n, .evalPut n]

/-- The first entry of the take line leaves it. The lane's tests come first (R74), then a put that waited for the take
(R49), then the next take (R58). -/
def State.leaveTakeLine (s : State) (n : LaneNo) : State :=
  ((s.dropHeld n .take).updLane n fun l => { l with takeLine := l.takeLine.tail }).schedule
    [.laneTests n, .waitEnd n, .evalTake n]

/-- Put-line entries that have left the line are answered by a change of the lane's state, in line order (R86). -/
def State.answerGonePuts (s : State) (n : LaneNo) (es : List PutEntry) : State :=
  (es.foldl (fun s e => s.answerByChange n e) s).dropHeld n .put

/-- Take-line entries that have left the line are answered ERROR by a change of the lane's state (R86). -/
def State.answerGoneTakes (s : State) (n : LaneNo) (es : List TakeEntry) : State :=
  (es.foldl (fun s e => s.answerError e.tx) s).dropHeld n .take

/-- A change of the lane's state (R86): `change` is made, the put-line entries that `gone` picks leave the line and are
answered. -/
def State.changePuts (s : State) (n : LaneNo) (change : Lane → Lane) (gone : PutEntry → Bool) : State :=
  let l := s.lane n
  (s.setLane n { change l with putLine := l.putLine.filter fun e => !gone e }).answerGonePuts n (l.putLine.filter gone)

/-- A change of the lane's state (R86): `change` is made, the take-line entries that are not in flight leave the line
and are answered. -/
def State.changeTakes (s : State) (n : LaneNo) (change : Lane → Lane) : State :=
  let l := s.lane n
  (s.setLane n { change l with takeLine := l.takeLine.filter TakeEntry.inFlight }).answerGoneTakes n
    (l.takeLine.filter fun e => !e.inFlight)

/-- A change of the lane's state (R86): `change` is made, the put-line entries that `gone` picks and the take-line
entries that are not in flight leave their lines and are answered. -/
def State.changeBoth (s : State) (n : LaneNo) (change : Lane → Lane) (gone : PutEntry → Bool) : State :=
  let l := s.lane n
  ((s.setLane n
      { change l with
        putLine := l.putLine.filter fun e => !gone e
        takeLine := l.takeLine.filter TakeEntry.inFlight }).answerGonePuts n (l.putLine.filter gone)).answerGoneTakes n
    (l.takeLine.filter fun e => !e.inFlight)

/-! ## Holding (R78 to R84) -/

/-- The HOLD_EXPIRED notice (R84). -/
def holdExpiredNotice (n : LaneNo) (t : Transaction) (reason : Byte) (value16 : Half) (value32 : Quad) : Notice :=
  { kind := .holdExpired, source := laneByte n, reason := reason, master := masterByte t, value16 := value16,
    address := t.address, value32 := value32 }

/-- A put, data read or head info read ended by expiry or TABLE_FULL: answered ERROR, counted, noticed (R80, R84). -/
def State.expire (s : State) (n : LaneNo) (t : Transaction) (reason : Byte) (value16 : Half) (value32 : Quad) :
    State :=
  ((s.answerError t).updLane n fun l => { l with expiries := satInc l.expiries }).produce
    (holdExpiredNotice n t reason value16 value32)

/-- The first entry of the put line is ended as on expiry (R80, R84, R116). -/
def State.expirePut (s : State) (n : LaneNo) (e : PutEntry) (reason : Byte) (value16 : Half) (value32 : Quad) :
    State :=
  let s := match e.kind with
    | .capture _ o => s.discardCapture n e o
    | .body => s.expire n e.tx reason value16 value32
    | .final _ => s.expire n e.tx reason value16 value32
  s.leavePutLine n

/-- The first entry of the take line is ended as on expiry (R80, R84). -/
def State.expireTake (s : State) (n : LaneNo) (e : TakeEntry) (reason : Byte) (value16 : Half) (value32 : Quad) :
    State :=
  (s.expire n e.tx reason value16 value32).leaveTakeLine n

/-- An entry is recorded in the held table (R78, R79). -/
def State.recordHeld (s : State) (n : LaneNo) (line : Line) (tag : Tag) (kind : WaitKind) : State :=
  let held := s.hold.held ++
    [{ tag := tag, lane := n, line := line, kind := kind, start := s.hold.ticks,
       deadline := s.hold.ticks + (s.lane n).desc.holdLimit.zeroExtend 32, due := false }]
  { s with hold := { s.hold with held := held, highWater := max s.hold.highWater held.length } }

/-- The wait kind of a line's held entry is changed in place (R45, R82). -/
def State.setWaitKind (s : State) (n : LaneNo) (line : Line) (kind : WaitKind) : State :=
  { s with hold := { s.hold with
      held := s.hold.held.map fun e => if e.lane == n && e.line == line then { e with kind := kind } else e } }

/-- The first entry of the put line must wait: it keeps its entry, is recorded, or is ended with TABLE_FULL (R78, R80,
R82). A pool waiter that TABLE_FULL ends is one that leaves without a segment (R34). -/
def State.holdPut (s : State) (n : LaneNo) (e : PutEntry) (kind : WaitKind) : State :=
  if (s.heldOf n .put).isSome then s.setWaitKind n .put kind
  else if s.hold.held.length < Config.heldEntries then s.recordHeld n .put e.tx.tag kind
  else
    let s := s.expirePut n e reasonTableFull 0 s.hold.ticks
    if kind == .pool then s.waiterLeft else s

/-- The first entry of the take line must wait (R71, R78, R80, R82). -/
def State.holdTake (s : State) (n : LaneNo) (e : TakeEntry) : State :=
  if (s.heldOf n .take).isSome then s
  else if s.hold.held.length < Config.heldEntries then s.recordHeld n .take e.tx.tag .parcel
  else s.expireTake n e reasonTableFull 0 s.hold.ticks

/-! ## Faults and the consecutive error count (R154, R155) -/

/-- The LANE_FAULTED notice (R155). -/
def laneFaultedNotice (n : LaneNo) (cause : FaultCause) (r : MemRequest) (errors : Nat) : Notice :=
  { kind := .laneFaulted, source := laneByte n, reason := cause.code, master := r.master,
    value16 := BitVec.ofNat 16 errors, address := r.address, value32 := r.owner.classCode }

/-- The lane can still enter FAULTED: OPEN or DRAINING (R155). -/
def Lane.serving (l : Lane) : Bool := l.state == .opened || l.state == .draining

/-- A lane in OPEN or DRAINING enters FAULTED because of request `r` (R6, R155): the notice, then the state change. -/
def State.faultLane (s : State) (n : LaneNo) (cause : FaultCause) (r : MemRequest) : State :=
  if (s.lane n).serving then
    ((s.produce (laneFaultedNotice n cause r (s.lane n).errors)).changeBoth n
      (fun l => { l with state := .faulted, cause := cause }) PutEntry.notInFlight).schedule [.laneTests n]
  else s

/-- A request of the lane ended in success: the count returns to 0, unless the lane is FAULTED (R154). -/
def State.laneSuccess (s : State) (n : LaneNo) : State :=
  s.updLane n fun l => if l.serving then { l with errors := 0 } else l

/-- A request of the lane ended in failure (R154, R155): the count rises unless the lane is FAULTED, the MEMORY_ERROR
notice follows, and the lane is FAULTED by a header write, or when the count reaches the threshold. -/
def State.laneFailure (s : State) (n : LaneNo) (r : MemRequest) (o : MemOutcome) : State :=
  let serving := (s.lane n).serving
  let s := s.updLane n fun l => if serving then { l with errors := l.errors + 1 } else l
  let errors := (s.lane n).errors
  let s := s.produce (memoryErrorNotice r o (laneByte n) (BitVec.ofNat 16 errors))
  if !serving then s
  else if r.owner == .headerWrite n then s.faultLane n .headerWrite r
  else if errors == (s.lane n).desc.faultThreshold then s.faultLane n .memoryErrors r
  else s

/-- A request of the lane ended: one of the two (R154). -/
def State.laneEnded (s : State) (n : LaneNo) (r : MemRequest) (o : MemOutcome) : State :=
  if o.failed then s.laneFailure n r o else s.laneSuccess n

/-! ## A parcel becomes ready (R13, R56, R71) -/

/-- The PARCEL_READY notice (R56). -/
def parcelReadyNotice (n : LaneNo) (master : Byte) (ready : Nat) (sequence : Half) (slot : Addr) : Notice :=
  { kind := .parcelReady, source := laneByte n, reason := 0, master := master, value16 := BitVec.ofNat 16 ready,
    address := slot, value32 := sequence.zeroExtend 32 }

/-- The lane after its open parcel has become ready, and whether PARCEL_READY is due (R13, R56). -/
def Lane.makeReady (l : Lane) : Lane × Bool :=
  let ready := l.ready + 1
  let notify := l.armed && ready == l.desc.readyThreshold
  ({ l with openParcel := none, ready := ready, closed := l.closed + 1, armed := l.armed && !notify }, notify)

/-- The header write of the open parcel is acknowledged: the parcel is ready, PARCEL_READY is decided, and a held take
of the lane is woken (R13, R56, R71). -/
def State.parcelReady (s : State) (n : LaneNo) (master : Byte) : State :=
  match (s.lane n).openParcel with
  | none => s
  | some p =>
    let r := (s.lane n).makeReady
    let slot := s.openSlot n
    let s := s.setLane n r.1
    let s := if r.2 then s.produce (parcelReadyNotice n master r.1.ready p.sequence slot) else s
    s.wake fun e => e.lane == n && e.line == .take

/-! ## The chain (1.3, R10, R67) -/

/-- The chain position of the tail, counted in bytes from the start of the head segment. -/
def Lane.tailPosition (l : Lane) : Nat := (l.chain.length - 1) * 512 + l.tailOffset

/-- The segment that the put side writes at a chain position: the tail segment or the one linked for the put, for it
writes from the tail on, and the space check has seen to the room (R10). -/
def placeAt (chain : List Nat) (pos : Nat) : Nat := chain.getD (pos / 512) 0

/-- The segment that holds a chain position to be read; a stored length that leads past the chain's end does not lead out
of the chain: such a position is read in the tail segment (R38, log 15). -/
def segmentAt (chain : List Nat) (pos : Nat) : Nat := chain.getD (min (pos / 512) (chain.length - 1)) 0

/-- The memory address of a chain position of a lane that is read (R23, R38). -/
def State.chainAddress (s : State) (n : LaneNo) (pos : Nat) : Addr :=
  s.poolAddress (segmentAt (s.lane n).chain pos) (pos % 512)

/-- The chain position of the open parcel's header slot. -/
def Lane.openPosition (l : Lane) (p : OpenParcel) : Nat := l.chain.findIdx (· == p.segment) * 512 + p.offset

/-- The last place in the chain that the head can move to: the segment of the open parcel's header slot, which is still
to be written, or the tail segment (R38, log 15). -/
def Lane.headLimit (l : Lane) : Nat :=
  match l.openParcel with
  | some p => min (l.chain.findIdx (· == p.segment)) (l.chain.length - 1)
  | none => l.chain.length - 1

/-- The head moves to chain position `pos`: the segments before the one that holds it are removed, and it never moves
past the open parcel's segment or the tail segment (R67, log 15). Answers the lane and the segments removed, in chain
order. -/
def Lane.moveHead (l : Lane) (pos : Nat) : Lane × List Nat :=
  let k := min (pos / 512) l.headLimit
  ({ l with chain := l.chain.drop k, headOffset := pos % 512 }, l.chain.take k)

/-- The head parcel leaves the lane by release or eviction: the head moves to the next parcel, the ready count and the
take sequence move, the head cache becomes absent, and the segments behind the new head are removed from the chain
(R48, R67). A lane without a ready parcel has no head parcel. -/
def Lane.dropHead (l : Lane) (length : Nat) : Lane × List Nat :=
  let l' := ({ l with ready := l.ready - 1, takeSeq := l.takeSeq + 1, cache := none }).rearm
  match l.ready, l.openParcel with
  | 0, _ => (l, [])
  | 1, none => ({ l' with chain := [], headOffset := 0, tailOffset := 0 }, l.chain)
  | 1, some p => l'.moveHead (l.openPosition p)
  | _ + 2, _ => l'.moveHead (l.headOffset + 8 + roundUp8 length)

/-- The memory address of a chain position that the put side writes (R23). -/
def State.placeAddress (s : State) (n : LaneNo) (pos : Nat) : Addr :=
  s.poolAddress (placeAt (s.lane n).chain pos) (pos % 512)

/-- The requests that write `bs` from a chain position on, one for each word touched (R51). -/
def State.chainWrites (s : State) (n : LaneNo) (owner : Owner) (master : Byte) (pos : Nat) (bs : List Byte) :
    List MemRequest :=
  (wordPieces pos bs).map fun (p, piece) =>
    { owner := owner, master := master, address := s.placeAddress n p, write := true,
      enables := laneMask (p % 8) piece.length, data := placeBytes (p % 8) piece }

/-- The requests that read `count` bytes from a chain position on, one for each word touched (R62). -/
def State.chainReads (s : State) (n : LaneNo) (owner : Owner) (master : Byte) (pos count : Nat) :
    List MemRequest :=
  (wordPieces pos (List.replicate count 0)).map fun (p, piece) =>
    { owner := owner, master := master, address := s.chainAddress n p, write := false,
      enables := laneMask (p % 8) piece.length, data := 0 }

/-- The open parcel closes: the tail is rounded up to a multiple of 8 and the header write is issued (R13). -/
def State.closeParcel (s : State) (n : LaneNo) (tag flags master : Byte) : State :=
  match (s.lane n).openParcel with
  | none => s
  | some p =>
    let h := closingHeader (BitVec.ofNat 16 p.length) p.sequence tag (p.flags ||| flags)
    (s.updLane n fun l => { l with tailOffset := roundUp8 l.tailOffset }).request
      (wordRequest (.headerWrite n) master (s.poolAddress p.segment p.offset) true h.word)

/-- The stage of the first put-line entry. -/
def State.setPutStage (s : State) (n : LaneNo) (stage : PutStage) : State :=
  s.updLane n fun l => match l.putLine with
    | [] => l
    | e :: rest => { l with putLine := { e with stage := stage } :: rest }

/-- The stage of the first take-line entry. -/
def State.setTakeStage (s : State) (n : LaneNo) (stage : TakeStage) : State :=
  s.updLane n fun l => match l.takeLine with
    | [] => l
    | e :: rest => { l with takeLine := { e with stage := stage } :: rest }

end Sys2Proof.Machine
end

