-- ==== Sys2Proof/Machine/Puts.lean ====
section
/-!
DEFINITION. The put side of a lane engine (spec/03, spec/07): arrival, evaluation, full actions, eviction, start, body
and header writes, captures.
-/
namespace Sys2Proof.Machine

/-! ## Clipping and the space check (R42, R43) -/

/-- The bytes of a put that are kept after clipping (R42). -/
def Lane.keptBytes (l : Lane) (t : Transaction) : List Byte :=
  (writeBytes t).take (l.desc.maxLength - l.openLength)

/-- The chain bytes a put needs: 8 for the header slot if it opens a parcel, and the bytes kept (R43). -/
def Lane.putNeed (l : Lane) (t : Transaction) : Nat :=
  (if l.openParcel.isNone then 8 else 0) + (l.keptBytes t).length

/-- The chain bytes of a capture (R111). -/
def captureNeed : Nat := 24

/-- The outcome of the space check (R44): the lane is full with a wait kind, or the operation starts, with or without a
segment claimed. -/
inductive SpaceCheck where
  | full (kind : WaitKind)
  | starts (claims : Bool)
  deriving DecidableEq, Repr

/-- The lane-full conditions in their order (R44, R112). -/
def State.spaceCheck (s : State) (n : LaneNo) (opens : Bool) (need : Nat) : SpaceCheck :=
  let l := s.lane n
  if opens && Config.parcelLimit ≤ l.ready then .full .space
  else if need ≤ l.room then .starts false
  else if l.desc.quota ≤ l.chain.length then .full .space
  else if s.claimGranted n then .starts true
  else .full .pool

/-! ## Answers of a put -/

/-- The first put is answered by its writes and leaves the line (R52, R53). -/
def State.answerPut (s : State) (n : LaneNo) (e : PutEntry) (ok : Bool) : State :=
  (if ok then s.answerOk e.tx 0 else s.answerError e.tx).leavePutLine n

/-- The first put has been answered at its evaluation or at the end of its wait or scan, and leaves the line. -/
def State.leavePut (s : State) (n : LaneNo) (e : PutEntry) : State :=
  if e.stage == .waiting then s.leavePutLine n else s.leaveScan n

/-- The first put is refused LANE_FULL and leaves the line (R46). -/
def State.refusePut (s : State) (n : LaneNo) (e : PutEntry) : State :=
  (s.laneRefuse n e.entry e.tx reasonLaneFull).leavePut n e

/-- The first put, which has issued no write, is answered ERROR on a lane that is FAULTED, as the line entries are that
R6 answers: no refusal, no count, no notice, nothing evicted (R49, R50, R54). -/
def State.faultPut (s : State) (n : LaneNo) (e : PutEntry) : State := (s.answerError e.tx).leavePut n e

/-- A final put closes its parcel (R53). -/
def State.closePut (s : State) (n : LaneNo) (e : PutEntry) (tag : Byte) (failed : Bool) : State :=
  (s.closeParcel n tag 0 (masterByte e.tx)).setPutStage n (.writingHeader failed)

/-! ## The start of a put (R51) -/

/-- The lane after the new segment, if any, is linked, the header slot reserved if the put opens a parcel, and the
kept bytes placed (R10, R11, R12, R51). -/
def Lane.placePut (l : Lane) (t : Transaction) (segment : Option Nat) : Lane :=
  let kept := l.keptBytes t
  let clip : Byte := if kept.length < (writeBytes t).length then flagClipped else 0
  let start := l.tailPosition
  let chain := l.chain ++ segment.toList
  let tail := start + l.putNeed t
  { l with
    chain := chain
    tailOffset := tail - (chain.length - 1) * 512
    openParcel := some (match l.openParcel with
      | some p => { p with length := p.length + kept.length, flags := p.flags ||| clip }
      | none =>
        { segment := placeAt chain start, offset := start % 512, length := kept.length, flags := clip,
          sequence := l.putSeq })
    putSeq := if l.openParcel.isNone then l.putSeq + 1 else l.putSeq }

/-- A put starts (R51), with the segment that the claim or the hand-over gives. -/
def State.startPut (s : State) (n : LaneNo) (e : PutEntry) (segment : Option Nat) : State :=
  let s := s.unhold n .put
  let l := s.lane n
  let kept := l.keptBytes e.tx
  let bodyAt := l.tailPosition + (if l.openParcel.isNone then 8 else 0)
  let s := s.setLane n (l.placePut e.tx segment)
  let writes := s.chainWrites n (.bodyWrite n) (masterByte e.tx) bodyAt kept
  if writes.isEmpty then
    match e.kind with
    | .final tag => s.closePut n e tag false
    | .body => s.answerPut n e true
    | .capture _ _ => s
  else (s.setPutStage n (.writingBody writes.length false)).requestAll writes

/-- The claim that the space check found granted: the top segment is popped (R27). Answers it and the state. -/
def State.claim (s : State) (claims : Bool) (master : Byte) : Option Nat × State :=
  if claims then (s.topSegment, s.popSegment master) else (none, s)

/-! ## Eviction (R47 to R50, R29, R30) -/

/-- One ready parcel is evicted from the head (R48). -/
def evictOne (acc : Lane × List Nat) (h : Scanned) : Lane × List Nat :=
  let r := acc.1.dropHead h.header.length.toNat
  ({ r.1 with evicted := satInc r.1.evicted, gap := true }, acc.2 ++ r.2)

/-- The scanned parcels are evicted, oldest first: the lane, and the segments freed in chain order (R48). -/
def Lane.evictAll (l : Lane) (list : List Scanned) : Lane × List Nat := list.foldl evictOne (l, [])

/-- The PARCEL_EVICTED notice (R48). -/
def State.evictedNotice (s : State) (n : LaneNo) (master : Byte) (h : Scanned) : Notice :=
  { kind := .parcelEvicted, source := laneByte n, reason := 0, master := master, value16 := h.header.sequence,
    address := s.poolAddress h.segment h.offset,
    value32 := (0 : Byte) ++ h.header.flags ++ h.header.length }

/-- After evicting `list` the put fits, with the freed segments available through the hand-over (R50). -/
def State.evictionFits (s : State) (n : LaneNo) (e : PutEntry) (list : List Scanned) : Bool :=
  let r := (s.lane n).evictAll list
  !(r.1.openParcel.isNone && Config.parcelLimit ≤ r.1.ready) &&
    (r.1.putNeed e.tx ≤ r.1.room || !r.2.isEmpty ||
      (r.1.chain.length < r.1.desc.quota && s.claimGranted n))

/-- The start event of an evicting put (R29, R30, R47): the scanned parcels are evicted; the put takes the first freed
segment if it needs one, the rest are pushed; or it is refused when it still does not fit. Then the take line goes on
(R49). -/
def State.evictStart (s : State) (n : LaneNo) (e : PutEntry) (list : List Scanned) : State :=
  let fits := s.evictionFits n e list
  let r := (s.lane n).evictAll list
  let master := masterByte e.tx
  let s := list.foldl (fun s h => s.produce (s.evictedNotice n master h)) (s.setLane n r.1)
  if !fits then (s.refusePut n e).returnSegments r.2 fun _ => false
  else
    let s :=
      if r.1.putNeed e.tx ≤ r.1.room then (s.startPut n e none).returnSegments r.2 fun _ => false
      else match r.2 with
        | f :: surplus => (s.startPut n e (some f)).returnSegments surplus fun _ => false
        | [] =>
          let c := s.claim true master
          c.2.startPut n e c.1
    s.schedule [.evalTake n]

/-- The chain position of the header slot after the scanned parcels (R48, R50). -/
def Lane.scanPosition (l : Lane) (list : List Scanned) : Nat :=
  list.foldl (fun p h => p + 8 + roundUp8 h.header.length.toNat) l.headOffset

/-- The scan goes on: it ends in the start event when the put would fit or every ready parcel is listed, else the next
header slot is read (R50). -/
def State.scanStep (s : State) (n : LaneNo) (e : PutEntry) (list : List Scanned) : State :=
  let l := s.lane n
  if !list.isEmpty && (s.evictionFits n e list || l.ready ≤ list.length) then s.evictStart n e list
  else
    (s.setPutStage n (.scanning list)).request
      (wordRequest (.scanRead n) (masterByte e.tx) (s.chainAddress n (l.scanPosition list)) false 0)

/-- The scan list as it starts: the head parcel from the head cache, if present (R50). -/
def Lane.scanStart (l : Lane) : List Scanned :=
  match l.cache with
  | some c => [{ segment := segmentAt l.chain l.headOffset, offset := l.headOffset % 512, header := c.header }]
  | none => []

/-- The full action EVICT (R47). -/
def State.evictPut (s : State) (n : LaneNo) (e : PutEntry) : State :=
  let l := s.lane n
  if l.ready = 0 then s.refusePut n e
  else if l.takeInFlight then s.setPutStage n .waitTake
  else s.scanStep n e l.scanStart

/-! ## Evaluation of a put (R41) -/

/-- The full action of the lane applies (R45, R46, R47). A full action of 0 belongs to a lane that was never opened,
which evaluates no put. -/
def State.fullPut (s : State) (n : LaneNo) (e : PutEntry) (kind : WaitKind) : State :=
  match (s.lane n).desc.fullAction with
  | .hold => s.holdPut n e kind
  | .refuse => s.refusePut n e
  | .unset => s.refusePut n e
  | .evict => s.evictPut n e

/-- A body or final put is evaluated from the start (R41). A put that keeps no byte starts at once (R42). -/
def State.evaluatePut (s : State) (n : LaneNo) (e : PutEntry) : State :=
  let l := s.lane n
  if l.openParcel.isSome && (l.keptBytes e.tx).isEmpty then s.startPut n e none
  else match s.spaceCheck n l.openParcel.isNone (l.putNeed e.tx) with
    | .full kind => s.fullPut n e kind
    | .starts claims =>
      let c := s.claim claims (masterByte e.tx)
      c.2.startPut n e c.1

/-! ## Captures (R112 to R114) -/

/-- The lane after a capture has opened its parcel and taken its 24 bytes (R113). -/
def Lane.placeCapture (l : Lane) (segment : Option Nat) : Lane :=
  let start := l.tailPosition
  let chain := l.chain ++ segment.toList
  { l with
    chain := chain
    tailOffset := start + captureNeed - (chain.length - 1) * 512
    openParcel := some
      { segment := placeAt chain start, offset := start % 512, length := 16, flags := flagCapture,
        sequence := l.putSeq }
    putSeq := l.putSeq + 1 }

/-- A capture starts: its parcel opens and its two body words are issued (R113). -/
def State.startCapture (s : State) (n : LaneNo) (e : PutEntry) (o : MemOutcome) (segment : Option Nat) : State :=
  let s := s.unhold n .put
  let start := (s.lane n).tailPosition
  let s := s.updLane n fun l => l.placeCapture segment
  let s := s.updLane n fun l => match l.putLine with
    | [] => l
    | e :: rest => { l with putLine := { e with stage := .writingBody 2 false, linked := segment.isSome } :: rest }
  let write (pos : Nat) (w : Word) : MemRequest :=
    wordRequest (.captureWrite n) (masterByte e.tx) (s.placeAddress n pos) true w
  s.requestAll [write (start + 8) (captureWord0 e.tx o), write (start + 16) (captureWord1 e.tx o e.entry)]

/-- The first capture is given up: lost, its access answered, and it leaves the line (R112, R115). -/
def State.dropCapture (s : State) (n : LaneNo) (e : PutEntry) (o : MemOutcome) : State :=
  (s.discardCapture n e o).leavePutLine n

/-- A capture that finds the lane full (R112, R116): dropped with HOLD clear, held with HOLD set; a hold limit of 0
ends it at once (R79). -/
def State.fullCapture (s : State) (n : LaneNo) (e : PutEntry) (hold : Bool) (o : MemOutcome) : State :=
  if !hold then s.dropCapture n e o
  else if (s.heldOf n .put).isNone && (s.lane n).desc.holdLimit == 0 then s.dropCapture n e o
  else s.holdPut n e .capture

/-- A capture is evaluated (R112): discarded beside an open parcel, started, or full. -/
def State.evaluateCapture (s : State) (n : LaneNo) (e : PutEntry) (hold : Bool) (o : MemOutcome) : State :=
  if (s.lane n).openParcel.isSome then s.dropCapture n e o
  else match s.spaceCheck n true captureNeed with
    | .full _ => s.fullCapture n e hold o
    | .starts claims =>
      let c := s.claim claims (masterByte e.tx)
      c.2.startCapture n e o c.1

/-- The lane after a failed capture is withdrawn, and the segments it gives back (R13). A lane with a ready parcel never
gives back its last segment (log 15). -/
def Lane.withdraw (l : Lane) (linked : Bool) : Lane × List Nat :=
  match l.openParcel with
  | none => (l, [])
  | some p =>
    let l' := { l with openParcel := none, putSeq := l.putSeq - 1 }
    if l.ready = 0 then ({ l' with chain := [], headOffset := 0, tailOffset := 0 }, l.chain)
    else if linked && 1 < l.chain.length then
      let last := l.chain.drop (l.chain.length - 1)
      ({ l' with
          chain := l.chain.take (l.chain.length - 1)
          tailOffset := if last == [p.segment] then 512 else p.offset }, last)
    else ({ l' with tailOffset := p.offset }, [])

/-- A capture is withdrawn and settled as lost (R114). Its segments are pushed in this event even where a take read that a
forged length led into the linked segment is created and not yet issued: R13 and R28 are followed there, not R38
(DESIGN CHOICE, log 15). -/
def State.withdrawCapture (s : State) (n : LaneNo) (e : PutEntry) (o : MemOutcome) : State :=
  let r := (s.lane n).withdraw e.linked
  (((s.setLane n r.1).returnSegments r.2 fun _ => false).discardCapture n e o).leavePutLine n

/-! ## The first entry of the put line is evaluated -/

/-- The first put-line entry is evaluated when it is waiting or held (R41, R112), or when it waited for a take that is
no longer in flight: it is then evaluated again, unless the lane has become FAULTED (R49). -/
def State.evalPut (s : State) (n : LaneNo) : State :=
  let l := s.lane n
  match l.putLine with
  | [] => s
  | e :: _ =>
    if e.stage == .waiting || (e.stage == .waitTake && !l.takeInFlight) then
      if e.stage == .waitTake && l.state == .faulted then s.faultPut n e
      else match e.kind with
        | .capture hold o => s.evaluateCapture n e hold o
        | .body => s.evaluatePut n e
        | .final _ => s.evaluatePut n e
    else s

/-- A put or a capture joins the put line, and is evaluated if it is first (R22, R41). -/
def State.joinPutLine (s : State) (n : LaneNo) (e : PutEntry) : State :=
  let first := (s.lane n).putLine.isEmpty
  let s := s.updLane n fun l => { l with putLine := l.putLine ++ [e] }
  if first then s.schedule [.evalPut n] else s

/-- Why a lane engine refuses a put or a take that arrives (R2). -/
def Lane.refusal (l : Lane) (isPut : Bool) : Option Byte :=
  if l.busy ≠ .clear then some reasonLaneBusy
  else match l.state with
    | .opened => none
    | .draining => if isPut then some reasonLaneNotOpen else none
    | .closed => some reasonLaneNotOpen
    | .faulted => some reasonLaneFaulted

/-- The tag of a final put (R39). -/
def finalTag (t : Transaction) : Byte := BitVec.ofNat 8 ((t.address.toNat % 4096 - 0x800) / 8)

/-- A write in a PUT aperture arrives at the lane engine (R39). -/
def State.arrivePut (s : State) (n : LaneNo) (entry : Fin 23) (t : Transaction) : State :=
  match (s.lane n).refusal true with
  | some reason => s.laneRefuse n entry t reason
  | none =>
    let kind : PutKind := if t.address.toNat % 4096 < 0x800 then .body else .final (finalTag t)
    s.joinPutLine n { tx := t, entry := entry, kind := kind, stage := .waiting, linked := false }

/-- A read in a PUT aperture is answered at once with bytes of the put status word (R40). -/
def State.putStatus (s : State) (n : LaneNo) (t : Transaction) : State :=
  s.answerOk t (putStatusWord (s.lane n) s.pool.freeCount)

/-- A capture arrives at the lane engine when its forwarded request ends (R110). -/
def State.arriveCapture (s : State) (q : TapRequest) (t : Transaction) (o : MemOutcome) : State :=
  let e : PutEntry := { tx := t, entry := q.entry, kind := .capture q.hold o, stage := .waiting, linked := false }
  let l := s.lane q.lane
  if l.state = .opened ∧ l.busy = .clear then s.joinPutLine q.lane e else s.discardCapture q.lane e o

/-! ## Ends of the put side's memory requests -/

/-- DAMAGED is added to the flags of the open parcel (R52). -/
def Lane.damage (l : Lane) : Lane :=
  { l with openParcel := l.openParcel.map fun p => { p with flags := p.flags ||| flagDamaged } }

/-- All body writes of the first put are answered (R52, R53, R54). -/
def State.bodyDone (s : State) (n : LaneNo) (e : PutEntry) (failed : Bool) : State :=
  match e.kind with
  | .final tag =>
    if (s.lane n).state = .faulted then s.answerPut n e false else s.closePut n e tag failed
  | .body => s.answerPut n e (!failed)
  | .capture _ _ => s

/-- A body write of lane `n` ended (R52). -/
def State.bodyWriteEnded (s : State) (n : LaneNo) (r : MemRequest) (o : MemOutcome) : State :=
  let s := s.laneEnded n r o
  let s := if o.failed then s.updLane n Lane.damage else s
  match (s.lane n).putLine with
  | e :: _ =>
    match e.stage with
    | .writingBody left failed =>
      let failed := failed || o.failed
      if left ≤ 1 then s.bodyDone n e failed else s.setPutStage n (.writingBody (left - 1) failed)
    | _ => s
  | [] => s

/-- A capture body write of lane `n` ended (R114): the header write follows two successes on a lane that is not
FAULTED; otherwise the capture is withdrawn when its last write has ended (R114, R117). A failure that faults the lane
loses the captures that wait behind it first, then this one (DESIGN CHOICE, log 36). -/
def State.captureWriteEnded (s : State) (n : LaneNo) (r : MemRequest) (o : MemOutcome) : State :=
  let s := s.laneEnded n r o
  match (s.lane n).putLine with
  | e :: _ =>
    match e.stage, e.kind with
    | .writingBody left failed, .capture _ outcome =>
      let failed := failed || o.failed
      if 1 < left then s.setPutStage n (.writingBody (left - 1) failed)
      else if failed || (s.lane n).state = .faulted then s.withdrawCapture n e outcome
      else (s.closeParcel n (entryByte e.entry) 0 (masterByte e.tx)).setPutStage n (.writingHeader false)
    | _, _ => s
  | [] => s

/-- The cut header write of CLOSE LANE ended (R4, R135). -/
def State.cutEnded (s : State) (n : LaneNo) (o : MemOutcome) : State :=
  let s := s.updLane n fun l => { l with cutting := false }
  (if o.failed then s else s.parcelReady n 0xFF).schedule [.laneTests n]

/-- A closing header write of lane `n` ended, of a cut, a final put or a capture (R13, R53, R114). A failure, which faults
the lane, loses the captures that wait behind the capture first, then that one (DESIGN CHOICE, log 36). -/
def State.headerWriteEnded (s : State) (n : LaneNo) (r : MemRequest) (o : MemOutcome) : State :=
  let cut := (s.lane n).cutting
  let s := s.laneEnded n r o
  if cut then s.cutEnded n o
  else match (s.lane n).putLine with
    | e :: _ =>
      match e.stage, e.kind with
      | .writingHeader _, .capture _ outcome =>
        if o.failed then s.withdrawCapture n e outcome
        else (((s.parcelReady n (masterByte e.tx)).capturePlaced n e).answerOutcome e.tx outcome).leavePutLine n
      | .writingHeader failed, _ =>
        if o.failed then s.answerPut n e false else (s.parcelReady n (masterByte e.tx)).answerPut n e (!failed)
      | _, _ => s
    | [] => s

/-- A scan read of lane `n` ended (R50); on a lane that is FAULTED the put issues nothing further (R54). -/
def State.scanReadEnded (s : State) (n : LaneNo) (r : MemRequest) (o : MemOutcome) : State :=
  let s := s.laneEnded n r o
  match (s.lane n).putLine with
  | e :: _ =>
    match e.stage, o with
    | .scanning list, .ok w =>
      let l := s.lane n
      let h := Header.ofWord w
      let pos := l.scanPosition list
      if l.state = .faulted then s.faultPut n e
      else if h.passes (l.takeSeq + BitVec.ofNat 16 list.length) then
        s.scanStep n e (list ++ [{ segment := segmentAt l.chain pos, offset := pos % 512, header := h }])
      else (s.faultLane n .headerCheck r).faultPut n e
    | .scanning _, _ => s.refusePut n e
    | _, _ => s
  | [] => s

end Sys2Proof.Machine
end

