-- ==== Sys2Proof/Machine/Takes.lean ====
section
/-!
DEFINITION. The take side of a lane engine (spec/04): arrival, evaluation, head fetch and check, data reads, head info,
release, empty actions, and takes on a FAULTED lane (R73).
-/
namespace Sys2Proof.Machine

/-- The first take is answered and leaves the line; a read gets the data in its byte lanes (R63, R65, R66). -/
def State.answerTake (s : State) (n : LaneNo) (e : TakeEntry) (data : Word) : State :=
  (s.answerOk e.tx data).leaveTakeLine n

/-- The first take is answered ERROR and leaves the line. -/
def State.failTake (s : State) (n : LaneNo) (e : TakeEntry) : State :=
  (s.answerError e.tx).leaveTakeLine n

/-- One more overread, saturating (R64, R72). -/
def Lane.overread (l : Lane) : Lane := { l with overreads := satInc l.overreads }

/-! ## Release (R66 to R70) -/

/-- The release of the head parcel, by a release or by AUTO_RELEASE (R67, R68, R69). -/
def State.releaseHead (s : State) (n : LaneNo) (h : Header) : State :=
  let r := (s.lane n).dropHead h.length.toNat
  (s.setLane n { r.1 with released := r.1.released + 1, gap := false }).returnSegments r.2
    fun e => e.lane == n && e.line == .put

/-! ## The work of a take with the head cache present -/

/-- The body bytes a data read takes: min(n, L - c) (R62). -/
def takeCount (c : HeadCache) (t : Transaction) : Nat := min t.size (c.header.length.toNat - c.consumed)

/-- A data read with the head cache present (R62): its body reads are issued; one that takes no byte is an overread
answered with zeros (R63, R64). -/
def State.startDataRead (s : State) (n : LaneNo) (e : TakeEntry) (c : HeadCache) : State :=
  let k := takeCount c e.tx
  if k = 0 then (s.updLane n Lane.overread).answerTake n e 0
  else
    let reads := s.chainReads n (.takeRead n) (masterByte e.tx) ((s.lane n).headOffset + 8 + c.consumed) k
    (s.setTakeStage n (.reading k reads.length false [])).requestAll reads

/-- A head info read with the head cache present (R65). -/
def State.answerHeadInfo (s : State) (n : LaneNo) (e : TakeEntry) (c : HeadCache) : State :=
  s.answerTake n e (headInfoWord c (s.lane n).gap)

/-- A release with the head cache present (R66): the word describes the parcel that leaves. -/
def State.carryRelease (s : State) (n : LaneNo) (e : TakeEntry) (c : HeadCache) : State :=
  let l := s.lane n
  (s.releaseHead n c.header).answerTake n e (releaseWord c.header (l.ready - 1) l.gap)

/-- The first take goes on to its own work (R58, R59). -/
def State.proceedTake (s : State) (n : LaneNo) (e : TakeEntry) (c : HeadCache) : State :=
  match e.kind with
  | .data => s.startDataRead n e c
  | .info => s.answerHeadInfo n e c
  | .release => s.carryRelease n e c

/-! ## Evaluation (R58) -/

/-- The empty action for a data read or head info read (R71, R72). An empty action of 0 belongs to a lane that was
never opened, which evaluates no take. -/
def State.emptyTake (s : State) (n : LaneNo) (e : TakeEntry) (word : Word) : State :=
  match (s.lane n).desc.emptyAction with
  | .hold => s.holdTake n e
  | .fill => (s.updLane n Lane.overread).answerTake n e word
  | .unset => (s.updLane n Lane.overread).answerTake n e word

/-- The first take is evaluated on a lane with no ready parcel (R70, R71, R72). -/
def State.takeEmpty (s : State) (n : LaneNo) (e : TakeEntry) : State :=
  match e.kind with
  | .release => s.answerTake n e (emptyWord (s.lane n).gap)
  | .info => s.emptyTake n e (emptyWord (s.lane n).gap)
  | .data => s.emptyTake n e 0

/-- The head fetch of the first take (R59). -/
def State.fetchHead (s : State) (n : LaneNo) (e : TakeEntry) : State :=
  (s.setTakeStage n .fetching).request
    (wordRequest (.headFetch n) (masterByte e.tx) (s.chainAddress n (s.lane n).headOffset) false 0)

/-- The first take-line entry is evaluated when it is waiting or held and no put of the lane is scanning (R49, R58). -/
def State.evalTake (s : State) (n : LaneNo) : State :=
  let l := s.lane n
  match l.takeLine with
  | [] => s
  | e :: _ =>
    if e.stage == .waiting && !l.scanning then
      if l.ready = 0 then s.takeEmpty n e
      else
        let s := s.unhold n .take
        match l.cache with
        | none => s.fetchHead n e
        | some c => s.proceedTake n e c
    else s

/-- A take joins the take line, and is evaluated if it is first (R22, R58). -/
def State.joinTakeLine (s : State) (n : LaneNo) (e : TakeEntry) : State :=
  let first := (s.lane n).takeLine.isEmpty
  let s := s.updLane n fun l => { l with takeLine := l.takeLine ++ [e] }
  if first then s.schedule [.evalTake n] else s

/-- The region of a read in a TAKE aperture (R57). -/
def takeRegion (t : Transaction) : TakeKind :=
  if t.address.toNat % 4096 < 0x800 then .data
  else if t.address.toNat % 4096 < 0xC00 then .info
  else .release

/-- A transaction in a TAKE aperture arrives at the lane engine (R57): a write is refused WRONG_DIRECTION whatever the
lane's state, a read is dealt with by R2. -/
def State.arriveTake (s : State) (n : LaneNo) (entry : Fin 23) (t : Transaction) : State :=
  match t.direction with
  | .write => s.laneRefuse n entry t reasonWrongDirection
  | .read =>
    match (s.lane n).refusal false with
    | some reason => s.laneRefuse n entry t reason
    | none => s.joinTakeLine n { tx := t, entry := entry, kind := takeRegion t, stage := .waiting }

/-! ## Ends of the take side's memory requests -/

/-- The head fetch returned a header that passes its check (R59), on a FAULTED lane too (R60, R73). -/
def State.headFetched (s : State) (n : LaneNo) (e : TakeEntry) (h : Header) : State :=
  let c : HeadCache := { header := h, consumed := 0 }
  let s := s.updLane n fun l => { l with cache := some c }
  if (s.lane n).state = .faulted then
    match e.kind with
    | .info => s.answerHeadInfo n e c
    | .data => s.failTake n e
    | .release => s.failTake n e
  else s.proceedTake n e c

/-- A head fetch of lane `n` ended (R59, R60, R61, R73). -/
def State.headFetchEnded (s : State) (n : LaneNo) (r : MemRequest) (o : MemOutcome) : State :=
  let s := s.laneEnded n r o
  match (s.lane n).takeLine with
  | e :: _ =>
    match e.stage, o with
    | .fetching, .ok w =>
      let h := Header.ofWord w
      if h.passes (s.lane n).takeSeq then s.headFetched n e h
      else if (s.lane n).state = .faulted then s.failTake n e
      else (s.faultLane n .headerCheck r).failTake n e
    | .fetching, _ => s.failTake n e
    | _, _ => s
  | [] => s

/-- All body reads of the first take are answered, with success (R63, R64, R69, R73). -/
def State.dataReadDone (s : State) (n : LaneNo) (e : TakeEntry) (k : Nat) (got : List Byte) : State :=
  match (s.lane n).cache with
  | none => s.failTake n e
  | some c =>
    let consumed := c.consumed + k
    let s := s.updLane n fun l => { l with cache := some { c with consumed := consumed } }
    let s := if k < e.tx.size then s.updLane n Lane.overread else s
    let l := s.lane n
    let s :=
      if l.desc.autoRelease ∧ consumed = c.header.length.toNat ∧ l.state ≠ .faulted then s.releaseHead n c.header
      else s
    s.answerTake n e (placeBytes (firstLane e.tx) got)

/-- A body read of a data read of lane `n` ended (R63). -/
def State.takeReadEnded (s : State) (n : LaneNo) (r : MemRequest) (o : MemOutcome) : State :=
  let s := s.laneEnded n r o
  match (s.lane n).takeLine with
  | e :: _ =>
    match e.stage with
    | .reading k left failed got =>
      let failed := failed || o.failed
      let got := match o with
        | .ok w => got ++ enabledBytes r.enables w
        | _ => got
      if 1 < left then s.setTakeStage n (.reading k (left - 1) failed got)
      else if failed then s.failTake n e
      else s.dataReadDone n e k got
    | _ => s
  | [] => s

end Sys2Proof.Machine
end

