-- ==== Sys2Proof/Machine/CommandOps.lean ====
section
/-!
DEFINITION. What the command unit shares between commands: response words, completion (R127), the end of autoload
(R168), image reads (R129).
-/
namespace Sys2Proof.Machine

/-- The master id that the command unit's requests and notices carry: that of the command word write, 0xFF during
autoload (R153). -/
def CommandUnit.master (c : CommandUnit) : Byte := if c.autoload.isSome then 0xFF else c.current.master

/-- A response word write at 0x808 is issued (R128). -/
def State.respond (s : State) (ticket : Half) (outcome reason detail code : Byte) : State :=
  s.commandRequests [wordRequest (.responseWrite ticket) s.cmd.master (s.controlAddress 0x808) true
    (responseWord ticket outcome reason detail code)]

/-- The command is one of the four lane commands (R126). -/
def isLaneCode (code : Byte) : Bool := 3 ≤ code.toNat && code.toNat ≤ 6

/-- The COMMAND_DONE notice (R127). -/
def State.commandDoneNotice (s : State) (outcome reason detail : Byte) : Notice :=
  let c := s.cmd.current
  { kind := .commandDone, source := if isLaneCode c.code && c.lane.toNat < 16 then c.lane else 0xFF,
    reason := reason, master := c.master, value16 := c.ticket, address := s.controlAddress 0x800,
    value32 := (0 : Byte) ++ detail ++ outcome ++ c.code }

/-- The flag NOTIFY of a command (12.3). -/
def Command.notify (c : Command) : Bool := c.flags.getLsbD 0

/-- A command completes (R127): response word, COMMAND_DONE, IDLE, and the waiting command word is taken. -/
def State.completeCommand (s : State) (outcome reason detail : Byte) : State :=
  let c := s.cmd.current
  let s := s.respond c.ticket outcome reason detail c.code
  let s := if c.notify then s.produce (s.commandDoneNotice outcome reason detail) else s
  ({ s with cmd := { s.cmd with running := false, current := .none, work := .none } }).schedule [.handover]

/-- Autoload ends (R168): one response word with ticket 0, IDLE, and the waiting command word is taken. -/
def State.endAutoload (s : State) (code outcome reason detail : Byte) : State :=
  let s := s.respond 0 outcome reason detail code
  ({ s with cmd := { s.cmd with running := false, autoload := none, work := .none } }).schedule [.handover]

/-- The code of the step autoload has reached (R168). -/
def AutoStep.code : AutoStep → Byte
  | .setup => codeLoadSetup
  | .apertures => codeLoadApertures
  | .descriptor _ => codeOpenLane

/-- The running command, or the step of autoload, is rejected (R127, R167). -/
def State.rejectCommand (s : State) (reason detail : Byte) : State :=
  match s.cmd.autoload with
  | none => s.completeCommand outcomeRejected reason detail
  | some step => s.endAutoload step.code outcomeRejected reason detail

/-- Image reads are issued, as 8-byte reads in increasing offset order (R129). -/
def State.readImages (s : State) (offsets : List Nat) : State :=
  let s := { s with cmd := { s.cmd with work := .images offsets.length [] none } }
  s.commandRequests (offsets.map fun o =>
    wordRequest (.imageRead o s.cmd.current.ticket) s.cmd.master (s.controlAddress o) false 0)

/-- The offsets of `count` words from `first` on. -/
def wordOffsets (first count : Nat) : List Nat := (List.range count).map fun i => first + 8 * i

/-- The words of the setup header (R129). -/
def setupOffsets : List Nat := wordOffsets 0 8

/-- The words of the aperture images (R129). -/
def apertureOffsets : List Nat := wordOffsets 0x100 46

/-- The words of the descriptor of a lane (R129). -/
def descriptorOffsets (n : LaneNo) : List Nat := wordOffsets (0x300 + 16 * n.val) 2

end Sys2Proof.Machine
end

