-- ==== Sys2Proof/Machine/LaneStates.lean ====
section
/-!
DEFINITION. The changes of a lane's state that commands and draining bring (spec/01 R4, R5, R7, R8; spec/08 R135,
R136), and the tests that a lane engine makes after every operation that ends.
-/
namespace Sys2Proof.Machine

/-- The LANE_CLOSED notice (R5, R8); the fields its rules do not name are 0 (12.7). -/
def laneClosedNotice (n : LaneNo) : Notice :=
  { kind := .laneClosed, source := laneByte n, reason := 0, master := 0, value16 := 0, address := 0, value32 := 0 }

/-- A DRAINING lane is drained (R5). -/
def Lane.drained (l : Lane) : Bool :=
  l.state == .draining && l.ready == 0 && l.openParcel.isNone && l.idle && l.busy == .clear

/-- The drain test (R5): a drained lane goes to CLOSED, its take line is answered ERROR, LANE_CLOSED is produced. -/
def State.drainTest (s : State) (n : LaneNo) : State :=
  if (s.lane n).drained then
    (s.changeTakes n fun l => { l with state := .closed }).produce (laneClosedNotice n)
  else s

/-- CLOSE LANE on lane `n` is at work (R135). -/
def State.closing (s : State) (n : LaneNo) : Bool := s.cmd.work == .closing n

/-- FLUSH LANE or RESET LANE on lane `n` is at work (R136). -/
def State.emptying (s : State) (n : LaneNo) : Bool := s.cmd.work == .emptying n

/-- The cut of CLOSE LANE (R4): once no put is in flight, an open parcel is closed with tag 255 and CUT. -/
def State.cutTest (s : State) (n : LaneNo) : State :=
  let l := s.lane n
  if s.closing n && l.state == .draining && l.openParcel.isSome && !l.putInFlight && !l.cutting then
    (s.closeParcel n 0xFF flagCut 0xFF).updLane n fun l => { l with cutting := true }
  else s

/-- CLOSE LANE completes in the first event in which no put-side operation and no cut header write is in flight
(R135). -/
def State.closeTest (s : State) (n : LaneNo) : State :=
  let l := s.lane n
  if s.closing n && !l.putInFlight && !l.cutting then s.completeCommand outcomeDone 0 0 else s

/-- The lane context after the discard of R8. -/
def Lane.discard (l : Lane) : Lane :=
  { l with
    state := match l.busy, l.state with
      | .reset, _ => .closed
      | _, .draining => .closed
      | _, st => st
    gap := match l.busy with
      | .reset => false
      | _ => l.gap || l.ready != 0 || l.openParcel.isSome
    errors := if l.busy = .reset then 0 else l.errors
    cause := if l.busy = .reset then .none else l.cause
    busy := .clear
    chain := []
    headOffset := 0
    tailOffset := 0
    ready := 0
    openParcel := none
    cache := none
    takeSeq := l.putSeq
    armed := true }

/-- The discard that ends FLUSH LANE and RESET LANE (R8), and with it the command (R136). -/
def State.discardLane (s : State) (n : LaneNo) : State :=
  let l := s.lane n
  let s := (s.setLane n l.discard).returnSegments l.chain fun _ => false
  let s := if l.busy = .flush ∧ l.state = .draining then s.produce (laneClosedNotice n) else s
  if s.emptying n then s.completeCommand outcomeDone 0 0 else s

/-- The discard takes place when the busy mark is set and nothing of the lane is in flight (R7). -/
def State.discardTest (s : State) (n : LaneNo) : State :=
  if (s.lane n).busy ≠ .clear ∧ (s.lane n).idle then s.discardLane n else s

/-- The tests of the lane engine after an operation of the lane ended: the discard of a busy lane (R7); else the cut
(R4), the drain test (R5) and the end of CLOSE LANE (R135). -/
def State.laneTests (s : State) (n : LaneNo) : State :=
  if (s.lane n).busy ≠ .clear then s.discardTest n
  else ((s.cutTest n).drainTest n).closeTest n

/-- CLOSE LANE is taken on an OPEN lane (R4, R86). -/
def State.takeClose (s : State) (n : LaneNo) : State :=
  (({ s with cmd := { s.cmd with work := .closing n } }).changePuts n (fun l => { l with state := .draining })
    PutEntry.notInFlight).schedule [.laneTests n]

/-- FLUSH LANE or RESET LANE is taken (R7, R86). -/
def State.takeEmptying (s : State) (n : LaneNo) (mark : BusyMark) : State :=
  (({ s with cmd := { s.cmd with work := .emptying n } }).changeBoth n (fun l => { l with busy := mark })
    PutEntry.notInFlight).schedule [.laneTests n]

end Sys2Proof.Machine
end

