-- ==== Sys2Proof/Machine/StatusOps.lean ====
section
/-!
DEFINITION. The status writer (spec/09 R146 to R151): the records as they stand, the 74 writes of a write-back, its
begin and end.
-/
namespace Sys2Proof.Machine

/-- The words of the global record as they stand (R149, 12.8). -/
def State.globalWords (s : State) : List Word :=
  [packQuads s.status.generation (BitVec.ofNat 16 s.pool.minFree ++ BitVec.ofNat 16 s.pool.freeCount),
   packHalves s.notice.producer s.notice.loss s.notice.badConsumer s.notice.writeErrors,
   packQuads s.port.errors
     (packPair (BitVec.ofNat 8 s.hold.highWater) (BitVec.ofNat 8 s.hold.held.length) ++ s.port.timeouts),
   packQuads s.cmd.taken s.dec.tapLost,
   packQuads s.dec.guardRefusals s.dec.otherRefusals,
   packQuads (s.hold.ticks - s.hold.setupMark) 0,
   0,
   packQuads 0 s.status.generation]

/-- The line flags of a lane record: put held, take held (R78). -/
def State.lineFlags (s : State) (n : LaneNo) : Byte :=
  (if (s.heldOf n .put).isSome then 1 else 0) ||| (if (s.heldOf n .take).isSome then 2 else 0)

/-- The words of a lane record as they stand (R150, 12.8). -/
def State.laneWords (s : State) (n : LaneNo) : List Word :=
  let l := s.lane n
  [packHalves (packPair l.state.code l.cause.code) (packPair (BitVec.ofNat 8 l.errors) (s.lineFlags n))
     (BitVec.ofNat 16 l.ready) (BitVec.ofNat 16 l.chain.length),
   packHalves (BitVec.ofNat 16 l.openLength) l.putSeq l.takeSeq
     (BitVec.ofNat 16 (match l.cache with
       | some c => c.consumed
       | none => 0)),
   packQuads l.closed l.released,
   packHalves l.evicted l.refusals l.expiries l.overreads]

/-- The lane whose record a write of index 10 to 73 belongs to (R148). -/
def statusLane (i : Nat) : LaneNo := Fin.ofNat 16 ((i - 10) / 4)

/-- The record's snapshot is taken in the event in which its first write is issued: write 2 for the global fields, the
first of four for a lane record (R149). -/
def State.takeSnapshot (s : State) (i : Nat) : State :=
  if i = 2 then { s with status := { s.status with snapshot := s.globalWords } }
  else if 10 ≤ i ∧ i ≤ 73 ∧ (i - 10) % 4 = 0 then
    { s with status := { s.status with snapshot := s.laneWords (statusLane i) } }
  else s

/-- Write `i` of a write-back, with the snapshot already taken: offset, byte enables and data (R148). -/
def State.statusWrite (s : State) (i : Nat) : MemRequest :=
  let word (k : Nat) : Word := s.status.snapshot.getD k 0
  let gen := s.status.generation
  let write (offset : Nat) (enables : BitVec 8) (data : Word) : MemRequest :=
    { owner := .statusWrite i, master := 0xFF, address := s.controlAddress offset, write := true,
      enables := enables, data := maskWord enables data }
  if i = 1 then write 0xC00 0x0F (packQuads gen 0)
  else if i = 2 then write 0xC04 0xF0 (word 0)
  else if i ≤ 8 then write (0xC08 + 8 * (i - 3)) 0xFF (word (i - 2))
  else if i = 9 then write 0xC38 0x0F (word 7)
  else if i ≤ 73 then write (0xC40 + 8 * (i - 10)) 0xFF (word ((i - 10) % 4))
  else write 0xC3C 0xF0 (packQuads 0 gen)

/-- A write-back begins (R148): in progress, the generation is raised, writes 1 to 73 are created. -/
def State.beginWriteBack (s : State) : State :=
  { s with
    status := { s.status with
      inProgress := true
      generation := s.status.generation + 1
      left := 73 }
    port := { s.port with statusQ := s.port.statusQ ++ (List.range 73).map (· + 1) } }

/-- The generation end write of the running write-back has been created and has not ended. -/
def State.endCreated (s : State) : Bool :=
  s.port.statusQ.contains 74 ||
    s.port.outstanding.any fun e => !e.abandoned && e.request.owner == .statusWrite 74

/-- The generation end write is created when writes 1 to 73 have all ended (R148). -/
def State.generationTest (s : State) : State :=
  if s.status.inProgress && s.status.left == 0 && !s.endCreated then
    { s with port := { s.port with statusQ := s.port.statusQ ++ [74] } }
  else s

/-- The write-back that was marked to follow begins, and WRITE STATUS waits for it (R137, R147). -/
def State.beginFollowOn (s : State) : State :=
  let s := { s with status := { s.status with followOn := false } }
  let s := if s.cmd.work == .status true then { s with cmd := { s.cmd with work := .status false } } else s
  s.beginWriteBack

/-- The generation end write has ended, whatever its outcome: the write-back ends (R137, R147, R148). -/
def State.endWriteBack (s : State) : State :=
  let s := { s with status := { s.status with inProgress := false } }
  let s := if s.cmd.work == .status false then s.completeCommand outcomeDone 0 0 else s
  if s.status.followOn then s.beginFollowOn else s

/-- Write `i` of the write-back has ended (R148, R151). -/
def State.statusWriteEnded (s : State) (i : Nat) : State :=
  if i = 74 then s.endWriteBack
  else ({ s with status := { s.status with left := s.status.left - 1 } }).generationTest

/-- WRITE STATUS is taken (R137, R147). -/
def State.takeWriteStatus (s : State) : State :=
  if s.status.inProgress then
    { s with
      status := { s.status with followOn := true }
      cmd := { s.cmd with work := .status true } }
  else ({ s with cmd := { s.cmd with work := .status false } }).beginWriteBack

/-- An expiry of the interval is taken (R147): a write-back starts unless one is running. -/
def State.takeIntervalExpiry (s : State) : State :=
  if s.status.expiryDue then
    let s := { s with status := { s.status with expiryDue := false } }
    if s.status.inProgress then s else s.beginWriteBack
  else s

end Sys2Proof.Machine
end

