-- ==== Sys2Proof/Machine/Images.lean ====
section
/-!
DEFINITION. The images the command unit reads (12.2) and their validation: setup header (R131), aperture images (R103),
lane descriptor (R134).
-/
namespace Sys2Proof.Machine

/-- The word read at a control block offset. -/
def wordAt (words : List (Nat × Word)) (offset : Nat) : Word := (words.lookup offset).getD 0

/-- Two ranges, given by first address and size, overlap. -/
def overlap (a sizeA b sizeB : Nat) : Bool := a < b + sizeB && b < a + sizeA

/-! ## Setup header -/

/-- The fields of the setup header that the part keeps, and the magic (12.2). -/
structure SetupHeader where
  magic         : Quad
  poolBase      : Addr
  poolCount     : Nat
  watermark     : Nat
  ringEntries   : Nat
  mask          : BitVec 11
  ringBase      : Addr
  divider       : BitVec 8
  enable        : Bool
  poolOpen      : Bool
  interval      : Half
  responseLimit : Half
  commandLimit  : Half
  deriving DecidableEq, Repr

/-- The setup header from its words (12.2); bits above the meaningful ones are ignored (R170). -/
def parseSetup (words : List (Nat × Word)) : SetupHeader :=
  let w0 := wordAt words 0x00
  let w1 := wordAt words 0x08
  let w2 := wordAt words 0x10
  let w3 := wordAt words 0x18
  { magic := quadOf w0 0, poolBase := quadOf w0 4, poolCount := (halfOf w1 0).toNat,
    watermark := (halfOf w1 2).toNat, ringEntries := (halfOf w1 4).toNat, mask := (halfOf w1 6).setWidth 11,
    ringBase := quadOf w2 0, divider := byteOf w2 4, enable := (byteOf w2 5).getLsbD 0,
    poolOpen := (byteOf w2 6).getLsbD 0, interval := halfOf w3 0, responseLimit := halfOf w3 2,
    commandLimit := halfOf w3 4 }

/-- A power of two from 16 to 4096 (R131). -/
def legalRing (n : Nat) : Bool := [16, 32, 64, 128, 256, 512, 1024, 2048, 4096].contains n

/-- Why a setup header is rejected: reason and detail of the first of the twelve tests that fails (R131). -/
def SetupHeader.rejection (h : SetupHeader) (control : Nat) : Option (Byte × Byte) :=
  let pool := h.poolBase.toNat
  let poolSize := 512 * h.poolCount
  let ring := h.ringBase.toNat
  let ringSize := 16 * h.ringEntries
  if h.magic ≠ 0xC4125E70 then some (reasonBadMagic, 0x00)
  else if h.divider = 0 then some (reasonBadMagic, 0x14)
  else if pool % 512 ≠ 0 then some (reasonBadPool, 0x04)
  else if h.poolCount < 16 ∨ 4096 < h.poolCount then some (reasonBadPool, 0x08)
  else if 2 ^ 32 < pool + poolSize then some (reasonBadPool, 0x08)
  else if overlap pool poolSize control 4096 then some (reasonBadPool, 0x04)
  else if h.poolCount < h.watermark then some (reasonBadPool, 0x0A)
  else if ring % 16 ≠ 0 then some (reasonBadRing, 0x10)
  else if !legalRing h.ringEntries then some (reasonBadRing, 0x0C)
  else if 2 ^ 32 < ring + ringSize then some (reasonBadRing, 0x0C)
  else if overlap ring ringSize control 4096 then some (reasonBadRing, 0x10)
  else if overlap ring ringSize pool poolSize then some (reasonBadRing, 0x10)
  else none

/-! ## Aperture images -/

/-- An aperture image as read, every field whole (12.2). -/
structure ApertureImage where
  base      : Addr
  target    : Addr
  kind      : Byte
  exponent  : Byte
  lane      : Byte
  guardMode : Byte
  mask      : BitVec 16
  options   : Byte
  deriving DecidableEq, Repr

/-- The image of entry `i + 1`, at 0x100 + 16 * i (12.2). -/
def parseAperture (words : List (Nat × Word)) (i : Nat) : ApertureImage :=
  let w0 := wordAt words (0x100 + 16 * i)
  let w1 := wordAt words (0x108 + 16 * i)
  { base := quadOf w0 0, target := quadOf w0 4, kind := byteOf w1 0, exponent := byteOf w1 1,
    lane := byteOf w1 2, guardMode := byteOf w1 3, mask := halfOf w1 4, options := byteOf w1 6 }

/-- The guard mode of its code (12.2). -/
def guardModeOf (b : Byte) : Option GuardMode :=
  if b = 1 then some .noWrite else if b = 2 then some .noRead else if b = 3 then some .noAccess else none

/-- The lane of a lane field, 0 to 15. -/
def laneOf (b : Byte) : Option LaneNo := if h : b.toNat < 16 then some ⟨b.toNat, h⟩ else none

/-- Size exponent and base of an entry that is not INVALID are valid (R103). -/
def ApertureImage.rangeValid (a : ApertureImage) : Bool :=
  12 ≤ a.exponent.toNat && a.exponent.toNat ≤ 31 && a.base.toNat % 2 ^ a.exponent.toNat == 0

/-- The target of a PASS entry is valid: a multiple of the size, and off the control block (R103). -/
def ApertureImage.targetValid (a : ApertureImage) (control : Nat) : Bool :=
  a.target.toNat % 2 ^ a.exponent.toNat == 0 && !overlap a.target.toNat (2 ^ a.exponent.toNat) control 4096

/-- The lane that a PUT entry names. -/
def Aperture.putLane : Aperture → Option LaneNo
  | .put _ _ n => some n
  | _ => none

/-- The lane that a TAP entry names. -/
def Aperture.tapLane : Aperture → Option LaneNo
  | .tap _ _ n _ _ => some n
  | _ => none

/-- The entry an image gives, with the fields its kind uses, or none when the entry fails R103; `lower` are the entries
of lower index. -/
def ApertureImage.validate (a : ApertureImage) (control : Nat) (lower : List Aperture) : Option Aperture :=
  let e := a.exponent.toNat
  if a.kind = 0 then some .invalid
  else if 5 < a.kind.toNat || !a.rangeValid then none
  else if a.kind = 1 then
    if a.targetValid control then some (.pass a.base e a.target) else none
  else if a.kind = 2 then
    match guardModeOf a.guardMode with
    | some m => if a.mask = 0 then none else some (.guard a.base e m a.mask)
    | none => none
  else match laneOf a.lane with
    | none => none
    | some n =>
      if a.kind = 3 then
        if lower.any fun x => x.tapLane == some n then none else some (.put a.base e n)
      else if a.kind = 4 then some (.take a.base e n)
      else if lower.any fun x => x.putLane == some n then none
      else some (.tap a.base e n (a.options.getLsbD 0) (a.options.getLsbD 1))

/-- Validation in increasing index order from entry `i + 1` on, `fuel` entries; `lower` are those before, in order. The
index of the first entry that fails, or all entries (R103). -/
def validateFrom (words : List (Nat × Word)) (control : Nat) : Nat → List Aperture → Except Nat (List Aperture)
  | 0, lower => .ok lower
  | fuel + 1, lower =>
    match (parseAperture words lower.length).validate control lower with
    | none => .error (lower.length + 1)
    | some a => validateFrom words control fuel (lower ++ [a])

/-- The table of 23 entries of a list, INVALID where the list is shorter. -/
def tableOf (es : List Aperture) : Vector Aperture 23 :=
  (List.range 23).foldl (fun v i => v.setIfInBounds i (es.getD i .invalid)) (Vector.replicate 23 .invalid)

/-! ## Lane descriptors -/

/-- A lane descriptor as read, every field whole (12.2). -/
structure DescriptorImage where
  flags     : Byte
  full      : Byte
  empty     : Byte
  threshold : Byte
  quota     : Half
  maxLength : Half
  holdLimit : Half
  ready     : Byte
  deriving DecidableEq, Repr

/-- The descriptor of a lane from its words (12.2). -/
def parseDescriptor (words : List (Nat × Word)) (n : LaneNo) : DescriptorImage :=
  let w0 := wordAt words (0x300 + 16 * n.val)
  let w1 := wordAt words (0x308 + 16 * n.val)
  { flags := byteOf w0 0, full := byteOf w0 1, empty := byteOf w0 2, threshold := byteOf w0 3,
    quota := halfOf w0 4, maxLength := halfOf w0 6, holdLimit := halfOf w1 0, ready := byteOf w1 2 }

/-- The flag AUTO_OPEN (12.2). -/
def DescriptorImage.autoOpen (d : DescriptorImage) : Bool := d.flags.getLsbD 0

/-- The full action of its code (12.2). -/
def fullActionOf (b : Byte) : Option FullAction :=
  if b = 1 then some .hold else if b = 2 then some .refuse else if b = 3 then some .evict else none

/-- The empty action of its code (12.2). -/
def emptyActionOf (b : Byte) : Option EmptyAction :=
  if b = 1 then some .hold else if b = 2 then some .fill else none

/-- The offset of the first field that fails, or the descriptor copy (R134). -/
def DescriptorImage.validate (d : DescriptorImage) (poolCount : Nat) : Except Byte Descriptor :=
  match fullActionOf d.full with
  | none => .error 0x1
  | some full =>
    match emptyActionOf d.empty with
    | none => .error 0x2
    | some empty =>
      if d.threshold.toNat < 1 ∨ 15 < d.threshold.toNat then .error 0x3
      else if d.quota.toNat < 1 ∨ 4096 < d.quota.toNat ∨ poolCount < d.quota.toNat then .error 0x4
      else if d.maxLength = 0 then .error 0x6
      else if (full = .hold ∨ empty = .hold) ∧ d.holdLimit = 0 then .error 0x8
      else if d.ready = 0 then .error 0xA
      else .ok
        { autoOpen := d.autoOpen, autoRelease := d.flags.getLsbD 1, fullAction := full, emptyAction := empty,
          faultThreshold := d.threshold.toNat, quota := d.quota.toNat, maxLength := d.maxLength.toNat,
          holdLimit := d.holdLimit, readyThreshold := d.ready.toNat }

end Sys2Proof.Machine
end

