-- ==== Sys2Proof/Machine/CommandUnit.lean ====
section
/-!
DEFINITION. The command unit (spec/08, spec/11 R167, R168): taking a command word, its checks, image reads and what
they apply, the waiter slot (R87, R88), the replacement of the aperture table (R105, R106).
-/
namespace Sys2Proof.Machine

/-! ## Steps of autoload and ends of image reads -/

/-- Autoload reads the descriptor of lane `n` (R167). -/
def State.autoDescriptor (s : State) (n : LaneNo) : State :=
  ({ s with cmd := { s.cmd with autoload := some (.descriptor n) } }).readImages (descriptorOffsets n)

/-- The next step of autoload, or its end after the descriptor of lane 15 (R167, R168). -/
def State.autoNext (s : State) : AutoStep → State
  | .setup =>
    ({ s with cmd := { s.cmd with autoload := some .apertures } }).readImages apertureOffsets
  | .apertures => s.autoDescriptor 0
  | .descriptor n =>
    if h : n.val + 1 < 16 then s.autoDescriptor ⟨n.val + 1, h⟩
    else s.endAutoload codeOpenLane outcomeDone 0 0

/-- The work of the running command, or of the step of autoload, is done (R127, R167). -/
def State.commandDone (s : State) : State :=
  match s.cmd.autoload with
  | none => s.completeCommand outcomeDone 0 0
  | some step => s.autoNext step

/-! ## LOAD SETUP (R132) -/

/-- A setup header that passed validation is applied in one event (R25, R76, R77, R87, R90, R95, R132, R145, R146). -/
def State.applySetup (s : State) (h : SetupHeader) : State :=
  { s with
    pool := { base := h.poolBase, count := h.poolCount, freeList := List.range h.poolCount,
              minFree := h.poolCount, watermark := h.watermark, armed := true }
    dec := { s.dec with
      guard := some (h.poolBase.toNat, h.poolBase.toNat + 512 * h.poolCount)
      poolOpen := h.poolOpen }
    notice := ({ s.notice with
      ringBase := h.ringBase
      entries := h.ringEntries
      mask := h.mask
      enable := h.enable
      producer := 0
      consumer := 0
      loss := 0
      waiting := []
      write := s.notice.write.map fun w => { w with stale := true } } : NoticeWriter).driveIntN
    hold := { s.hold with
      divider := h.divider
      cycle := 0
      setupMark := s.hold.ticks
      commandLimit := h.commandLimit
      highWater := 0 }
    port := { s.port with limit := h.responseLimit }
    status := { s.status with interval := h.interval, timer := 0 } }

/-- The setup header has been read (R131, R132). -/
def State.setupRead (s : State) (words : List (Nat × Word)) : State :=
  let h := parseSetup words
  match h.rejection (s.controlAddress 0).toNat with
  | some (reason, detail) => s.rejectCommand reason detail
  | none => (s.applySetup h).commandDone

/-! ## LOAD APERTURES (R102 to R106) -/

/-- The aperture images have been read: a failing table is rejected, a valid one starts the decode freeze (R103, R104,
R133). -/
def State.aperturesRead (s : State) (words : List (Nat × Word)) : State :=
  match validateFrom words (s.controlAddress 0).toNat 23 [] with
  | .error i => s.rejectCommand reasonBadEntry (BitVec.ofNat 8 i)
  | .ok es =>
    { s with
      cmd := { s.cmd with work := .freezing (tableOf es) }
      sys := { s.sys with freeze := true } }

/-- A system-port-derived request that is not ended: its owner waits for an outcome (R105, R163). -/
def Owner.systemDerived : Owner → Bool
  | .forward _ _ _ | .bodyWrite _ | .headerWrite _ | .captureWrite _ | .scanRead _ | .headFetch _ | .takeRead _ => true
  | .imageRead _ _ | .responseWrite _ | .noticeWrite | .statusWrite _ => false

/-- No system-port-derived request is left unended; an abandoned one has ended (R105). -/
def State.systemQuiet (s : State) : Bool :=
  s.port.systemQ.isEmpty && s.port.outstanding.all fun e => e.abandoned || !e.request.owner.systemDerived

/-- The replacement event (R105, R106): entries 1 to 23 take the validated contents, loss runs are cleared, LOAD
APERTURES completes, and after that the freeze lifts. -/
def State.replaceTest (s : State) : State :=
  match s.cmd.work with
  | .freezing table =>
    if s.sys.freeze && s.systemQuiet then
      (({ s with dec := { s.dec with entries := table, runs := Vector.replicate 23 .clear } }).commandDone).schedule
        [.thaw]
    else s
  | _ => s

/-- The freeze lifts and the frozen list is decoded from the oldest entry to the newest (R106). -/
def State.thaw (s : State) : State :=
  ({ s with sys := { s.sys with freeze := false }, dec := { s.dec with frozen := [] } }).schedule
    (s.dec.frozen.map .decode)

/-! ## OPEN LANE (R3, R134) -/

/-- A validated descriptor is applied to a CLOSED lane (R3). -/
def Lane.openWith (l : Lane) (d : Descriptor) : Lane :=
  { l with
    desc := d, putSeq := 0, takeSeq := 0, closed := 0, released := 0, evicted := 0, refusals := 0, expiries := 0,
    overreads := 0, errors := 0, gap := false, cause := .none, armed := true, state := .opened }

/-- The descriptor of lane `n` has been read (R134): a valid one is applied, and the command or the step of autoload is
done; autoload passes a lane over whose AUTO_OPEN is clear (R167). -/
def State.descriptorRead (s : State) (n : LaneNo) (words : List (Nat × Word)) : State :=
  let d := parseDescriptor words n
  if s.cmd.autoload.isSome && !d.autoOpen then s.commandDone
  else match d.validate s.pool.count with
    | .error detail => s.rejectCommand reasonBadDescriptor detail
    | .ok desc => s.commandDone.updLane n fun l => l.openWith desc

/-! ## Image reads (R129) -/

/-- What the running command or step of autoload reads. -/
inductive ImageKind where
  | setup
  | apertures
  | descriptor (lane : LaneNo)
  deriving DecidableEq, Repr

/-- The images the unit reads: by the step of autoload, or by the code of the current command (R129). -/
def CommandUnit.imageKind (c : CommandUnit) : Option ImageKind :=
  match c.autoload with
  | some .setup => some .setup
  | some .apertures => some .apertures
  | some (.descriptor n) => some (.descriptor n)
  | none =>
    if c.current.code = codeLoadSetup then some .setup
    else if c.current.code = codeLoadApertures then some .apertures
    else if c.current.code = codeOpenLane then (laneOf c.current.lane).map .descriptor
    else none

/-- The detail of IMAGE_READ_ERROR: header offset, entry index or lane number of the first failed read (R128). -/
def ImageKind.readErrorDetail (k : ImageKind) (offset : Nat) : Byte :=
  match k with
  | .setup => BitVec.ofNat 8 offset
  | .apertures => BitVec.ofNat 8 ((offset - 0x100) / 16 + 1)
  | .descriptor n => laneByte n

/-- Every image read has ended: IMAGE_READ_ERROR if one failed, else the images are validated (R129). -/
def State.imagesRead (s : State) (words : List (Nat × Word)) (failed : Option Nat) : State :=
  match s.cmd.imageKind, failed with
  | none, _ => s
  | some k, some offset => s.rejectCommand reasonImageReadError (k.readErrorDetail offset)
  | some .setup, none => s.setupRead words
  | some .apertures, none => s.aperturesRead words
  | some (.descriptor n), none => s.descriptorRead n words

/-- The lower of two failed offsets: images are read in increasing offset order (R128, R129). -/
def firstFailed (failed : Option Nat) (offset : Nat) : Option Nat :=
  match failed with
  | none => some offset
  | some f => some (min f offset)

/-- An image read ended (R129, R159). -/
def State.imageReadEnded (s : State) (r : MemRequest) (offset : Nat) (ticket : Half) (o : MemOutcome) : State :=
  let s := if o.failed then s.produce (memoryErrorNotice r o 0 ticket) else s
  match s.cmd.work with
  | .images left words failed =>
    let words := match o with
      | .ok w => words ++ [(offset, w)]
      | _ => words
    let failed := if o.failed then firstFailed failed offset else failed
    if 1 < left then { s with cmd := { s.cmd with work := .images (left - 1) words failed } }
    else ({ s with cmd := { s.cmd with work := .none } }).imagesRead words failed
  | _ => s

/-- A response word write ended: a failure is noticed and changes nothing else (R130, R159). -/
def State.responseWriteEnded (s : State) (r : MemRequest) (ticket : Half) (o : MemOutcome) : State :=
  if o.failed then s.produce (memoryErrorNotice r o 0 ticket) else s

/-! ## Taking a command (R124 to R126) -/

/-- The current command that a command word write gives (12.3). -/
def commandOf (t : Transaction) : Command :=
  { code := byteOf t.data 0, lane := byteOf t.data 1, flags := byteOf t.data 2, ticket := halfOf t.data 4,
    master := masterByte t }

/-- The lowest lane whose state is not CLOSED. -/
def State.firstNotClosed (s : State) : Option Nat :=
  (List.range 16).find? fun i => (s.lane (Fin.ofNat 16 i)).state != .closed

/-- LOAD SETUP begins (R131). -/
def State.beginLoadSetup (s : State) : State :=
  match s.firstNotClosed with
  | some i => s.rejectCommand reasonLanesNotClosed (BitVec.ofNat 8 i)
  | none => s.readImages setupOffsets

/-- A lane command begins: OPEN LANE, CLOSE LANE, FLUSH LANE or RESET LANE on lane `n`, with its state precondition
(R126, R134, R135, R136). -/
def State.beginLaneCommand (s : State) (code : Byte) (n : LaneNo) : State :=
  let st := (s.lane n).state
  if code = codeOpenLane then
    if st = .closed then s.readImages (descriptorOffsets n) else s.rejectCommand reasonLaneState st.code
  else if code = codeCloseLane then
    if st = .opened then s.takeClose n else s.rejectCommand reasonLaneState st.code
  else if code = codeFlushLane then
    if st = .opened ∨ st = .draining then s.takeEmptying n .flush else s.rejectCommand reasonLaneState st.code
  else s.takeEmptying n .reset

/-- The checks of R126 and the start of the command's work. -/
def State.beginCommand (s : State) (c : Command) : State :=
  if c.code = codeLoadSetup then s.beginLoadSetup
  else if c.code = codeLoadApertures then s.readImages apertureOffsets
  else if c.code = codeWriteStatus then s.takeWriteStatus
  else if isLaneCode c.code then
    match laneOf c.lane with
    | none => s.rejectCommand reasonBadLaneNumber c.lane
    | some n => s.beginLaneCommand c.code n
  else s.rejectCommand reasonUnknownCommand 0

/-- A command word write is taken by the IDLE unit (R124): copied, counted, announced IN_PROGRESS, forwarded, begun. -/
def State.takeCommand (s : State) (t : Transaction) : State :=
  let c := commandOf t
  let s := { s with cmd := { s.cmd with running := true, current := c, taken := s.cmd.taken + 1 } }
  let s := s.respond c.ticket outcomeInProgress 0 0 c.code
  (s.request (forwardRequest t t.address 0 none)).beginCommand c

/-! ## The waiter slot (R87, R88) -/

/-- A command word write is refused: answered ERROR, counted in other refusals, noticed with source 0 (R87, R88,
R121). -/
def State.refuseCommand (s : State) (t : Transaction) (reason : Byte) : State :=
  (({ s with dec := { s.dec with otherRefusals := s.dec.otherRefusals + 1 } }).answerError t).produce
    { kind := .accessRefused, source := 0, reason := reason, master := masterByte t, value16 := 0,
      address := t.address, value32 := 0 }

/-- A command word write that finds the unit RUNNING (R87, R125). -/
def State.enterWaiter (s : State) (t : Transaction) : State :=
  if s.hold.waiter.isSome then s.refuseCommand t reasonCommandQueueFull
  else if s.hold.commandLimit = 0 then s.refuseCommand t reasonCommandBusy
  else
    { s with hold := { s.hold with
        waiter := some
          { tx := t, arrival := s.hold.ticks, deadline := s.hold.ticks + s.hold.commandLimit.zeroExtend 32,
            due := false } } }

/-- An accepted command word write is decoded (R124, R125). -/
def State.commandWord (s : State) (t : Transaction) : State :=
  if s.cmd.running then s.enterWaiter t else s.takeCommand t

/-- The IDLE unit takes the command write waiting in the slot (R88). -/
def State.handover (s : State) : State :=
  match s.hold.waiter with
  | none => s
  | some w =>
    if s.cmd.running then s
    else ({ s with hold := { s.hold with waiter := none } }).takeCommand w.tx

/-- The waiting command write whose deadline was reached is refused COMMAND_BUSY (R88). -/
def State.waiterExpiry (s : State) : State :=
  match s.hold.waiter with
  | none => s
  | some w =>
    if w.due then ({ s with hold := { s.hold with waiter := none } }).refuseCommand w.tx reasonCommandBusy else s

end Sys2Proof.Machine
end

