-- ==== Sys2Proof/Machine/DecoderOps.lean ====
section
/-!
DEFINITION. The system port and the aperture decoder (spec/06, spec/07 R109, spec/08 R120 to R122, spec/11 R161).
-/
namespace Sys2Proof.Machine

/-! ## Refusals at decode (R101) -/

/-- A refusal MISALIGNED: answered ERROR, counted in other refusals, noticed with source 0xFF (R93, R101). -/
def State.refuseMisaligned (s : State) (t : Transaction) : State :=
  (({ s with dec := { s.dec with otherRefusals := s.dec.otherRefusals + 1 } }).answerError t).produce
    (refusalNotice t 0xFF reasonMisaligned)

/-- A refusal POOL or GUARD: answered ERROR, counted in guard refusals, noticed (R95, R97, R98, R101). -/
def State.refuseGuard (s : State) (t : Transaction) (source reason : Byte) : State :=
  (({ s with dec := { s.dec with guardRefusals := s.dec.guardRefusals + 1 } }).answerError t).produce
    (refusalNotice t source reason)

/-- A refusal COMMAND_SIZE: answered ERROR, counted in other refusals, noticed with source 0 (R121). -/
def State.refuseSize (s : State) (t : Transaction) : State :=
  (({ s with dec := { s.dec with otherRefusals := s.dec.otherRefusals + 1 } }).answerError t).produce
    (refusalNotice t 0 reasonCommandSize)

/-! ## Forwarding (R100, R109) -/

/-- A transaction is forwarded to an address; `source` is the entry that decided it, 0xFF for none. -/
def State.forward (s : State) (t : Transaction) (address : Addr) (source : Byte) : State :=
  s.request (forwardRequest t address source none)

/-- A transaction under a TAP entry is forwarded unchanged; a write, and with READS a read, is captured (R109). -/
def State.forwardTapped (s : State) (t : Transaction) (entry : Fin 23) (n : LaneNo) (reads hold : Bool) : State :=
  let captured := t.direction == .write || reads
  s.request (forwardRequest t t.address (entryByte entry)
    (if captured then some { lane := n, entry := entry, hold := hold } else none))

/-! ## The control block (R120 to R122) -/

/-- A write at an offset of the control block touches the bytes from `first` on, `count` of them. -/
def touches (offset size first count : Nat) : Bool := offset < first + count && first < offset + size

/-- The offset of an address from the control block base (R94). -/
def State.controlOffset (s : State) (a : Addr) : Nat := (a - s.controlAddress 0).toNat

/-- An address lies in entry 0 (R94). -/
def State.inControl (s : State) (a : Addr) : Bool := s.controlOffset a < 4096

/-- Control block handling of a transaction decoded CONTROL (R120, R121, R122). -/
def State.control (s : State) (t : Transaction) : State :=
  let offset := s.controlOffset t.address
  match t.direction with
  | .read => s.forward t t.address 0
  | .write =>
    if touches offset t.size 0x800 8 then
      if offset = 0x800 ∧ t.size = 8 then s.commandWord t else s.refuseSize t
    else if touches offset t.size 0x810 4 then
      if offset = 0x810 ∧ t.size = 4 then
        (s.forward t t.address 0).consumerWrite (quadOf t.data (firstLane t))
      else s.refuseSize t
    else s.forward t t.address 0

/-! ## Decode (R92 to R99) -/

/-- An address lies in the range of an entry: with its low bits cleared it is the base (R96). -/
def inRange (base : Addr) (exponent : Nat) (a : Addr) : Bool :=
  a.toNat - a.toNat % 2 ^ exponent == base.toNat

/-- An entry matches a transaction (R96). -/
def Aperture.covers (t : Transaction) : Aperture → Bool
  | .invalid => false
  | .pass b e _ => inRange b e t.address
  | .guard b e _ mask => inRange b e t.address && mask.getLsbD t.master.toNat
  | .put b e _ => inRange b e t.address
  | .take b e _ => inRange b e t.address
  | .tap b e _ _ _ => inRange b e t.address

/-- The first of entries 1 to 23 that matches, with its index (R96). -/
def Decoder.firstMatch (d : Decoder) (t : Transaction) : Option (Fin 23 × Aperture) :=
  ((List.finRange 23).find? fun i => (d.entries[i.val]).covers t).map fun i => (i, d.entries[i.val])

/-- A guard mode refuses a direction (R97). -/
def GuardMode.refuses : GuardMode → Direction → Bool
  | .noWrite, .write => true
  | .noWrite, .read => false
  | .noRead, .read => true
  | .noRead, .write => false
  | .noAccess, _ => true

/-- An address lies in the pool guard range and POOL_OPEN is clear (R95). -/
def Decoder.guarded (d : Decoder) (a : Addr) : Bool :=
  !d.poolOpen && match d.guard with
    | some (first, last) => first ≤ a.toNat && a.toNat < last
    | none => false

/-- The relocated address of a PASS entry (R98). -/
def relocate (base target a : Addr) : Addr := target + (a - base)

/-- A matching entry decides the transaction by its kind (R97, R98, R99). -/
def State.byEntry (s : State) (t : Transaction) (i : Fin 23) : Aperture → State
  | .invalid => s.forward t t.address 0xFF
  | .guard _ _ mode _ =>
    if mode.refuses t.direction then s.refuseGuard t (entryByte i) reasonGuard
    else s.forward t t.address (entryByte i)
  | .pass base _ target =>
    let a := relocate base target t.address
    if s.dec.guarded a then s.refuseGuard t (entryByte i) reasonPool else s.forward t a (entryByte i)
  | .put _ _ n =>
    match t.direction with
    | .write => s.arrivePut n i t
    | .read => s.putStatus n t
  | .take _ _ n => s.arriveTake n i t
  | .tap _ _ n reads hold => s.forwardTapped t i n reads hold

/-- Steps 3 to 6 of decode (6.2). -/
def State.decode (s : State) (t : Transaction) : State :=
  if s.inControl t.address then s.control t
  else if s.dec.guarded t.address then s.refuseGuard t 0xFF reasonPool
  else match s.dec.firstMatch t with
    | some (i, a) => s.byEntry t i a
    | none => s.forward t t.address 0xFF

/-! ## The system port takes a transaction (R161) -/

/-- The tag a transaction names is free. -/
def State.tagFree (s : State) (tag : Tag) : Bool := s.sys.tags[tag.val].isNone

/-- The tag entry becomes outstanding (R161). -/
def State.occupy (s : State) (t : Transaction) : State :=
  { s with sys := { s.sys with
      tags := s.sys.tags.set t.tag.val
        (some { master := t.master, direction := t.direction, size := t.size, address := t.address }) } }

/-- A transaction is taken: its tag becomes outstanding; it is refused MISALIGNED, frozen, or decoded (R92, R93,
R104, R161). -/
def State.take (s : State) (t : Transaction) : State :=
  let s := s.occupy t
  if !aligned t then s.refuseMisaligned t
  else if s.sys.freeze then { s with dec := { s.dec with frozen := s.dec.frozen ++ [t] } }
  else s.decode t

/-- The first presented transaction is taken if its tag is free and RST_N is high; the next is then looked at (R161,
R166). -/
def State.takePresented (s : State) : State :=
  match s.sys.presented with
  | [] => s
  | t :: rest =>
    if !s.rst && s.tagFree t.tag then
      (({ s with sys := { s.sys with presented := rest } }).take t).schedule [.takePresented]
    else s

end Sys2Proof.Machine
end

