-- ==== Sys2Proof/Machine/Events.lean ====
section
/-!
DEFINITION. An event: a body, and everything that comes about in the same event because of it, to the end. The parts
noted in `todo` are done depth first: what a part notes is done before the parts noted earlier and not yet begun.
-/
namespace Sys2Proof.Machine

/-- A held entry that was woken is evaluated, if it is still held (R82). -/
def State.wakeEntry (s : State) (n : LaneNo) (line : Line) : State :=
  if (s.heldOf n line).isSome then
    match line with
    | .put => s.evalPut n
    | .take => s.evalTake n
  else s

/-- A put that waited for a take is evaluated when that take is no longer in flight (R49). -/
def State.waitEnd (s : State) (n : LaneNo) : State :=
  if (s.lane n).putLine.head?.any fun e => e.stage == .waitTake then s.evalPut n else s

/-- One part of an event. -/
def State.doTask (s : State) : Task → State
  | .evalPut n => s.evalPut n
  | .evalTake n => s.evalTake n
  | .wake n line => s.wakeEntry n line
  | .laneTests n => s.laneTests n
  | .waitEnd n => s.waitEnd n
  | .handover => s.handover
  | .thaw => s.thaw
  | .decode t => s.decode t
  | .takePresented => s.takePresented

/-- The parts of an event, done one after the other. -/
def runTasks : Nat → List Task → State → State
  | 0, _, s => s
  | _ + 1, [], s => s
  | fuel + 1, t :: rest, s =>
    let s := s.doTask t
    runTasks fuel (s.todo ++ rest) { s with todo := [] }

/-- Everything that is noted is done. -/
def State.settle (s : State) : State := runTasks Config.eventFuel s.todo { s with todo := [] }

/-- An event that RST_N low does not suppress: what is noted is done; then the replacement of the aperture table is
tested (R105); then presented transactions whose tags are free are taken (R161). -/
def State.finish (s : State) : State :=
  ((s.settle.replaceTest).settle.schedule [.takePresented]).settle

/-- The state at the begin of an event: no answer given in it yet. -/
def State.begin (s : State) : State := { s with sys := { s.sys with responses := [] }, todo := [] }

/-- An event of the block: in hard reset nothing happens (R166), else its body and all that follows from it in the
same event. -/
def event (body : State → State) (s : State) : Host.Outcome State Fault Refusal :=
  .next (if s.rst then s.begin else (body s.begin).finish)

/-- A transaction is offered to the system port, behind those offered before it (R161). -/
def State.offer (s : State) (t : Transaction) : State :=
  { s with sys := { s.sys with presented := s.sys.presented ++ [t] } }

/-- A transaction is presented to the system port, which takes it as soon as it can (R161); while RST_N is low it takes
none, and the masters are in reset with the part (R166). -/
def present (t : Transaction) (s : State) : Host.Outcome State Fault Refusal := event (fun s => s.offer t) s

end Sys2Proof.Machine
end

