-- ==== Sys2Proof/Machine/MemoryPortOps.lean ====
section
/-!
DEFINITION. The memory port (spec/11 R163 to R165): issue in the order of the classes, the match of a response to the
oldest entry, abandonment, and what each owner does when its request ends.
-/
namespace Sys2Proof.Machine

/-! ## Issue (R163, R164) -/

/-- The request that the issue order selects, and the state with it taken from its class (R164). A status write takes
its snapshot and its data now (R149). -/
def State.selectRequest (s : State) : Option (MemRequest × State) :=
  match s.port.noticeQ, s.port.commandQ, s.port.systemQ, s.port.statusQ with
  | r :: q, _, _, _ => some (r, { s with port := { s.port with noticeQ := q } })
  | [], r :: q, _, _ => some (r, { s with port := { s.port with commandQ := q } })
  | [], [], r :: q, _ => some (r, { s with port := { s.port with systemQ := q } })
  | [], [], [], i :: q =>
    let s := ({ s with port := { s.port with statusQ := q } }).takeSnapshot i
    some (s.statusWrite i, s)
  | [], [], [], [] => none

/-- A request joins the tail of the outstanding list with its issue tick and deadline (R163, R165). -/
def State.putOut (s : State) (r : MemRequest) : State :=
  { s with port := { s.port with
      outstanding := s.port.outstanding ++
        [{ request := r, issueTick := s.hold.ticks,
           deadline := if s.port.limit = 0 then none else some (s.hold.ticks + s.port.limit.zeroExtend 32),
           due := false, abandoned := false }] } }

/-- A waiting request is issued into a free place of the outstanding list (R163). -/
def State.issueRequest (s : State) : State :=
  if s.port.outstanding.length < Config.outstandingEntries then
    match s.selectRequest with
    | some (r, s) => s.putOut r
    | none => s
  else s

/-! ## Ends of requests -/

/-- A forwarded access ended (R100, R110, R158): a failure is noticed; the transaction is answered, or its capture
arrives at the lane. -/
def State.forwardEnded (s : State) (r : MemRequest) (t : Transaction) (source : Byte) (tap : Option TapRequest)
    (o : MemOutcome) : State :=
  let s := if o.failed then s.produce (memoryErrorNotice r o source (BitVec.ofNat 16 t.size)) else s
  match tap with
  | none => s.answerOutcome t o
  | some q => s.arriveCapture q t o

/-- The owner of a request receives its outcome; a failure is counted (R152, R163). -/
def State.requestEnded (s : State) (r : MemRequest) (o : MemOutcome) : State :=
  let s := s.countFailure o
  match r.owner with
  | .forward t source tap => s.forwardEnded r t source tap o
  | .bodyWrite n => s.bodyWriteEnded n r o
  | .headerWrite n => s.headerWriteEnded n r o
  | .captureWrite n => s.captureWriteEnded n r o
  | .scanRead n => s.scanReadEnded n r o
  | .headFetch n => s.headFetchEnded n r o
  | .takeRead n => s.takeReadEnded n r o
  | .imageRead offset ticket => s.imageReadEnded r offset ticket o
  | .responseWrite ticket => s.responseWriteEnded r ticket o
  | .noticeWrite => s.noticeRequestEnded !o.failed
  | .statusWrite i => s.statusWriteEnded i

/-- The outcome that a response gives its owner. -/
def outcomeOf : MemResponse → MemOutcome
  | .ok d => .ok d
  | .error => .error

/-- A response of the memory controller (R163, R165): it ends the oldest entry, is discarded if that is abandoned, and
is ignored if the list is empty. -/
def State.memoryResponse (s : State) (m : MemResponse) : State :=
  match s.port.outstanding with
  | [] => s
  | e :: rest =>
    let s := { s with port := { s.port with outstanding := rest } }
    if e.abandoned then s else s.requestEnded e.request (outcomeOf m)

/-- An entry is to be abandoned: its deadline was reached, and it is not abandoned yet (R165). -/
def Outstanding.expires (e : Outstanding) : Bool := e.due && !e.abandoned

/-- The entry of the outstanding list whose deadline was reached is abandoned (R165): it keeps its place, and its owner
receives failure. Of entries whose deadlines were reached at one tick the older is abandoned first, so that they end, and
captures arrive, in the order of issue (R110, R163; log 11). An older entry whose deadline is later, or that has none,
because LOAD SETUP changed the limit between the two, does not hold the younger back: R165 abandons the younger at its
deadline although R110 and R163 have requests end in order. That is the model's choice (log 37). -/
def State.abandon (s : State) (place : Nat) : State :=
  match s.port.outstanding[place]? with
  | none => s
  | some e =>
    if e.expires && !(s.port.outstanding.take place).any Outstanding.expires then
      ({ s with port := { s.port with
          outstanding := s.port.outstanding.set place { e with abandoned := true }
          timeouts := satInc s.port.timeouts } }).requestEnded e.request .timeout
    else s

/-- The entries whose deadlines were reached are abandoned in one event (R165), at most `count` of them: the oldest
first, each with all that comes of it before the next (log 11). -/
def State.abandonReached : Nat → State → State
  | 0, s => s
  | count + 1, s =>
    match s.port.outstanding.findIdx? Outstanding.expires with
    | some place => State.abandonReached count (s.abandon place).settle
    | none => s

end Sys2Proof.Machine
end

