-- ==== Sys2Proof/Machine/Clock.lean ====
section
/-!
DEFINITION. The commands of RST_N, the straps and the tick: HARD_RESET, RESET_RELEASE, TICK, the abandonment of memory
requests, and the expiries that a tick makes due.
-/
namespace Sys2Proof.Machine

/-- HARD_RESET (R166): every block takes its reset values; what was outstanding is forgotten. The queue of commands is
outside the block, and the counter of free values is the model's own. -/
def execHardReset (s : State) : Host.Outcome State Fault Refusal :=
  .next { State.reset with pending := s.pending, choices := s.choices }

/-- RST_N rises: the straps are sampled, and with AUTOLD high autoload begins with the setup header (R123, R167). -/
def State.releaseReset (s : State) (cfgb : BitVec 8) (autold : Bool) : State :=
  let s := { s with rst := false, autold := autold, dec := { s.dec with cfgb := cfgb } }
  if autold then
    ({ s with cmd := { s.cmd with running := true, autoload := some .setup } }).readImages setupOffsets
  else s

/-- RESET_RELEASE (R123, R166, R167). RST_N that is high already does not rise. -/
def execResetRelease (cfgb : BitVec 8) (autold : Bool) (s : State) : Host.Outcome State Fault Refusal :=
  if s.rst then .next (s.begin.releaseReset cfgb autold).finish else .next s.begin

/-- The hold unit at a tick whose new counter value is `now`: the cycle count returns to 0, and entries whose deadline
is reached are due (R76, R77, R83, R88). -/
def HoldUnit.tick (h : HoldUnit) (now : Quad) : HoldUnit :=
  { h with
    cycle := 0
    ticks := now
    held := h.held.map fun e => { e with due := e.due || e.deadline == now }
    waiter := h.waiter.map fun w => { w with due := w.due || w.deadline == now } }

/-- The status writer at a tick: the interval timer (R146). -/
def StatusWriter.tick (w : StatusWriter) : StatusWriter :=
  if w.interval = 0 then w
  else if 1024 * w.interval.toNat ≤ w.timer + 1 then { w with timer := 0, expiryDue := true }
  else { w with timer := w.timer + 1 }

/-- An outstanding entry at a tick whose new counter value is `now` (R165). -/
def Outstanding.tick (now : Quad) (e : Outstanding) : Outstanding :=
  { e with due := e.due || (!e.abandoned && e.deadline == some now) }

/-- The counters and timers at a tick, and the deadlines that the new counter value reaches (R76, R77, R83, R88, R146,
R165). -/
def State.countTick (s : State) : State :=
  let now := s.hold.ticks + 1
  { s with
    hold := s.hold.tick now
    status := s.status.tick
    port := { s.port with outstanding := s.port.outstanding.map (Outstanding.tick now) } }

/-- A tick: the counters; then, in its event, every outstanding request whose deadline is the new counter value is
abandoned (R165). The expiries of held entries, of the command waiter and of the interval are due and are events of their
own (R83 to R85, R88, R146; log 11). -/
def State.tick (s : State) : State := s.countTick.abandonReached s.port.outstanding.length

/-- TICK (R76). -/
def execTick (s : State) : Host.Outcome State Fault Refusal := event State.tick s

/-- The held entry of a line whose deadline was reached is ended (R84); without one nothing happens (R85). -/
def State.takeExpiry (s : State) (n : LaneNo) (line : Line) : State :=
  match s.heldOf n line with
  | none => s
  | some h =>
    let ticks : Half := (h.deadline - h.start).setWidth 16
    if !h.due then s
    else match line with
      | .put =>
        match (s.lane n).putLine with
        | e :: _ => s.expirePut n e reasonExpired ticks h.start
        | [] => s
      | .take =>
        match (s.lane n).takeLine with
        | e :: _ => s.expireTake n e reasonExpired ticks h.start
        | [] => s

/-- HOLD_EXPIRY (R84). -/
def execHoldExpiry (n : LaneNo) (line : Line) (s : State) : Host.Outcome State Fault Refusal :=
  event (fun s => s.takeExpiry n line) s

/-- COMMAND_WAITER_EXPIRY (R88). -/
def execCommandWaiterExpiry (s : State) : Host.Outcome State Fault Refusal := event State.waiterExpiry s

/-- MEMORY_REQUEST_ABANDON (R165): the abandonment of one request. A tick makes it in its own event, so between events
none is due in a state that a run reaches (log 7). -/
def execMemoryRequestAbandon (place : Fin 8) (s : State) : Host.Outcome State Fault Refusal :=
  event (fun s => s.abandon place.val) s

/-- STATUS_INTERVAL_EXPIRY (R146, R147). -/
def execStatusIntervalExpiry (s : State) : Host.Outcome State Fault Refusal := event State.takeIntervalExpiry s

/-- With no command waiting, one CLK cycle passes (R76): the cycle count rises, and a tick occurs when it reaches the
divider. In hard reset the cycle count stands still. -/
def idleCycle (s : State) : Host.Outcome State Fault Refusal :=
  if s.rst then .next s
  else if s.hold.divider.toNat ≤ s.hold.cycle + 1 then event State.tick s
  else .next { s with hold := { s.hold with cycle := s.hold.cycle + 1 } }

end Sys2Proof.Machine
end

