-- ==== Sys2Proof/Machine/Transactions.lean ====
section
/-!
DEFINITION. The commands that are transactions presented to the system port. Each row of the table names the path that
the decoder is expected to choose; the decoder chooses (R92).
-/
namespace Sys2Proof.Machine

/-- SYSTEM_PORT_TRANSACTION (R92, R161). -/
def execSystemPortTransaction (t : Transaction) (s : State) : Host.Outcome State Fault Refusal := present t s

/-- BODY_PUT (R39, R41): a write in the body region of a PUT aperture. -/
def execBodyPut (t : Transaction) (s : State) : Host.Outcome State Fault Refusal := present t s

/-- FINAL_PUT (R39, R53): a write in the final region of a PUT aperture. -/
def execFinalPut (t : Transaction) (s : State) : Host.Outcome State Fault Refusal := present t s

/-- PUT_STATUS_READ (R40): a read in a PUT aperture. -/
def execPutStatusRead (t : Transaction) (s : State) : Host.Outcome State Fault Refusal := present t s

/-- DATA_READ (R57, R62): a read in the data region of a TAKE aperture. -/
def execDataRead (t : Transaction) (s : State) : Host.Outcome State Fault Refusal := present t s

/-- HEAD_INFO_READ (R57, R65): a read in the head info region of a TAKE aperture. -/
def execHeadInfoRead (t : Transaction) (s : State) : Host.Outcome State Fault Refusal := present t s

/-- RELEASE (R57, R66): a read in the release region of a TAKE aperture. -/
def execRelease (t : Transaction) (s : State) : Host.Outcome State Fault Refusal := present t s

/-- TAPPED_ACCESS (R109): a transaction that a TAP entry matches. -/
def execTappedAccess (t : Transaction) (s : State) : Host.Outcome State Fault Refusal := present t s

/-- The transaction that writes 4 bytes at 0x810 of the control block (R122). -/
def consumerTransaction (s : State) (master : BitVec 4) (tag : Tag) (value : Quad) : Transaction :=
  { address := s.controlAddress 0x810, direction := .write, size := 4, master := master, tag := tag,
    data := packQuads value 0 }

/-- NOTICE_CONSUMER_INDEX (R122, R143). -/
def execNoticeConsumerIndex (master : BitVec 4) (tag : Tag) (value : Quad) (s : State) :
    Host.Outcome State Fault Refusal :=
  present (consumerTransaction s master tag value) s

/-- The transaction that writes the command word with a code (12.3). -/
def commandTransaction (s : State) (code : Byte) (w : CommandWrite) : Transaction :=
  { address := s.controlAddress 0x800, direction := .write, size := 8, master := w.master, tag := w.tag,
    data := packHalves (packPair code w.lane) (packPair w.flags w.unused3) w.ticket w.unused6 }

/-- LOAD_SETUP (R124, R131). -/
def execLoadSetup (w : CommandWrite) (s : State) : Host.Outcome State Fault Refusal :=
  present (commandTransaction s codeLoadSetup w) s

/-- LOAD_APERTURES (R124, R133). -/
def execLoadApertures (w : CommandWrite) (s : State) : Host.Outcome State Fault Refusal :=
  present (commandTransaction s codeLoadApertures w) s

/-- OPEN_LANE (R124, R134). -/
def execOpenLane (w : CommandWrite) (s : State) : Host.Outcome State Fault Refusal :=
  present (commandTransaction s codeOpenLane w) s

/-- CLOSE_LANE (R4, R124, R135). -/
def execCloseLane (w : CommandWrite) (s : State) : Host.Outcome State Fault Refusal :=
  present (commandTransaction s codeCloseLane w) s

/-- FLUSH_LANE (R7, R124, R136). -/
def execFlushLane (w : CommandWrite) (s : State) : Host.Outcome State Fault Refusal :=
  present (commandTransaction s codeFlushLane w) s

/-- RESET_LANE (R7, R124, R136). -/
def execResetLane (w : CommandWrite) (s : State) : Host.Outcome State Fault Refusal :=
  present (commandTransaction s codeResetLane w) s

/-- WRITE_STATUS (R124, R137). -/
def execWriteStatus (w : CommandWrite) (s : State) : Host.Outcome State Fault Refusal :=
  present (commandTransaction s codeWriteStatus w) s

/-- UNKNOWN_COMMAND (R124, R126): a command word with a code outside the seven. -/
def execUnknownCommand (code : Byte) (w : CommandWrite) (s : State) : Host.Outcome State Fault Refusal :=
  present (commandTransaction s code w) s

end Sys2Proof.Machine
end

