-- ==== Sys2Proof/Machine/Responses.lean ====
section
/-!
DEFINITION. The commands of the memory port: the issue of a request, and the arrival of a response. Each row of the
table names the request that the response is expected to end; responses carry no identifier and end the oldest entry
(R163).
-/
namespace Sys2Proof.Machine

/-- MEMORY_REQUEST_ISSUE (R163, R164). -/
def execMemoryRequestIssue (s : State) : Host.Outcome State Fault Refusal := event State.issueRequest s

/-- PASS_THROUGH_END (R100, R110). -/
def execPassThroughEnd (m : MemResponse) (s : State) : Host.Outcome State Fault Refusal :=
  event (fun s => s.memoryResponse m) s

/-- BODY_WRITE_END (R52). -/
def execBodyWriteEnd (m : MemResponse) (s : State) : Host.Outcome State Fault Refusal :=
  event (fun s => s.memoryResponse m) s

/-- HEADER_WRITE_END (R13, R53, R114). -/
def execHeaderWriteEnd (m : MemResponse) (s : State) : Host.Outcome State Fault Refusal :=
  event (fun s => s.memoryResponse m) s

/-- CAPTURE_WRITE_END (R114). -/
def execCaptureWriteEnd (m : MemResponse) (s : State) : Host.Outcome State Fault Refusal :=
  event (fun s => s.memoryResponse m) s

/-- SCAN_READ_END (R50). -/
def execScanReadEnd (m : MemResponse) (s : State) : Host.Outcome State Fault Refusal :=
  event (fun s => s.memoryResponse m) s

/-- HEAD_FETCH_END (R59, R60, R61). -/
def execHeadFetchEnd (m : MemResponse) (s : State) : Host.Outcome State Fault Refusal :=
  event (fun s => s.memoryResponse m) s

/-- TAKE_READ_END (R63). -/
def execTakeReadEnd (m : MemResponse) (s : State) : Host.Outcome State Fault Refusal :=
  event (fun s => s.memoryResponse m) s

/-- IMAGE_READ_END (R129). -/
def execImageReadEnd (m : MemResponse) (s : State) : Host.Outcome State Fault Refusal :=
  event (fun s => s.memoryResponse m) s

/-- RESPONSE_WRITE_END (R130). -/
def execResponseWriteEnd (m : MemResponse) (s : State) : Host.Outcome State Fault Refusal :=
  event (fun s => s.memoryResponse m) s

/-- NOTICE_WRITE_END (R141). -/
def execNoticeWriteEnd (m : MemResponse) (s : State) : Host.Outcome State Fault Refusal :=
  event (fun s => s.memoryResponse m) s

/-- STATUS_WRITE_END (R148, R151). -/
def execStatusWriteEnd (m : MemResponse) (s : State) : Host.Outcome State Fault Refusal :=
  event (fun s => s.memoryResponse m) s

/-- LATE_RESPONSE (R163, R165): the response of an abandoned entry is discarded, and one that finds the list empty is
ignored. -/
def execLateResponse (m : MemResponse) (s : State) : Host.Outcome State Fault Refusal :=
  event (fun s => s.memoryResponse m) s

end Sys2Proof.Machine
end

