-- ==== Sys2Proof/Machine/Internal.lean ====
section
/-!
DEFINITION. The commands that name a step the block makes by itself when its condition holds. The rules place each of
them in the event that makes the condition true, and the model does so there (log 7); taken from the queue, each makes
the same test and does the same work if it is due.
-/
namespace Sys2Proof.Machine

/-- COMMAND_WAITER_HANDOVER (R88). -/
def execCommandWaiterHandover (s : State) : Host.Outcome State Fault Refusal := event State.handover s

/-- PUT_TAKE_WAIT_END (R49). -/
def execPutTakeWaitEnd (n : LaneNo) (s : State) : Host.Outcome State Fault Refusal :=
  event (fun s => s.waitEnd n) s

/-- HELD_ENTRY_WAKE (R82). -/
def execHeldEntryWake (n : LaneNo) (line : Line) (s : State) : Host.Outcome State Fault Refusal :=
  event (fun s => s.wakeEntry n line) s

/-- PARCEL_CUT (R4). -/
def execParcelCut (n : LaneNo) (s : State) : Host.Outcome State Fault Refusal := event (fun s => s.cutTest n) s

/-- DRAIN_COMPLETION (R5). -/
def execDrainCompletion (n : LaneNo) (s : State) : Host.Outcome State Fault Refusal :=
  event (fun s => s.drainTest n) s

/-- LANE_DISCARD (R8). -/
def execLaneDiscard (n : LaneNo) (s : State) : Host.Outcome State Fault Refusal :=
  event (fun s => s.discardTest n) s

/-- APERTURE_REPLACEMENT (R105). -/
def execApertureReplacement (s : State) : Host.Outcome State Fault Refusal := event State.replaceTest s

/-- NOTICE_WRITE (R140). -/
def execNoticeWrite (s : State) : Host.Outcome State Fault Refusal := event State.chooseNotice s

/-- A write-back that is called for begins (R147, R148): one marked to follow, or one for an expiry of the interval,
while none is running. -/
def State.dueWriteBack (s : State) : State :=
  if s.status.inProgress then s
  else if s.status.followOn then s.beginFollowOn
  else s.takeIntervalExpiry

/-- STATUS_WRITE_BACK (R148). -/
def execStatusWriteBack (s : State) : Host.Outcome State Fault Refusal := event State.dueWriteBack s

/-- GENERATION_END (R148). -/
def execGenerationEnd (s : State) : Host.Outcome State Fault Refusal := event State.generationTest s

end Sys2Proof.Machine
end

