-- ==== Sys2Proof/Machine/Dispatch.lean ====
section
/-! DEFINITION. One arm for each command: a direct call of its meaning. -/
namespace Sys2Proof.Machine

def exec (i : Instr) (s : State) : Host.Outcome State Fault Refusal :=
  match i with
  | .hardReset => Sys2Proof.Machine.execHardReset s
  | .resetRelease cfgb autold => Sys2Proof.Machine.execResetRelease cfgb autold s
  | .tick => Sys2Proof.Machine.execTick s
  | .holdExpiry lane line => Sys2Proof.Machine.execHoldExpiry lane line s
  | .commandWaiterExpiry => Sys2Proof.Machine.execCommandWaiterExpiry s
  | .memoryRequestAbandon place => Sys2Proof.Machine.execMemoryRequestAbandon place s
  | .statusIntervalExpiry => Sys2Proof.Machine.execStatusIntervalExpiry s
  | .systemPortTransaction t => Sys2Proof.Machine.execSystemPortTransaction t s
  | .bodyPut t => Sys2Proof.Machine.execBodyPut t s
  | .finalPut t => Sys2Proof.Machine.execFinalPut t s
  | .putStatusRead t => Sys2Proof.Machine.execPutStatusRead t s
  | .dataRead t => Sys2Proof.Machine.execDataRead t s
  | .headInfoRead t => Sys2Proof.Machine.execHeadInfoRead t s
  | .release t => Sys2Proof.Machine.execRelease t s
  | .tappedAccess t => Sys2Proof.Machine.execTappedAccess t s
  | .noticeConsumerIndex master tag value => Sys2Proof.Machine.execNoticeConsumerIndex master tag value s
  | .loadSetup w => Sys2Proof.Machine.execLoadSetup w s
  | .loadApertures w => Sys2Proof.Machine.execLoadApertures w s
  | .openLane w => Sys2Proof.Machine.execOpenLane w s
  | .closeLane w => Sys2Proof.Machine.execCloseLane w s
  | .flushLane w => Sys2Proof.Machine.execFlushLane w s
  | .resetLane w => Sys2Proof.Machine.execResetLane w s
  | .writeStatus w => Sys2Proof.Machine.execWriteStatus w s
  | .unknownCommand code w => Sys2Proof.Machine.execUnknownCommand code w s
  | .commandWaiterHandover => Sys2Proof.Machine.execCommandWaiterHandover s
  | .memoryRequestIssue => Sys2Proof.Machine.execMemoryRequestIssue s
  | .passThroughEnd r => Sys2Proof.Machine.execPassThroughEnd r s
  | .bodyWriteEnd r => Sys2Proof.Machine.execBodyWriteEnd r s
  | .headerWriteEnd r => Sys2Proof.Machine.execHeaderWriteEnd r s
  | .captureWriteEnd r => Sys2Proof.Machine.execCaptureWriteEnd r s
  | .scanReadEnd r => Sys2Proof.Machine.execScanReadEnd r s
  | .headFetchEnd r => Sys2Proof.Machine.execHeadFetchEnd r s
  | .takeReadEnd r => Sys2Proof.Machine.execTakeReadEnd r s
  | .imageReadEnd r => Sys2Proof.Machine.execImageReadEnd r s
  | .responseWriteEnd r => Sys2Proof.Machine.execResponseWriteEnd r s
  | .noticeWriteEnd r => Sys2Proof.Machine.execNoticeWriteEnd r s
  | .statusWriteEnd r => Sys2Proof.Machine.execStatusWriteEnd r s
  | .lateResponse r => Sys2Proof.Machine.execLateResponse r s
  | .putTakeWaitEnd lane => Sys2Proof.Machine.execPutTakeWaitEnd lane s
  | .heldEntryWake lane line => Sys2Proof.Machine.execHeldEntryWake lane line s
  | .parcelCut lane => Sys2Proof.Machine.execParcelCut lane s
  | .drainCompletion lane => Sys2Proof.Machine.execDrainCompletion lane s
  | .laneDiscard lane => Sys2Proof.Machine.execLaneDiscard lane s
  | .apertureReplacement => Sys2Proof.Machine.execApertureReplacement s
  | .noticeWrite => Sys2Proof.Machine.execNoticeWrite s
  | .statusWriteBack => Sys2Proof.Machine.execStatusWriteBack s
  | .generationEnd => Sys2Proof.Machine.execGenerationEnd s

end Sys2Proof.Machine
end

