-- ==== Sys2Proof/Safety.lean ====
section
/-!
DEFINITION. The laws of the device that the spec states (R14 to R17, R31, R32, R36, R37, R89, R138, R144, R163), as
properties of the state, and the states in which an event has no work but its own.
-/
namespace Sys2Proof.Machine

/-! ## Laws -/

/-- The law of the ring and of INT_N (R144), the size of the pending list (R138), and what keeps the bound: a notice
write to the ring in force is unended only while the ring is not full. -/
structure NoticeWriter.Law (w : NoticeWriter) : Prop where
  bound   : w.unconsumed ≤ w.entries
  ring    : w.entries ≤ 4096
  room    : ∀ x, w.write = some x → x.stale = false → w.unconsumed < w.entries
  intN    : w.intN = !(w.enable && w.producer != w.consumer)
  waiting : w.waiting.length ≤ 8

/-- The lane and the line of a held entry. -/
def HeldEntry.key (e : HeldEntry) : LaneNo × Line := (e.lane, e.line)

/-- The law of the held table (R89): at most six entries, each of a different lane line. -/
structure HoldUnit.Law (h : HoldUnit) : Prop where
  size  : h.held.length ≤ 6
  lines : (h.held.map HeldEntry.key).Nodup

/-- How many open parcels a lane has: 0 or 1 (R18). -/
def Lane.openCount (l : Lane) : Nat := if l.openParcel.isSome then 1 else 0

/-- The laws of a lane: its sequences and the parcel limit (R14, R15), segments and parcels (R16), the quota and the
CLOSED lane (R17), and which line entries a DRAINING or busy lane can have (R4, R7). -/
structure Lane.Law (l : Lane) : Prop where
  sequences : l.putSeq = l.takeSeq + BitVec.ofNat 16 (l.ready + l.openCount)
  limit     : l.ready + l.openCount ≤ 65535
  segments  : l.chain = [] ↔ l.ready + l.openCount = 0
  quota     : l.chain.length ≤ l.desc.quota
  closed    : l.state = .closed → l.ready + l.openCount = 0 ∧ l.putLine = [] ∧ l.takeLine = []
  draining  : l.state = .draining → ∀ e ∈ l.putLine, e.inFlight = true
  busy      : l.busy ≠ .clear → (∀ e ∈ l.putLine, e.inFlight = true) ∧ ∀ e ∈ l.takeLine, e.inFlight = true

/-- Every lane is CLOSED. -/
def State.allClosed (s : State) : Prop := ∀ n, (s.lane n).state = .closed

/-- A step of autoload counts on lane `n` being CLOSED: a step before the descriptor of lane `n` is applied. -/
def AutoStep.countsOn (n : LaneNo) : AutoStep → Prop
  | .setup => True
  | .apertures => True
  | .descriptor m => m.val ≤ n.val

/-- The images a command reads count on lane `n` being CLOSED (R131, R134). -/
def ImageKind.countsOn (n : LaneNo) : ImageKind → Prop
  | .setup => True
  | .apertures => False
  | .descriptor m => m = n

/-- The work of a command is image reading. -/
def CommandWork.reading : CommandWork → Prop
  | .images _ _ _ => True
  | _ => False

/-- The work that autoload can have. -/
def CommandWork.ofAutoload : CommandWork → Prop
  | .none | .images _ _ _ | .freezing _ => True
  | .closing _ | .emptying _ | .status _ => False

/-- A lane that the command unit counts on being CLOSED is CLOSED: a precondition that held when a command was taken
still holds when it is applied (R126). -/
structure State.CommandLaw (s : State) : Prop where
  idle    : s.cmd.running = false → s.cmd.work = .none ∧ s.cmd.autoload = none
  auto    : s.cmd.autoload ≠ none → s.cmd.work.ofAutoload
  loading : ∀ step, s.cmd.autoload = some step → ∀ n, step.countsOn n → (s.lane n).state = .closed
  reading : s.cmd.autoload = none → s.cmd.work.reading →
    ∀ k, s.cmd.imageKind = some k → ∀ n, k.countsOn n → (s.lane n).state = .closed
  inReset : s.rst = true → s.allClosed

/-- The segments that the lanes hold. -/
def State.chains (s : State) : List Nat := (s.lanes.toList.map Lane.chain).flatten

/-- The law of the pool with the segments `hand` on their way between lists: every segment lies in one list once (R36,
R37); min free is not above the free count (R31); POOL_LOW is armed at or above the watermark (R32). -/
structure State.PoolLaw (s : State) (hand : List Nat) : Prop where
  places  : (s.pool.freeList ++ s.chains ++ hand).Perm (List.range s.pool.count)
  minFree : s.pool.minFree ≤ s.pool.freeCount
  armed   : s.pool.count ≠ 0 → s.pool.watermark ≤ s.pool.freeCount → s.pool.armed = true

/-- All the laws, with the segments `hand` on their way between lists. -/
structure State.LawfulWith (s : State) (hand : List Nat) : Prop where
  notice  : s.notice.Law
  hold    : s.hold.Law
  port    : s.port.outstanding.length ≤ 8
  lanes   : ∀ n, (s.lane n).Law
  command : s.CommandLaw
  pool    : s.PoolLaw hand

/-- All the laws of the device, between two events. -/
def State.Lawful (s : State) : Prop := s.LawfulWith []

/-! ## Events that have no work but their own -/

/-- RST_N is high, no transaction waits to be taken, and no replacement of the aperture table is due: an event does its
own work and no more. -/
structure State.Calm (s : State) : Prop where
  running   : s.rst = false
  presented : s.sys.presented = []
  thawed    : ∀ table, s.cmd.work ≠ .freezing table

/-- The transaction that a command presents to the system port, for the rows of the table that are transactions. -/
def State.presents (s : State) : Instr → Option Transaction
  | .systemPortTransaction t | .bodyPut t | .finalPut t | .putStatusRead t | .dataRead t | .headInfoRead t
  | .release t | .tappedAccess t => some t
  | .noticeConsumerIndex master tag value => some (consumerTransaction s master tag value)
  | .loadSetup w => some (commandTransaction s codeLoadSetup w)
  | .loadApertures w => some (commandTransaction s codeLoadApertures w)
  | .openLane w => some (commandTransaction s codeOpenLane w)
  | .closeLane w => some (commandTransaction s codeCloseLane w)
  | .flushLane w => some (commandTransaction s codeFlushLane w)
  | .resetLane w => some (commandTransaction s codeResetLane w)
  | .writeStatus w => some (commandTransaction s codeWriteStatus w)
  | .unknownCommand code w => some (commandTransaction s code w)
  | _ => none

/-- The port takes transaction `t` in the event that presents it, and decodes it there: the state is calm, the tag is
free, the access is aligned, decode is not frozen. -/
structure State.Decodes (s : State) (t : Transaction) : Prop where
  calm    : s.Calm
  free    : s.tagFree t.tag = true
  aligned : aligned t = true
  thawed  : s.sys.freeze = false

/-- Decode of `t` ends at step 5 with entry `i` of the table, whose contents are `a` (6.2). -/
structure State.Routes (s : State) (t : Transaction) (i : Fin 23) (a : Aperture) : Prop where
  decodes : s.Decodes t
  outside : s.inControl t.address = false
  allowed : s.dec.guarded t.address = false
  first   : s.dec.firstMatch t = some (i, a)

/-- The put side of lane `n` has nothing to do: an OPEN lane that no command works on, with an empty put line and no
held put. -/
structure State.PutQuiet (s : State) (n : LaneNo) : Prop where
  opened  : (s.lane n).state = .opened
  clear   : (s.lane n).busy = .clear
  putLine : (s.lane n).putLine = []
  putHeld : s.heldOf n .put = none
  closing : s.cmd.work ≠ .closing n

/-- The take side of lane `n` has nothing to do: an OPEN lane that no command works on, with an empty take line, no
held take and no put that scans or waits for a take. -/
structure State.TakeQuiet (s : State) (n : LaneNo) : Prop where
  opened   : (s.lane n).state = .opened
  clear    : (s.lane n).busy = .clear
  takeLine : (s.lane n).takeLine = []
  takeHeld : s.heldOf n .take = none
  putLine  : (s.lane n).putLine = []
  closing  : s.cmd.work ≠ .closing n

/-- Entry `e` is alone in the put line of lane `n`, not held, on an OPEN lane that no command works on. -/
structure State.Puts (s : State) (n : LaneNo) (e : PutEntry) : Prop where
  opened  : (s.lane n).state = .opened
  clear   : (s.lane n).busy = .clear
  line    : (s.lane n).putLine = [e]
  putHeld : s.heldOf n .put = none
  closing : s.cmd.work ≠ .closing n

/-- Entry `e` is alone in the take line of lane `n`, not held, beside an empty put line, on an OPEN lane that no command
works on. -/
structure State.Takes (s : State) (n : LaneNo) (e : TakeEntry) : Prop where
  opened   : (s.lane n).state = .opened
  clear    : (s.lane n).busy = .clear
  line     : (s.lane n).takeLine = [e]
  takeHeld : s.heldOf n .take = none
  putLine  : (s.lane n).putLine = []
  closing  : s.cmd.work ≠ .closing n

/-! ## What commands leave -/

/-- The block after a command word is taken by the IDLE unit, with its work and its command unit requests: the command is
copied with its master, the unit is RUNNING, commands taken is 1 higher modulo 2^32, the IN_PROGRESS response word goes
before every other request of the command, and the write of the command word itself is forwarded (R124, R127). -/
def State.commandTaken (s : State) (code : Byte) (w : CommandWrite) (work : CommandWork) (requests : List MemRequest) :
    State :=
  let t := commandTransaction s code w
  { s.begin.occupy t with
    cmd :=
      { running := true, autoload := none, work := work, taken := s.cmd.taken + 1,
        current := { code := code, lane := w.lane, flags := w.flags, ticket := w.ticket, master := masterByte t } }
    port := { s.port with
      commandQ := s.port.commandQ ++
        wordRequest (.responseWrite w.ticket) (masterByte t) (s.controlAddress 0x808) true
          (responseWord w.ticket 1 0 0 code) :: requests
      systemQ := s.port.systemQ ++ [forwardRequest t t.address 0 none] } }

/-- The block after a command that was taken has ended in the same event: the second response word with outcome, reason
and detail behind the first, COMMAND_DONE if NOTIFY asks for it, the unit IDLE with no command (R127). -/
def State.commandEnded (s : State) (code : Byte) (w : CommandWrite) (outcome reason detail : Byte) : State :=
  let u := s.commandTaken code w .none [wordRequest (.responseWrite w.ticket) (w.master.zeroExtend 8)
    (s.controlAddress 0x808) true (responseWord w.ticket outcome reason detail code)]
  let u := if w.flags.getLsbD 0 then u.produce (u.commandDoneNotice outcome reason detail) else u
  { u with cmd := { u.cmd with
      running := false, current := { code := 0, lane := 0, flags := 0, ticket := 0, master := 0 } } }

/-! ## Ends of memory requests -/

/-- The oldest entry of the outstanding list is one of request `r` that is not abandoned, with `rest` behind it, in a
calm state: a response ends `r` (R163). -/
structure State.Ends (s : State) (r : MemRequest) (rest : List Outstanding) : Prop where
  calm   : s.Calm
  oldest : ∃ e, s.port.outstanding = e :: rest ∧ e.request = r ∧ e.abandoned = false

/-- The block as the end of its oldest request finds it: that entry has left the outstanding list. -/
def State.ended (s : State) (rest : List Outstanding) : State :=
  { s.begin with port := { s.port with outstanding := rest } }

/-- The block as the failure of its oldest request leaves it before its owner acts: the entry has left the list, the
failure is counted and noticed with source and value16 as R153 gives them for the owner. -/
def State.endedFailed (s : State) (r : MemRequest) (rest : List Outstanding) (source : Byte) (value16 : Half) : State :=
  ({ s.begin with port := { s.port with outstanding := rest, errors := s.port.errors + 1 } } : State).produce
    { kind := .memoryError, source := source, reason := 0x28, master := r.master, value16 := value16,
      address := r.address, value32 := r.owner.classCode }

end Sys2Proof.Machine
end

