-- ==== Sys2Proof/Certificates/Slice0/Obligations.lean ====
section
/-!
DEFINITION. The statements about the model: its rules command by command, where every command completes, the queue and
reset, and the laws of the device that every step keeps.
-/
section
open Sys2Proof Sys2Proof.Machine

/-! ## Queue, reset, clock -/

/-- A step takes the command at the front of the queue and executes it on the state with the queue's rest. -/
def Obligations.StepRunsFrontCommand : Prop :=
  ∀ (c : Instr) (rest : List Instr) (s : State),
    step { s with pending := c :: rest } = exec c { s with pending := rest }

/-- Every command answers a next state, in every state: the block has no stop. The spec's faults are lane states and its
refusals are answers; that nothing stops the block is what the model deduces from that (log 29). -/
def Obligations.EveryCommandAnswersNext : Prop := ∀ (c : Instr) (s : State), ∃ t, exec c s = .next t

/-- With no command waiting one CLK cycle passes (the model's choice, log 2): nothing while RST_N is low; else the cycle
count rises by 1, and in the cycle in which it reaches the divider a tick occurs (R76). -/
def Obligations.EmptyQueueIsOneCycle : Prop :=
  ∀ s : State, s.pending = [] →
    (s.rst = true → step s = .next s) ∧
    (s.rst = false → s.hold.cycle + 1 < s.hold.divider.toNat →
      step s = .next { s with hold := { s.hold with cycle := s.hold.cycle + 1 } }) ∧
    (s.rst = false → s.hold.divider.toNat ≤ s.hold.cycle + 1 → step s = exec .tick s)

/-- The reset values of every block (R1, R24, R90, R91, R123, R145, R146, R166). That RST_N is low in it, and that the
strap fields hold 0 until RST_N rises, is the model's choice (log 1), as is that the unset head and tail offsets are
held as 0 (log 14). -/
def Obligations.ResetValues : Prop :=
  (∀ n, State.reset.lane n =
    { state := .closed, busy := .clear, desc := .zero, chain := [], headOffset := 0, tailOffset := 0, ready := 0,
      openParcel := none, cutting := false, putSeq := 0, takeSeq := 0, cache := none, gap := false, errors := 0,
      cause := .none, armed := false, closed := 0, released := 0, evicted := 0, refusals := 0, expiries := 0,
      overreads := 0, putLine := [], takeLine := [] }) ∧
  State.reset.pool =
    { base := 0, count := 0, freeList := [], minFree := 0, watermark := 0, armed := false } ∧
  State.reset.hold =
    { divider := 100, cycle := 0, ticks := 0, setupMark := 0, commandLimit := 1000, held := [],
      highWater := 0, waiter := none } ∧
  (∀ i : Fin 23, State.reset.dec.entries[i.val] = .invalid ∧
    State.reset.dec.runs[i.val] = { running := false, count := 0 }) ∧
  (State.reset.dec.guard = none ∧ State.reset.dec.poolOpen = false ∧ State.reset.dec.frozen = [] ∧
    State.reset.dec.guardRefusals = 0 ∧ State.reset.dec.otherRefusals = 0 ∧ State.reset.dec.tapLost = 0) ∧
  ((∀ k : Tag, State.reset.sys.tags[k.val] = none) ∧ State.reset.sys.freeze = false ∧
    State.reset.sys.presented = []) ∧
  State.reset.cmd =
    { running := false, current := { code := 0, lane := 0, flags := 0, ticket := 0, master := 0 },
      autoload := none, work := .none, taken := 0 } ∧
  State.reset.notice =
    { ringBase := 0, entries := 0, producer := 0, consumer := 0, loss := 0, mask := 0x7FF,
      enable := false, waiting := [], write := none, badConsumer := 0, writeErrors := 0, intN := true } ∧
  State.reset.status =
    { interval := 0, timer := 0, generation := 0, inProgress := false, followOn := false,
      left := 0, snapshot := [], expiryDue := false } ∧
  State.reset.port =
    { noticeQ := [], commandQ := [], systemQ := [], statusQ := [], outstanding := [], limit := 0,
      errors := 0, timeouts := 0 } ∧
  State.reset.rst = true ∧ State.reset.autold = false ∧ State.reset.dec.cfgb = 0 ∧ State.reset.pending = []

/-- HARD_RESET completes in every state: everything takes its reset value, the outstanding work is forgotten (R166). The
queue of commands, outside the block, and the model's counter of free values stay (log 10). -/
def Obligations.HardResetCompletes : Prop :=
  ∀ s : State, exec .hardReset s = .next { State.reset with pending := s.pending, choices := s.choices }

/-- RESET_RELEASE completes: RST_N rises and the straps are sampled. With AUTOLD low the command unit stays as it is; with
AUTOLD high it is RUNNING in the first step of autoload, with the eight reads of the setup header created in increasing
offset order, from the control block that CFGB places (R123, R129, R167). -/
def Obligations.ResetReleaseCompletes : Prop :=
  ∀ (s : State) (cfgb : BitVec 8), s.rst = true → s.sys.presented = [] → (∀ table, s.cmd.work ≠ .freezing table) →
    exec (.resetRelease cfgb false) s =
      .next { s.begin with rst := false, autold := false, dec := { s.dec with cfgb := cfgb } } ∧
    exec (.resetRelease cfgb true) s =
      .next { s.begin with
        rst := false
        autold := true
        dec := { s.dec with cfgb := cfgb }
        cmd := { s.cmd with running := true, autoload := some .setup, work := .images 8 [] none }
        port := { s.port with commandQ := s.port.commandQ ++ ([0, 8, 16, 24, 32, 40, 48, 56].map fun o =>
          { owner := .imageRead o s.cmd.current.ticket, master := 0xFF,
            address := (cfgb.zeroExtend 32 <<< 24) + BitVec.ofNat 32 o, write := false, enables := 0xFF,
            data := 0 }) } }

/-- While RST_N is low no command but HARD_RESET and RESET_RELEASE has an effect (the model's reading of R166, log 5): no
state changes, and nothing is answered. -/
def Obligations.NothingHappensInReset : Prop :=
  ∀ (c : Instr) (s : State), s.rst = true → c ≠ .hardReset → (∀ cfgb autold, c ≠ .resetRelease cfgb autold) →
    exec c s = .next s.begin

/-- TICK completes: the cycle count returns to 0 and the tick counter rises by 1 modulo 2^32; held entries and the
waiting command write whose deadline is the new value become due; the interval timer rises, or returns to 0 with an
expiry when it reaches 1024 times the interval; with no outstanding request whose deadline is the new value nothing
else changes (R76, R77, R83, R88, R146). Every outstanding request that is not abandoned and whose deadline is the new
value is abandoned in the event of the tick (R165): the oldest first; its mark is set and it keeps its place,
memory-port timeouts rises by 1 (saturating), its owner receives the outcome timeout, and what comes of that is done
before the next is abandoned in its turn; an entry without a reached deadline stays as it is, and does not hold the
others back (the model's choice, log 37). Where all of them are forwarded accesses that are not captured, each is
counted as a memory-port error, noticed with reason TIMEOUT and answered ERROR, in the order of issue (R100, R153,
R158). That the command is a tick whatever the cycle count is the model's choice (log 2); that a held entry, the waiter
and the interval are only marked here, their expiries being events of their own, and that several requests are
abandoned in the order of issue, is its deduction (log 11, log 24). -/
def Obligations.TickCompletes : Prop :=
  ∀ s : State, s.Calm →
    let reached (e : Outstanding) : Bool := !e.abandoned && (e.due || e.deadline == some (s.hold.ticks + 1))
    let ticked (outstanding : List Outstanding) : State := { s.begin with
      hold := { s.hold with
        cycle := 0
        ticks := s.hold.ticks + 1
        held := s.hold.held.map fun e => { e with due := e.due || e.deadline == s.hold.ticks + 1 }
        waiter := s.hold.waiter.map fun w => { w with due := w.due || w.deadline == s.hold.ticks + 1 } }
      status :=
        if s.status.interval = 0 then s.status
        else if 1024 * s.status.interval.toNat ≤ s.status.timer + 1 then
          { s.status with timer := 0, expiryDue := true }
        else { s.status with timer := s.status.timer + 1 }
      port := { s.port with outstanding := outstanding } }
    let fails (u : State) (e : Outstanding) : State :=
      match e.request.owner with
      | .forward t source none => (({ u with port := { u.port with
            timeouts := satInc u.port.timeouts, errors := u.port.errors + 1 } } : State).produce
          { kind := .memoryError, source := source, reason := 0x29, master := e.request.master,
            value16 := BitVec.ofNat 16 t.size, address := e.request.address, value32 := 1 }).answer t.tag true 0
      | _ => u
    ((∀ e ∈ s.port.outstanding, reached e = false) → exec .tick s = .next (ticked s.port.outstanding)) ∧
    ((∀ e ∈ s.port.outstanding, reached e = true → ∃ t source, e.request.owner = .forward t source none) →
      exec .tick s = .next ((s.port.outstanding.filter reached).foldl fails (ticked (s.port.outstanding.map fun e =>
        if reached e then { e with due := true, abandoned := true } else e)))) ∧
    (∀ front e rest, s.port.outstanding = front ++ e :: rest → (∀ x ∈ front, reached x = false) → reached e = true →
      let others := rest.map fun x => if reached x then { x with due := true } else x
      let first : State := ticked (front ++ { e with due := true, abandoned := true } :: others)
      exec .tick s = event (fun _ => ((({ first with port := { first.port with
        timeouts := satInc s.port.timeouts } } : State).requestEnded e.request .timeout).settle).abandonReached
          (front.length + rest.length)) s) ∧
    (∀ (u : State) (count : Nat),
      ((∀ e ∈ u.port.outstanding, e.due = true → e.abandoned = true) → u.abandonReached count = u) ∧
      ∀ front e rest, u.port.outstanding = front ++ e :: rest → (∀ x ∈ front, x.due = true → x.abandoned = true) →
        e.due = true → e.abandoned = false → u.abandonReached (count + 1) =
          ((({ u with port := { u.port with
            outstanding := front ++ { e with abandoned := true } :: rest
            timeouts := satInc u.port.timeouts } } : State).requestEnded e.request .timeout).settle).abandonReached
              count)

/-- COMMAND_WAITER_EXPIRY completes: the waiting command write whose deadline was reached leaves the slot and is
refused COMMAND_BUSY: answered ERROR, counted in other refusals, one ACCESS_REFUSED notice with source 0, whose value16
and value32 hold 0, as no rule names them (the model's deduction, log 20); the running command is not disturbed (R88,
R121). -/
def Obligations.CommandWaiterExpiryCompletes : Prop :=
  ∀ (s : State) (w : Waiter), s.Calm → s.hold.waiter = some w → w.due = true →
    exec .commandWaiterExpiry s =
      .next ((({ s.begin with
          hold := { s.hold with waiter := none }
          dec := { s.dec with otherRefusals := s.dec.otherRefusals + 1 } } : State).answer w.tx.tag true 0).produce
        { kind := .accessRefused, source := 0, reason := 0x14, master := masterByte w.tx, value16 := 0,
          address := w.tx.address, value32 := 0 })

/-- STATUS_INTERVAL_EXPIRY completes: with no write-back running one starts (in progress, generation 1 higher modulo 2^32,
writes 1 to 73 created); with one running the expiry is skipped and no write-back is marked (R147, R148). -/
def Obligations.StatusIntervalExpiryCompletes : Prop :=
  ∀ s : State, s.Calm → s.status.expiryDue = true →
    (s.status.inProgress = false → exec .statusIntervalExpiry s =
      .next { s.begin with
        status := { s.status with
          expiryDue := false, inProgress := true, generation := s.status.generation + 1, left := 73 }
        port := { s.port with statusQ := s.port.statusQ ++ (List.range 73).map (· + 1) } }) ∧
    (s.status.inProgress = true → exec .statusIntervalExpiry s =
      .next { s.begin with status := { s.status with expiryDue := false } })

/-- MEMORY_REQUEST_ABANDON completes. Whoever owns it, an entry whose deadline was reached keeps its place, marked
abandoned, memory-port timeouts rises by 1 (saturating), and its owner receives the outcome timeout. For a forwarded
access that is not captured that is: a memory-port error counted, a MEMORY_ERROR notice with reason TIMEOUT, the
transaction answered ERROR (R100, R153, R158, R165). Requests end in the order of issue (R163): where an older entry is
still to be abandoned, the command for a younger one does nothing, and waits for it (the model's deduction, log 11); an
older entry whose deadline was not reached, or that has none, does not hold it back (the model's choice, log 37). A
tick makes the abandonment in its own event, so between events the row finds none due in a state that a run reaches
(log 7). -/
def Obligations.MemoryRequestAbandonCompletes : Prop :=
  ∀ (s : State) (place : Fin 8) (e : Outstanding), s.Calm → s.port.outstanding[place.val]? = some e →
    e.due = true → e.abandoned = false →
    ((∀ x ∈ s.port.outstanding.take place.val, x.due = true → x.abandoned = true) →
      exec (.memoryRequestAbandon place) s =
        event (fun s => ({ s with port := { s.port with
          outstanding := s.port.outstanding.set place.val { e with abandoned := true }
          timeouts := satInc s.port.timeouts } } : State).requestEnded e.request .timeout) s ∧
      ∀ (t : Transaction) (source : Byte), e.request.owner = .forward t source none →
        exec (.memoryRequestAbandon place) s =
          .next ((({ s.begin with port := { s.port with
              outstanding := s.port.outstanding.set place.val { e with abandoned := true }
              timeouts := satInc s.port.timeouts
              errors := s.port.errors + 1 } } : State).produce
            { kind := .memoryError, source := source, reason := 0x29, master := e.request.master,
              value16 := BitVec.ofNat 16 t.size, address := e.request.address, value32 := 1 }).answer t.tag true 0)) ∧
    ((∃ x ∈ s.port.outstanding.take place.val, x.due = true ∧ x.abandoned = false) →
      exec (.memoryRequestAbandon place) s = .next s.begin)

/-- HOLD_EXPIRY completes. A body or final put alone in its line, whose deadline was reached, is answered ERROR, counted in
the lane's expiries (saturating), noticed HOLD_EXPIRED with reason EXPIRED, the ticks it was given in value16 and its hold
start in value32; so is a data read or head info read. A capture is lost (R118) and its access answered with its own memory
outcome, with no HOLD_EXPIRED (R84, R116). The entry leaves the line and the held table; nothing else changes. -/
def Obligations.HoldExpiryCompletes : Prop :=
  ∀ (s : State) (n : LaneNo) (h : HeldEntry), s.Calm → (s.lane n).state = .opened → (s.lane n).busy = .clear →
    s.cmd.work ≠ .closing n → h.due = true →
    let expired (t : Transaction) : State :=
      ((s.begin.answer t.tag true 0).updLane n fun l => { l with expiries := satInc l.expiries }).produce
        { kind := .holdExpired, source := laneByte n, reason := 0x20, master := masterByte t,
          value16 := (h.deadline - h.start).setWidth 16, address := t.address, value32 := h.start }
    (∀ e, (s.lane n).putLine = [e] → s.heldOf n .put = some h →
      (∀ x ∈ s.hold.held, x.kind = .pool → x.lane = n ∧ x.line = .put) →
      ((e.kind = .body ∨ ∃ tag, e.kind = .final tag) → exec (.holdExpiry n .put) s =
        .next (((expired e.tx).unhold n .put).updLane n fun l => { l with putLine := [] })) ∧
      (∀ hold o, e.kind = .capture hold o → exec (.holdExpiry n .put) s =
        .next ((((s.begin.captureLost n e).answerOutcome e.tx o).unhold n .put).updLane n fun l =>
          { l with putLine := [] }))) ∧
    (∀ e, (s.lane n).takeLine = [e] → (∀ p ∈ (s.lane n).putLine, p.stage ≠ .waitTake) →
      s.heldOf n .take = some h → h.kind = .parcel → exec (.holdExpiry n .take) s =
        .next (((expired e.tx).unhold n .take).updLane n fun l => { l with takeLine := [] }))

/-! ## The system port and the decoder -/

/-- Step 1 of decode, for every transaction the port takes, frozen or not: it is aligned exactly when its size is 1, 2, 4
or 8 and its address a multiple of its size; any other is refused MISALIGNED in the event in which the port takes it:
answered ERROR, counted in other refusals, noticed with source 0xFF, the master, the address, the size in value16 and the
direction in value32, before entry 0, the pool range or any aperture is considered; no lane changes (R93). -/
def Obligations.MisalignedIsRefused : Prop :=
  (∀ t : Transaction, aligned t = true ↔ (t.size = 1 ∨ t.size = 2 ∨ t.size = 4 ∨ t.size = 8) ∧
    t.address.toNat % t.size = 0) ∧
  (∀ (s : State) (t : Transaction), aligned t = false →
    s.take t = (({ s.occupy t with dec := { s.dec with otherRefusals := s.dec.otherRefusals + 1 } } : State).answer
        t.tag true 0).produce
      { kind := .accessRefused, source := 0xFF, reason := 0x10, master := masterByte t,
        value16 := BitVec.ofNat 16 t.size, address := t.address, value32 := directionCode t.direction } ∧
    (s.take t).lanes = s.lanes) ∧
  (∀ (c : Instr) (s : State) (t : Transaction), s.Calm → s.presents c = some t → s.tagFree t.tag = true →
    aligned t = false → exec c s = .next (s.begin.take t))

/-- A transaction whose tag is outstanding is not taken: it stays presented, and nothing else happens (R161). One taken
while decode is frozen joins the tail of the frozen list, undecoded and unanswered, and holds its tag; no memory request and
no answer comes of it (R104, R161). That a row of the table that is a transaction presents it in its own event is the
model's choice (log 4). -/
def Obligations.TransactionsThatWait : Prop :=
  ∀ (c : Instr) (s : State) (t : Transaction), s.presents c = some t →
    (s.Calm → s.tagFree t.tag = false →
      exec c s = .next { s.begin with sys := { s.begin.sys with presented := [t] } }) ∧
    (∀ table, s.rst = false → s.sys.presented = [] → s.cmd.work = .freezing table → s.sys.freeze = true →
      s.systemQuiet = false → s.tagFree t.tag = true → aligned t = true →
      exec c s = .next { s.begin.occupy t with dec := { s.dec with frozen := s.dec.frozen ++ [t] } })

/-- SYSTEM_PORT_TRANSACTION completes as a pass-through: an access that no entry matches becomes one system-port-derived
request, behind those created earlier, with its own address, direction, byte enables and, for a write, data; its tag
becomes outstanding and it is not answered yet (R96, R100, R161). -/
def Obligations.PassThroughCompletes : Prop :=
  ∀ (s : State) (t : Transaction), s.Decodes t → s.inControl t.address = false → s.dec.guarded t.address = false →
    s.dec.firstMatch t = none →
    exec (.systemPortTransaction t) s =
      .next ((s.begin.occupy t).request
        { owner := .forward t 0xFF none, master := masterByte t, address := t.address,
          write := t.direction == .write, enables := laneEnables t,
          data := match t.direction with
            | .write => maskWord (laneEnables t) t.data
            | .read => 0 })

/-- A PASS entry relocates: the target base plus the offset from the entry's base; the relocated address is tested once
against the pool guard range, and there refused POOL with the entry as source and the transaction's own address; else the
access is forwarded to it, with the entry recorded as the one that decided (R98). -/
def Obligations.PassEntryRelocates : Prop :=
  ∀ (s : State) (t : Transaction) (i : Fin 23) (base target : Addr) (exponent : Nat),
    s.Routes t i (.pass base exponent target) →
    (s.dec.guarded (target + (t.address - base)) = false → exec (.systemPortTransaction t) s =
      .next ((s.begin.occupy t).request
        (forwardRequest t (target + (t.address - base)) (BitVec.ofNat 8 (i.val + 1)) none))) ∧
    (s.dec.guarded (target + (t.address - base)) = true → exec (.systemPortTransaction t) s =
      .next ((({ s.begin.occupy t with dec := { s.dec with guardRefusals := s.dec.guardRefusals + 1 } } : State).answer
          t.tag true 0).produce
        { kind := .accessRefused, source := BitVec.ofNat 8 (i.val + 1), reason := 0x11, master := masterByte t,
          value16 := BitVec.ofNat 16 t.size, address := t.address, value32 := directionCode t.direction }))

/-- A matching GUARD entry decides by its mode and the direction: NO_WRITE passes reads and refuses writes, NO_READ
refuses reads and passes writes, NO_ACCESS refuses both. A refusal is answered ERROR, counted in guard refusals, noticed
GUARD with the entry as source; an admitted access is forwarded at its own address with the entry recorded, whatever the
higher entries hold. It decides so in every state, and in the event of the access (R97). -/
def Obligations.GuardEntryDecides : Prop :=
  ∀ (s : State) (t : Transaction) (i : Fin 23) (base : Addr) (exponent : Nat) (mode : GuardMode) (mask : BitVec 16),
    let decided (u : State) : State := match mode, t.direction with
      | .noWrite, .read | .noRead, .write =>
        u.request (forwardRequest t t.address (BitVec.ofNat 8 (i.val + 1)) none)
      | .noWrite, .write | .noRead, .read | .noAccess, _ =>
        (({ u with dec := { u.dec with guardRefusals := u.dec.guardRefusals + 1 } } : State).answer
          t.tag true 0).produce
          { kind := .accessRefused, source := BitVec.ofNat 8 (i.val + 1), reason := 0x12, master := masterByte t,
            value16 := BitVec.ofNat 16 t.size, address := t.address, value32 := directionCode t.direction }
    s.byEntry t i (.guard base exponent mode mask) = decided s ∧
    (s.Routes t i (.guard base exponent mode mask) →
      exec (.systemPortTransaction t) s = .next (decided (s.begin.occupy t)))

/-- Step 5 of decode. An INVALID entry never matches; any other matches when the address, with its low bits cleared up to
the size exponent, is the entry's base, and a GUARD entry only if its mask has the master's bit. Entries 1 to 23 are tested
in increasing order: the one found matches, and none of lower index does; it decides the transaction by its kind; if none
matches the transaction passes through unchanged (R96). -/
def Obligations.FirstMatchingEntryDecides : Prop :=
  (∀ (t : Transaction) (b : Addr) (x : Nat) (mode : GuardMode) (mask : BitVec 16) (n : LaneNo) (target : Addr)
      (reads hold : Bool),
    Aperture.covers t .invalid = false ∧
    (Aperture.covers t (.pass b x target) = true ↔ t.address.toNat / 2 ^ x * 2 ^ x = b.toNat) ∧
    (Aperture.covers t (.guard b x mode mask) = true ↔
      t.address.toNat / 2 ^ x * 2 ^ x = b.toNat ∧ mask.getLsbD t.master.toNat = true) ∧
    (Aperture.covers t (.put b x n) = true ↔ t.address.toNat / 2 ^ x * 2 ^ x = b.toNat) ∧
    (Aperture.covers t (.take b x n) = true ↔ t.address.toNat / 2 ^ x * 2 ^ x = b.toNat) ∧
    (Aperture.covers t (.tap b x n reads hold) = true ↔ t.address.toNat / 2 ^ x * 2 ^ x = b.toNat)) ∧
  (∀ (d : Decoder) (t : Transaction) (i : Fin 23) (a : Aperture), d.firstMatch t = some (i, a) ↔
    a = d.entries[i.val] ∧ a.covers t = true ∧ ∀ j : Fin 23, j < i → (d.entries[j.val]).covers t = false) ∧
  (∀ (d : Decoder) (t : Transaction), d.firstMatch t = none ↔ ∀ j : Fin 23, (d.entries[j.val]).covers t = false) ∧
  (∀ (s : State) (t : Transaction), s.inControl t.address = false → s.dec.guarded t.address = false →
    s.decode t = match s.dec.firstMatch t with
      | some (i, a) => s.byEntry t i a
      | none => s.request (forwardRequest t t.address 0xFF none))

/-- An access that is not CONTROL and lies in the pool guard range while POOL_OPEN is clear is refused POOL at step 4, for
every master and both directions, whatever entries 1 to 23 hold: answered ERROR, counted in guard refusals, noticed with
source 0xFF. With POOL_OPEN set, or outside the range, step 4 settles nothing (R95, R101). -/
def Obligations.PoolRangeIsRefused : Prop :=
  (∀ (d : Decoder) (a : Addr), d.guarded a = true ↔
    d.poolOpen = false ∧ ∃ first last, d.guard = some (first, last) ∧ first ≤ a.toNat ∧ a.toNat < last) ∧
  (∀ (s : State) (t : Transaction), s.Decodes t → s.inControl t.address = false → s.dec.guarded t.address = true →
    exec (.systemPortTransaction t) s =
      .next ((({ s.begin.occupy t with dec := { s.dec with guardRefusals := s.dec.guardRefusals + 1 } } : State).answer
          t.tag true 0).produce
        { kind := .accessRefused, source := 0xFF, reason := 0x11, master := masterByte t,
          value16 := BitVec.ofNat 16 t.size, address := t.address, value32 := directionCode t.direction }))

/-- The control block is plain memory but for the command word and the consumer index: reads, and writes that touch
neither, are forwarded unchanged with entry 0 recorded; a write that touches the command word or the consumer index with
another offset or size is refused COMMAND_SIZE, counted in other refusals, and not forwarded (R94, R120, R121). -/
def Obligations.ControlBlockAccess : Prop :=
  ∀ (s : State) (t : Transaction), s.Decodes t → s.inControl t.address = true →
    ((t.direction = .read ∨ (touches (s.controlOffset t.address) t.size 0x800 8 = false ∧
        touches (s.controlOffset t.address) t.size 0x810 4 = false)) →
      exec (.systemPortTransaction t) s = .next ((s.begin.occupy t).request (forwardRequest t t.address 0 none))) ∧
    (t.direction = .write →
      (touches (s.controlOffset t.address) t.size 0x800 8 = true ∧
        ¬ (s.controlOffset t.address = 0x800 ∧ t.size = 8)) ∨
      (touches (s.controlOffset t.address) t.size 0x800 8 = false ∧
        touches (s.controlOffset t.address) t.size 0x810 4 = true ∧
        ¬ (s.controlOffset t.address = 0x810 ∧ t.size = 4)) →
      exec (.systemPortTransaction t) s =
        .next ((({ s.begin.occupy t with dec := { s.dec with otherRefusals := s.dec.otherRefusals + 1 } } : State).answer
            t.tag true 0).produce
          { kind := .accessRefused, source := 0, reason := 0x13, master := masterByte t,
            value16 := BitVec.ofNat 16 t.size, address := t.address, value32 := directionCode t.direction }))

/-- TAPPED_ACCESS completes: the access is forwarded unchanged, with the entry recorded; a write, and with READS set a
read, carries the lane, the entry and the HOLD option of its capture; the state of the lane plays no part (R99, R109). -/
def Obligations.TappedAccessCompletes : Prop :=
  ∀ (s : State) (t : Transaction) (i : Fin 23) (base : Addr) (exponent : Nat) (n : LaneNo) (reads hold : Bool),
    s.Routes t i (.tap base exponent n reads hold) →
    exec (.tappedAccess t) s = .next ((s.begin.occupy t).request
      (forwardRequest t t.address (BitVec.ofNat 8 (i.val + 1))
        (if t.direction = .write ∨ reads = true then some { lane := n, entry := i, hold := hold } else none)))

/-- PUT_STATUS_READ completes: a read in a PUT aperture is answered OK in the same event with the bytes of the put status
word its byte lanes select, whatever the lane's state and busy mark; the lane changes in nothing. The word has the free
bytes (on an OPEN lane that is not busy 512 times the smaller of quota less segments held and free count, plus the room in
the tail segment; else 0) in bytes 0 to 3, the open parcel's length or 0 in bytes 4 and 5, the ready count, at most 255, in
byte 6 and the state's code in byte 7 (R40, R99). -/
def Obligations.PutStatusReadCompletes : Prop :=
  ∀ (s : State) (t : Transaction) (i : Fin 23) (base : Addr) (exponent : Nat) (n : LaneNo),
    s.Routes t i (.put base exponent n) → t.direction = .read →
    let l := s.lane n
    let room := if l.chain = [] then 0 else 512 - l.tailOffset
    ∃ word : Word,
      exec (.putStatusRead t) s =
        .next ((s.begin.occupy t).answer t.tag false (maskWord (laneEnables t) word)) ∧
      quadOf word 0 = (if l.state = .opened ∧ l.busy = .clear then
        BitVec.ofNat 32 (min (l.desc.quota - l.chain.length) s.pool.freeList.length * 512 + room) else 0) ∧
      halfOf word 4 = (match l.openParcel with
        | some p => BitVec.ofNat 16 p.length
        | none => 0) ∧
      byteOf word 6 = (if l.ready < 255 then BitVec.ofNat 8 l.ready else 255) ∧
      byteOf word 7 = (match l.state with
        | .closed => 0
        | .opened => 1
        | .draining => 2
        | .faulted => 3)

/-- A put or a take that arrives at a lane that does not take it is refused by the busy mark first and the state second,
whatever the region: answered ERROR, counted in the lane's refusals (saturating), noticed with the entry as source. A put
is taken only in OPEN, a take in OPEN and DRAINING (R2, R139). -/
def Obligations.LaneRefusesByState : Prop :=
  (∀ l : Lane, (l.busy ≠ .clear → l.refusal true = some 0x18 ∧ l.refusal false = some 0x18) ∧
    (l.busy = .clear →
      (l.state = .opened → l.refusal true = none ∧ l.refusal false = none) ∧
      (l.state = .draining → l.refusal true = some 0x16 ∧ l.refusal false = none) ∧
      (l.state = .closed → l.refusal true = some 0x16 ∧ l.refusal false = some 0x16) ∧
      (l.state = .faulted → l.refusal true = some 0x17 ∧ l.refusal false = some 0x17))) ∧
  (∀ (c : Instr) (s : State) (t : Transaction) (i : Fin 23) (base : Addr) (exponent : Nat) (n : LaneNo)
      (reason : Byte) (isPut : Bool), s.presents c = some t → (s.lane n).refusal isPut = some reason →
    (isPut = true → s.Routes t i (.put base exponent n) ∧ t.direction = .write) →
    (isPut = false → s.Routes t i (.take base exponent n) ∧ t.direction = .read) →
    exec c s = .next ((((s.begin.occupy t).answer t.tag true 0).updLane n fun l =>
        { l with refusals := satInc l.refusals }).produce
      { kind := .accessRefused, source := BitVec.ofNat 8 (i.val + 1), reason := reason, master := masterByte t,
        value16 := BitVec.ofNat 16 t.size, address := t.address, value32 := directionCode t.direction }))

/-- A write in a TAKE aperture is refused WRONG_DIRECTION whatever its size and offset and whatever the lane's state and
busy mark: answered ERROR, counted in the lane's refusals, noticed with the entry as source, and never forwarded (R57). -/
def Obligations.WriteToTakeApertureIsRefused : Prop :=
  ∀ (c : Instr) (s : State) (t : Transaction) (i : Fin 23) (base : Addr) (exponent : Nat) (n : LaneNo),
    s.presents c = some t → s.Routes t i (.take base exponent n) → t.direction = .write →
    exec c s = .next ((((s.begin.occupy t).answer t.tag true 0).updLane n fun l =>
        { l with refusals := satInc l.refusals }).produce
      { kind := .accessRefused, source := BitVec.ofNat 8 (i.val + 1), reason := 0x1A, master := masterByte t,
        value16 := BitVec.ofNat 16 t.size, address := t.address, value32 := 1 })

/-! ## Puts -/

/-- BODY_PUT and FINAL_PUT complete when there is room: a put that keeps at least one byte and that the space check
lets start does so in the event in which it is taken. The bytes kept after clipping go to the tail, which moves past
them; a put that finds no open parcel first reserves the header slot of a new one with the next sequence; CLIPPED is
added if bytes were discarded; a granted claim links the top segment of the free list. One body write is created for
each word touched, behind the requests created earlier; that it carries the address of its first byte is the model's
deduction (log 16). The put waits for them in its line; no other lane and nothing held changes (R11, R12, R42, R43,
R51). -/
def Obligations.PutStarts : Prop :=
  ∀ (c : Instr) (s : State) (t : Transaction) (i : Fin 23) (base : Addr) (exponent : Nat) (n : LaneNo) (claims : Bool),
    s.presents c = some t → s.Routes t i (.put base exponent n) → t.direction = .write → s.PutQuiet n →
    (s.lane n).keptBytes t ≠ [] →
    s.spaceCheck n (s.lane n).openParcel.isNone ((s.lane n).putNeed t) = .starts claims →
    let l := s.lane n
    let kept := (writeBytes t).take (l.desc.maxLength - l.openLength)
    let segments := if claims then s.pool.freeList.head?.toList else []
    let start := (l.chain.length - 1) * 512 + l.tailOffset
    let bodyAt := start + (if l.openParcel.isNone then 8 else 0)
    ∃ u, exec c s = .next u ∧
      u.lane n = { l with
        chain := l.chain ++ segments
        tailOffset := bodyAt + kept.length - ((l.chain ++ segments).length - 1) * 512
        openParcel := some (match l.openParcel with
          | some p =>
            { p with
              length := p.length + kept.length
              flags := p.flags ||| (if kept.length < (writeBytes t).length then flagClipped else 0) }
          | none =>
            { segment := (l.chain ++ segments).getD (start / 512) 0, offset := start % 512, length := kept.length,
              flags := if kept.length < (writeBytes t).length then flagClipped else 0, sequence := l.putSeq })
        putSeq := if l.openParcel.isNone then l.putSeq + 1 else l.putSeq
        putLine := [
          { tx := t, entry := i, linked := false,
            kind := if t.address.toNat % 4096 < 0x800 then .body else .final (finalTag t),
            stage := .writingBody (wordPieces bodyAt kept).length false }] } ∧
      (∀ m, m ≠ n → u.lane m = s.lane m) ∧
      u.port.systemQ = s.port.systemQ ++ ((wordPieces bodyAt kept).map fun (p, piece) =>
        { owner := .bodyWrite n, master := masterByte t,
          address := s.poolAddress ((l.chain ++ segments).getD (p / 512) 0) (p % 512), write := true,
          enables := laneMask (p % 8) piece.length, data := placeBytes (p % 8) piece }) ∧
      u.pool.freeList = (if claims then s.pool.freeList.tail else s.pool.freeList) ∧
      (claims = false → u.pool = s.pool ∧ u.notice = s.notice) ∧
      u.sys = (s.begin.occupy t).sys ∧ u.hold = s.hold ∧ u.dec = s.dec ∧ u.cmd = s.cmd ∧ u.status = s.status ∧
      u.port.commandQ = s.port.commandQ ∧ u.port.outstanding = s.port.outstanding ∧ u.rst = false

/-- A put into a parcel that has reached the maximum length keeps no byte and starts whatever space there is: CLIPPED is
set if it carried bytes; a body put is answered OK at once, a final put creates the header write at once (R42, R51, R53). -/
def Obligations.PutThatKeepsNothingStarts : Prop :=
  ∀ (c : Instr) (s : State) (t : Transaction) (i : Fin 23) (base : Addr) (exponent : Nat) (n : LaneNo)
      (p : OpenParcel),
    s.presents c = some t → s.Routes t i (.put base exponent n) → t.direction = .write → s.PutQuiet n →
    (s.lane n).openParcel = some p → (s.lane n).desc.maxLength ≤ p.length →
    let flags := p.flags ||| (if 0 < (writeBytes t).length then flagClipped else 0)
    let l := { s.lane n with openParcel := some { p with flags := flags } }
    let h := closingHeader (BitVec.ofNat 16 p.length) p.sequence (finalTag t) flags
    (t.address.toNat % 4096 < 0x800 →
      exec c s = .next (((s.begin.occupy t).setLane n l).answer t.tag false 0)) ∧
    (0x800 ≤ t.address.toNat % 4096 →
      exec c s = .next (((s.begin.occupy t).setLane n
          { l with
            tailOffset := roundUp8 l.tailOffset
            putLine := [
              { tx := t, entry := i, kind := .final (finalTag t), stage := .writingHeader false, linked := false }] }
        ).request
          { owner := .headerWrite n, master := masterByte t, address := s.poolAddress p.segment p.offset,
            write := true, enables := 0xFF, data := h.word }))

/-- The space check, its claim on the pool, and the refusal of a full lane. A put needs 8 bytes if it opens a parcel
and the bytes it keeps. The lane is full, in this order, when it would open a parcel beside 65535 ready ones (SPACE),
when the need exceeds the room in the tail and segments held equals the quota (SPACE), or when the pool denies the
claim (POOL); else the put starts, with a segment exactly when the need exceeds the room. A claim is granted when the
free count exceeds the pool waiters counted: for a put held for POOL those with an earlier hold start, or the same and
a lower lane, for every other claimant all (for a put held for SPACE that is the model's choice, log 35); which start
is earlier goes by its distance behind the tick counter modulo 2^32, as the model deduces (log 32). A granted claim
pops the top segment; min free follows; POOL_LOW is produced and disarmed when the free count falls below the watermark
while armed. A push of segments, first one first, arms it at the watermark. A put that finds the lane full is refused
LANE_FULL at once under REFUSE, and under EVICT when the lane has no ready parcel: answered ERROR, counted in the
lane's refusals, noticed with the entry as source, the size in value16 and the direction in value32; the chain stays
(R26, R27, R31, R32, R43, R44, R46, R47, R139). -/
def Obligations.FullLaneRefusesPut : Prop :=
  (∀ (s : State) (n : LaneNo) (t : Transaction) (opens : Bool) (need : Nat),
    let l := s.lane n
    let room := if l.chain = [] then 0 else 512 - l.tailOffset
    l.putNeed t =
      (if l.openParcel = none then 8 else 0) + min (writeBytes t).length (l.desc.maxLength - l.openLength) ∧
    s.spaceCheck n opens need =
      if opens = true ∧ 65535 ≤ l.ready then .full .space
      else if need ≤ room then .starts false
      else if l.desc.quota ≤ l.chain.length then .full .space
      else if s.aheadAtPool n < s.pool.freeList.length then .starts true
      else .full .pool) ∧
  (∀ (s : State) (n : LaneNo),
    let waiters := s.hold.held.filter fun w => w.kind == .pool
    (∀ e, s.heldOf n .put = some e → e.kind = .pool →
      s.aheadAtPool n = (waiters.filter fun w =>
        decide ((s.hold.ticks - e.start).toNat < (s.hold.ticks - w.start).toNat) ||
          (w.start == e.start && decide (w.lane < e.lane))).length) ∧
    ((∀ e, s.heldOf n .put = some e → e.kind ≠ .pool) → s.aheadAtPool n = waiters.length)) ∧
  (∀ (s : State) (master : Byte) (x : Nat) (rest : List Nat), s.pool.freeList = x :: rest →
    let low := decide (s.pool.watermark ≤ rest.length + 1) && decide (rest.length < s.pool.watermark)
    let u : State := { s with pool := { s.pool with
      freeList := rest, minFree := min s.pool.minFree rest.length, armed := s.pool.armed && !low } }
    let notice : Notice :=
      { kind := .poolLow, source := 0xFF, reason := 0, master := master, value16 := BitVec.ofNat 16 rest.length,
        address := s.pool.base, value32 := BitVec.ofNat 32 s.pool.watermark }
    s.claim true master = (some x, if low && s.pool.armed then u.produce notice else u)) ∧
  (∀ (s : State) (segs : List Nat), s.pushSegments segs = { s with pool := { s.pool with
    freeList := segs.reverse ++ s.pool.freeList
    armed := s.pool.armed || (segs ≠ [] && s.pool.watermark ≤ segs.length + s.pool.freeList.length) } }) ∧
  ∀ (c : Instr) (s : State) (t : Transaction) (i : Fin 23) (base : Addr) (exponent : Nat) (n : LaneNo)
      (kind : WaitKind),
    s.presents c = some t → s.Routes t i (.put base exponent n) → t.direction = .write → s.PutQuiet n →
    ¬ ((s.lane n).openParcel.isSome = true ∧ (s.lane n).keptBytes t = []) →
    s.spaceCheck n (s.lane n).openParcel.isNone ((s.lane n).putNeed t) = .full kind →
    ((s.lane n).desc.fullAction = .refuse ∨ ((s.lane n).desc.fullAction = .evict ∧ (s.lane n).ready = 0)) →
    exec c s = .next ((((s.begin.occupy t).answer t.tag true 0).updLane n fun l =>
        { l with refusals := satInc l.refusals }).produce
      { kind := .accessRefused, source := BitVec.ofNat 8 (i.val + 1), reason := 0x19, master := masterByte t,
        value16 := BitVec.ofNat 16 t.size, address := t.address, value32 := directionCode t.direction })

/-- Under HOLD a put that finds the lane full waits in its line: with fewer than six entries held it is recorded with its
wait kind, the tick counter as hold start and that plus the lane's hold limit as deadline, and it is not answered; with
six entries held it is ended as on expiry with reason TABLE_FULL and value16 0 (R45, R78, R79, R80). -/
def Obligations.FullLaneHoldsPut : Prop :=
  ∀ (c : Instr) (s : State) (t : Transaction) (i : Fin 23) (base : Addr) (exponent : Nat) (n : LaneNo)
      (kind : WaitKind),
    s.presents c = some t → s.Routes t i (.put base exponent n) → t.direction = .write → s.PutQuiet n →
    ¬ ((s.lane n).openParcel.isSome = true ∧ (s.lane n).keptBytes t = []) →
    s.spaceCheck n (s.lane n).openParcel.isNone ((s.lane n).putNeed t) = .full kind →
    (s.lane n).desc.fullAction = .hold →
    (s.hold.held.length < 6 →
      exec c s = .next { ((s.begin.occupy t).updLane n fun l =>
          { l with putLine := [
            { tx := t, entry := i, linked := false, stage := .waiting,
              kind := if t.address.toNat % 4096 < 0x800 then .body else .final (finalTag t) }] }) with
        hold := { s.hold with
          held := s.hold.held ++ [
            { tag := t.tag, lane := n, line := .put, kind := kind, start := s.hold.ticks,
              deadline := s.hold.ticks + (s.lane n).desc.holdLimit.zeroExtend 32, due := false }]
          highWater := max s.hold.highWater (s.hold.held.length + 1) } }) ∧
    (s.hold.held.length = 6 → (∀ x ∈ s.hold.held, x.kind ≠ .pool) →
      exec c s = .next ((((s.begin.occupy t).answer t.tag true 0).updLane n fun l =>
          { l with expiries := satInc l.expiries }).produce
        { kind := .holdExpired, source := laneByte n, reason := 0x21, master := masterByte t, value16 := 0,
          address := t.address, value32 := s.hold.ticks }))

/-! ## Takes -/

/-- A data read, head info read or release that needs the head parcel's header fetches it: with a ready parcel and no
head cache, one 8-byte read of the header slot is created, and the operation waits for it in its line (R58, R59). -/
def Obligations.TakeFetchesHead : Prop :=
  ∀ (c : Instr) (s : State) (t : Transaction) (i : Fin 23) (base : Addr) (exponent : Nat) (n : LaneNo),
    s.presents c = some t → s.Routes t i (.take base exponent n) → t.direction = .read → s.TakeQuiet n →
    (s.lane n).ready ≠ 0 → (s.lane n).cache = none →
    exec c s = .next (((s.begin.occupy t).updLane n fun l =>
        { l with takeLine := [{ tx := t, entry := i, kind := takeRegion t, stage := .fetching }] }).request
      { owner := .headFetch n, master := masterByte t, address := s.chainAddress n (s.lane n).headOffset,
        write := false, enables := 0xFF, data := 0 })

/-- DATA_READ completes with the header at hand: it takes the smaller of its size and the bytes left. Taking at least
one, it creates one read for each word touched and waits for them, each with the address of its first byte (the model's
deduction, log 16); taking none, it is an overread, answered OK with zeros (R62, R63, R64). -/
def Obligations.DataReadCompletes : Prop :=
  ∀ (s : State) (t : Transaction) (i : Fin 23) (base : Addr) (exponent : Nat) (n : LaneNo) (h : HeadCache),
    s.Routes t i (.take base exponent n) → t.direction = .read → t.address.toNat % 4096 < 0x800 → s.TakeQuiet n →
    (s.lane n).ready ≠ 0 → (s.lane n).cache = some h →
    let k := min t.size (h.header.length.toNat - h.consumed)
    let pieces := wordPieces ((s.lane n).headOffset + 8 + h.consumed) (List.replicate k 0)
    (k ≠ 0 → exec (.dataRead t) s = .next (((s.begin.occupy t).updLane n fun l =>
        { l with takeLine :=
          [{ tx := t, entry := i, kind := .data, stage := .reading k pieces.length false [] }] }).requestAll
      (pieces.map fun (p, piece) =>
        { owner := .takeRead n, master := masterByte t, address := s.chainAddress n p, write := false,
          enables := laneMask (p % 8) piece.length, data := 0 }))) ∧
    (k = 0 → exec (.dataRead t) s = .next (((s.begin.occupy t).updLane n fun l =>
        { l with overreads := satInc l.overreads }).answer t.tag false (maskWord (laneEnables t) 0)))

/-- HEAD_INFO_READ completes with the header at hand: answered OK with the bytes of the head info word its byte lanes
select, with GAP when the gap mark is set; the lane changes in nothing (R65). -/
def Obligations.HeadInfoReadCompletes : Prop :=
  ∀ (s : State) (t : Transaction) (i : Fin 23) (base : Addr) (exponent : Nat) (n : LaneNo) (h : HeadCache),
    s.Routes t i (.take base exponent n) → t.direction = .read → takeRegion t = .info → s.TakeQuiet n →
    (s.lane n).ready ≠ 0 → (s.lane n).cache = some h →
    exec (.headInfoRead t) s = .next ((s.begin.occupy t).answer t.tag false (maskWord (laneEnables t)
      (packHalves h.header.length (h.header.length - BitVec.ofNat 16 h.consumed) h.header.sequence
        (packPair h.header.tag
          (if (s.lane n).gap then h.header.flags ||| flagGap else h.header.flags)))))

/-- RELEASE completes with the header at hand: the head parcel leaves its lane. The head moves to the next parcel: past
the header slot and the stored length rounded up to a multiple of 8, or to the open parcel's header slot when that is
the only parcel left; with no parcel left the lane holds nothing. The segments wholly before the new head, and no
others, go to the free list, head segment first. The ready count falls and the take sequence rises by 1, the head cache
becomes absent, the gap mark clears, parcels released rises by 1, PARCEL_READY is armed below the threshold. The
release is answered OK with the release word of the parcel that left (R66, R67, R68). No held entry is woken where none
is held. On a DRAINING lane the release of the last parcel, by a release at its evaluation or behind its head fetch or
by AUTO_RELEASE behind the last body read, also closes the lane in the same event: the entries behind it are answered
ERROR and one LANE_CLOSED is noticed (R5, R69, R74), in line order (log 9), with master 0 (log 20). The bound on the
segments given back matters only for a forged stored length that leads past the chain's end or the open parcel (the
model's choice, log 15); the offsets of a lane with no segment are held as 0 (log 14). -/
def Obligations.ReleaseCompletes : Prop :=
  (∀ (s : State) (t : Transaction) (i : Fin 23) (base : Addr) (exponent : Nat) (n : LaneNo) (h : HeadCache),
    s.Routes t i (.take base exponent n) → t.direction = .read → takeRegion t = .release → s.TakeQuiet n →
    (s.lane n).ready ≠ 0 → (s.lane n).cache = some h → s.hold.held = [] →
    let l := s.lane n
    let word := maskWord (laneEnables t)
      (packHalves h.header.length (BitVec.ofNat 16 (l.ready - 1)) h.header.sequence
        (packPair h.header.tag (if l.gap then h.header.flags ||| flagGap else h.header.flags)))
    let released : Lane := { l with
      ready := l.ready - 1, takeSeq := l.takeSeq + 1, cache := none, gap := false, released := l.released + 1,
      armed := l.armed || decide (l.ready - 1 < l.desc.readyThreshold) }
    let last := match l.openParcel with
      | some p => min (l.chain.findIdx (· == p.segment)) (l.chain.length - 1)
      | none => l.chain.length - 1
    let after (u : State) (lane : Lane) (gone : List Nat) : Prop :=
      exec (.release t) s = .next u ∧ u.lane n = lane ∧ (∀ m, m ≠ n → u.lane m = s.lane m) ∧
        u.pool.freeList = gone.reverse ++ s.pool.freeList ∧ u.sys.responses = [⟨t.tag, false, word⟩] ∧
        u.sys.tags = s.sys.tags.set t.tag.val none ∧ u.hold = s.hold ∧ u.dec = s.dec ∧ u.cmd = s.cmd ∧
        u.notice = s.notice ∧ u.status = s.status ∧ u.port = s.port
    (l.ready = 1 → l.openParcel = none →
      ∃ u, after u { released with chain := [], headOffset := 0, tailOffset := 0 } l.chain) ∧
    (∀ p, l.ready = 1 → l.openParcel = some p → p.offset < 512 →
      ∃ u, after u { released with chain := l.chain.drop last, headOffset := p.offset } (l.chain.take last)) ∧
    (1 < l.ready →
      let next := l.headOffset + 8 + (h.header.length.toNat + 7) / 8 * 8
      let k := min (next / 512) last
      ∃ u, after u { released with chain := l.chain.drop k, headOffset := next % 512 } (l.chain.take k))) ∧
  (∀ (s : State) (n : LaneNo) (h : Header), (s.lane n).state = .draining → (s.lane n).busy = .clear →
    (s.lane n).cutting = false → s.cmd.work ≠ .closing n → (s.lane n).putLine = [] → (s.lane n).ready = 1 →
    (s.lane n).openParcel = none → s.hold.held = [] →
    let l := s.lane n
    let word : Word := packHalves h.length 0 h.sequence
      (packPair h.tag (if l.gap then h.flags ||| flagGap else h.flags))
    let lane (errors : Nat) (overreads : Half) : Lane := { l with
      state := .closed, ready := 0, takeSeq := l.takeSeq + 1, cache := none, gap := false, released := l.released + 1,
      armed := l.armed || decide (0 < l.desc.readyThreshold), chain := [], headOffset := 0, tailOffset := 0,
      takeLine := [], errors := errors, overreads := overreads }
    let closed (u : State) (t : Transaction) (data : Word) (behind : List TakeEntry) : State :=
      (behind.foldl (fun u x => u.answer x.tx.tag true 0) ((u.pushSegments l.chain).answer t.tag false
        (maskWord (laneEnables t) data))).produce
        { kind := .laneClosed, source := laneByte n, reason := 0, master := 0, value16 := 0, address := 0,
          value32 := 0 }
    (∀ (t : Transaction) (i : Fin 23) (base : Addr) (exponent consumed : Nat),
      s.Routes t i (.take base exponent n) → t.direction = .read → takeRegion t = .release → l.takeLine = [] →
      l.cache = some { header := h, consumed := consumed } →
      exec (.release t) s = .next (closed ((s.begin.occupy t).setLane n (lane l.errors l.overreads)) t word [])) ∧
    (∀ (r : MemRequest) (rest : List Outstanding) (e : TakeEntry) (es : List TakeEntry), s.Ends r rest →
      r.owner = .headFetch n → l.takeLine = e :: es → e.stage = .fetching → e.kind = .release →
      e.tx.direction = .read → (∀ x ∈ es, x.stage = .waiting) → h.passes l.takeSeq = true →
      exec (.headFetchEnd (.ok h.word)) s =
        .next (closed ((s.ended rest).setLane n (lane 0 l.overreads)) e.tx word es)) ∧
    (∀ (r : MemRequest) (rest : List Outstanding) (e : TakeEntry) (es : List TakeEntry) (k consumed : Nat)
        (got : List Byte) (w : Word), s.Ends r rest → r.owner = .takeRead n → l.takeLine = e :: es →
      e.stage = .reading k 1 false got → e.tx.direction = .read → (∀ x ∈ es, x.stage = .waiting) →
      l.cache = some { header := h, consumed := consumed } → l.desc.autoRelease = true →
      consumed + k = h.length.toNat →
      exec (.takeReadEnd (.ok w)) s = .next (closed ((s.ended rest).setLane n
        (lane 0 (if k < e.tx.size then satInc l.overreads else l.overreads))) e.tx
          (placeBytes (firstLane e.tx) (got ++ enabledBytes r.enables w)) es)))

/-- A release that finds the ready count 0 is answered OK in the event of its evaluation with an empty release word:
length, ready remaining, sequence and tag 0, flags EMPTY, with GAP if the gap mark is set. It is never held, whatever the
empty action, and changes nothing in the lane context: it is answered and leaves its line, in every state, and a release
alone in its line in the event of its read (R70). -/
def Obligations.EmptyReleaseIsAnswered : Prop :=
  (∀ (s : State) (n : LaneNo) (e : TakeEntry) (rest : List TakeEntry), (s.lane n).takeLine = e :: rest →
    e.kind = .release → e.stage = .waiting → (s.lane n).scanning = false → (s.lane n).ready = 0 →
    s.evalTake n = (s.answerOk e.tx
      (packHalves 0 0 0 (packPair 0 (if (s.lane n).gap then flagEmpty ||| flagGap else flagEmpty)))).leaveTakeLine n) ∧
  ∀ (c : Instr) (s : State) (t : Transaction) (i : Fin 23) (base : Addr) (exponent : Nat) (n : LaneNo),
    s.presents c = some t → s.Routes t i (.take base exponent n) → t.direction = .read → takeRegion t = .release →
    s.TakeQuiet n → (s.lane n).ready = 0 →
    exec c s = .next ((s.begin.occupy t).answer t.tag false (maskWord (laneEnables t)
      (packHalves 0 0 0 (packPair 0 (if (s.lane n).gap then flagEmpty ||| flagGap else flagEmpty)))))

/-- Under FILL a data read or head info read that finds the ready count 0 is answered OK in the event of its evaluation,
without a memory request: zeros in every byte lane, or an empty head info word with EMPTY, and GAP if the gap mark is set.
The lane's overreads counter rises by 1, saturating; nothing else in the lane context moves (R72). -/
def Obligations.EmptyLaneFills : Prop :=
  ∀ (c : Instr) (s : State) (t : Transaction) (i : Fin 23) (base : Addr) (exponent : Nat) (n : LaneNo),
    s.presents c = some t → s.Routes t i (.take base exponent n) → t.direction = .read → takeRegion t ≠ .release →
    s.TakeQuiet n → (s.lane n).ready = 0 → (s.lane n).desc.emptyAction = .fill →
    exec c s = .next (((s.begin.occupy t).updLane n fun l => { l with overreads := satInc l.overreads }).answer t.tag
      false (maskWord (laneEnables t) (if takeRegion t = .data then 0 else
        packHalves 0 0 0 (packPair 0 (if (s.lane n).gap then flagEmpty ||| flagGap else flagEmpty)))))

/-- Under the empty action HOLD a data read or head info read that finds the ready count 0 is held for PARCEL, with fewer
than six entries held, for the lane's hold limit; it is not answered. With six entries held it is ended as on expiry with
reason TABLE_FULL and value16 0: answered ERROR, counted in the lane's expiries, noticed (R71, R78, R79, R80). -/
def Obligations.EmptyLaneHoldsTake : Prop :=
  ∀ (c : Instr) (s : State) (t : Transaction) (i : Fin 23) (base : Addr) (exponent : Nat) (n : LaneNo),
    s.presents c = some t → s.Routes t i (.take base exponent n) → t.direction = .read → takeRegion t ≠ .release →
    s.TakeQuiet n → (s.lane n).ready = 0 → (s.lane n).desc.emptyAction = .hold →
    (s.hold.held.length < 6 →
      exec c s = .next { ((s.begin.occupy t).updLane n fun l =>
          { l with takeLine := [{ tx := t, entry := i, kind := takeRegion t, stage := .waiting }] }) with
        hold := { s.hold with
          held := s.hold.held ++ [
            { tag := t.tag, lane := n, line := .take, kind := .parcel, start := s.hold.ticks,
              deadline := s.hold.ticks + (s.lane n).desc.holdLimit.zeroExtend 32, due := false }]
          highWater := max s.hold.highWater (s.hold.held.length + 1) } }) ∧
    (s.hold.held.length = 6 →
      exec c s = .next ((((s.begin.occupy t).answer t.tag true 0).updLane n fun l =>
          { l with expiries := satInc l.expiries }).produce
        { kind := .holdExpired, source := laneByte n, reason := 0x21, master := masterByte t, value16 := 0,
          address := t.address, value32 := s.hold.ticks }))

/-! ## The control block and commands -/

/-- NOTICE_CONSUMER_INDEX completes: the 4-byte write of the consumer index is forwarded unchanged, and in the same event
the notice writer takes its value (R122, R143). -/
def Obligations.NoticeConsumerIndexCompletes : Prop :=
  ∀ (s : State) (master : BitVec 4) (tag : Tag) (value : Quad),
    s.Decodes (consumerTransaction s master tag value) →
    exec (.noticeConsumerIndex master tag value) s =
      .next (((s.begin.occupy (consumerTransaction s master tag value)).request
        (forwardRequest (consumerTransaction s master tag value) (s.controlAddress 0x810) 0 none)).consumerWrite value)

/-- The notice writer's side of a consumer index write, with v the low 16 bits of the value. If (v - c) mod 65536 is not
greater than (p - c) mod 65536, v becomes the consumer index; a v equal to c changes nothing; when the index advances
INT_N is updated and the next write is chosen. If the test fails the value is ignored and bad consumer writes rises by 1,
saturating. Nothing but the notice writer and its queue changes. With p and c 0, as before any ring, 0 is accepted and
every other value is bad. Each accepted write is handed over in the event of its decode, with the value of its byte lanes
(R143). -/
def Obligations.ConsumerIndexRule : Prop :=
  (∀ (s : State) (t : Transaction), s.inControl t.address = true → s.controlOffset t.address = 0x810 → t.size = 4 →
    t.direction = .write → s.decode t = (s.request (forwardRequest t t.address 0 none)).consumerWrite
      (quadOf t.data (firstLane t))) ∧
  ∀ (s : State) (value : Quad),
    let v : Half := value.setWidth 16
    let c := s.notice.consumer
    let p := s.notice.producer
    (¬ (v - c).toNat ≤ (p - c).toNat →
      s.consumerWrite value =
        { s with notice := { s.notice with
            badConsumer := if s.notice.badConsumer = 65535 then 65535 else s.notice.badConsumer + 1 } }) ∧
    ((v - c).toNat ≤ (p - c).toNat → v = c → s.consumerWrite value = s) ∧
    ((v - c).toNat ≤ (p - c).toNat → v ≠ c →
      s.consumerWrite value = ({ s with notice := { s.notice with
        consumer := v, intN := !(s.notice.enable && p != v) } } : State).chooseNotice ∧
      (s.consumerWrite value).notice.consumer = v ∧
      (s.consumerWrite value).notice.intN = !(s.notice.enable && p != v)) ∧
    (p = 0 → c = 0 → v ≠ 0 → (s.consumerWrite value).notice.consumer = 0 ∧
      (s.consumerWrite value).notice.badConsumer =
        if s.notice.badConsumer = 65535 then 65535 else s.notice.badConsumer + 1) ∧
    (s.consumerWrite value).lanes = s.lanes ∧ (s.consumerWrite value).pool = s.pool ∧
    (s.consumerWrite value).hold = s.hold ∧ (s.consumerWrite value).cmd = s.cmd ∧
    (s.consumerWrite value).dec = s.dec ∧ (s.consumerWrite value).sys = s.sys ∧
    (s.consumerWrite value).port.systemQ = s.port.systemQ

/-- LOAD_SETUP, LOAD_APERTURES and OPEN_LANE complete when the unit is IDLE: the command is taken and its images are read
as 8-byte reads in increasing offset order: the 8 words of the setup header (with every lane CLOSED), the 46 words of the
aperture images, the 2 words of the descriptor of a CLOSED lane (R124, R126, R129, R131, R133, R134). -/
def Obligations.ImageCommandsComplete : Prop :=
  ∀ (s : State) (w : CommandWrite), s.cmd.running = false → s.cmd.autoload = none →
    let read (code : Byte) (offsets : List Nat) : State :=
      s.commandTaken code w (.images offsets.length [] none) (offsets.map fun o =>
        wordRequest (.imageRead o w.ticket) (w.master.zeroExtend 8) (s.controlAddress o) false 0)
    (s.Decodes (commandTransaction s 1 w) → s.allClosed →
      exec (.loadSetup w) s = .next (read 1 [0, 8, 16, 24, 32, 40, 48, 56])) ∧
    (s.Decodes (commandTransaction s 2 w) →
      exec (.loadApertures w) s = .next (read 2 ((List.range 46).map fun i => 0x100 + 8 * i))) ∧
    (∀ n : LaneNo, s.Decodes (commandTransaction s 3 w) → w.lane.toNat = n.val → (s.lane n).state = .closed →
      exec (.openLane w) s = .next (read 3 [0x300 + 16 * n.val, 0x300 + 16 * n.val + 8]))

/-- UNKNOWN_COMMAND completes, and so does every command whose precondition fails: it is taken and rejected in the same
event, with the reason and detail of the first test that fails: UNKNOWN_COMMAND for a code outside the seven,
BAD_LANE_NUMBER with the lane byte, LANE_STATE with the state code, LANES_NOT_CLOSED with the lowest lane that is not
CLOSED; nothing else changes. What is tested of the images read later, and in which order: the twelve tests of a setup
header with their reasons and header offsets; an aperture table, valid when every one of its 23 entries is, with the index
of the first that fails, and each kind of entry with the fields it keeps; the seven tests of a descriptor with their
offsets, and what a valid one gives (R103, R126, R128, R131, R134). -/
def Obligations.RejectedCommandsComplete : Prop :=
  (∀ (s : State) (w : CommandWrite), s.cmd.running = false → s.cmd.autoload = none → s.hold.waiter = none →
    (∀ code : Byte, s.Decodes (commandTransaction s code w) → code = 0 ∨ 7 < code.toNat →
      exec (.unknownCommand code w) s = .next (s.commandEnded code w 3 0x01 0)) ∧
    (s.Decodes (commandTransaction s 1 w) → ∀ n : LaneNo, (s.lane n).state ≠ .closed →
      (∀ m, m < n → (s.lane m).state = .closed) →
      exec (.loadSetup w) s = .next (s.commandEnded 1 w 3 0x03 (BitVec.ofNat 8 n.val))) ∧
    (16 ≤ w.lane.toNat →
      (s.Decodes (commandTransaction s 3 w) → exec (.openLane w) s = .next (s.commandEnded 3 w 3 0x08 w.lane)) ∧
      (s.Decodes (commandTransaction s 4 w) → exec (.closeLane w) s = .next (s.commandEnded 4 w 3 0x08 w.lane)) ∧
      (s.Decodes (commandTransaction s 5 w) → exec (.flushLane w) s = .next (s.commandEnded 5 w 3 0x08 w.lane)) ∧
      (s.Decodes (commandTransaction s 6 w) → exec (.resetLane w) s = .next (s.commandEnded 6 w 3 0x08 w.lane))) ∧
    (∀ n : LaneNo, w.lane.toNat = n.val →
      (s.Decodes (commandTransaction s 3 w) → (s.lane n).state ≠ .closed →
        exec (.openLane w) s = .next (s.commandEnded 3 w 3 0x09 (s.lane n).state.code)) ∧
      (s.Decodes (commandTransaction s 4 w) → (s.lane n).state ≠ .opened →
        exec (.closeLane w) s = .next (s.commandEnded 4 w 3 0x09 (s.lane n).state.code)) ∧
      (s.Decodes (commandTransaction s 5 w) → (s.lane n).state ≠ .opened → (s.lane n).state ≠ .draining →
        exec (.flushLane w) s = .next (s.commandEnded 5 w 3 0x09 (s.lane n).state.code)))) ∧
  (∀ (h : SetupHeader) (control : Nat),
    let pool := h.poolBase.toNat
    let poolEnd := pool + 512 * h.poolCount
    let ring := h.ringBase.toNat
    let ringEnd := ring + 16 * h.ringEntries
    h.rejection control =
      if h.magic ≠ 0xC4125E70 then some (0x02, 0x00)
      else if h.divider = 0 then some (0x02, 0x14)
      else if pool % 512 ≠ 0 then some (0x04, 0x04)
      else if h.poolCount < 16 ∨ 4096 < h.poolCount then some (0x04, 0x08)
      else if 2 ^ 32 < poolEnd then some (0x04, 0x08)
      else if pool < control + 4096 ∧ control < poolEnd then some (0x04, 0x04)
      else if h.poolCount < h.watermark then some (0x04, 0x0A)
      else if ring % 16 ≠ 0 then some (0x05, 0x10)
      else if ¬ ∃ k : Fin 9, h.ringEntries = 2 ^ (k.val + 4) then some (0x05, 0x0C)
      else if 2 ^ 32 < ringEnd then some (0x05, 0x0C)
      else if ring < control + 4096 ∧ control < ringEnd then some (0x05, 0x10)
      else if ring < poolEnd ∧ pool < ringEnd then some (0x05, 0x10)
      else none) ∧
  (∀ (words : List (Nat × Word)) (control : Nat),
    (∀ es : List Aperture, validateFrom words control 23 [] = .ok es ↔
      es.length = 23 ∧ ∀ k, k < 23 → (parseAperture words k).validate control (es.take k) = es[k]?) ∧
    (∀ i : Nat, validateFrom words control 23 [] = .error i ↔
      ∃ lower : List Aperture, lower.length + 1 = i ∧ i ≤ 23 ∧
        (∀ k, k < lower.length → (parseAperture words k).validate control (lower.take k) = lower[k]?) ∧
        (parseAperture words lower.length).validate control lower = none)) ∧
  (∀ (a : ApertureImage) (control : Nat) (lower : List Aperture),
    let x := a.exponent.toNat
    let ranged : Prop := 12 ≤ x ∧ x ≤ 31 ∧ a.base.toNat % 2 ^ x = 0
    (a.kind = 0 → a.validate control lower = some .invalid) ∧
    (5 < a.kind.toNat → a.validate control lower = none) ∧
    (a.kind ≠ 0 → ¬ ranged → a.validate control lower = none) ∧
    (a.kind = 1 → ranged → a.validate control lower =
      if a.target.toNat % 2 ^ x ≠ 0 ∨ (a.target.toNat < control + 4096 ∧ control < a.target.toNat + 2 ^ x) then none
      else some (.pass a.base x a.target)) ∧
    (a.kind = 2 → ranged → a.validate control lower =
      if a.mask = 0 then none
      else if a.guardMode = 1 then some (.guard a.base x .noWrite a.mask)
      else if a.guardMode = 2 then some (.guard a.base x .noRead a.mask)
      else if a.guardMode = 3 then some (.guard a.base x .noAccess a.mask)
      else none) ∧
    (a.kind = 3 ∨ a.kind = 4 ∨ a.kind = 5 → 15 < a.lane.toNat → a.validate control lower = none) ∧
    (∀ n : LaneNo, a.lane.toNat = n.val → ranged →
      (a.kind = 3 → (∃ b y reads hold, Aperture.tap b y n reads hold ∈ lower) → a.validate control lower = none) ∧
      (a.kind = 3 → (∀ b y reads hold, Aperture.tap b y n reads hold ∉ lower) →
        a.validate control lower = some (.put a.base x n)) ∧
      (a.kind = 4 → a.validate control lower = some (.take a.base x n)) ∧
      (a.kind = 5 → (∃ b y, Aperture.put b y n ∈ lower) → a.validate control lower = none) ∧
      (a.kind = 5 → (∀ b y, Aperture.put b y n ∉ lower) → a.validate control lower =
        some (.tap a.base x n (a.options.getLsbD 0) (a.options.getLsbD 1))))) ∧
  ∀ (d : DescriptorImage) (poolCount : Nat),
    let failing : Option Byte :=
      if ¬ (d.full = 1 ∨ d.full = 2 ∨ d.full = 3) then some 0x1
      else if ¬ (d.empty = 1 ∨ d.empty = 2) then some 0x2
      else if d.threshold.toNat < 1 ∨ 15 < d.threshold.toNat then some 0x3
      else if d.quota.toNat < 1 ∨ 4096 < d.quota.toNat ∨ poolCount < d.quota.toNat then some 0x4
      else if d.maxLength = 0 then some 0x6
      else if (d.full = 1 ∨ d.empty = 1) ∧ d.holdLimit = 0 then some 0x8
      else if d.ready = 0 then some 0xA
      else none
    (∀ detail, d.validate poolCount = .error detail ↔ failing = some detail) ∧
    (failing = none → d.validate poolCount = .ok
      { autoOpen := d.flags.getLsbD 0, autoRelease := d.flags.getLsbD 1,
        fullAction := if d.full = 1 then .hold else if d.full = 2 then .refuse else .evict,
        emptyAction := if d.empty = 1 then .hold else .fill,
        faultThreshold := d.threshold.toNat, quota := d.quota.toNat, maxLength := d.maxLength.toNat,
        holdLimit := d.holdLimit, readyThreshold := d.ready.toNat })

/-- WRITE_STATUS completes: with no write-back running one starts at once (generation 1 higher, 73 writes created) and the
command waits for it; with one running the follow-on mark is set and the command waits for the one that follows (R137,
R147, R148). -/
def Obligations.WriteStatusCompletes : Prop :=
  ∀ (s : State) (w : CommandWrite), s.cmd.running = false → s.cmd.autoload = none →
    s.Decodes (commandTransaction s 7 w) →
    (s.status.inProgress = false → exec (.writeStatus w) s =
      .next { s.commandTaken 7 w (.status false) [] with
        status := { s.status with inProgress := true, generation := s.status.generation + 1, left := 73 }
        port := { (s.commandTaken 7 w (.status false) []).port with
          statusQ := s.port.statusQ ++ (List.range 73).map (· + 1) } }) ∧
    (s.status.inProgress = true → exec (.writeStatus w) s =
      .next { s.commandTaken 7 w (.status true) [] with status := { s.status with followOn := true } })

/-- CLOSE LANE completes on an OPEN lane with nothing in its put line. The lane is DRAINING at once. An open parcel is
cut: its header write, with tag 255 and CUT, is created, and the command waits for it. With no open parcel and ready
parcels left, the command ends DONE in the same event. With no parcel at all the lane goes on to CLOSED, with
LANE_CLOSED, and the command ends DONE. Entries of the put line that wait, held or not, are answered in line order, a
put ERROR, a capture lost with its own memory outcome, and an entry of them leaves the held table; a put in flight goes
on, and the command waits for it (R4, R5, R13, R86, R135). That line order is the model's choice (log 9). -/
def Obligations.CloseLaneCompletes : Prop :=
  (∀ (s : State) (w : CommandWrite) (n : LaneNo), s.cmd.running = false → s.cmd.autoload = none →
    s.hold.waiter = none → s.Decodes (commandTransaction s 4 w) → w.lane.toNat = n.val → s.PutQuiet n →
    (s.lane n).cutting = false →
    (∀ p, (s.lane n).openParcel = some p → exec (.closeLane w) s =
      .next (((s.commandTaken 4 w (.closing n) []).setLane n { s.lane n with
          state := .draining, tailOffset := roundUp8 (s.lane n).tailOffset, cutting := true }).request
        (wordRequest (.headerWrite n) 0xFF (s.poolAddress p.segment p.offset) true
          (closingHeader (BitVec.ofNat 16 p.length) p.sequence 0xFF (p.flags ||| flagCut)).word))) ∧
    ((s.lane n).openParcel = none → (s.lane n).ready ≠ 0 → exec (.closeLane w) s =
      .next ((s.commandEnded 4 w 2 0 0).setLane n { s.lane n with state := .draining })) ∧
    ((s.lane n).openParcel = none → (s.lane n).ready = 0 → (s.lane n).takeLine = [] → s.heldOf n .take = none →
      ∃ u, exec (.closeLane w) s = .next u ∧ u.lane n = { s.lane n with state := .closed } ∧
        (∀ m, m ≠ n → u.lane m = s.lane m) ∧ u.cmd.running = false ∧ u.pool = s.pool ∧ u.hold = s.hold ∧
        u.port.commandQ = (s.commandEnded 4 w 2 0 0).port.commandQ ∧
        (w.flags.getLsbD 0 = false → u.notice = (s.produce (laneClosedNotice n)).notice))) ∧
  (∀ (s : State) (w : CommandWrite) (n : LaneNo) (es : List PutEntry), s.cmd.running = false →
    s.cmd.autoload = none → s.Decodes (commandTransaction s 4 w) → w.lane.toNat = n.val →
    (s.lane n).state = .opened → (s.lane n).busy = .clear → (∀ e ∈ es, e.stage = .waiting) →
    (s.hold.waiter = none → (s.lane n).putLine = es → (∀ e ∈ es, ∀ hold o, e.kind ≠ .capture hold o) →
      (∀ x ∈ s.hold.held, x.kind = .pool → x.lane = n ∧ x.line = .put) → (s.lane n).cutting = false →
      (s.lane n).openParcel = none → (s.lane n).ready ≠ 0 → exec (.closeLane w) s =
        .next (((es.foldl (fun u e => u.answer e.tx.tag true 0) (s.commandEnded 4 w 2 0 0)).setLane n
          { s.lane n with state := .draining, putLine := [] }).unhold n .put)) ∧
    (∀ first : PutEntry, (s.lane n).putLine = first :: es → first.stage ≠ .waiting → s.heldOf n .put = none →
      exec (.closeLane w) s = .next ((es.foldl (fun u e => match e.kind with
          | .capture _ o => (u.captureLost n e).answerOutcome e.tx o
          | .body | .final _ => u.answer e.tx.tag true 0) (s.commandTaken 4 w (.closing n) [])).setLane n
        { s.lane n with state := .draining, putLine := [first] })))

/-- FLUSH_LANE (on an OPEN or DRAINING lane) and RESET_LANE (in every state) complete where nothing of the lane is in a
line or in flight: in the same event the contents are discarded and the command ends DONE. The chain goes back to the
free list, first segment first; ready count, open parcel and head cache go; the take sequence jumps to the put
sequence; PARCEL_READY is armed. FLUSH keeps OPEN, turns DRAINING into CLOSED with LANE_CLOSED, and sets the gap mark
if it discarded a parcel; RESET ends in CLOSED and clears gap mark, error count and fault cause. In every state of the
lines the entries that wait, held or not, are answered, the put line's first: a put or take ERROR, a capture lost with
its own memory outcome. With an operation in flight the busy mark stands and the command waits for it; with none the
discard follows at once (R7, R8, R28, R86, R136). The order of the answers is the model's choice (log 9); the unset
offsets of the emptied lane are held as 0 (log 14). -/
def Obligations.EmptyingCommandsComplete : Prop :=
  (∀ (s : State) (w : CommandWrite) (n : LaneNo), s.cmd.running = false → s.cmd.autoload = none →
    s.hold.waiter = none → s.hold.held = [] → w.lane.toNat = n.val → (s.lane n).putLine = [] →
    (s.lane n).takeLine = [] → (s.lane n).cutting = false →
    let l := s.lane n
    let emptied := { l with
      busy := .clear, chain := [], headOffset := 0, tailOffset := 0, ready := 0, openParcel := none, cache := none,
      takeSeq := l.putSeq, armed := true }
    (s.Decodes (commandTransaction s 6 w) → exec (.resetLane w) s =
      .next (((s.commandEnded 6 w 2 0 0).setLane n
        { emptied with state := .closed, gap := false, errors := 0, cause := .none }).pushSegments l.chain)) ∧
    (s.Decodes (commandTransaction s 5 w) → l.state = .opened → exec (.flushLane w) s =
      .next (((s.commandEnded 5 w 2 0 0).setLane n
        { emptied with gap := l.gap || l.ready != 0 || l.openParcel.isSome }).pushSegments l.chain)) ∧
    (s.Decodes (commandTransaction s 5 w) → l.state = .draining →
      ∃ u, exec (.flushLane w) s = .next u ∧
        u.lane n = { emptied with state := .closed, gap := l.gap || l.ready != 0 || l.openParcel.isSome } ∧
        (∀ m, m ≠ n → u.lane m = s.lane m) ∧ u.pool.freeList = l.chain.reverse ++ s.pool.freeList ∧
        u.cmd.running = false ∧ u.port.commandQ = (s.commandEnded 5 w 2 0 0).port.commandQ ∧
        (w.flags.getLsbD 0 = false → u.notice = (s.produce (laneClosedNotice n)).notice))) ∧
  (∀ (s : State) (w : CommandWrite) (n : LaneNo), s.cmd.running = false → s.cmd.autoload = none →
    w.lane.toNat = n.val → (∀ x ∈ s.hold.held, x.kind = .pool → x.lane = n ∧ x.line = .put) →
    let l := s.lane n
    let answered (u : State) : State :=
      (((l.takeLine.filter fun e => e.stage == .waiting).foldl (fun u e => u.answer e.tx.tag true 0)
        ((l.putLine.filter fun e => e.stage == .waiting).foldl (fun u e => match e.kind with
          | .capture _ o => (u.captureLost n e).answerOutcome e.tx o
          | .body | .final _ => u.answer e.tx.tag true 0) u)).unhold n .put).unhold n .take
    let kept (mark : BusyMark) : Lane := { l with
      busy := mark
      putLine := l.putLine.filter fun e => e.stage != .waiting
      takeLine := l.takeLine.filter fun e => e.stage != .waiting }
    (((∃ e ∈ l.putLine, e.stage ≠ .waiting) ∨ (∃ e ∈ l.takeLine, e.stage ≠ .waiting) ∨ l.cutting = true) →
      (s.Decodes (commandTransaction s 5 w) → l.state = .opened ∨ l.state = .draining →
        exec (.flushLane w) s =
          .next ((answered (s.commandTaken 5 w (.emptying n) [])).setLane n (kept .flush))) ∧
      (s.Decodes (commandTransaction s 6 w) → exec (.resetLane w) s =
        .next ((answered (s.commandTaken 6 w (.emptying n) [])).setLane n (kept .reset)))) ∧
    (s.Decodes (commandTransaction s 6 w) → s.hold.waiter = none → (∀ x ∈ s.hold.held, x.lane = n) →
      (∀ e ∈ l.putLine, e.stage = .waiting ∧ ∀ hold o, e.kind ≠ .capture hold o) →
      (∀ e ∈ l.takeLine, e.stage = .waiting) → l.cutting = false → exec (.resetLane w) s =
        .next (((answered (s.commandEnded 6 w 2 0 0)).setLane n { l with
          busy := .clear, chain := [], headOffset := 0, tailOffset := 0, ready := 0, openParcel := none,
          cache := none, takeSeq := l.putSeq, armed := true, state := .closed, gap := false, errors := 0,
          cause := .none, putLine := [], takeLine := [] }).pushSegments l.chain)))

/-- A command word that finds the unit RUNNING: with the slot free and the command hold limit not 0 it waits, with its
arrival tick and its deadline; with the slot taken it is refused COMMAND_QUEUE_FULL; with a limit of 0, COMMAND_BUSY:
each answered ERROR, counted in other refusals and noticed with source 0, value16 and value32 being 0, as no rule names
them (the model's deduction, log 20). That the full slot is looked at first is the model's choice (log 19) (R87, R121,
R125). -/
def Obligations.CommandWaitsForTheUnit : Prop :=
  ∀ (c : Instr) (s : State) (t : Transaction), s.presents c = some t → s.Decodes t → s.inControl t.address = true →
    s.controlOffset t.address = 0x800 → t.size = 8 → t.direction = .write → s.cmd.running = true →
    let refused (reason : Byte) : State :=
      (({ s.begin.occupy t with dec := { s.dec with otherRefusals := s.dec.otherRefusals + 1 } } : State).answer
          t.tag true 0).produce
        { kind := .accessRefused, source := 0, reason := reason, master := masterByte t, value16 := 0,
          address := t.address, value32 := 0 }
    (s.hold.waiter = none → s.hold.commandLimit ≠ 0 →
      exec c s = .next { s.begin.occupy t with hold := { s.hold with
        waiter := some
          { tx := t, arrival := s.hold.ticks, deadline := s.hold.ticks + s.hold.commandLimit.zeroExtend 32,
            due := false } } }) ∧
    (s.hold.waiter ≠ none → exec c s = .next (refused 0x15)) ∧
    (s.hold.waiter = none → s.hold.commandLimit = 0 → exec c s = .next (refused 0x14))

/-- COMMAND_WAITER_HANDOVER completes: the IDLE unit takes the command word in the slot, and the slot is empty. Whatever
the command, it is taken as one that arrives is; for LOAD APERTURES the 46 image reads follow its IN_PROGRESS response.
That a hand-over stands as a row of its own is the model's deduction (log 7), and no run reaches a state in which the row
finds one due: the hand-over is made inside the event that completes a command. A command completes so: its response word
with ticket, outcome, reason, detail and code, then COMMAND_DONE if NOTIFY is set, then the unit is IDLE with no command,
then the command word that waits is taken. The end of a write-back that WRITE STATUS waits for is such an event: the
response DONE, and behind it the IN_PROGRESS of the command that waited, then its reads (R88, R124, R125, R127, R133). -/
def Obligations.CommandWaiterHandoverCompletes : Prop :=
  (∀ (s : State) (w : Waiter), s.Calm → s.hold.waiter = some w → s.cmd.running = false →
    exec .commandWaiterHandover s =
      event (fun s => ({ s with hold := { s.hold with waiter := none } } : State).takeCommand w.tx) s ∧
    (s.cmd.autoload = none → byteOf w.tx.data 0 = 2 →
      exec .commandWaiterHandover s = .next { s.begin with
        hold := { s.hold with waiter := none }
        cmd :=
          { running := true, autoload := none, work := .images 46 [] none, taken := s.cmd.taken + 1,
            current :=
              { code := 2, lane := byteOf w.tx.data 1, flags := byteOf w.tx.data 2, ticket := halfOf w.tx.data 4,
                master := masterByte w.tx } }
        port := { s.port with
          commandQ := s.port.commandQ ++
            wordRequest (.responseWrite (halfOf w.tx.data 4)) (masterByte w.tx) (s.controlAddress 0x808) true
              (responseWord (halfOf w.tx.data 4) 1 0 0 2) ::
            (List.range 46).map fun i => wordRequest (.imageRead (0x100 + 8 * i) (halfOf w.tx.data 4))
              (masterByte w.tx) (s.controlAddress (0x100 + 8 * i)) false 0
          systemQ := s.port.systemQ ++ [forwardRequest w.tx w.tx.address 0 none] } })) ∧
  (∀ (s : State) (outcome reason detail : Byte), s.cmd.autoload = none →
    let c := s.cmd.current
    let responded : State := { s with port := { s.port with commandQ := s.port.commandQ ++ [
      wordRequest (.responseWrite c.ticket) c.master (s.controlAddress 0x808) true
        (responseWord c.ticket outcome reason detail c.code)] } }
    let noticed := if c.flags.getLsbD 0 then responded.produce
        { kind := .commandDone, reason := reason, master := c.master, value16 := c.ticket,
          source := if 3 ≤ c.code.toNat ∧ c.code.toNat ≤ 6 ∧ c.lane.toNat < 16 then c.lane else 0xFF,
          address := s.controlAddress 0x800,
          value32 := BitVec.ofNat 32 (c.code.toNat + 256 * outcome.toNat + 65536 * detail.toNat) }
      else responded
    s.completeCommand outcome reason detail = { noticed with
      cmd := { s.cmd with
        running := false, work := .none, current := { code := 0, lane := 0, flags := 0, ticket := 0, master := 0 } }
      todo := s.todo ++ [.handover] }) ∧
  (∀ (s : State) (r : MemRequest) (rest : List Outstanding) (m : MemResponse) (w : Waiter), s.Ends r rest →
    r.owner = .statusWrite 74 → s.cmd.work = .status false → s.cmd.autoload = none → s.status.followOn = false →
    s.cmd.current.flags.getLsbD 0 = false → s.hold.waiter = some w → byteOf w.tx.data 0 = 2 → m ≠ .error →
    exec (.statusWriteEnd m) s = .next { s.ended rest with
      hold := { s.hold with waiter := none }
      status := { s.status with inProgress := false }
      cmd :=
        { running := true, autoload := none, work := .images 46 [] none, taken := s.cmd.taken + 1,
          current :=
            { code := 2, lane := byteOf w.tx.data 1, flags := byteOf w.tx.data 2, ticket := halfOf w.tx.data 4,
              master := masterByte w.tx } }
      port := { s.port with
        outstanding := rest
        commandQ := s.port.commandQ ++
          wordRequest (.responseWrite s.cmd.current.ticket) s.cmd.current.master (s.controlAddress 0x808) true
            (responseWord s.cmd.current.ticket 2 0 0 s.cmd.current.code) ::
          wordRequest (.responseWrite (halfOf w.tx.data 4)) (masterByte w.tx) (s.controlAddress 0x808) true
            (responseWord (halfOf w.tx.data 4) 1 0 0 2) ::
          (List.range 46).map fun i => wordRequest (.imageRead (0x100 + 8 * i) (halfOf w.tx.data 4))
            (masterByte w.tx) (s.controlAddress (0x100 + 8 * i)) false 0
        systemQ := s.port.systemQ ++ [forwardRequest w.tx w.tx.address 0 none] } })

/-! ## The memory port -/

/-- MEMORY_REQUEST_ISSUE completes: with fewer than 8 entries outstanding, the oldest request of the first class that
has one (notice writes, command unit, system-port-derived, status writes) goes to the tail of the outstanding list,
with the tick counter as issue tick and that plus the response limit as deadline, none with a limit of 0. A status
write takes its record's snapshot first: the global fields at write 2, a lane's record at the first of its four. With 8
outstanding, or nothing waiting, nothing happens. The fields of a global record and of a lane record, each at its
offset; and the 74 writes of a write-back: generation begin, the global words in their parts, the lane records,
generation end, with byte enables for the bytes they carry, each with the address of the first byte it carries (the
model's deduction, log 16) (R148, R149, R150, R163, R164, R165, 12.8). -/
def Obligations.RequestIssueCompletes : Prop :=
  (∀ s : State, s.Calm →
    let out (r : MemRequest) : List Outstanding := s.port.outstanding ++ [
      { request := r, issueTick := s.hold.ticks,
        deadline := if s.port.limit = 0 then none else some (s.hold.ticks + s.port.limit.zeroExtend 32),
        due := false, abandoned := false }]
    (8 ≤ s.port.outstanding.length → exec .memoryRequestIssue s = .next s.begin) ∧
    (s.port.noticeQ = [] → s.port.commandQ = [] → s.port.systemQ = [] → s.port.statusQ = [] →
      exec .memoryRequestIssue s = .next s.begin) ∧
    (s.port.outstanding.length < 8 →
      (∀ r q, s.port.noticeQ = r :: q → exec .memoryRequestIssue s =
        .next { s.begin with port := { s.port with noticeQ := q, outstanding := out r } }) ∧
      (∀ r q, s.port.noticeQ = [] → s.port.commandQ = r :: q → exec .memoryRequestIssue s =
        .next { s.begin with port := { s.port with commandQ := q, outstanding := out r } }) ∧
      (∀ r q, s.port.noticeQ = [] → s.port.commandQ = [] → s.port.systemQ = r :: q → exec .memoryRequestIssue s =
        .next { s.begin with port := { s.port with systemQ := q, outstanding := out r } }) ∧
      (∀ i q, s.port.noticeQ = [] → s.port.commandQ = [] → s.port.systemQ = [] → s.port.statusQ = i :: q →
        let status := { s.status with
          snapshot :=
            if i = 2 then s.globalWords
            else if 10 ≤ i ∧ i ≤ 73 ∧ (i - 10) % 4 = 0 then s.laneWords (statusLane i)
            else s.status.snapshot }
        exec .memoryRequestIssue s = .next { s.begin with
          status := status
          port := { s.port with
            statusQ := q
            outstanding := out (({ s with status := status } : State).statusWrite i) } }))) ∧
  (∀ s : State, ∃ w0 w1 w2 w3 w4 w5 : Word,
    s.globalWords = [w0, w1, w2, w3, w4, w5, 0, packQuads 0 s.status.generation] ∧
    quadOf w0 0 = s.status.generation ∧ halfOf w0 4 = BitVec.ofNat 16 s.pool.freeList.length ∧
    halfOf w0 6 = BitVec.ofNat 16 s.pool.minFree ∧ halfOf w1 0 = s.notice.producer ∧
    halfOf w1 2 = s.notice.loss ∧ halfOf w1 4 = s.notice.badConsumer ∧ halfOf w1 6 = s.notice.writeErrors ∧
    quadOf w2 0 = s.port.errors ∧ halfOf w2 4 = s.port.timeouts ∧ byteOf w2 6 = BitVec.ofNat 8 s.hold.highWater ∧
    byteOf w2 7 = BitVec.ofNat 8 s.hold.held.length ∧ quadOf w3 0 = s.cmd.taken ∧ quadOf w3 4 = s.dec.tapLost ∧
    quadOf w4 0 = s.dec.guardRefusals ∧ quadOf w4 4 = s.dec.otherRefusals ∧
    quadOf w5 0 = s.hold.ticks - s.hold.setupMark ∧ quadOf w5 4 = 0) ∧
  (∀ (s : State) (n : LaneNo),
    let l := s.lane n
    ∃ w0 w1 w2 w3 : Word, s.laneWords n = [w0, w1, w2, w3] ∧
      byteOf w0 0 = (match l.state with
        | .closed => 0
        | .opened => 1
        | .draining => 2
        | .faulted => 3) ∧
      byteOf w0 1 = (match l.cause with
        | .none => 0
        | .memoryErrors => 1
        | .headerWrite => 2
        | .headerCheck => 3) ∧
      byteOf w0 2 = BitVec.ofNat 8 l.errors ∧
      byteOf w0 3 = (if s.heldOf n .put = none then 0 else 1) + (if s.heldOf n .take = none then 0 else 2) ∧
      halfOf w0 4 = BitVec.ofNat 16 l.ready ∧ halfOf w0 6 = BitVec.ofNat 16 l.chain.length ∧
      halfOf w1 0 = (match l.openParcel with
        | some p => BitVec.ofNat 16 p.length
        | none => 0) ∧
      halfOf w1 2 = l.putSeq ∧ halfOf w1 4 = l.takeSeq ∧
      halfOf w1 6 = (match l.cache with
        | some c => BitVec.ofNat 16 c.consumed
        | none => 0) ∧
      quadOf w2 0 = l.closed ∧ quadOf w2 4 = l.released ∧ halfOf w3 0 = l.evicted ∧ halfOf w3 2 = l.refusals ∧
      halfOf w3 4 = l.expiries ∧ halfOf w3 6 = l.overreads) ∧
  (∀ (s : State) (i : Nat),
    let kept (k : Nat) : Word := s.status.snapshot.getD k 0
    let write (offset : Nat) (enables : BitVec 8) (data : Word) : Prop :=
      s.statusWrite i =
        { owner := .statusWrite i, master := 0xFF, address := s.controlAddress offset, write := true,
          enables := enables, data := maskWord enables data }
    (i = 1 → write 0xC00 0x0F (packQuads s.status.generation 0)) ∧
    (i = 2 → write 0xC04 0xF0 (kept 0)) ∧
    (3 ≤ i → i ≤ 8 → write (0xC08 + 8 * (i - 3)) 0xFF (kept (i - 2))) ∧
    (i = 9 → write 0xC38 0x0F (kept 7)) ∧
    (∀ (n : LaneNo) (k : Fin 4), i = 10 + 4 * n.val + k.val →
      write (0xC40 + 32 * n.val + 8 * k.val) 0xFF (kept k.val) ∧ statusLane i = n) ∧
    (i = 74 → write 0xC3C 0xF0 (packQuads 0 s.status.generation)))

/-- PASS_THROUGH_END completes: the access is answered with its memory outcome, OK with the data of the byte lanes of a
read, or ERROR. A failure raises memory errors by 1 and is noticed with the deciding entry as source and the
transaction's size. The end of a tapped access whose request ends ERROR is counted and noticed so too, and its capture,
with the outcome ERROR, goes on as that of one that ended OK. The capture of a tapped access whose lane is not OPEN, or
busy, is lost, and the access is answered in the same event, with its own memory outcome. On an OPEN lane whose put
line has an entry the capture waits behind it. On an OPEN lane whose line is empty the capture is evaluated in that
event. With no open parcel and room for its 24 bytes it starts: a claimed segment is linked, the parcel opens with
CAPTURE and length 16, its two body words are written behind its header slot, and the access stays unanswered. Beside
an open parcel it is lost. Where the lane is full it is lost with HOLD clear, with a hold limit of 0, or with six
entries held (with no HOLD_EXPIRED), and is else held for CAPTURE for the lane's hold limit (R22, R79, R80, R100, R110,
R111, R112, R113, R115, R116, R152, R153, R158). -/
def Obligations.PassThroughEndCompletes : Prop :=
  (∀ (s : State) (r : MemRequest) (rest : List Outstanding) (t : Transaction) (source : Byte), s.Ends r rest →
    let data (d : Word) : Word := if t.direction = .read then maskWord (laneEnables t) d else 0
    (r.owner = .forward t source none →
      (∀ d, exec (.passThroughEnd (.ok d)) s = .next ((s.ended rest).answer t.tag false (data d))) ∧
      exec (.passThroughEnd .error) s =
        .next ((s.endedFailed r rest source (BitVec.ofNat 16 t.size)).answer t.tag true 0)) ∧
    (∀ (q : TapRequest) (m : MemResponse), r.owner = .forward t source (some q) →
      let l := s.lane q.lane
      let base : State :=
        if m = .error then s.endedFailed r rest source (BitVec.ofNat 16 t.size) else s.ended rest
      let e : PutEntry :=
        { tx := t, entry := q.entry, kind := .capture q.hold (outcomeOf m), stage := .waiting, linked := false }
      (l.state ≠ .opened ∨ l.busy ≠ .clear → exec (.passThroughEnd m) s = .next (match m with
        | .ok d => (base.captureLost q.lane e).answer t.tag false (data d)
        | .error => (base.captureLost q.lane e).answer t.tag true 0)) ∧
      (l.state = .opened → l.busy = .clear → l.putLine ≠ [] → exec (.passThroughEnd m) s =
        .next (base.setLane q.lane { l with putLine := l.putLine ++ [e] })))) ∧
  (∀ (s : State) (r : MemRequest) (rest : List Outstanding) (t : Transaction) (source : Byte) (q : TapRequest)
      (m : MemResponse), s.Ends r rest → r.owner = .forward t source (some q) → s.PutQuiet q.lane →
    let l := s.lane q.lane
    let base : State := if m = .error then s.endedFailed r rest source (BitVec.ofNat 16 t.size) else s.ended rest
    let e : PutEntry :=
      { tx := t, entry := q.entry, kind := .capture q.hold (outcomeOf m), stage := .waiting, linked := false }
    let lost : State := match m with
      | .ok d => (base.captureLost q.lane e).answer t.tag false
          (if t.direction = .read then maskWord (laneEnables t) d else 0)
      | .error => (base.captureLost q.lane e).answer t.tag true 0
    (∀ claims, l.openParcel = none → s.spaceCheck q.lane true 24 = .starts claims →
      let segments := if claims then s.pool.freeList.head?.toList else []
      let start := (l.chain.length - 1) * 512 + l.tailOffset
      let chain := l.chain ++ segments
      let word (at' : Nat) (w : Word) : MemRequest :=
        { owner := .captureWrite q.lane, master := masterByte t,
          address := s.poolAddress (chain.getD (at' / 512) 0) (at' % 512), write := true, enables := 0xFF, data := w }
      ∃ u, exec (.passThroughEnd m) s = .next u ∧
        u.lane q.lane = { l with
          chain := chain
          tailOffset := start + 24 - (chain.length - 1) * 512
          openParcel := some
            { segment := chain.getD (start / 512) 0, offset := start % 512, length := 16, flags := 0x08,
              sequence := l.putSeq }
          putSeq := l.putSeq + 1
          putLine := [{ e with stage := .writingBody 2 false, linked := claims }] } ∧
        (∀ m, m ≠ q.lane → u.lane m = s.lane m) ∧
        u.port.systemQ = s.port.systemQ ++
          [word (start + 8) (captureWord0 t (outcomeOf m)), word (start + 16) (captureWord1 t (outcomeOf m) q.entry)] ∧
        u.port.outstanding = rest ∧ u.port.errors = base.port.errors ∧
        u.pool.freeList = (if claims then s.pool.freeList.tail else s.pool.freeList) ∧
        u.sys = s.begin.sys ∧ u.hold = s.hold ∧ u.dec = s.dec ∧ u.cmd = s.cmd ∧ u.status = s.status) ∧
    (l.openParcel ≠ none → exec (.passThroughEnd m) s = .next lost) ∧
    (∀ kind, l.openParcel = none → s.spaceCheck q.lane true 24 = .full kind →
      (q.hold = false ∨ l.desc.holdLimit = 0 ∨ s.hold.held.length = 6 →
        exec (.passThroughEnd m) s = .next lost) ∧
      (q.hold = true → l.desc.holdLimit ≠ 0 → s.hold.held.length < 6 → exec (.passThroughEnd m) s =
        .next { (base.setLane q.lane { l with putLine := [e] }) with
          hold := { s.hold with
            held := s.hold.held ++ [
              { tag := t.tag, lane := q.lane, line := .put, kind := .capture, start := s.hold.ticks,
                deadline := s.hold.ticks + l.desc.holdLimit.zeroExtend 32, due := false }]
            highWater := max s.hold.highWater (s.hold.held.length + 1) } })))

/-- The loss-run state of a TAP entry. A loss raises tap captures lost by 1, wrapping; it sets a clear run flag with count
1 and a TAP_LOSS notice RUN_START, and raises the count of a set one by 1. A placement clears a set run flag and its count,
with a TAP_LOSS notice RUN_END of the count, and leaves a clear one. Neither changes anything else (R118). -/
def Obligations.TapLossRuns : Prop :=
  ∀ (s : State) (n : LaneNo) (e : PutEntry),
    let run := s.dec.runs[e.entry.val]
    let notice (reason : Byte) (count : Quad) : Notice :=
      { kind := .tapLoss, source := entryByte e.entry, reason := reason, master := masterByte e.tx,
        value16 := BitVec.ofNat 16 n.val, address := e.tx.address, value32 := count }
    let lost (r : LossRun) : State :=
      { s with dec := { s.dec with tapLost := s.dec.tapLost + 1, runs := s.dec.runs.set e.entry.val r } }
    (run.running = false →
      s.captureLost n e = (lost { running := true, count := 1 }).produce (notice 0x30 1) ∧ s.capturePlaced n e = s) ∧
    (run.running = true →
      s.captureLost n e = lost { running := true, count := run.count + 1 } ∧
      s.capturePlaced n e =
        ({ s with dec := { s.dec with runs := s.dec.runs.set e.entry.val { running := false, count := 0 } } } :
          State).produce (notice 0x31 run.count))

/-- BODY_WRITE_END completes on an OPEN lane. Success returns the consecutive error count to 0: the put waits for its
other writes; after the last a body put is answered OK and leaves, a final put closes its parcel with its tag in a
header write. Failure of a body put's last write below the fault threshold: the count rises, the parcel is DAMAGED, the
put is answered ERROR, with memory errors counted and MEMORY_ERROR noticed; of a final put's, the same but that its
header is written, with DAMAGED, and the put is to be answered ERROR when that write ends; of a write with others left,
the put goes on to them, to be answered ERROR. Failure that brings the count to the threshold takes the lane to FAULTED
with cause MEMORY_ERRORS, with LANE_FAULTED behind MEMORY_ERROR: the entries of both lines that wait, held or not, are
answered in that event (puts ERROR and captures lost, then takes ERROR: that order is the model's choice, log 9), and
those in flight stay. On a FAULTED lane the count stands; a failure still damages the parcel; a body put is answered
with the outcome of its own writes, and a final put ERROR with no header write. Where a command works on the lane, the
put in flight goes on by the same rules and the command in that event: CLOSE LANE cuts the open parcel behind the body
put that ends, with tag 255 and CUT and the flags so far, or ends DONE with the parcel uncut where the failure faults
the lane; FLUSH and RESET, with nothing else in flight, discard the lane's contents behind the put's answer and end
DONE, FLUSH with LANE_CLOSED on a DRAINING lane and leaving FAULTED the lane that this failure faults (R4, R6, R7, R8,
R52, R53, R54, R86, R135, R136, R153, R154, R155). The unset offsets of the emptied lane are held as 0 (log 14). -/
def Obligations.BodyWriteEndCompletes : Prop :=
  (∀ (s : State) (r : MemRequest) (rest : List Outstanding) (n : LaneNo) (e : PutEntry) (left : Nat) (failed : Bool),
    s.Ends r rest → r.owner = .bodyWrite n → s.Puts n e → e.stage = .writingBody left failed →
    e.tx.direction = .write →
    let l := s.lane n
    (∀ d, 1 < left → exec (.bodyWriteEnd (.ok d)) s = .next ((s.ended rest).setLane n
      { l with errors := 0, putLine := [{ e with stage := .writingBody (left - 1) failed }] })) ∧
    (∀ d, left = 1 → e.kind = .body → exec (.bodyWriteEnd (.ok d)) s = .next (((s.ended rest).setLane n
      { l with errors := 0, putLine := [] }).answer e.tx.tag failed 0)) ∧
    (∀ d tag p, left = 1 → e.kind = .final tag → l.openParcel = some p →
      exec (.bodyWriteEnd (.ok d)) s = .next (((s.ended rest).setLane n
        { l with
          errors := 0
          tailOffset := roundUp8 l.tailOffset
          putLine := [{ e with stage := .writingHeader failed }] }).request
        { owner := .headerWrite n, master := masterByte e.tx, address := s.poolAddress p.segment p.offset,
          write := true, enables := 0xFF,
          data := (closingHeader (BitVec.ofNat 16 p.length) p.sequence tag p.flags).word })) ∧
    (left = 1 → e.kind = .body → l.errors + 1 ≠ l.desc.faultThreshold →
      exec (.bodyWriteEnd .error) s =
        .next (((s.endedFailed r rest (laneByte n) (BitVec.ofNat 16 (l.errors + 1))).setLane n
          { l with
            errors := l.errors + 1
            openParcel := l.openParcel.map fun p => { p with flags := p.flags ||| flagDamaged }
            putLine := [] }).answer e.tx.tag true 0)) ∧
    (1 < left → l.errors + 1 ≠ l.desc.faultThreshold →
      exec (.bodyWriteEnd .error) s =
        .next ((s.endedFailed r rest (laneByte n) (BitVec.ofNat 16 (l.errors + 1))).setLane n
          { l with
            errors := l.errors + 1
            openParcel := l.openParcel.map fun p => { p with flags := p.flags ||| flagDamaged }
            putLine := [{ e with stage := .writingBody (left - 1) true }] })) ∧
    (∀ tag p, left = 1 → e.kind = .final tag → l.openParcel = some p → l.errors + 1 ≠ l.desc.faultThreshold →
      exec (.bodyWriteEnd .error) s =
        .next (((s.endedFailed r rest (laneByte n) (BitVec.ofNat 16 (l.errors + 1))).setLane n
          { l with
            errors := l.errors + 1
            tailOffset := roundUp8 l.tailOffset
            openParcel := some { p with flags := p.flags ||| flagDamaged }
            putLine := [{ e with stage := .writingHeader true }] }).request
          { owner := .headerWrite n, master := masterByte e.tx, address := s.poolAddress p.segment p.offset,
            write := true, enables := 0xFF,
            data := (closingHeader (BitVec.ofNat 16 p.length) p.sequence tag (p.flags ||| flagDamaged)).word }))) ∧
  (∀ (s : State) (r : MemRequest) (rest : List Outstanding) (n : LaneNo) (e : PutEntry) (es : List PutEntry)
      (left : Nat) (failed : Bool), s.Ends r rest → r.owner = .bodyWrite n → (s.lane n).state = .opened →
    (s.lane n).busy = .clear → s.cmd.work ≠ .closing n → (s.lane n).putLine = e :: es →
    e.stage = .writingBody left failed → 1 < left → (∀ x ∈ es, x.stage = .waiting) → s.heldOf n .put = none →
    (∀ h, s.heldOf n .take = some h → h.kind = .parcel) →
    (s.lane n).errors + 1 = (s.lane n).desc.faultThreshold →
    let l := s.lane n
    let faulted : State := (s.endedFailed r rest (laneByte n) (BitVec.ofNat 16 (l.errors + 1))).produce
      { kind := .laneFaulted, source := laneByte n, reason := 1, master := r.master,
        value16 := BitVec.ofNat 16 (l.errors + 1), address := r.address, value32 := 2 }
    exec (.bodyWriteEnd .error) s =
      .next (((((l.takeLine.filter fun x => x.stage == .waiting).foldl (fun u x => u.answer x.tx.tag true 0)
        (es.foldl (fun u x => match x.kind with
          | .capture _ o => (u.captureLost n x).answerOutcome x.tx o
          | .body | .final _ => u.answer x.tx.tag true 0) faulted)).unhold n .take).setLane n
        { l with
          errors := l.errors + 1
          state := .faulted
          cause := .memoryErrors
          openParcel := l.openParcel.map fun p => { p with flags := p.flags ||| flagDamaged }
          putLine := [{ e with stage := .writingBody (left - 1) true }]
          takeLine := l.takeLine.filter fun x => x.stage != .waiting }))) ∧
  (∀ (s : State) (r : MemRequest) (rest : List Outstanding) (n : LaneNo) (e : PutEntry) (failed : Bool),
    s.Ends r rest → r.owner = .bodyWrite n → (s.lane n).state = .faulted → (s.lane n).busy = .clear →
    s.cmd.work ≠ .closing n → (s.lane n).putLine = [e] → s.heldOf n .put = none →
    e.stage = .writingBody 1 failed → e.tx.direction = .write →
    let l := s.lane n
    (∀ d, e.kind = .body → exec (.bodyWriteEnd (.ok d)) s =
      .next (((s.ended rest).setLane n { l with putLine := [] }).answer e.tx.tag failed 0)) ∧
    (∀ d tag, e.kind = .final tag → exec (.bodyWriteEnd (.ok d)) s =
      .next (((s.ended rest).setLane n { l with putLine := [] }).answer e.tx.tag true 0)) ∧
    ((∀ hold o, e.kind ≠ .capture hold o) → exec (.bodyWriteEnd .error) s =
      .next (((s.endedFailed r rest (laneByte n) (BitVec.ofNat 16 l.errors)).setLane n
        { l with
          openParcel := l.openParcel.map fun p => { p with flags := p.flags ||| flagDamaged }
          putLine := [] }).answer e.tx.tag true 0))) ∧
  (∀ (s : State) (r : MemRequest) (rest : List Outstanding) (n : LaneNo) (e : PutEntry) (failed : Bool)
      (p : OpenParcel), s.Ends r rest → r.owner = .bodyWrite n → (s.lane n).state = .draining →
    (s.lane n).busy = .clear → s.cmd.work = .closing n → (s.lane n).cutting = false → (s.lane n).putLine = [e] →
    s.heldOf n .put = none → e.stage = .writingBody 1 failed → e.kind = .body → e.tx.direction = .write →
    (s.lane n).openParcel = some p →
    let l := s.lane n
    let cut (flags : Byte) (u : State) (errors : Nat) : State :=
      (u.setLane n { l with
        errors := errors, putLine := [], openParcel := some { p with flags := flags }
        tailOffset := roundUp8 l.tailOffset, cutting := true }).request
      (wordRequest (.headerWrite n) 0xFF (s.poolAddress p.segment p.offset) true
        (closingHeader (BitVec.ofNat 16 p.length) p.sequence 0xFF (flags ||| flagCut)).word)
    (∀ d, exec (.bodyWriteEnd (.ok d)) s = .next ((cut p.flags (s.ended rest) 0).answer e.tx.tag failed 0)) ∧
    (l.errors + 1 ≠ l.desc.faultThreshold → exec (.bodyWriteEnd .error) s =
      .next ((cut (p.flags ||| flagDamaged) (s.endedFailed r rest (laneByte n) (BitVec.ofNat 16 (l.errors + 1)))
        (l.errors + 1)).answer e.tx.tag true 0)) ∧
    (l.errors + 1 = l.desc.faultThreshold → s.cmd.autoload = none → s.hold.waiter = none →
      (∀ h, s.heldOf n .take = some h → h.kind = .parcel) →
      let faulted : State := (s.endedFailed r rest (laneByte n) (BitVec.ofNat 16 (l.errors + 1))).produce
        { kind := .laneFaulted, source := laneByte n, reason := 1, master := r.master,
          value16 := BitVec.ofNat 16 (l.errors + 1), address := r.address, value32 := 2 }
      exec (.bodyWriteEnd .error) s =
        .next { (((((l.takeLine.filter fun x => x.stage == .waiting).foldl (fun u x => u.answer x.tx.tag true 0)
          faulted).unhold n .take).setLane n
            { l with
              errors := l.errors + 1
              state := .faulted
              cause := .memoryErrors
              openParcel := some { p with flags := p.flags ||| flagDamaged }
              putLine := []
              takeLine := l.takeLine.filter fun x => x.stage != .waiting }).answer e.tx.tag true 0).completeCommand
                2 0 0 with todo := [] })) ∧
  (∀ (s : State) (r : MemRequest) (rest : List Outstanding) (n : LaneNo) (e : PutEntry) (failed : Bool),
    s.Ends r rest → r.owner = .bodyWrite n → (s.lane n).state = .opened ∨ (s.lane n).state = .draining →
    s.cmd.work = .emptying n → s.cmd.autoload = none → s.hold.waiter = none → s.hold.held = [] →
    (s.lane n).cutting = false → (s.lane n).putLine = [e] → (s.lane n).takeLine = [] →
    e.stage = .writingBody 1 failed → e.kind = .body → e.tx.direction = .write →
    let l := s.lane n
    let emptied : Lane := { l with
      busy := .clear, chain := [], headOffset := 0, tailOffset := 0, ready := 0, openParcel := none, cache := none,
      takeSeq := l.putSeq, armed := true, putLine := [] }
    let gap := l.gap || l.ready != 0 || l.openParcel.isSome
    let done (u : State) (lane : Lane) : State := (u.setLane n lane).pushSegments l.chain
    (∀ d,
      let u := (s.ended rest).answer e.tx.tag failed 0
      (l.busy = .reset → exec (.bodyWriteEnd (.ok d)) s = .next { (done u
        { emptied with state := .closed, gap := false, errors := 0, cause := .none }).completeCommand 2 0 0 with
          todo := [] }) ∧
      (l.busy = .flush → l.state = .opened → exec (.bodyWriteEnd (.ok d)) s = .next { (done u
        { emptied with gap := gap, errors := 0 }).completeCommand 2 0 0 with todo := [] }) ∧
      (l.busy = .flush → l.state = .draining → exec (.bodyWriteEnd (.ok d)) s = .next { ((done u
        { emptied with state := .closed, gap := gap, errors := 0 }).produce (laneClosedNotice n)).completeCommand
          2 0 0 with todo := [] })) ∧
    (l.busy = .flush → l.errors + 1 = l.desc.faultThreshold → exec (.bodyWriteEnd .error) s =
      .next { (done (((s.endedFailed r rest (laneByte n) (BitVec.ofNat 16 (l.errors + 1))).produce
        { kind := .laneFaulted, source := laneByte n, reason := 1, master := r.master,
          value16 := BitVec.ofNat 16 (l.errors + 1), address := r.address, value32 := 2 }).answer e.tx.tag true 0)
        { emptied with state := .faulted, cause := .memoryErrors, gap := gap, errors := l.errors + 1 }).completeCommand
          2 0 0 with todo := [] }))

/-- HEADER_WRITE_END completes. Success makes the open parcel ready: ready count and parcels closed rise by 1, the open
parcel is gone, a final put is answered (OK unless a body write of it had failed); PARCEL_READY is noticed, and
disarmed, when it is armed and the ready count reaches the threshold. Failure of a final put's header write is answered
ERROR and takes the lane to FAULTED with cause HEADER_WRITE, whatever its count: MEMORY_ERROR, then LANE_FAULTED; the
parcel stays open. On a lane that CLOSE LANE drains, the success of the cut's header write makes the cut parcel ready,
with 0xFF as the master of PARCEL_READY, and that of a final put in flight its parcel; CLOSE LANE then ends DONE in
that event. The failure of the cut's header write faults the lane, answers the takes that wait, and ends CLOSE LANE
DONE as well. The failure of a capture's header write withdraws the capture, as the failure of its body write does,
faults the lane with cause HEADER_WRITE and counts the capture lost; its access is answered with its own outcome (R4,
R6, R13, R53, R56, R114, R115, R135, R155). That the entries waiting behind are answered, and their captures lost, in
line order and before that capture is, are the model's choices (log 9, log 36); the offsets of a lane with no segment
are held as 0 (log 14), and a lane with a ready parcel keeps its last segment (log 15). -/
def Obligations.HeaderWriteEndCompletes : Prop :=
  (∀ (s : State) (r : MemRequest) (rest : List Outstanding) (n : LaneNo) (e : PutEntry) (tag : Byte) (failed : Bool)
      (p : OpenParcel),
    s.Ends r rest → r.owner = .headerWrite n → s.Puts n e → e.stage = .writingHeader failed → e.kind = .final tag →
    e.tx.direction = .write → (s.lane n).openParcel = some p → (s.lane n).cutting = false →
    s.heldOf n .take = none →
    let l := s.lane n
    let notify := l.armed && l.ready + 1 == l.desc.readyThreshold
    let ready := (s.ended rest).setLane n { l with
      errors := 0, openParcel := none, ready := l.ready + 1, closed := l.closed + 1, armed := l.armed && !notify,
      putLine := [] }
    (∀ d, notify = false → exec (.headerWriteEnd (.ok d)) s = .next (ready.answer e.tx.tag failed 0)) ∧
    (∀ d, notify = true → exec (.headerWriteEnd (.ok d)) s = .next ((ready.produce
      { kind := .parcelReady, source := laneByte n, reason := 0, master := masterByte e.tx,
        value16 := BitVec.ofNat 16 (l.ready + 1), address := s.poolAddress p.segment p.offset,
        value32 := p.sequence.zeroExtend 32 }).answer e.tx.tag failed 0)) ∧
    (l.takeLine = [] → exec (.headerWriteEnd .error) s =
      .next ((((s.endedFailed r rest (laneByte n) (BitVec.ofNat 16 (l.errors + 1))).produce
          { kind := .laneFaulted, source := laneByte n, reason := 2, master := r.master,
            value16 := BitVec.ofNat 16 (l.errors + 1), address := r.address, value32 := 3 }).setLane n
        { l with errors := l.errors + 1, state := .faulted, cause := .headerWrite, putLine := [] }).answer e.tx.tag
          true 0))) ∧
  (∀ (s : State) (r : MemRequest) (rest : List Outstanding) (n : LaneNo) (p : OpenParcel), s.Ends r rest →
    r.owner = .headerWrite n → (s.lane n).state = .draining → (s.lane n).busy = .clear → s.cmd.work = .closing n →
    s.cmd.autoload = none → s.hold.waiter = none → (s.lane n).openParcel = some p →
    let l := s.lane n
    let notify := l.armed && l.ready + 1 == l.desc.readyThreshold
    let ready (cutting : Bool) (master : Byte) : State :=
      let u := (s.ended rest).setLane n { l with
        errors := 0, openParcel := none, ready := l.ready + 1, closed := l.closed + 1, armed := l.armed && !notify,
        putLine := [], cutting := cutting }
      if notify then u.produce
        { kind := .parcelReady, source := laneByte n, reason := 0, master := master,
          value16 := BitVec.ofNat 16 (l.ready + 1), address := s.poolAddress p.segment p.offset,
          value32 := p.sequence.zeroExtend 32 }
      else u
    (∀ d, l.cutting = true → l.putLine = [] → s.heldOf n .take = none →
      exec (.headerWriteEnd (.ok d)) s = .next { (ready false 0xFF).completeCommand 2 0 0 with todo := [] }) ∧
    (∀ d e tag failed, l.cutting = false → l.putLine = [e] → s.heldOf n .put = none → s.heldOf n .take = none →
      e.stage = .writingHeader failed → e.kind = .final tag → e.tx.direction = .write →
      exec (.headerWriteEnd (.ok d)) s =
        .next { ((ready false (masterByte e.tx)).answer e.tx.tag failed 0).completeCommand 2 0 0 with todo := [] }) ∧
    (l.cutting = true → l.putLine = [] → s.heldOf n .put = none →
      (∀ h, s.heldOf n .take = some h → h.kind = .parcel) →
      let faulted : State := (s.endedFailed r rest (laneByte n) (BitVec.ofNat 16 (l.errors + 1))).produce
        { kind := .laneFaulted, source := laneByte n, reason := 2, master := r.master,
          value16 := BitVec.ofNat 16 (l.errors + 1), address := r.address, value32 := 3 }
      exec (.headerWriteEnd .error) s =
        .next { ((((l.takeLine.filter fun x => x.stage == .waiting).foldl (fun u x => u.answer x.tx.tag true 0)
          faulted).unhold n .take).setLane n
            { l with
              errors := l.errors + 1, state := .faulted, cause := .headerWrite, cutting := false
              takeLine := l.takeLine.filter fun x => x.stage != .waiting }).completeCommand 2 0 0 with todo := [] })) ∧
  ∀ (s : State) (r : MemRequest) (rest : List Outstanding) (n : LaneNo) (e : PutEntry) (es : List PutEntry)
      (hold failed : Bool) (outcome : MemOutcome) (p : OpenParcel), s.Ends r rest → r.owner = .headerWrite n →
    (s.lane n).state = .opened → (s.lane n).busy = .clear → s.cmd.work ≠ .closing n → (s.lane n).cutting = false →
    (s.lane n).putLine = e :: es → (∀ x ∈ es, x.stage = .waiting) → (s.lane n).takeLine = [] → s.hold.held = [] →
    e.kind = .capture hold outcome → e.stage = .writingHeader failed → (s.lane n).openParcel = some p →
    let l := s.lane n
    let faulted : State := (s.endedFailed r rest (laneByte n) (BitVec.ofNat 16 (l.errors + 1))).produce
      { kind := .laneFaulted, source := laneByte n, reason := 2, master := r.master,
        value16 := BitVec.ofNat 16 (l.errors + 1), address := r.address, value32 := 3 }
    let answered : State := es.foldl (fun u x => match x.kind with
      | .capture _ o => (u.captureLost n x).answerOutcome x.tx o
      | .body | .final _ => u.answer x.tx.tag true 0) faulted
    let lane : Lane := { l with
      errors := l.errors + 1, state := .faulted, cause := .headerWrite, openParcel := none, putSeq := l.putSeq - 1,
      putLine := [] }
    let withdrawn (lane : Lane) (segments : List Nat) : State :=
      (((answered.setLane n lane).pushSegments segments).captureLost n e).answerOutcome e.tx outcome
    (l.ready = 0 → exec (.headerWriteEnd .error) s =
      .next (withdrawn { lane with chain := [], headOffset := 0, tailOffset := 0 } l.chain)) ∧
    (∀ front x, l.ready ≠ 0 → e.linked = true → l.chain = front ++ [x] → front ≠ [] →
      exec (.headerWriteEnd .error) s = .next (withdrawn
        { lane with chain := front, tailOffset := if p.segment = x then 512 else p.offset } [x])) ∧
    (l.ready ≠ 0 → e.linked = false →
      exec (.headerWriteEnd .error) s = .next (withdrawn { lane with tailOffset := p.offset } []))

/-- CAPTURE_WRITE_END completes on an OPEN lane: a first success leaves the other write, and so does a first failure
below the fault threshold, which raises the count and is counted and noticed; after the second the parcel is closed by
a header write whose tag is the TAP entry's index. When that header write ends in success the capture is placed: the
parcel is ready, PARCEL_READY is noticed with the access's master if it is due, and the tapped access is answered with
its own memory outcome. When the last of the two writes ends and one of them failed, that last one below the threshold
or the first one before a success, which returns the count to 0, the capture is withdrawn: the open parcel is gone, the
put sequence 1 lower, and the tail is where the capture's header slot lay. A segment linked for it, and with no ready
parcel the whole chain, goes back to the free list; a tail at the start of the linked segment is offset 512 of the one
before. Then the capture is lost and the access is answered with its own memory outcome (R13, R56, R113, R114, R115).
That a lane with a ready parcel keeps its last segment, and that the unset offsets of a lane with none are held as 0,
are the model's choices (log 15, log 14). -/
def Obligations.CaptureWriteEndCompletes : Prop :=
  (∀ (s : State) (r : MemRequest) (rest : List Outstanding) (n : LaneNo) (e : PutEntry) (hold failed : Bool)
      (outcome : MemOutcome) (p : OpenParcel) (d : Word),
    s.Ends r rest → s.Puts n e → e.kind = .capture hold outcome → (s.lane n).openParcel = some p →
    let l := s.lane n
    (r.owner = .captureWrite n → e.stage = .writingBody 2 failed →
      exec (.captureWriteEnd (.ok d)) s = .next ((s.ended rest).setLane n
        { l with errors := 0, putLine := [{ e with stage := .writingBody 1 failed }] })) ∧
    (r.owner = .captureWrite n → e.stage = .writingBody 2 failed → l.errors + 1 ≠ l.desc.faultThreshold →
      exec (.captureWriteEnd .error) s =
        .next ((s.endedFailed r rest (laneByte n) (BitVec.ofNat 16 (l.errors + 1))).setLane n
          { l with errors := l.errors + 1, putLine := [{ e with stage := .writingBody 1 true }] })) ∧
    (r.owner = .captureWrite n → e.stage = .writingBody 1 false →
      exec (.captureWriteEnd (.ok d)) s = .next (((s.ended rest).setLane n
        { l with
          errors := 0
          tailOffset := roundUp8 l.tailOffset
          putLine := [{ e with stage := .writingHeader false }] }).request
        { owner := .headerWrite n, master := masterByte e.tx, address := s.poolAddress p.segment p.offset,
          write := true, enables := 0xFF,
          data := (closingHeader (BitVec.ofNat 16 p.length) p.sequence (entryByte e.entry) p.flags).word })) ∧
    (r.owner = .headerWrite n → e.stage = .writingHeader false → l.cutting = false → s.heldOf n .take = none →
      l.armed = false → exec (.headerWriteEnd (.ok d)) s = .next ((((s.ended rest).setLane n
        { l with
          errors := 0, openParcel := none, ready := l.ready + 1, closed := l.closed + 1, putLine := [] }).capturePlaced
            n e).answerOutcome e.tx outcome)) ∧
    (r.owner = .headerWrite n → e.stage = .writingHeader false → l.cutting = false → s.heldOf n .take = none →
      l.armed = true →
      let notify := l.ready + 1 == l.desc.readyThreshold
      let ready := (s.ended rest).setLane n
        { l with
          errors := 0, openParcel := none, ready := l.ready + 1, closed := l.closed + 1, armed := !notify,
          putLine := [] }
      let noticed := if notify then ready.produce
        { kind := .parcelReady, source := laneByte n, reason := 0, master := masterByte e.tx,
          value16 := BitVec.ofNat 16 (l.ready + 1), address := s.poolAddress p.segment p.offset,
          value32 := p.sequence.zeroExtend 32 }
        else ready
      exec (.headerWriteEnd (.ok d)) s = .next ((noticed.capturePlaced n e).answerOutcome e.tx outcome))) ∧
  (∀ (s : State) (r : MemRequest) (rest : List Outstanding) (n : LaneNo) (e : PutEntry) (hold failed : Bool)
      (outcome : MemOutcome) (p : OpenParcel),
    s.Ends r rest → s.Puts n e → e.kind = .capture hold outcome → (s.lane n).openParcel = some p →
    r.owner = .captureWrite n → e.stage = .writingBody 1 failed → s.hold.held = [] →
    let l := s.lane n
    let withdraws (m : MemResponse) (u : State) (errors : Nat) : Prop :=
      let lane : Lane := { l with errors := errors, openParcel := none, putSeq := l.putSeq - 1, putLine := [] }
      (l.ready = 0 → exec (.captureWriteEnd m) s =
        .next ((((u.setLane n { lane with chain := [], headOffset := 0, tailOffset := 0 }).pushSegments
          l.chain).captureLost n e).answerOutcome e.tx outcome)) ∧
      (∀ front x, l.ready ≠ 0 → e.linked = true → l.chain = front ++ [x] → front ≠ [] →
        exec (.captureWriteEnd m) s =
          .next ((((u.setLane n { lane with
            chain := front, tailOffset := if p.segment = x then 512 else p.offset }).pushSegments [x]).captureLost
              n e).answerOutcome e.tx outcome)) ∧
      (l.ready ≠ 0 → e.linked = false → exec (.captureWriteEnd m) s =
        .next (((u.setLane n { lane with tailOffset := p.offset }).captureLost n e).answerOutcome e.tx outcome))
    (l.errors + 1 ≠ l.desc.faultThreshold →
      withdraws .error (s.endedFailed r rest (laneByte n) (BitVec.ofNat 16 (l.errors + 1))) (l.errors + 1)) ∧
    (failed = true → ∀ d, withdraws (.ok d) (s.ended rest) 0))

/-- SCAN_READ_END completes: a header that passes its check is listed, and while the put would not fit after evicting
what is listed and ready parcels remain, the next header slot is read; else the scan ends in the start event. A read
that failed ends the put: refused LANE_FULL with the chain unchanged, the lane's error count and refusals 1 higher. A
put that finds the lane full under EVICT begins so: with a take in flight it waits for it; else the scan reads the head
parcel's header slot, or takes its header from the head cache. An eviction makes the head move as a release does,
counts it and sets the gap mark; a list is evicted in its order. The put fits when it then finds no parcel limit and
has room, a freed segment, or a segment below its quota that the pool grants. The start event notices each eviction and
starts the put: in the room it has; with the first segment freed, the others pushed in chain order; or with a claimed
one. A put that still does not fit is refused and all segments freed are pushed. When a scan ends, by the start or by
an answer, the paused take is evaluated before the next put. A scan read whose header fails one of the four tests of
R60 takes the lane to FAULTED with cause HEADER_CHECK: the entries that wait in both lines are answered, the put is
answered ERROR with no refusal, and nothing is evicted. A read whose failure reaches the threshold faults it so with
cause MEMORY_ERRORS, its put still refused LANE_FULL; one that ends OK on a FAULTED lane has its put answered ERROR,
not refused (both deduced, log 33) (R6, R29, R30, R46, R47, R48, R49, R50, R54, R58, R60, R154, R155, R171). The
model's choices: the whole scan list is evicted even where fewer would do (log 18); the lane's tests, the take, the
next put follow an answer in that order, and the put line is answered before the take line, and that before the put
that scanned (log 9); a lane with no segment has offsets 0 (log 14); where a forged length leads past the chain, log
15. -/
def Obligations.ScanReadEndCompletes : Prop :=
  (∀ (s : State) (r : MemRequest) (rest : List Outstanding) (n : LaneNo) (e : PutEntry) (list : List Scanned),
    s.Ends r rest → r.owner = .scanRead n → s.Puts n e → e.stage = .scanning list → (s.lane n).takeLine = [] →
    let l := s.lane n
    let pos := l.scanPosition list
    (∀ w, (Header.ofWord w).passes (l.takeSeq + BitVec.ofNat 16 list.length) = true →
      let list' := list ++ [{ segment := segmentAt l.chain pos, offset := pos % 512, header := Header.ofWord w }]
      let u : State := (s.ended rest).setLane n { l with errors := 0 }
      (list'.length < l.ready → u.evictionFits n e list' = false →
        exec (.scanReadEnd (.ok w)) s = .next (((s.ended rest).setLane n
            { l with errors := 0, putLine := [{ e with stage := .scanning list' }] }).request
          { owner := .scanRead n, master := masterByte e.tx,
            address := s.chainAddress n (pos + 8 + roundUp8 (Header.ofWord w).length.toNat), write := false,
            enables := 0xFF, data := 0 })) ∧
      (l.ready ≤ list'.length ∨ u.evictionFits n e list' = true →
        exec (.scanReadEnd (.ok w)) s = event (fun v =>
          (({ v with port := { v.port with outstanding := rest } } : State).setLane n { l with errors := 0 }).evictStart
            n e list') s)) ∧
    (l.errors + 1 ≠ l.desc.faultThreshold → exec (.scanReadEnd .error) s =
      .next ((((s.endedFailed r rest (laneByte n) (BitVec.ofNat 16 (l.errors + 1))).answer e.tx.tag true 0).setLane n
        { l with errors := l.errors + 1, refusals := satInc l.refusals, putLine := [] }).produce
        { kind := .accessRefused, source := entryByte e.entry, reason := 0x19, master := masterByte e.tx,
          value16 := BitVec.ofNat 16 e.tx.size, address := e.tx.address,
          value32 := directionCode e.tx.direction }))) ∧
  (∀ (s : State) (r : MemRequest) (rest : List Outstanding) (n : LaneNo) (e : PutEntry) (es : List PutEntry)
      (list : List Scanned) (w : Word), s.Ends r rest → r.owner = .scanRead n → (s.lane n).state = .opened →
    (s.lane n).busy = .clear → s.cmd.work ≠ .closing n → (s.lane n).putLine = e :: es →
    (∀ x ∈ es, x.stage = .waiting) → (∀ x ∈ (s.lane n).takeLine, x.stage = .waiting) →
    s.heldOf n .put = none → s.heldOf n .take = none → e.stage = .scanning list →
    let l := s.lane n
    let faulted (u : State) (reason : Byte) (errors : Nat) : State := u.produce
      { kind := .laneFaulted, source := laneByte n, reason := reason, master := r.master,
        value16 := BitVec.ofNat 16 errors, address := r.address, value32 := 5 }
    let answered (u : State) : State := l.takeLine.foldl (fun u x => u.answer x.tx.tag true 0)
      (es.foldl (fun u x => match x.kind with
        | .capture _ o => (u.captureLost n x).answerOutcome x.tx o
        | .body | .final _ => u.answer x.tx.tag true 0) u)
    ((Header.ofWord w).passes (l.takeSeq + BitVec.ofNat 16 list.length) = false →
      exec (.scanReadEnd (.ok w)) s = .next (((answered (faulted (s.ended rest) 3 0)).setLane n
        { l with errors := 0, state := .faulted, cause := .headerCheck, putLine := [], takeLine := [] }).answer
          e.tx.tag true 0)) ∧
    (l.errors + 1 = l.desc.faultThreshold → exec (.scanReadEnd .error) s =
      .next ((((answered (faulted (s.endedFailed r rest (laneByte n) (BitVec.ofNat 16 (l.errors + 1))) 1
          (l.errors + 1))).setLane n
        { l with
          errors := l.errors + 1, state := .faulted, cause := .memoryErrors, refusals := satInc l.refusals,
          putLine := [], takeLine := [] }).answer e.tx.tag true 0).produce
        { kind := .accessRefused, source := entryByte e.entry, reason := 0x19, master := masterByte e.tx,
          value16 := BitVec.ofNat 16 e.tx.size, address := e.tx.address,
          value32 := directionCode e.tx.direction }))) ∧
  (∀ (s : State) (r : MemRequest) (rest : List Outstanding) (n : LaneNo) (e : PutEntry) (list : List Scanned)
      (w : Word), s.Ends r rest → r.owner = .scanRead n → (s.lane n).state = .faulted → (s.lane n).busy = .clear →
    s.cmd.work ≠ .closing n → (s.lane n).putLine = [e] → (s.lane n).takeLine = [] → s.heldOf n .put = none →
    e.stage = .scanning list → exec (.scanReadEnd (.ok w)) s =
      .next (((s.ended rest).setLane n { s.lane n with putLine := [] }).answer e.tx.tag true 0)) ∧
  (∀ (c : Instr) (s : State) (t : Transaction) (i : Fin 23) (base : Addr) (exponent : Nat) (n : LaneNo)
      (kind : WaitKind),
    s.presents c = some t → s.Routes t i (.put base exponent n) → t.direction = .write → s.PutQuiet n →
    ¬ ((s.lane n).openParcel.isSome = true ∧ (s.lane n).keptBytes t = []) →
    s.spaceCheck n (s.lane n).openParcel.isNone ((s.lane n).putNeed t) = .full kind →
    (s.lane n).desc.fullAction = .evict → (s.lane n).ready ≠ 0 →
    let l := s.lane n
    let e (stage : PutStage) : PutEntry :=
      { tx := t, entry := i, linked := false, stage := stage,
        kind := if t.address.toNat % 4096 < 0x800 then .body else .final (finalTag t) }
    let entered (stage : PutStage) : State := (s.begin.occupy t).setLane n { l with putLine := [e stage] }
    (∀ x more, l.takeLine = x :: more → x.stage ≠ .waiting → exec c s = .next (entered .waitTake)) ∧
    ((∀ x ∈ l.takeLine, x.stage = .waiting) → l.cache = none →
      exec c s = .next ((entered (.scanning [])).request
        { owner := .scanRead n, master := masterByte t, address := s.chainAddress n l.headOffset, write := false,
          enables := 0xFF, data := 0 })) ∧
    (∀ h : HeadCache, (∀ x ∈ l.takeLine, x.stage = .waiting) → l.cache = some h → 1 < l.ready →
      let head : Scanned :=
        { segment := segmentAt l.chain l.headOffset, offset := l.headOffset % 512, header := h.header }
      (entered .waiting).evictionFits n (e .waiting) [head] = false →
      exec c s = .next ((entered (.scanning [head])).request
        { owner := .scanRead n, master := masterByte t,
          address := s.chainAddress n (l.headOffset + 8 + roundUp8 h.header.length.toNat), write := false,
          enables := 0xFF, data := 0 }))) ∧
  (∀ (l : Lane) (gone : List Nat) (h : Scanned),
    let left : Lane := { l with
      ready := l.ready - 1, takeSeq := l.takeSeq + 1, cache := none, evicted := satInc l.evicted, gap := true,
      armed := l.armed || decide (l.ready - 1 < l.desc.readyThreshold) }
    let last := match l.openParcel with
      | some p => min (l.chain.findIdx (· == p.segment)) (l.chain.length - 1)
      | none => l.chain.length - 1
    (l.ready = 1 → l.openParcel = none →
      evictOne (l, gone) h = ({ left with chain := [], headOffset := 0, tailOffset := 0 }, gone ++ l.chain)) ∧
    (∀ p, l.ready = 1 → l.openParcel = some p → p.offset < 512 →
      evictOne (l, gone) h =
        ({ left with chain := l.chain.drop last, headOffset := p.offset }, gone ++ l.chain.take last)) ∧
    (1 < l.ready →
      let next := l.headOffset + 8 + (h.header.length.toNat + 7) / 8 * 8
      let k := min (next / 512) last
      evictOne (l, gone) h =
        ({ left with chain := l.chain.drop k, headOffset := next % 512 }, gone ++ l.chain.take k)) ∧
    l.evictAll [] = (l, []) ∧ (∀ list, l.evictAll (list ++ [h]) = evictOne (l.evictAll list) h)) ∧
  (∀ (s : State) (n : LaneNo) (e : PutEntry) (list : List Scanned),
    let l := ((s.lane n).evictAll list).1
    let freed := ((s.lane n).evictAll list).2
    let room := if l.chain = [] then 0 else 512 - l.tailOffset
    let evicted : State := list.foldl (fun u h => u.produce
        { kind := .parcelEvicted, source := laneByte n, reason := 0, master := masterByte e.tx,
          value16 := h.header.sequence, address := s.poolAddress h.segment h.offset,
          value32 := BitVec.ofNat 32 (h.header.length.toNat + 65536 * h.header.flags.toNat) }) (s.setLane n l)
    let started (segment : Option Nat) (surplus : List Nat) : State :=
      (((evicted.startPut n e segment).returnSegments surplus fun _ => false).schedule [.evalTake n])
    (s.evictionFits n e list = true ↔ ¬ (l.openParcel = none ∧ 65535 ≤ l.ready) ∧
      (l.putNeed e.tx ≤ room ∨ freed ≠ [] ∨
        (l.chain.length < l.desc.quota ∧ s.aheadAtPool n < s.pool.freeList.length))) ∧
    (s.evictionFits n e list = true → l.putNeed e.tx ≤ room → s.evictStart n e list = started none freed) ∧
    (∀ f surplus, s.evictionFits n e list = true → room < l.putNeed e.tx → freed = f :: surplus →
      s.evictStart n e list = started (some f) surplus) ∧
    (s.evictionFits n e list = true → room < l.putNeed e.tx → freed = [] →
      s.evictStart n e list = ((evicted.claim true (masterByte e.tx)).2.startPut n e
        (evicted.claim true (masterByte e.tx)).1).schedule [.evalTake n]) ∧
    (s.evictionFits n e list = false →
      s.evictStart n e list = (evicted.refusePut n e).returnSegments freed fun _ => false) ∧
    (s.heldOf n .put = none → e.stage ≠ .waiting →
      s.refusePut n e = (((s.laneRefuse n e.entry e.tx 0x19).updLane n fun l =>
        { l with putLine := l.putLine.tail }).schedule [.laneTests n, .evalTake n, .evalPut n])))

/-- HEAD_FETCH_END and TAKE_READ_END complete. A header that passes its check (R171) and carries the take sequence
fills the head cache, nothing consumed, and the take goes on: a head info read is answered with the head info word, a
data read issues its body reads, a release is carried out. A header that fails takes the lane to FAULTED with cause
HEADER_CHECK, and the take is answered ERROR. Of a data read's reads, the last to end in success raises the consumed
bytes by the bytes taken and the read is answered OK with them; if one failed the read is answered ERROR and no byte is
consumed, whichever of them failed; each failure below the fault threshold raises the count by 1 and is counted and
noticed. A failure that brings the count to the fault threshold takes the lane to FAULTED with cause MEMORY_ERRORS at
once: the entries that wait in both lines are answered, the put line's first (the model's choice, log 9), a head fetch
or last body read then ERROR, and a read with a body read left stays for it. A read that took fewer bytes than its size
counts an overread. With AUTO_RELEASE set a read that consumes the last byte releases the head parcel in its event, as
a release does, counted as an overread too where it asked for more. On a FAULTED lane a passing header fills the cache,
a head info read is answered with it, a data read or release ERROR; a header that fails is answered ERROR with no
second fault; a data read in flight ends by its own reads, with no AUTO_RELEASE; and a put that waited for the take is
answered ERROR when the take is, evicting nothing (R6, R49, R59, R60, R61, R62, R63, R64, R65, R66, R69, R73, R86,
R155). The reads carry the address of their first byte (log 16); where a forged length leads past the chain, log 15. -/
def Obligations.TakeReadsComplete : Prop :=
  (∀ (s : State) (r : MemRequest) (rest : List Outstanding) (n : LaneNo) (e : TakeEntry), s.Ends r rest →
    s.Takes n e → e.tx.direction = .read →
    let l := s.lane n
    (r.owner = .headFetch n → e.stage = .fetching →
      (∀ w, (Header.ofWord w).passes l.takeSeq = true → e.kind = .info →
        exec (.headFetchEnd (.ok w)) s = .next (((s.ended rest).setLane n
          { l with errors := 0, cache := some { header := Header.ofWord w, consumed := 0 }, takeLine := [] }).answer
            e.tx.tag false
            (maskWord (laneEnables e.tx) (headInfoWord { header := Header.ofWord w, consumed := 0 } l.gap)))) ∧
      (∀ w, (Header.ofWord w).passes l.takeSeq = false → s.heldOf n .put = none →
        exec (.headFetchEnd (.ok w)) s = .next ((((s.ended rest).produce
            { kind := .laneFaulted, source := laneByte n, reason := 3, master := r.master, value16 := 0,
              address := r.address, value32 := 6 }).setLane n
          { l with errors := 0, state := .faulted, cause := .headerCheck, takeLine := [] }).answer e.tx.tag true 0)) ∧
      (l.errors + 1 ≠ l.desc.faultThreshold → exec (.headFetchEnd .error) s =
        .next (((s.endedFailed r rest (laneByte n) (BitVec.ofNat 16 (l.errors + 1))).setLane n
          { l with errors := l.errors + 1, takeLine := [] }).answer e.tx.tag true 0))) ∧
    (∀ (k left : Nat) (failed : Bool) (got : List Byte) (c : HeadCache), r.owner = .takeRead n →
      e.stage = .reading k left failed got → l.cache = some c →
      (∀ w, 1 < left → exec (.takeReadEnd (.ok w)) s = .next ((s.ended rest).setLane n
        { l with
          errors := 0
          takeLine := [{ e with stage := .reading k (left - 1) failed (got ++ enabledBytes r.enables w) }] })) ∧
      (∀ w, left = 1 → failed = false → k = e.tx.size → l.desc.autoRelease = false →
        exec (.takeReadEnd (.ok w)) s = .next (((s.ended rest).setLane n
          { l with errors := 0, cache := some { c with consumed := c.consumed + k }, takeLine := [] }).answer e.tx.tag
            false (maskWord (laneEnables e.tx)
              (placeBytes (firstLane e.tx) (got ++ enabledBytes r.enables w))))) ∧
      (∀ w, left = 1 → failed = true → exec (.takeReadEnd (.ok w)) s = .next (((s.ended rest).setLane n
        { l with errors := 0, takeLine := [] }).answer e.tx.tag true 0)) ∧
      (l.errors + 1 ≠ l.desc.faultThreshold →
        let failure : State := s.endedFailed r rest (laneByte n) (BitVec.ofNat 16 (l.errors + 1))
        (1 < left → exec (.takeReadEnd .error) s = .next (failure.setLane n
          { l with errors := l.errors + 1, takeLine := [{ e with stage := .reading k (left - 1) true got }] })) ∧
        (left = 1 → exec (.takeReadEnd .error) s = .next ((failure.setLane n
          { l with errors := l.errors + 1, takeLine := [] }).answer e.tx.tag true 0))) ∧
      (∀ w, left = 1 → failed = false → k < e.tx.size →
        l.desc.autoRelease = false ∨ c.consumed + k ≠ c.header.length.toNat →
        exec (.takeReadEnd (.ok w)) s = .next (((s.ended rest).setLane n
          { l with
            errors := 0, overreads := satInc l.overreads, cache := some { c with consumed := c.consumed + k },
            takeLine := [] }).answer e.tx.tag false (maskWord (laneEnables e.tx)
              (placeBytes (firstLane e.tx) (got ++ enabledBytes r.enables w))))) ∧
      (∀ w, left = 1 → failed = false → k = e.tx.size → l.desc.autoRelease = true →
        c.consumed + k = c.header.length.toNat → s.hold.held = [] → l.ready ≠ 0 →
        let dropped := { l with errors := 0 }.dropHead c.header.length.toNat
        exec (.takeReadEnd (.ok w)) s = .next ((((s.ended rest).setLane n
          { dropped.1 with released := l.released + 1, gap := false, takeLine := [] }).pushSegments dropped.2).answer
            e.tx.tag false (maskWord (laneEnables e.tx)
              (placeBytes (firstLane e.tx) (got ++ enabledBytes r.enables w))))) ∧
      (∀ w, left = 1 → failed = false → k < e.tx.size → l.desc.autoRelease = true →
        c.consumed + k = c.header.length.toNat → s.hold.held = [] → l.ready ≠ 0 →
        let dropped := { l with errors := 0, overreads := satInc l.overreads }.dropHead c.header.length.toNat
        exec (.takeReadEnd (.ok w)) s = .next ((((s.ended rest).setLane n
          { dropped.1 with released := l.released + 1, gap := false, takeLine := [] }).pushSegments dropped.2).answer
            e.tx.tag false (maskWord (laneEnables e.tx)
              (placeBytes (firstLane e.tx) (got ++ enabledBytes r.enables w))))))) ∧
  (∀ (s : State) (r : MemRequest) (rest : List Outstanding) (n : LaneNo) (e : TakeEntry) (w : Word),
    s.Ends r rest → s.Takes n e → e.tx.direction = .read → r.owner = .headFetch n → e.stage = .fetching →
    (Header.ofWord w).passes (s.lane n).takeSeq = true →
    let l := s.lane n
    let h := Header.ofWord w
    let k := min e.tx.size h.length.toNat
    let pieces := wordPieces (l.headOffset + 8) (List.replicate k 0)
    (e.kind = .data → e.tx.size ≠ 0 → exec (.headFetchEnd (.ok w)) s = .next (((s.ended rest).setLane n
      { l with
        errors := 0, cache := some { header := h, consumed := 0 },
        takeLine := [{ e with stage := .reading k pieces.length false [] }] }).requestAll
      (pieces.map fun (p, piece) =>
        { owner := .takeRead n, master := masterByte e.tx, address := s.chainAddress n p, write := false,
          enables := laneMask (p % 8) piece.length, data := 0 }))) ∧
    (e.kind = .release → s.hold.held = [] → l.ready ≠ 0 →
      let dropped := { l with errors := 0 }.dropHead h.length.toNat
      exec (.headFetchEnd (.ok w)) s = .next ((((s.ended rest).setLane n
        { dropped.1 with released := l.released + 1, gap := false, takeLine := [] }).pushSegments dropped.2).answer
          e.tx.tag false (maskWord (laneEnables e.tx) (packHalves h.length (BitVec.ofNat 16 (l.ready - 1)) h.sequence
            (packPair h.tag (if l.gap then h.flags ||| flagGap else h.flags))))))) ∧
  (∀ (s : State) (r : MemRequest) (rest : List Outstanding) (n : LaneNo) (e : TakeEntry) (es : List TakeEntry),
    s.Ends r rest → (s.lane n).state = .opened → (s.lane n).busy = .clear → s.cmd.work ≠ .closing n →
    (s.lane n).takeLine = e :: es → (∀ x ∈ es, x.stage = .waiting) →
    (∀ x ∈ (s.lane n).putLine, x.stage = .waiting) →
    (∀ x ∈ s.hold.held, x.kind = .pool → x.lane = n ∧ x.line = .put) → s.heldOf n .take = none →
    (s.lane n).errors + 1 = (s.lane n).desc.faultThreshold → e.tx.direction = .read →
    let l := s.lane n
    let faulted (code : Quad) (line : List TakeEntry) : State :=
      (((es.foldl (fun u x => u.answer x.tx.tag true 0) (l.putLine.foldl (fun u x => match x.kind with
        | .capture _ o => (u.captureLost n x).answerOutcome x.tx o
        | .body | .final _ => u.answer x.tx.tag true 0)
        ((s.endedFailed r rest (laneByte n) (BitVec.ofNat 16 (l.errors + 1))).produce
          { kind := .laneFaulted, source := laneByte n, reason := 1, master := r.master,
            value16 := BitVec.ofNat 16 (l.errors + 1), address := r.address, value32 := code }))).unhold
              n .put).setLane n
        { l with
          errors := l.errors + 1, state := .faulted, cause := .memoryErrors, putLine := [], takeLine := line })
    (r.owner = .headFetch n → e.stage = .fetching → exec (.headFetchEnd .error) s =
      .next ((faulted 6 []).answer e.tx.tag true 0)) ∧
    (∀ k left failed got, r.owner = .takeRead n → e.stage = .reading k left failed got →
      (1 < left → exec (.takeReadEnd .error) s =
        .next (faulted 7 [{ e with stage := .reading k (left - 1) true got }])) ∧
      (left = 1 → exec (.takeReadEnd .error) s = .next ((faulted 7 []).answer e.tx.tag true 0)))) ∧
  (∀ (s : State) (r : MemRequest) (rest : List Outstanding) (n : LaneNo) (e : TakeEntry), s.Ends r rest →
    (s.lane n).state = .faulted → (s.lane n).busy = .clear → s.cmd.work ≠ .closing n →
    (s.lane n).takeLine = [e] → s.heldOf n .take = none → e.tx.direction = .read →
    let l := s.lane n
    ((s.lane n).putLine = [] → r.owner = .headFetch n → e.stage = .fetching →
      (∀ w, (Header.ofWord w).passes l.takeSeq = true →
        let c : HeadCache := { header := Header.ofWord w, consumed := 0 }
        let kept : State := (s.ended rest).setLane n { l with cache := some c, takeLine := [] }
        exec (.headFetchEnd (.ok w)) s = .next (if e.kind = .info then
          kept.answer e.tx.tag false (maskWord (laneEnables e.tx) (headInfoWord c l.gap))
          else kept.answer e.tx.tag true 0)) ∧
      (∀ w, (Header.ofWord w).passes l.takeSeq = false →
        exec (.headFetchEnd (.ok w)) s =
          .next (((s.ended rest).setLane n { l with takeLine := [] }).answer e.tx.tag true 0))) ∧
    (∀ (k : Nat) (failed : Bool) (got : List Byte) (c : HeadCache), r.owner = .takeRead n →
      e.stage = .reading k 1 failed got → l.cache = some c →
      (∀ w, (s.lane n).putLine = [] → failed = false → k = e.tx.size →
        exec (.takeReadEnd (.ok w)) s = .next (((s.ended rest).setLane n
          { l with cache := some { c with consumed := c.consumed + k }, takeLine := [] }).answer e.tx.tag false
            (maskWord (laneEnables e.tx) (placeBytes (firstLane e.tx) (got ++ enabledBytes r.enables w))))) ∧
      (∀ p : PutEntry, (s.lane n).putLine = [p] → p.stage = .waitTake → s.heldOf n .put = none →
        (∀ hold o, p.kind ≠ .capture hold o) → exec (.takeReadEnd .error) s =
          .next ((((s.endedFailed r rest (laneByte n) (BitVec.ofNat 16 l.errors)).setLane n
            { l with takeLine := [], putLine := [] }).answer e.tx.tag true 0).answer p.tx.tag true 0))))

/-- IMAGE_READ_END completes. While other reads of the command are left, its word is kept. The last read of a LOAD
SETUP whose header passes the twelve tests applies it: the pool (all segments free, in increasing order), the pool
guard range, the ring with both indices and the loss count 0 and the pending list empty, INT_N high, the divider with
the cycle count 0 and the setup mark, the limits and the interval. The last read of an OPEN_LANE whose descriptor is
valid opens the lane with it. Each then ends DONE. A header, table or descriptor that fails rejects the command with
its reason and detail; a valid table freezes decode, and replaces the old one in the same event if no
system-port-derived request is unended. A read that failed rejects it with IMAGE_READ_ERROR when the last has ended:
detail the lowest failed offset of a header, the entry of the lowest of a table, or the lane. Autoload goes on: behind
the header to the table, behind the table to the descriptor of lane 0, behind that of each lane to the next one
(opening it if AUTO_OPEN is set), and ends with one response, ticket 0: DONE with OPEN LANE's code behind lane 15, or
REJECTED with the code of the step that failed. A failed image read stops autoload too, when the last read of its step
has ended: IMAGE_READ_ERROR, with the offset, entry or lane as detail, whether or not that lane's AUTO_OPEN is set.
That the first word whose read failed is the failed one of lowest offset is the model's deduction (log 27) (R25, R76,
R77, R95, R103, R104, R105, R128, R129, R131, R132, R133, R134, R145, R146, R167, R168). -/
def Obligations.ImageReadEndCompletes : Prop :=
  (∀ (s : State) (r : MemRequest) (rest : List Outstanding) (offset : Nat) (ticket : Half) (w : Word) (left : Nat)
      (words : List (Nat × Word)), s.Ends r rest → r.owner = .imageRead offset ticket →
    s.cmd.work = .images left words none →
    (1 < left → exec (.imageReadEnd (.ok w)) s = .next { s.ended rest with
      cmd := { s.cmd with work := .images (left - 1) (words ++ [(offset, w)]) none } }) ∧
    (left = 1 → s.cmd.autoload = none → s.hold.waiter = none → s.cmd.current.flags.getLsbD 0 = false →
      s.cmd.current.code = 1 →
      let h := parseSetup (words ++ [(offset, w)])
      h.rejection (s.controlAddress 0).toNat = none →
      ∃ u, exec (.imageReadEnd (.ok w)) s = .next u ∧ u.cmd.running = false ∧ u.cmd.taken = s.cmd.taken ∧
        u.pool =
          { base := h.poolBase, count := h.poolCount, freeList := List.range h.poolCount, minFree := h.poolCount,
            watermark := h.watermark, armed := true } ∧
        u.dec = { s.dec with
          guard := some (h.poolBase.toNat, h.poolBase.toNat + 512 * h.poolCount), poolOpen := h.poolOpen } ∧
        u.notice.ringBase = h.ringBase ∧ u.notice.entries = h.ringEntries ∧ u.notice.mask = h.mask ∧
        u.notice.enable = h.enable ∧ u.notice.producer = 0 ∧ u.notice.consumer = 0 ∧ u.notice.loss = 0 ∧
        u.notice.waiting = [] ∧ u.notice.intN = true ∧ u.notice.badConsumer = s.notice.badConsumer ∧
        u.notice.writeErrors = s.notice.writeErrors ∧
        u.hold = { s.hold with
          divider := h.divider, cycle := 0, setupMark := s.hold.ticks, commandLimit := h.commandLimit,
          highWater := 0 } ∧
        u.port = { s.port with
          outstanding := rest
          limit := h.responseLimit
          commandQ := s.port.commandQ ++ [
            wordRequest (.responseWrite s.cmd.current.ticket) s.cmd.current.master (s.controlAddress 0x808) true
              (responseWord s.cmd.current.ticket 2 0 0 1)] } ∧
        u.status = { s.status with interval := h.interval, timer := 0 } ∧ u.lanes = s.lanes) ∧
    (∀ (n : LaneNo) (d : Descriptor), left = 1 → s.cmd.autoload = none → s.hold.waiter = none →
      s.cmd.current.flags.getLsbD 0 = false → s.cmd.current.code = 3 → s.cmd.current.lane.toNat = n.val →
      (parseDescriptor (words ++ [(offset, w)]) n).validate s.pool.count = .ok d →
      ∃ u, exec (.imageReadEnd (.ok w)) s = .next u ∧ u.cmd.running = false ∧
        u.lane n = { s.lane n with
          desc := d, putSeq := 0, takeSeq := 0, closed := 0, released := 0, evicted := 0, refusals := 0,
          expiries := 0, overreads := 0, errors := 0, gap := false, cause := .none, armed := true,
          state := .opened } ∧
        (∀ m, m ≠ n → u.lane m = s.lane m) ∧ u.pool = s.pool ∧ u.notice = s.notice ∧ u.hold = s.hold ∧
        u.port.commandQ = s.port.commandQ ++ [
          wordRequest (.responseWrite s.cmd.current.ticket) s.cmd.current.master (s.controlAddress 0x808) true
            (responseWord s.cmd.current.ticket 2 0 0 3)])) ∧
  (∀ (s : State) (r : MemRequest) (rest : List Outstanding) (offset : Nat) (ticket : Half) (left : Nat)
      (words : List (Nat × Word)) (failed : Option Nat), s.Ends r rest → r.owner = .imageRead offset ticket →
    s.cmd.work = .images left words failed → s.cmd.autoload = none → s.hold.waiter = none →
    s.cmd.current.flags.getLsbD 0 = false →
    let c := s.cmd.current
    let ended (u : State) (outcome reason detail : Byte) : State := { u with
      cmd := { s.cmd with
        running := false, work := .none, current := { code := 0, lane := 0, flags := 0, ticket := 0, master := 0 } }
      port := { u.port with commandQ := s.port.commandQ ++ [
        wordRequest (.responseWrite c.ticket) c.master (s.controlAddress 0x808) true
          (responseWord c.ticket outcome reason detail c.code)] } }
    let failure := s.endedFailed r rest 0 ticket
    let lowest := match failed with
      | some f => min f offset
      | none => offset
    let detail (f : Nat) : Byte :=
      if c.code = 1 then BitVec.ofNat 8 f
      else if c.code = 2 then BitVec.ofNat 8 ((f - 0x100) / 16 + 1)
      else c.lane
    (1 < left → exec (.imageReadEnd .error) s =
      .next { failure with cmd := { s.cmd with work := .images (left - 1) words (some lowest) } }) ∧
    (left = 1 → c.code = 1 ∨ c.code = 2 ∨ (c.code = 3 ∧ c.lane.toNat < 16) →
      exec (.imageReadEnd .error) s = .next (ended failure 3 0x0A (detail lowest)) ∧
      ∀ w f, failed = some f → exec (.imageReadEnd (.ok w)) s = .next (ended (s.ended rest) 3 0x0A (detail f))) ∧
    (left = 1 → failed = none → ∀ w,
      let images := words ++ [(offset, w)]
      (∀ reason detail, c.code = 1 → (parseSetup images).rejection (s.controlAddress 0).toNat = some (reason, detail) →
        exec (.imageReadEnd (.ok w)) s = .next (ended (s.ended rest) 3 reason detail)) ∧
      (∀ (n : LaneNo) (detail : Byte), c.code = 3 → c.lane.toNat = n.val →
        (parseDescriptor images n).validate s.pool.count = .error detail →
        exec (.imageReadEnd (.ok w)) s = .next (ended (s.ended rest) 3 0x07 detail)) ∧
      (∀ i, c.code = 2 → validateFrom images (s.controlAddress 0).toNat 23 [] = .error i →
        exec (.imageReadEnd (.ok w)) s = .next (ended (s.ended rest) 3 0x06 (BitVec.ofNat 8 i))) ∧
      (∀ es, c.code = 2 → validateFrom images (s.controlAddress 0).toNat 23 [] = .ok es →
        ∃ table : Vector Aperture 23, (∀ i : Fin 23, some table[i.val] = es[i.val]?) ∧
          ((s.ended rest).systemQuiet = false → exec (.imageReadEnd (.ok w)) s = .next { s.ended rest with
            cmd := { s.cmd with work := .freezing table }
            sys := { s.begin.sys with freeze := true } }) ∧
          ((s.ended rest).systemQuiet = true → s.dec.frozen = [] → exec (.imageReadEnd (.ok w)) s =
            .next { ended (s.ended rest) 2 0 0 with
              dec := { s.dec with
                entries := table, runs := Vector.replicate 23 { running := false, count := 0 } }
              sys := { s.begin.sys with freeze := false } })))) ∧
  (∀ (s : State) (r : MemRequest) (rest : List Outstanding) (offset : Nat) (ticket : Half) (w : Word)
      (words : List (Nat × Word)), s.Ends r rest → r.owner = .imageRead offset ticket →
    s.cmd.work = .images 1 words none → s.hold.waiter = none →
    let images := words ++ [(offset, w)]
    let reads (offsets : List Nat) : List MemRequest := offsets.map fun o =>
      wordRequest (.imageRead o s.cmd.current.ticket) 0xFF (s.controlAddress o) false 0
    let response (outcome reason detail code : Byte) : List MemRequest :=
      [wordRequest (.responseWrite 0) 0xFF (s.controlAddress 0x808) true (responseWord 0 outcome reason detail code)]
    let goesOn (u : State) (step : AutoStep) (offsets : List Nat) : State := { u with
      cmd := { s.cmd with autoload := some step, work := .images offsets.length [] none }
      port := { u.port with commandQ := s.port.commandQ ++ reads offsets } }
    let ends (u : State) (outcome reason detail code : Byte) : State := { u with
      cmd := { s.cmd with running := false, autoload := none, work := .none }
      port := { u.port with commandQ := s.port.commandQ ++ response outcome reason detail code } }
    let behind (u : State) (n : LaneNo) : State :=
      if n.val = 15 then ends u 2 0 0 3
      else goesOn u (.descriptor (n + 1)) [0x300 + 16 * (n.val + 1), 0x300 + 16 * (n.val + 1) + 8]
    (s.cmd.autoload = some .setup →
      ((parseSetup images).rejection (s.controlAddress 0).toNat = none → exec (.imageReadEnd (.ok w)) s =
        .next (goesOn ((s.ended rest).applySetup (parseSetup images)) .apertures
          ((List.range 46).map fun i => 0x100 + 8 * i))) ∧
      (∀ reason detail, (parseSetup images).rejection (s.controlAddress 0).toNat = some (reason, detail) →
        exec (.imageReadEnd (.ok w)) s = .next (ends (s.ended rest) 3 reason detail 1))) ∧
    (s.cmd.autoload = some .apertures →
      (∀ i, validateFrom images (s.controlAddress 0).toNat 23 [] = .error i →
        exec (.imageReadEnd (.ok w)) s = .next (ends (s.ended rest) 3 0x06 (BitVec.ofNat 8 i) 2)) ∧
      (∀ es, validateFrom images (s.controlAddress 0).toNat 23 [] = .ok es → (s.ended rest).systemQuiet = true →
        s.dec.frozen = [] → exec (.imageReadEnd (.ok w)) s =
          .next { goesOn (s.ended rest) (.descriptor 0) [0x300, 0x308] with
            dec := { s.dec with
              entries := tableOf es, runs := Vector.replicate 23 { running := false, count := 0 } }
            sys := { s.begin.sys with freeze := false } })) ∧
    (∀ n : LaneNo, s.cmd.autoload = some (.descriptor n) →
      ((parseDescriptor images n).flags.getLsbD 0 = false →
        exec (.imageReadEnd (.ok w)) s = .next (behind (s.ended rest) n)) ∧
      (∀ d, (parseDescriptor images n).flags.getLsbD 0 = true →
        (parseDescriptor images n).validate s.pool.count = .ok d → exec (.imageReadEnd (.ok w)) s =
          .next (behind ((s.ended rest).setLane n { s.lane n with
            desc := d, putSeq := 0, takeSeq := 0, closed := 0, released := 0, evicted := 0, refusals := 0,
            expiries := 0, overreads := 0, errors := 0, gap := false, cause := .none, armed := true,
            state := .opened }) n)) ∧
      (∀ detail, (parseDescriptor images n).flags.getLsbD 0 = true →
        (parseDescriptor images n).validate s.pool.count = .error detail →
        exec (.imageReadEnd (.ok w)) s = .next (ends (s.ended rest) 3 0x07 detail 3)))) ∧
  (∀ (s : State) (r : MemRequest) (rest : List Outstanding) (offset : Nat) (ticket : Half) (left : Nat)
      (words : List (Nat × Word)) (failed : Option Nat) (step : AutoStep), s.Ends r rest →
    r.owner = .imageRead offset ticket → s.cmd.work = .images left words failed → s.cmd.autoload = some step →
    s.hold.waiter = none →
    let failure := s.endedFailed r rest 0 ticket
    let lowest := match failed with
      | some f => min f offset
      | none => offset
    let stops (u : State) (f : Nat) : State :=
      let code : Byte := match step with
        | .setup => 1
        | .apertures => 2
        | .descriptor _ => 3
      let detail : Byte := match step with
        | .setup => BitVec.ofNat 8 f
        | .apertures => BitVec.ofNat 8 ((f - 0x100) / 16 + 1)
        | .descriptor n => BitVec.ofNat 8 n.val
      { u with
        cmd := { s.cmd with running := false, autoload := none, work := .none }
        port := { u.port with commandQ := s.port.commandQ ++ [
          wordRequest (.responseWrite 0) 0xFF (s.controlAddress 0x808) true (responseWord 0 3 0x0A detail code)] } }
    (1 < left → exec (.imageReadEnd .error) s =
      .next { failure with cmd := { s.cmd with work := .images (left - 1) words (some lowest) } }) ∧
    (left = 1 → exec (.imageReadEnd .error) s = .next (stops failure lowest) ∧
      ∀ w f, failed = some f → exec (.imageReadEnd (.ok w)) s = .next (stops (s.ended rest) f)))

/-- RESPONSE_WRITE_END, NOTICE_WRITE_END, STATUS_WRITE_END and LATE_RESPONSE complete. A response word write that
failed is noticed with its own request's ticket and master, whatever command then runs (the model's deduction, log 21),
and changes nothing else. The second write of a notice to end in success raises the producer index by 1 and drives
INT_N; the notice has left the pending list. When the second ends and either failed, the notice is discarded and the
producer stands: loss count and notice write errors rise by 1, saturating, memory errors are counted, no MEMORY_ERROR
is noticed. A NOTICE_LOSS that succeeds lowers the loss count by what it carried. The end of a write to a replaced ring
moves no index and no count of the notice writer. In each case the next write is then chosen. A status write is counted
off, and one that failed counts as a memory-port error besides, with no notice, the write-back going on; the end of the
last of the 73 creates the generation end write in its event. The end of the generation end write, whatever its
outcome, ends the write-back: the WRITE STATUS that waits for it ends DONE; where one was marked to follow, that begins
in the same event, its generation 1 higher and its writes 1 to 73 created, and the WRITE STATUS that marked it then
waits for it. The response of an abandoned entry is discarded with it, and one that finds the list empty is ignored
(R130, R137, R141, R142, R144, R145, R147, R148, R151, R153, R163, R165). -/
def Obligations.UnitRequestsEnd : Prop :=
  (∀ (s : State) (r : MemRequest) (rest : List Outstanding), s.Ends r rest →
    (∀ ticket, r.owner = .responseWrite ticket →
      (∀ d, exec (.responseWriteEnd (.ok d)) s = .next (s.ended rest)) ∧
      exec (.responseWriteEnd .error) s = .next (s.endedFailed r rest 0 ticket)) ∧
    (∀ w d, r.owner = .noticeWrite → s.notice.write = some w →
      (1 < w.left → exec (.noticeWriteEnd (.ok d)) s = .next { s.ended rest with
        notice := { s.notice with write := some { w with left := w.left - 1 } } }) ∧
      (∀ n, w = { carried := none, left := 1, failed := false, stale := false } → s.notice.waiting = [n] →
        s.notice.loss = 0 → exec (.noticeWriteEnd (.ok d)) s = .next { s.ended rest with
          notice := { s.notice with
            write := none
            waiting := []
            producer := s.notice.producer + 1
            intN := !(s.notice.enable && s.notice.producer + 1 != s.notice.consumer) } })) ∧
    (∀ m : MemResponse,
      let ended (status : StatusWriter) (statusQ : List Nat) : State := { s.ended rest with
        status := status
        port := { s.port with
          outstanding := rest, statusQ := statusQ, errors := if m = .error then s.port.errors + 1 else s.port.errors } }
      (∀ i, r.owner = .statusWrite i → i ≠ 74 → 1 < s.status.left →
        exec (.statusWriteEnd m) s =
          .next (ended { s.status with left := s.status.left - 1 } s.port.statusQ)) ∧
      (∀ i, r.owner = .statusWrite i → i ≠ 74 → s.status.left = 1 → s.status.inProgress = true →
        74 ∉ s.port.statusQ → (∀ e ∈ rest, e.request.owner ≠ .statusWrite 74) →
        exec (.statusWriteEnd m) s = .next (ended { s.status with left := 0 } (s.port.statusQ ++ [74]))) ∧
      (r.owner = .statusWrite 74 →
        let follows : State := ended
          { s.status with
            followOn := false, inProgress := true, generation := s.status.generation + 1, left := 73 }
          (s.port.statusQ ++ (List.range 73).map (· + 1))
        (s.cmd.work ≠ .status false → s.status.followOn = false →
          exec (.statusWriteEnd m) s = .next (ended { s.status with inProgress := false } s.port.statusQ)) ∧
        (s.cmd.work = .status true → s.status.followOn = true →
          exec (.statusWriteEnd m) s = .next { follows with cmd := { s.cmd with work := .status false } }) ∧
        ((∀ waits, s.cmd.work ≠ .status waits) → s.status.followOn = true →
          exec (.statusWriteEnd m) s = .next follows) ∧
        (s.cmd.work = .status false → s.status.followOn = false → s.cmd.autoload = none → s.hold.waiter = none →
          exec (.statusWriteEnd m) s = .next
            { (ended { s.status with inProgress := false } s.port.statusQ).completeCommand 2 0 0 with todo := [] })))) ∧
  (∀ (s : State) (m : MemResponse), s.Calm →
    (s.port.outstanding = [] → exec (.lateResponse m) s = .next s.begin) ∧
    (∀ x rest, s.port.outstanding = x :: rest → x.abandoned = true →
      exec (.lateResponse m) s = .next (s.ended rest))) ∧
  (∀ (s : State) (r : MemRequest) (rest : List Outstanding) (w : NoticeWrite), s.Ends r rest →
    r.owner = .noticeWrite → s.notice.write = some w →
    let errors (m : MemResponse) : Quad := if m = .error then s.port.errors + 1 else s.port.errors
    let ended (m : MemResponse) (notice : NoticeWriter) : State :=
      { s.ended rest with notice := notice, port := { s.port with outstanding := rest, errors := errors m } }
    let settled : List Notice := if w.carried = none then s.notice.waiting.tail else s.notice.waiting
    (1 < w.left → exec (.noticeWriteEnd .error) s = .next
      (ended .error { s.notice with write := some { w with left := w.left - 1, failed := true } })) ∧
    (∀ m, w.left = 1 → w.stale = true →
      exec (.noticeWriteEnd m) s = .next (ended m { s.notice with write := none }).chooseNotice) ∧
    (∀ m, w.left = 1 → w.stale = false → w.failed = true ∨ m = .error →
      exec (.noticeWriteEnd m) s = .next (ended m { s.notice with
        write := none
        waiting := settled
        loss := if s.notice.loss = 65535 then 65535 else s.notice.loss + 1
        writeErrors :=
          if s.notice.writeErrors = 65535 then 65535 else s.notice.writeErrors + 1 }).chooseNotice) ∧
    (∀ m, w.left = 1 → w.stale = false → w.failed = false → m ≠ .error →
      exec (.noticeWriteEnd m) s = .next (ended m { s.notice with
        write := none
        waiting := settled
        producer := s.notice.producer + 1
        loss := s.notice.loss - w.carried.getD 0
        intN := !(s.notice.enable && s.notice.producer + 1 != s.notice.consumer) }).chooseNotice))

/-! ## Steps the block makes by itself -/

/-- The steps of a lane complete. PUT_TAKE_WAIT_END evaluates the put that waited for a take which is no longer in
flight, or answers it ERROR on a FAULTED lane, and HELD_ENTRY_WAKE the held entry that was woken: a put that now has
room starts, a take that now has a parcel fetches its header; one that still cannot go on stays held with its hold
start and deadline, a put with the wait kind found now. PARCEL_CUT closes the open parcel of a lane that CLOSE LANE
drains, with tag 255 and CUT. DRAIN_COMPLETION takes a drained lane to CLOSED with LANE_CLOSED, answering a waiting
take ERROR. LANE_DISCARD discards a busy lane's contents and ends its command, for FLUSH too. That these stand as rows
of their own is the model's deduction (log 7): each rule places its step in the event that makes it due, and no run
reaches a state in which the row finds it due, but for the held entry that still waits; unset offsets are held as 0
(log 14). What wakes: a wake evaluates the entries it picks by hold start, the earliest first, where equal in an order
left free (each wake takes one key of the model's counter `choices`, log 10); pool waiters rank by hold start, then
lane, an earlier start being one further behind the tick counter modulo 2^32 (log 32); a push of segments wakes the
first F of them, F the free count, and, when F is greater than their number, every held capture; a pool waiter that
leaves without a segment wakes the first F; a release wakes its lane's held put besides, and a parcel that becomes
ready the held take (R4, R5, R7, R8, R13, R33, R34, R35, R49, R68, R71, R81, R82). -/
def Obligations.LaneStepsComplete : Prop :=
  (∀ (s : State) (n : LaneNo), s.Calm →
    let l := s.lane n
    (∀ e, l.putLine = [e] → (∀ hold o, e.kind ≠ .capture hold o) → l.keptBytes e.tx ≠ [] →
      s.spaceCheck n l.openParcel.isNone (l.putNeed e.tx) = .starts false →
      (e.stage = .waitTake → l.takeLine = [] → l.state ≠ .faulted →
        exec (.putTakeWaitEnd n) s = .next (s.begin.startPut n e none)) ∧
      (e.stage = .waiting → s.heldOf n .put ≠ none →
        exec (.heldEntryWake n .put) s = .next (s.begin.startPut n e none))) ∧
    (∀ e, l.putLine = [e] → e.stage = .waitTake → l.takeLine = [] → l.state = .faulted → l.busy = .clear →
      s.cmd.work ≠ .closing n → s.heldOf n .put = none → exec (.putTakeWaitEnd n) s =
        .next ((s.begin.setLane n { l with putLine := [] }).answer e.tx.tag true 0)) ∧
    (∀ e kind, l.putLine = [e] → (∀ hold o, e.kind ≠ .capture hold o) → e.stage = .waiting → l.keptBytes e.tx ≠ [] →
      s.spaceCheck n l.openParcel.isNone (l.putNeed e.tx) = .full kind → l.desc.fullAction = .hold →
      s.heldOf n .put ≠ none → exec (.heldEntryWake n .put) s = .next { s.begin with
        hold := { s.hold with held := s.hold.held.map fun x =>
          if x.lane = n ∧ x.line = .put then { x with kind := kind } else x } }) ∧
    (∀ e, l.takeLine = [e] → e.stage = .waiting → l.putLine = [] → l.ready ≠ 0 → l.cache = none →
      s.heldOf n .take ≠ none →
      exec (.heldEntryWake n .take) s = .next ((s.begin.unhold n .take).fetchHead n e)) ∧
    (∀ e, l.takeLine = [e] → e.stage = .waiting → l.putLine = [] → l.ready = 0 → l.desc.emptyAction = .hold →
      e.kind ≠ .release → s.heldOf n .take ≠ none → exec (.heldEntryWake n .take) s = .next s.begin) ∧
    (∀ p, s.cmd.work = .closing n → l.state = .draining → l.openParcel = some p → l.putLine = [] →
      l.cutting = false → exec (.parcelCut n) s =
        .next ((s.begin.setLane n { l with tailOffset := roundUp8 l.tailOffset, cutting := true }).request
          (wordRequest (.headerWrite n) 0xFF (s.poolAddress p.segment p.offset) true
            (closingHeader (BitVec.ofNat 16 p.length) p.sequence 0xFF (p.flags ||| flagCut)).word))) ∧
    (l.state = .draining → l.busy = .clear → l.ready = 0 → l.openParcel = none → l.putLine = [] →
      l.cutting = false →
      (l.takeLine = [] → s.heldOf n .take = none → exec (.drainCompletion n) s =
        .next ((s.begin.setLane n { l with state := .closed }).produce (laneClosedNotice n))) ∧
      (∀ e h, l.takeLine = [e] → e.stage = .waiting → s.heldOf n .take = some h → h.kind = .parcel →
        exec (.drainCompletion n) s = .next ((((s.begin.setLane n { l with state := .closed, takeLine := [] }).answer
          e.tx.tag true 0).unhold n .take).produce (laneClosedNotice n)))) ∧
    (s.cmd.work = .emptying n → s.hold.waiter = none → s.hold.held = [] → l.putLine = [] → l.takeLine = [] →
      l.cutting = false →
      let emptied := { l with
        busy := .clear, chain := [], headOffset := 0, tailOffset := 0, ready := 0, openParcel := none, cache := none,
        takeSeq := l.putSeq, armed := true }
      let gap := l.gap || l.ready != 0 || l.openParcel.isSome
      (l.busy = .reset → exec (.laneDiscard n) s =
        .next { ((s.begin.setLane n
            { emptied with state := .closed, gap := false, errors := 0, cause := .none }).pushSegments
              l.chain).completeCommand 2 0 0 with todo := [] }) ∧
      (l.busy = .flush → l.state = .draining → exec (.laneDiscard n) s =
        .next { (((s.begin.setLane n { emptied with state := .closed, gap := gap }).pushSegments l.chain).produce
            (laneClosedNotice n)).completeCommand 2 0 0 with todo := [] }) ∧
      (l.busy = .flush → l.state ≠ .draining → exec (.laneDiscard n) s =
        .next { ((s.begin.setLane n { emptied with gap := gap }).pushSegments l.chain).completeCommand 2 0 0 with
          todo := [] }))) ∧
  (∀ (s : State) (picks : HeldEntry → Bool), ∃ woken : List HeldEntry, woken.Perm (s.hold.held.filter picks) ∧
    woken.Pairwise (fun a b => (s.hold.ticks - b.start).toNat ≤ (s.hold.ticks - a.start).toNat) ∧
    s.wake picks = if woken = [] then s else { s with
      choices := s.choices + 1
      todo := s.todo ++ woken.map fun e => Task.wake e.lane e.line }) ∧
  (∀ s : State,
    s.poolWaiters.Perm (s.hold.held.filter fun e => e.kind == .pool) ∧
    s.poolWaiters.Pairwise (fun a b => (s.hold.ticks - b.start).toNat < (s.hold.ticks - a.start).toNat ∨
      (a.start = b.start ∧ a.lane ≤ b.lane)) ∧
    (∀ segs also, s.returnSegments segs also =
      let u := s.pushSegments segs
      u.wake fun e => also e || (segs ≠ [] &&
        (e.kind == .pool && (u.poolWaiters.take u.pool.freeList.length).contains e ||
          e.kind == .capture && u.poolWaiters.length < u.pool.freeList.length))) ∧
    s.waiterLeft =
      (s.wake fun e => e.kind == .pool && (s.poolWaiters.take s.pool.freeList.length).contains e) ∧
    (∀ n line, s.heldOf n line = none → s.doTask (.wake n line) = s) ∧
    (∀ n, s.heldOf n .put ≠ none → s.doTask (.wake n .put) = s.evalPut n) ∧
    (∀ n, s.heldOf n .take ≠ none → s.doTask (.wake n .take) = s.evalTake n) ∧
    (∀ (n : LaneNo) (h : Header),
      let dropped := (s.lane n).dropHead h.length.toNat
      s.releaseHead n h = (s.setLane n
        { dropped.1 with released := dropped.1.released + 1, gap := false }).returnSegments dropped.2
          fun e => e.lane == n && e.line == .put) ∧
    (∀ (n : LaneNo) (master : Byte) (p : OpenParcel), (s.lane n).openParcel = some p → (s.lane n).armed = false →
      s.parcelReady n master = ((s.setLane n { s.lane n with
        openParcel := none, ready := (s.lane n).ready + 1, closed := (s.lane n).closed + 1 }).wake
          fun e => e.lane == n && e.line == .take)))

/-- The steps of the decoder, the notice writer and the status writer complete. APERTURE_REPLACEMENT, once no
system-port-derived request is unended, puts the validated table in force, clears every loss run, ends LOAD APERTURES
and lifts the freeze; before that it does nothing. NOTICE_WRITE chooses the oldest pending notice when no notice write
is unended, nothing is lost and the ring has room, and creates its two writes. STATUS_WRITE_BACK begins a write-back
that is called for when none is running. GENERATION_END creates the generation end write when the other 73 have ended.
That these stand as rows of their own is the model's deduction (logs 7, 8): no run reaches a state in which a row finds
its step due. The steps where they are made: the end of the last access that delays a replacement answers it, replaces
the table, ends the command and decodes the frozen list under the new table, oldest first, here of accesses that pass
through. A produced notice is dropped where its kind is masked, counted lost with no ring or 8 pending, else it joins
the list and the next write is chosen: with none unended, a NOTICE_LOSS if a loss is counted, its kind enabled and the
ring not full (also before the COMMAND_DONE of LOAD SETUP: the model's choice, log 38); else with a full ring the first
pending notice is lost and the choice made again; else the first pending is written, to the slot of the producer index,
with its fields (R104, R105, R106, R138, R140, R142, R147, R148, 12.7). -/
def Obligations.UnitStepsComplete : Prop :=
  (∀ (s : State) (table : Vector Aperture 23), s.rst = false → s.sys.presented = [] → s.sys.freeze = true →
    s.cmd.work = .freezing table →
    (s.systemQuiet = true → s.cmd.autoload = none → s.hold.waiter = none → s.dec.frozen = [] →
      let replaced : State := { s.begin with dec := { s.dec with
        entries := table, runs := Vector.replicate 23 { running := false, count := 0 } } }
      exec .apertureReplacement s = .next { replaced.completeCommand 2 0 0 with
        todo := []
        sys := { s.begin.sys with freeze := false } }) ∧
    (s.systemQuiet = false → exec .apertureReplacement s = .next s.begin)) ∧
  (∀ s : State, s.Calm →
    (∀ n rest, s.notice.write = none → s.notice.waiting = n :: rest → s.notice.loss = 0 → s.notice.full = false →
      exec .noticeWrite s = .next { s.begin with
        notice := { s.notice with
          write := some { carried := none, left := 2, failed := false, stale := false } }
        port := { s.port with noticeQ := s.port.noticeQ ++ [
          { owner := .noticeWrite, master := 0xFF, address := s.notice.slotAddress, write := true, enables := 0xFF,
            data := noticeWord0 n s.notice.producer },
          { owner := .noticeWrite, master := 0xFF, address := s.notice.slotAddress + 8, write := true,
            enables := 0xFF, data := noticeWord1 n }] } }) ∧
    (s.status.inProgress = false → s.status.followOn = true → s.cmd.work ≠ .status true →
      exec .statusWriteBack s = .next { s.begin with
        status := { s.status with
          followOn := false, inProgress := true, generation := s.status.generation + 1, left := 73 }
        port := { s.port with statusQ := s.port.statusQ ++ (List.range 73).map (· + 1) } }) ∧
    (s.status.inProgress = true → s.status.left = 0 → s.port.statusQ = [] →
      (∀ e ∈ s.port.outstanding, e.request.owner ≠ .statusWrite 74) →
      exec .generationEnd s = .next { s.begin with port := { s.port with statusQ := [74] } })) ∧
  (∀ (s : State) (table : Vector Aperture 23) (r : MemRequest) (old : Outstanding) (t : Transaction)
      (source : Byte) (d : Word), s.rst = false → s.sys.presented = [] → s.sys.freeze = true →
    s.cmd.work = .freezing table → s.cmd.autoload = none → s.cmd.current.flags.getLsbD 0 = false →
    s.hold.waiter = none → s.port.outstanding = [old] → s.port.systemQ = [] → old.abandoned = false →
    old.request = r → r.owner = .forward t source none → s.dec.frozen.length ≤ 8 →
    let dec := { s.dec with
      entries := table, runs := Vector.replicate 23 { running := false, count := 0 }, frozen := [] }
    (∀ x ∈ s.dec.frozen, s.inControl x.address = false ∧ dec.guarded x.address = false ∧ dec.firstMatch x = none) →
    exec (.passThroughEnd (.ok d)) s =
      .next (({ s.begin with
        dec := dec
        sys := { s.begin.sys with freeze := false }
        cmd := { s.cmd with
          running := false, work := .none, current := { code := 0, lane := 0, flags := 0, ticket := 0, master := 0 } }
        port := { s.port with
          outstanding := []
          systemQ := s.dec.frozen.map fun x => forwardRequest x x.address 0xFF none
          commandQ := s.port.commandQ ++ [
            wordRequest (.responseWrite s.cmd.current.ticket) s.cmd.current.master (s.controlAddress 0x808) true
              (responseWord s.cmd.current.ticket 2 0 0 s.cmd.current.code)] } } : State).answer t.tag false
        (if t.direction = .read then maskWord (laneEnables t) d else 0))) ∧
  (∀ s : State, s.systemQuiet = true ↔ s.port.systemQ = [] ∧ ∀ x ∈ s.port.outstanding, x.abandoned = true ∨
    (∃ offset ticket, x.request.owner = .imageRead offset ticket) ∨
    (∃ ticket, x.request.owner = .responseWrite ticket) ∨ x.request.owner = .noticeWrite ∨
    ∃ i, x.request.owner = .statusWrite i) ∧
  (∀ (s : State) (x : Notice),
    let bit : Nat := match x.kind with
      | .parcelReady => 0
      | .holdExpired => 1
      | .accessRefused => 2
      | .parcelEvicted => 3
      | .laneClosed => 4
      | .laneFaulted => 5
      | .memoryError => 6
      | .tapLoss => 7
      | .poolLow => 8
      | .commandDone => 9
      | .noticeLoss => 10
    (s.notice.mask.getLsbD bit = false → s.produce x = s) ∧
    (s.notice.mask.getLsbD bit = true → s.notice.entries = 0 ∨ 8 ≤ s.notice.waiting.length →
      s.produce x = { s with notice := { s.notice with
        loss := if s.notice.loss = 65535 then 65535 else s.notice.loss + 1 } }) ∧
    (s.notice.mask.getLsbD bit = true → s.notice.entries ≠ 0 → s.notice.waiting.length < 8 →
      s.produce x =
        ({ s with notice := { s.notice with waiting := s.notice.waiting ++ [x] } } : State).chooseNotice) ∧
    ∀ sequence : Half,
      byteOf (noticeWord0 x sequence) 0 = BitVec.ofNat 8 (bit + 1) ∧ byteOf (noticeWord0 x sequence) 1 = x.source ∧
      byteOf (noticeWord0 x sequence) 2 = x.reason ∧ byteOf (noticeWord0 x sequence) 3 = x.master ∧
      halfOf (noticeWord0 x sequence) 4 = sequence ∧ halfOf (noticeWord0 x sequence) 6 = x.value16 ∧
      quadOf (noticeWord1 x) 0 = x.address ∧ quadOf (noticeWord1 x) 4 = x.value32) ∧
  (∀ s : State,
    let full : Prop := (s.notice.producer - s.notice.consumer).toNat = s.notice.entries
    let lossDue : Prop := s.notice.loss ≠ 0 ∧ s.notice.mask.getLsbD 10 = true ∧ ¬ full
    let slot : Addr := s.notice.ringBase + BitVec.ofNat 32 (16 * (s.notice.producer.toNat % s.notice.entries))
    let writes (carried : Option Half) (x : Notice) : State := { s with
      notice := { s.notice with write := some { carried := carried, left := 2, failed := false, stale := false } }
      port := { s.port with noticeQ := s.port.noticeQ ++ [
        wordRequest .noticeWrite 0xFF slot true (noticeWord0 x s.notice.producer),
        wordRequest .noticeWrite 0xFF (slot + 8) true (noticeWord1 x)] } }
    (s.notice.write ≠ none → s.chooseNotice = s) ∧
    (s.notice.write = none → lossDue → s.chooseNotice = writes (some s.notice.loss)
      { kind := .noticeLoss, source := 0xFF, reason := 0, master := 0xFF, value16 := s.notice.loss, address := 0,
        value32 := s.notice.writeErrors.zeroExtend 32 }) ∧
    (s.notice.write = none → ¬ lossDue → s.notice.waiting = [] → s.chooseNotice = s) ∧
    (∀ x more, s.notice.write = none → ¬ lossDue → s.notice.waiting = x :: more →
      (full → s.chooseNotice = ({ s with notice := { s.notice with
        waiting := more
        loss := if s.notice.loss = 65535 then 65535 else s.notice.loss + 1 } } : State).chooseNotice) ∧
      (¬ full → s.chooseNotice = writes none x)))

/-! ## Headers -/

/-- The check of a header is (length + sequence + 256 * tag + flags + 0x5A5A) mod 65536 of its other four fields; the
header the part writes carries it, and what is read back from a header slot is what was written. A stored header passes
when its check is the one so computed, its sequence the one expected, its length at least 1 and bits 4 to 7 of its flags 0.
The header of length 496, sequence 1, tag 0 and no flags has the bytes 0xF0 0x01 0x4B 0x5C 0x01 0x00 0x00 0x00; that of
length 8, sequence 14, tag 3 and DAMAGED has the check 0x5D71. That 256 * tag + flags is meant, not the little-endian value
at offsets 6 and 7, is the reading of log 34. The response word and a capture's body have each field at its offset: the
body's data are the bytes of the access's lanes, written or read, and 0x00 in every other lane and for a read that did not
end OK; its byte 14 has the direction in bit 0 and the outcome in bits 1 and 2 (R13, R60, R111, R128, the first sentence of
R171, R172, 12.3, 12.5). -/
def Obligations.HeaderCheckFormula : Prop :=
  let check (length sequence : Half) (tag flags : Byte) : Nat :=
    (length.toNat + sequence.toNat + 256 * tag.toNat + flags.toNat + 0x5A5A) % 65536
  (∀ (length sequence : Half) (tag flags : Byte),
    let h := closingHeader length sequence tag flags
    h.length = length ∧ h.sequence = sequence ∧ h.tag = tag ∧ h.flags = flags ∧
      h.check.toNat = check length sequence tag flags) ∧
  (∀ h : Header, Header.ofWord h.word = h) ∧
  (∀ (h : Header) (expected : Half), h.passes expected = true ↔
    h.check.toNat = check h.length h.sequence h.tag h.flags ∧ h.sequence = expected ∧ 1 ≤ h.length.toNat ∧
      h.flags.toNat < 16) ∧
  (List.range 8).map (byteOf (closingHeader 496 1 0 0).word)
    = [0xF0, 0x01, 0x4B, 0x5C, 0x01, 0x00, 0x00, 0x00] ∧
  (closingHeader 8 14 3 flagDamaged).check = 0x5D71 ∧
  (∀ (ticket : Half) (outcome reason detail code : Byte),
    let w := responseWord ticket outcome reason detail code
    halfOf w 0 = ticket ∧ byteOf w 2 = outcome ∧ byteOf w 3 = reason ∧ byteOf w 4 = detail ∧ byteOf w 5 = code ∧
      byteOf w 6 = 0 ∧ byteOf w 7 = 0) ∧
  (∀ (t : Transaction) (o : MemOutcome) (i : Fin 23),
    let w0 := captureWord0 t o
    let w1 := captureWord1 t o i
    let lane (k : Nat) : Byte :=
      if (laneEnables t).getLsbD k then
        match t.direction, o with
        | .write, _ => byteOf t.data k
        | .read, .ok d => byteOf d k
        | .read, _ => 0
      else 0
    quadOf w0 0 = t.address ∧ byteOf w0 4 = lane 0 ∧ byteOf w0 5 = lane 1 ∧ byteOf w0 6 = lane 2 ∧
      byteOf w0 7 = lane 3 ∧ byteOf w1 0 = lane 4 ∧ byteOf w1 1 = lane 5 ∧ byteOf w1 2 = lane 6 ∧
      byteOf w1 3 = lane 7 ∧ byteOf w1 4 = t.master.zeroExtend 8 ∧ byteOf w1 5 = BitVec.ofNat 8 t.size ∧
      byteOf w1 6 = (match t.direction, o with
        | .read, .ok _ => 0
        | .write, .ok _ => 1
        | .read, .error => 2
        | .write, .error => 3
        | .read, .timeout => 4
        | .write, .timeout => 5) ∧
      byteOf w1 7 = BitVec.ofNat 8 (i.val + 1))

/-! ## The laws of the device -/

/-- After reset the laws of the device hold. -/
def Obligations.ResetIsLawful : Prop := State.reset.Lawful

/-- Every step keeps the laws of the device: a lane's sequences and parcel limit (R14, R15), segments and parcels (R16),
the quota and the empty CLOSED lane (R17), the pool's min free, arming and count (R31, R32, R36), one list for every
segment (R37), the held table (R89), the pending list (R138), the ring bound and INT_N (R144), the outstanding list
(R163). -/
def Obligations.StepKeepsLaws : Prop :=
  ∀ s t : State, s.Lawful → step s = .next t → t.Lawful

/-- What the laws say in the spec's words, of every lawful state: the free count and the segments held by all lanes add up
to the pool's count, and no segment is in two places; the put sequence is the take sequence plus the ready count, plus one
with an open parcel, modulo 65536, and a lane holds a segment exactly when it holds a parcel, and never more segments than
its quota; at most six entries are held, of different lines; the producer index less the consumer index never exceeds the
ring entries, and INT_N is low exactly when interrupt enable is on and the indices differ (R14, R16, R17, R36, R37, R89,
R144). -/
def Obligations.LawsSay : Prop :=
  ∀ s : State, s.Lawful →
    s.pool.freeList.length + (s.lanes.toList.map fun l => l.chain.length).sum = s.pool.count ∧
    (s.pool.freeList ++ (s.lanes.toList.map Lane.chain).flatten).Nodup ∧
    (∀ n, (s.lane n).putSeq = (s.lane n).takeSeq + BitVec.ofNat 16 (s.lane n).ready +
      (if (s.lane n).openParcel.isSome then 1 else 0)) ∧
    (∀ n, (s.lane n).chain ≠ [] ↔ (s.lane n).ready ≠ 0 ∨ (s.lane n).openParcel.isSome = true) ∧
    (∀ n, (s.lane n).chain.length ≤ (s.lane n).desc.quota) ∧
    (∀ n, (s.lane n).state = .closed → (s.lane n).chain = [] ∧ (s.lane n).putLine = [] ∧ (s.lane n).takeLine = []) ∧
    s.hold.held.length ≤ 6 ∧ (s.hold.held.map fun e => (e.lane, e.line)).Nodup ∧
    (s.notice.producer - s.notice.consumer).toNat ≤ s.notice.entries ∧
    (s.notice.intN = false ↔ s.notice.enable = true ∧ s.notice.producer ≠ s.notice.consumer)

end
end

