-- ==== Sys2Proof/Laws/State.lean ====
section
/-!
SUPPORT. What the small updates of the state leave alone: one lemma per field per update, true by definition.
-/
namespace Sys2Proof.Machine

/-! ## setLane -/

@[simp] theorem State.setLane_pending (s : State) (n : LaneNo) (l : Lane) : (s.setLane n l).pending = s.pending := rfl
@[simp] theorem State.setLane_rst (s : State) (n : LaneNo) (l : Lane) : (s.setLane n l).rst = s.rst := rfl
@[simp] theorem State.setLane_autold (s : State) (n : LaneNo) (l : Lane) : (s.setLane n l).autold = s.autold := rfl
@[simp] theorem State.setLane_sys (s : State) (n : LaneNo) (l : Lane) : (s.setLane n l).sys = s.sys := rfl
@[simp] theorem State.setLane_dec (s : State) (n : LaneNo) (l : Lane) : (s.setLane n l).dec = s.dec := rfl
@[simp] theorem State.setLane_pool (s : State) (n : LaneNo) (l : Lane) : (s.setLane n l).pool = s.pool := rfl
@[simp] theorem State.setLane_hold (s : State) (n : LaneNo) (l : Lane) : (s.setLane n l).hold = s.hold := rfl
@[simp] theorem State.setLane_cmd (s : State) (n : LaneNo) (l : Lane) : (s.setLane n l).cmd = s.cmd := rfl
@[simp] theorem State.setLane_notice (s : State) (n : LaneNo) (l : Lane) : (s.setLane n l).notice = s.notice := rfl
@[simp] theorem State.setLane_status (s : State) (n : LaneNo) (l : Lane) : (s.setLane n l).status = s.status := rfl
@[simp] theorem State.setLane_port (s : State) (n : LaneNo) (l : Lane) : (s.setLane n l).port = s.port := rfl
@[simp] theorem State.setLane_todo (s : State) (n : LaneNo) (l : Lane) : (s.setLane n l).todo = s.todo := rfl
@[simp] theorem State.setLane_choices (s : State) (n : LaneNo) (l : Lane) : (s.setLane n l).choices = s.choices := rfl

/-! ## updLane -/

@[simp] theorem State.updLane_pending (s : State) (n : LaneNo) (f : Lane → Lane) : (s.updLane n f).pending = s.pending := rfl
@[simp] theorem State.updLane_rst (s : State) (n : LaneNo) (f : Lane → Lane) : (s.updLane n f).rst = s.rst := rfl
@[simp] theorem State.updLane_autold (s : State) (n : LaneNo) (f : Lane → Lane) : (s.updLane n f).autold = s.autold := rfl
@[simp] theorem State.updLane_sys (s : State) (n : LaneNo) (f : Lane → Lane) : (s.updLane n f).sys = s.sys := rfl
@[simp] theorem State.updLane_dec (s : State) (n : LaneNo) (f : Lane → Lane) : (s.updLane n f).dec = s.dec := rfl
@[simp] theorem State.updLane_pool (s : State) (n : LaneNo) (f : Lane → Lane) : (s.updLane n f).pool = s.pool := rfl
@[simp] theorem State.updLane_hold (s : State) (n : LaneNo) (f : Lane → Lane) : (s.updLane n f).hold = s.hold := rfl
@[simp] theorem State.updLane_cmd (s : State) (n : LaneNo) (f : Lane → Lane) : (s.updLane n f).cmd = s.cmd := rfl
@[simp] theorem State.updLane_notice (s : State) (n : LaneNo) (f : Lane → Lane) : (s.updLane n f).notice = s.notice := rfl
@[simp] theorem State.updLane_status (s : State) (n : LaneNo) (f : Lane → Lane) : (s.updLane n f).status = s.status := rfl
@[simp] theorem State.updLane_port (s : State) (n : LaneNo) (f : Lane → Lane) : (s.updLane n f).port = s.port := rfl
@[simp] theorem State.updLane_todo (s : State) (n : LaneNo) (f : Lane → Lane) : (s.updLane n f).todo = s.todo := rfl
@[simp] theorem State.updLane_choices (s : State) (n : LaneNo) (f : Lane → Lane) : (s.updLane n f).choices = s.choices := rfl

/-! ## schedule -/

@[simp] theorem State.schedule_pending (s : State) (ts : List Task) : (s.schedule ts).pending = s.pending := rfl
@[simp] theorem State.schedule_rst (s : State) (ts : List Task) : (s.schedule ts).rst = s.rst := rfl
@[simp] theorem State.schedule_autold (s : State) (ts : List Task) : (s.schedule ts).autold = s.autold := rfl
@[simp] theorem State.schedule_sys (s : State) (ts : List Task) : (s.schedule ts).sys = s.sys := rfl
@[simp] theorem State.schedule_dec (s : State) (ts : List Task) : (s.schedule ts).dec = s.dec := rfl
@[simp] theorem State.schedule_lanes (s : State) (ts : List Task) : (s.schedule ts).lanes = s.lanes := rfl
@[simp] theorem State.schedule_pool (s : State) (ts : List Task) : (s.schedule ts).pool = s.pool := rfl
@[simp] theorem State.schedule_hold (s : State) (ts : List Task) : (s.schedule ts).hold = s.hold := rfl
@[simp] theorem State.schedule_cmd (s : State) (ts : List Task) : (s.schedule ts).cmd = s.cmd := rfl
@[simp] theorem State.schedule_notice (s : State) (ts : List Task) : (s.schedule ts).notice = s.notice := rfl
@[simp] theorem State.schedule_status (s : State) (ts : List Task) : (s.schedule ts).status = s.status := rfl
@[simp] theorem State.schedule_port (s : State) (ts : List Task) : (s.schedule ts).port = s.port := rfl
@[simp] theorem State.schedule_choices (s : State) (ts : List Task) : (s.schedule ts).choices = s.choices := rfl

/-! ## answer -/

@[simp] theorem State.answer_pending (s : State) (tag : Tag) (error : Bool) (data : Word) : (s.answer tag error data).pending = s.pending := rfl
@[simp] theorem State.answer_rst (s : State) (tag : Tag) (error : Bool) (data : Word) : (s.answer tag error data).rst = s.rst := rfl
@[simp] theorem State.answer_autold (s : State) (tag : Tag) (error : Bool) (data : Word) : (s.answer tag error data).autold = s.autold := rfl
@[simp] theorem State.answer_dec (s : State) (tag : Tag) (error : Bool) (data : Word) : (s.answer tag error data).dec = s.dec := rfl
@[simp] theorem State.answer_lanes (s : State) (tag : Tag) (error : Bool) (data : Word) : (s.answer tag error data).lanes = s.lanes := rfl
@[simp] theorem State.answer_pool (s : State) (tag : Tag) (error : Bool) (data : Word) : (s.answer tag error data).pool = s.pool := rfl
@[simp] theorem State.answer_hold (s : State) (tag : Tag) (error : Bool) (data : Word) : (s.answer tag error data).hold = s.hold := rfl
@[simp] theorem State.answer_cmd (s : State) (tag : Tag) (error : Bool) (data : Word) : (s.answer tag error data).cmd = s.cmd := rfl
@[simp] theorem State.answer_notice (s : State) (tag : Tag) (error : Bool) (data : Word) : (s.answer tag error data).notice = s.notice := rfl
@[simp] theorem State.answer_status (s : State) (tag : Tag) (error : Bool) (data : Word) : (s.answer tag error data).status = s.status := rfl
@[simp] theorem State.answer_port (s : State) (tag : Tag) (error : Bool) (data : Word) : (s.answer tag error data).port = s.port := rfl
@[simp] theorem State.answer_todo (s : State) (tag : Tag) (error : Bool) (data : Word) : (s.answer tag error data).todo = s.todo := rfl
@[simp] theorem State.answer_choices (s : State) (tag : Tag) (error : Bool) (data : Word) : (s.answer tag error data).choices = s.choices := rfl

/-! ## request -/

@[simp] theorem State.request_pending (s : State) (r : MemRequest) : (s.request r).pending = s.pending := rfl
@[simp] theorem State.request_rst (s : State) (r : MemRequest) : (s.request r).rst = s.rst := rfl
@[simp] theorem State.request_autold (s : State) (r : MemRequest) : (s.request r).autold = s.autold := rfl
@[simp] theorem State.request_sys (s : State) (r : MemRequest) : (s.request r).sys = s.sys := rfl
@[simp] theorem State.request_dec (s : State) (r : MemRequest) : (s.request r).dec = s.dec := rfl
@[simp] theorem State.request_lanes (s : State) (r : MemRequest) : (s.request r).lanes = s.lanes := rfl
@[simp] theorem State.request_pool (s : State) (r : MemRequest) : (s.request r).pool = s.pool := rfl
@[simp] theorem State.request_hold (s : State) (r : MemRequest) : (s.request r).hold = s.hold := rfl
@[simp] theorem State.request_cmd (s : State) (r : MemRequest) : (s.request r).cmd = s.cmd := rfl
@[simp] theorem State.request_notice (s : State) (r : MemRequest) : (s.request r).notice = s.notice := rfl
@[simp] theorem State.request_status (s : State) (r : MemRequest) : (s.request r).status = s.status := rfl
@[simp] theorem State.request_todo (s : State) (r : MemRequest) : (s.request r).todo = s.todo := rfl
@[simp] theorem State.request_choices (s : State) (r : MemRequest) : (s.request r).choices = s.choices := rfl

/-! ## requestAll -/

@[simp] theorem State.requestAll_pending (s : State) (rs : List MemRequest) : (s.requestAll rs).pending = s.pending := rfl
@[simp] theorem State.requestAll_rst (s : State) (rs : List MemRequest) : (s.requestAll rs).rst = s.rst := rfl
@[simp] theorem State.requestAll_autold (s : State) (rs : List MemRequest) : (s.requestAll rs).autold = s.autold := rfl
@[simp] theorem State.requestAll_sys (s : State) (rs : List MemRequest) : (s.requestAll rs).sys = s.sys := rfl
@[simp] theorem State.requestAll_dec (s : State) (rs : List MemRequest) : (s.requestAll rs).dec = s.dec := rfl
@[simp] theorem State.requestAll_lanes (s : State) (rs : List MemRequest) : (s.requestAll rs).lanes = s.lanes := rfl
@[simp] theorem State.requestAll_pool (s : State) (rs : List MemRequest) : (s.requestAll rs).pool = s.pool := rfl
@[simp] theorem State.requestAll_hold (s : State) (rs : List MemRequest) : (s.requestAll rs).hold = s.hold := rfl
@[simp] theorem State.requestAll_cmd (s : State) (rs : List MemRequest) : (s.requestAll rs).cmd = s.cmd := rfl
@[simp] theorem State.requestAll_notice (s : State) (rs : List MemRequest) : (s.requestAll rs).notice = s.notice := rfl
@[simp] theorem State.requestAll_status (s : State) (rs : List MemRequest) : (s.requestAll rs).status = s.status := rfl
@[simp] theorem State.requestAll_todo (s : State) (rs : List MemRequest) : (s.requestAll rs).todo = s.todo := rfl
@[simp] theorem State.requestAll_choices (s : State) (rs : List MemRequest) : (s.requestAll rs).choices = s.choices := rfl

/-! ## commandRequests -/

@[simp] theorem State.commandRequests_pending (s : State) (rs : List MemRequest) : (s.commandRequests rs).pending = s.pending := rfl
@[simp] theorem State.commandRequests_rst (s : State) (rs : List MemRequest) : (s.commandRequests rs).rst = s.rst := rfl
@[simp] theorem State.commandRequests_autold (s : State) (rs : List MemRequest) : (s.commandRequests rs).autold = s.autold := rfl
@[simp] theorem State.commandRequests_sys (s : State) (rs : List MemRequest) : (s.commandRequests rs).sys = s.sys := rfl
@[simp] theorem State.commandRequests_dec (s : State) (rs : List MemRequest) : (s.commandRequests rs).dec = s.dec := rfl
@[simp] theorem State.commandRequests_lanes (s : State) (rs : List MemRequest) : (s.commandRequests rs).lanes = s.lanes := rfl
@[simp] theorem State.commandRequests_pool (s : State) (rs : List MemRequest) : (s.commandRequests rs).pool = s.pool := rfl
@[simp] theorem State.commandRequests_hold (s : State) (rs : List MemRequest) : (s.commandRequests rs).hold = s.hold := rfl
@[simp] theorem State.commandRequests_cmd (s : State) (rs : List MemRequest) : (s.commandRequests rs).cmd = s.cmd := rfl
@[simp] theorem State.commandRequests_notice (s : State) (rs : List MemRequest) : (s.commandRequests rs).notice = s.notice := rfl
@[simp] theorem State.commandRequests_status (s : State) (rs : List MemRequest) : (s.commandRequests rs).status = s.status := rfl
@[simp] theorem State.commandRequests_todo (s : State) (rs : List MemRequest) : (s.commandRequests rs).todo = s.todo := rfl
@[simp] theorem State.commandRequests_choices (s : State) (rs : List MemRequest) : (s.commandRequests rs).choices = s.choices := rfl

/-! ## unhold -/

@[simp] theorem State.unhold_pending (s : State) (n : LaneNo) (line : Line) : (s.unhold n line).pending = s.pending := rfl
@[simp] theorem State.unhold_rst (s : State) (n : LaneNo) (line : Line) : (s.unhold n line).rst = s.rst := rfl
@[simp] theorem State.unhold_autold (s : State) (n : LaneNo) (line : Line) : (s.unhold n line).autold = s.autold := rfl
@[simp] theorem State.unhold_sys (s : State) (n : LaneNo) (line : Line) : (s.unhold n line).sys = s.sys := rfl
@[simp] theorem State.unhold_dec (s : State) (n : LaneNo) (line : Line) : (s.unhold n line).dec = s.dec := rfl
@[simp] theorem State.unhold_lanes (s : State) (n : LaneNo) (line : Line) : (s.unhold n line).lanes = s.lanes := rfl
@[simp] theorem State.unhold_pool (s : State) (n : LaneNo) (line : Line) : (s.unhold n line).pool = s.pool := rfl
@[simp] theorem State.unhold_cmd (s : State) (n : LaneNo) (line : Line) : (s.unhold n line).cmd = s.cmd := rfl
@[simp] theorem State.unhold_notice (s : State) (n : LaneNo) (line : Line) : (s.unhold n line).notice = s.notice := rfl
@[simp] theorem State.unhold_status (s : State) (n : LaneNo) (line : Line) : (s.unhold n line).status = s.status := rfl
@[simp] theorem State.unhold_port (s : State) (n : LaneNo) (line : Line) : (s.unhold n line).port = s.port := rfl
@[simp] theorem State.unhold_todo (s : State) (n : LaneNo) (line : Line) : (s.unhold n line).todo = s.todo := rfl
@[simp] theorem State.unhold_choices (s : State) (n : LaneNo) (line : Line) : (s.unhold n line).choices = s.choices := rfl

/-! ## recordHeld -/

@[simp] theorem State.recordHeld_pending (s : State) (n : LaneNo) (line : Line) (tag : Tag) (kind : WaitKind) : (s.recordHeld n line tag kind).pending = s.pending := rfl
@[simp] theorem State.recordHeld_rst (s : State) (n : LaneNo) (line : Line) (tag : Tag) (kind : WaitKind) : (s.recordHeld n line tag kind).rst = s.rst := rfl
@[simp] theorem State.recordHeld_autold (s : State) (n : LaneNo) (line : Line) (tag : Tag) (kind : WaitKind) : (s.recordHeld n line tag kind).autold = s.autold := rfl
@[simp] theorem State.recordHeld_sys (s : State) (n : LaneNo) (line : Line) (tag : Tag) (kind : WaitKind) : (s.recordHeld n line tag kind).sys = s.sys := rfl
@[simp] theorem State.recordHeld_dec (s : State) (n : LaneNo) (line : Line) (tag : Tag) (kind : WaitKind) : (s.recordHeld n line tag kind).dec = s.dec := rfl
@[simp] theorem State.recordHeld_lanes (s : State) (n : LaneNo) (line : Line) (tag : Tag) (kind : WaitKind) : (s.recordHeld n line tag kind).lanes = s.lanes := rfl
@[simp] theorem State.recordHeld_pool (s : State) (n : LaneNo) (line : Line) (tag : Tag) (kind : WaitKind) : (s.recordHeld n line tag kind).pool = s.pool := rfl
@[simp] theorem State.recordHeld_cmd (s : State) (n : LaneNo) (line : Line) (tag : Tag) (kind : WaitKind) : (s.recordHeld n line tag kind).cmd = s.cmd := rfl
@[simp] theorem State.recordHeld_notice (s : State) (n : LaneNo) (line : Line) (tag : Tag) (kind : WaitKind) : (s.recordHeld n line tag kind).notice = s.notice := rfl
@[simp] theorem State.recordHeld_status (s : State) (n : LaneNo) (line : Line) (tag : Tag) (kind : WaitKind) : (s.recordHeld n line tag kind).status = s.status := rfl
@[simp] theorem State.recordHeld_port (s : State) (n : LaneNo) (line : Line) (tag : Tag) (kind : WaitKind) : (s.recordHeld n line tag kind).port = s.port := rfl
@[simp] theorem State.recordHeld_todo (s : State) (n : LaneNo) (line : Line) (tag : Tag) (kind : WaitKind) : (s.recordHeld n line tag kind).todo = s.todo := rfl
@[simp] theorem State.recordHeld_choices (s : State) (n : LaneNo) (line : Line) (tag : Tag) (kind : WaitKind) : (s.recordHeld n line tag kind).choices = s.choices := rfl

/-! ## setWaitKind -/

@[simp] theorem State.setWaitKind_pending (s : State) (n : LaneNo) (line : Line) (kind : WaitKind) : (s.setWaitKind n line kind).pending = s.pending := rfl
@[simp] theorem State.setWaitKind_rst (s : State) (n : LaneNo) (line : Line) (kind : WaitKind) : (s.setWaitKind n line kind).rst = s.rst := rfl
@[simp] theorem State.setWaitKind_autold (s : State) (n : LaneNo) (line : Line) (kind : WaitKind) : (s.setWaitKind n line kind).autold = s.autold := rfl
@[simp] theorem State.setWaitKind_sys (s : State) (n : LaneNo) (line : Line) (kind : WaitKind) : (s.setWaitKind n line kind).sys = s.sys := rfl
@[simp] theorem State.setWaitKind_dec (s : State) (n : LaneNo) (line : Line) (kind : WaitKind) : (s.setWaitKind n line kind).dec = s.dec := rfl
@[simp] theorem State.setWaitKind_lanes (s : State) (n : LaneNo) (line : Line) (kind : WaitKind) : (s.setWaitKind n line kind).lanes = s.lanes := rfl
@[simp] theorem State.setWaitKind_pool (s : State) (n : LaneNo) (line : Line) (kind : WaitKind) : (s.setWaitKind n line kind).pool = s.pool := rfl
@[simp] theorem State.setWaitKind_cmd (s : State) (n : LaneNo) (line : Line) (kind : WaitKind) : (s.setWaitKind n line kind).cmd = s.cmd := rfl
@[simp] theorem State.setWaitKind_notice (s : State) (n : LaneNo) (line : Line) (kind : WaitKind) : (s.setWaitKind n line kind).notice = s.notice := rfl
@[simp] theorem State.setWaitKind_status (s : State) (n : LaneNo) (line : Line) (kind : WaitKind) : (s.setWaitKind n line kind).status = s.status := rfl
@[simp] theorem State.setWaitKind_port (s : State) (n : LaneNo) (line : Line) (kind : WaitKind) : (s.setWaitKind n line kind).port = s.port := rfl
@[simp] theorem State.setWaitKind_todo (s : State) (n : LaneNo) (line : Line) (kind : WaitKind) : (s.setWaitKind n line kind).todo = s.todo := rfl
@[simp] theorem State.setWaitKind_choices (s : State) (n : LaneNo) (line : Line) (kind : WaitKind) : (s.setWaitKind n line kind).choices = s.choices := rfl

/-! ## pushSegments -/

@[simp] theorem State.pushSegments_pending (s : State) (segs : List Nat) : (s.pushSegments segs).pending = s.pending := rfl
@[simp] theorem State.pushSegments_rst (s : State) (segs : List Nat) : (s.pushSegments segs).rst = s.rst := rfl
@[simp] theorem State.pushSegments_autold (s : State) (segs : List Nat) : (s.pushSegments segs).autold = s.autold := rfl
@[simp] theorem State.pushSegments_sys (s : State) (segs : List Nat) : (s.pushSegments segs).sys = s.sys := rfl
@[simp] theorem State.pushSegments_dec (s : State) (segs : List Nat) : (s.pushSegments segs).dec = s.dec := rfl
@[simp] theorem State.pushSegments_lanes (s : State) (segs : List Nat) : (s.pushSegments segs).lanes = s.lanes := rfl
@[simp] theorem State.pushSegments_hold (s : State) (segs : List Nat) : (s.pushSegments segs).hold = s.hold := rfl
@[simp] theorem State.pushSegments_cmd (s : State) (segs : List Nat) : (s.pushSegments segs).cmd = s.cmd := rfl
@[simp] theorem State.pushSegments_notice (s : State) (segs : List Nat) : (s.pushSegments segs).notice = s.notice := rfl
@[simp] theorem State.pushSegments_status (s : State) (segs : List Nat) : (s.pushSegments segs).status = s.status := rfl
@[simp] theorem State.pushSegments_port (s : State) (segs : List Nat) : (s.pushSegments segs).port = s.port := rfl
@[simp] theorem State.pushSegments_todo (s : State) (segs : List Nat) : (s.pushSegments segs).todo = s.todo := rfl
@[simp] theorem State.pushSegments_choices (s : State) (segs : List Nat) : (s.pushSegments segs).choices = s.choices := rfl

/-! ## occupy -/

@[simp] theorem State.occupy_pending (s : State) (t : Transaction) : (s.occupy t).pending = s.pending := rfl
@[simp] theorem State.occupy_rst (s : State) (t : Transaction) : (s.occupy t).rst = s.rst := rfl
@[simp] theorem State.occupy_autold (s : State) (t : Transaction) : (s.occupy t).autold = s.autold := rfl
@[simp] theorem State.occupy_dec (s : State) (t : Transaction) : (s.occupy t).dec = s.dec := rfl
@[simp] theorem State.occupy_lanes (s : State) (t : Transaction) : (s.occupy t).lanes = s.lanes := rfl
@[simp] theorem State.occupy_pool (s : State) (t : Transaction) : (s.occupy t).pool = s.pool := rfl
@[simp] theorem State.occupy_hold (s : State) (t : Transaction) : (s.occupy t).hold = s.hold := rfl
@[simp] theorem State.occupy_cmd (s : State) (t : Transaction) : (s.occupy t).cmd = s.cmd := rfl
@[simp] theorem State.occupy_notice (s : State) (t : Transaction) : (s.occupy t).notice = s.notice := rfl
@[simp] theorem State.occupy_status (s : State) (t : Transaction) : (s.occupy t).status = s.status := rfl
@[simp] theorem State.occupy_port (s : State) (t : Transaction) : (s.occupy t).port = s.port := rfl
@[simp] theorem State.occupy_todo (s : State) (t : Transaction) : (s.occupy t).todo = s.todo := rfl
@[simp] theorem State.occupy_choices (s : State) (t : Transaction) : (s.occupy t).choices = s.choices := rfl

/-! ## begin -/

@[simp] theorem State.begin_pending (s : State) : s.begin.pending = s.pending := rfl
@[simp] theorem State.begin_rst (s : State) : s.begin.rst = s.rst := rfl
@[simp] theorem State.begin_autold (s : State) : s.begin.autold = s.autold := rfl
@[simp] theorem State.begin_dec (s : State) : s.begin.dec = s.dec := rfl
@[simp] theorem State.begin_lanes (s : State) : s.begin.lanes = s.lanes := rfl
@[simp] theorem State.begin_pool (s : State) : s.begin.pool = s.pool := rfl
@[simp] theorem State.begin_hold (s : State) : s.begin.hold = s.hold := rfl
@[simp] theorem State.begin_cmd (s : State) : s.begin.cmd = s.cmd := rfl
@[simp] theorem State.begin_notice (s : State) : s.begin.notice = s.notice := rfl
@[simp] theorem State.begin_status (s : State) : s.begin.status = s.status := rfl
@[simp] theorem State.begin_port (s : State) : s.begin.port = s.port := rfl
@[simp] theorem State.begin_choices (s : State) : s.begin.choices = s.choices := rfl
@[simp] theorem State.begin_todo (s : State) : s.begin.todo = [] := rfl
@[simp] theorem State.begin_tags (s : State) : s.begin.sys.tags = s.sys.tags := rfl
@[simp] theorem State.begin_freeze (s : State) : s.begin.sys.freeze = s.sys.freeze := rfl
@[simp] theorem State.begin_presented (s : State) : s.begin.sys.presented = s.sys.presented := rfl
@[simp] theorem State.begin_responses (s : State) : s.begin.sys.responses = [] := rfl
@[simp] theorem State.begin_lane (s : State) (n : LaneNo) : s.begin.lane n = s.lane n := rfl
@[simp] theorem State.begin_heldOf (s : State) (n : LaneNo) (line : Line) : s.begin.heldOf n line = s.heldOf n line :=
  rfl

/-! ## Fields that the updates set -/

@[simp] theorem State.setLane_lanes (s : State) (n : LaneNo) (l : Lane) :
    (s.setLane n l).lanes = s.lanes.set n.val l := rfl

@[simp] theorem State.schedule_todo (s : State) (ts : List Task) : (s.schedule ts).todo = s.todo ++ ts := rfl

@[simp] theorem State.request_systemQ (s : State) (r : MemRequest) :
    (s.request r).port.systemQ = s.port.systemQ ++ [r] := rfl

@[simp] theorem State.requestAll_systemQ (s : State) (rs : List MemRequest) :
    (s.requestAll rs).port.systemQ = s.port.systemQ ++ rs := rfl

@[simp] theorem State.commandRequests_commandQ (s : State) (rs : List MemRequest) :
    (s.commandRequests rs).port.commandQ = s.port.commandQ ++ rs := rfl

@[simp] theorem State.answer_responses (s : State) (tag : Tag) (error : Bool) (data : Word) :
    (s.answer tag error data).sys.responses = s.sys.responses ++ [{ tag := tag, error := error, data := data }] := rfl

@[simp] theorem State.answer_presented (s : State) (tag : Tag) (error : Bool) (data : Word) :
    (s.answer tag error data).sys.presented = s.sys.presented := rfl

@[simp] theorem State.answer_freeze (s : State) (tag : Tag) (error : Bool) (data : Word) :
    (s.answer tag error data).sys.freeze = s.sys.freeze := rfl

@[simp] theorem State.occupy_presented (s : State) (t : Transaction) :
    (s.occupy t).sys.presented = s.sys.presented := rfl

@[simp] theorem State.occupy_freeze (s : State) (t : Transaction) : (s.occupy t).sys.freeze = s.sys.freeze := rfl

@[simp] theorem State.occupy_responses (s : State) (t : Transaction) :
    (s.occupy t).sys.responses = s.sys.responses := rfl

/-! ## Lane contexts -/

@[simp] theorem State.answer_lane (s : State) (tag : Tag) (error : Bool) (data : Word) (m : LaneNo) :
    (s.answer tag error data).lane m = s.lane m := rfl
@[simp] theorem State.answer_heldOf (s : State) (tag : Tag) (error : Bool) (data : Word) (m : LaneNo) (l : Line) :
    (s.answer tag error data).heldOf m l = s.heldOf m l := rfl
@[simp] theorem State.schedule_lane (s : State) (ts : List Task) (m : LaneNo) :
    (s.schedule ts).lane m = s.lane m := rfl
@[simp] theorem State.schedule_heldOf (s : State) (ts : List Task) (m : LaneNo) (l : Line) :
    (s.schedule ts).heldOf m l = s.heldOf m l := rfl
@[simp] theorem State.request_lane (s : State) (r : MemRequest) (m : LaneNo) :
    (s.request r).lane m = s.lane m := rfl
@[simp] theorem State.request_heldOf (s : State) (r : MemRequest) (m : LaneNo) (l : Line) :
    (s.request r).heldOf m l = s.heldOf m l := rfl
@[simp] theorem State.requestAll_lane (s : State) (rs : List MemRequest) (m : LaneNo) :
    (s.requestAll rs).lane m = s.lane m := rfl
@[simp] theorem State.requestAll_heldOf (s : State) (rs : List MemRequest) (m : LaneNo) (l : Line) :
    (s.requestAll rs).heldOf m l = s.heldOf m l := rfl
@[simp] theorem State.commandRequests_lane (s : State) (rs : List MemRequest) (m : LaneNo) :
    (s.commandRequests rs).lane m = s.lane m := rfl
@[simp] theorem State.commandRequests_heldOf (s : State) (rs : List MemRequest) (m : LaneNo) (l : Line) :
    (s.commandRequests rs).heldOf m l = s.heldOf m l := rfl
@[simp] theorem State.occupy_lane (s : State) (t : Transaction) (m : LaneNo) :
    (s.occupy t).lane m = s.lane m := rfl
@[simp] theorem State.occupy_heldOf (s : State) (t : Transaction) (m : LaneNo) (l : Line) :
    (s.occupy t).heldOf m l = s.heldOf m l := rfl
@[simp] theorem State.pushSegments_lane (s : State) (segs : List Nat) (m : LaneNo) :
    (s.pushSegments segs).lane m = s.lane m := rfl
@[simp] theorem State.pushSegments_heldOf (s : State) (segs : List Nat) (m : LaneNo) (l : Line) :
    (s.pushSegments segs).heldOf m l = s.heldOf m l := rfl
@[simp] theorem State.unhold_lane (s : State) (n : LaneNo) (line : Line) (m : LaneNo) :
    (s.unhold n line).lane m = s.lane m := rfl
@[simp] theorem State.recordHeld_lane (s : State) (n : LaneNo) (line : Line) (tag : Tag) (kind : WaitKind) (m : LaneNo) :
    (s.recordHeld n line tag kind).lane m = s.lane m := rfl
@[simp] theorem State.setWaitKind_lane (s : State) (n : LaneNo) (line : Line) (kind : WaitKind) (m : LaneNo) :
    (s.setWaitKind n line kind).lane m = s.lane m := rfl
@[simp] theorem State.setLane_heldOf (s : State) (n : LaneNo) (x : Lane) (m : LaneNo) (l : Line) :
    (s.setLane n x).heldOf m l = s.heldOf m l := rfl
@[simp] theorem State.updLane_heldOf (s : State) (n : LaneNo) (f : Lane → Lane) (m : LaneNo) (l : Line) :
    (s.updLane n f).heldOf m l = s.heldOf m l := rfl

/-- A lane context that was set is read back. -/
@[simp] theorem State.lane_setLane_same (s : State) (n : LaneNo) (l : Lane) : (s.setLane n l).lane n = l := by
  simp [State.lane]

/-- Another lane's context is as it was. -/
@[simp] theorem State.lane_setLane_ne (s : State) {n m : LaneNo} (l : Lane) (h : m ≠ n) :
    (s.setLane n l).lane m = s.lane m := by
  have : n.val ≠ m.val := fun e => h (Fin.ext e.symm)
  simp [State.lane, this]

/-- A lane context that was changed is read back. -/
@[simp] theorem State.lane_updLane_same (s : State) (n : LaneNo) (f : Lane → Lane) :
    (s.updLane n f).lane n = f (s.lane n) := by
  simp [State.updLane]

/-- Another lane's context is as it was. -/
@[simp] theorem State.lane_updLane_ne (s : State) {n m : LaneNo} (f : Lane → Lane) (h : m ≠ n) :
    (s.updLane n f).lane m = s.lane m := by
  simp [State.updLane, h]

/-- A lane is read from the field `lanes` alone. -/
theorem State.lane_congr {s t : State} (h : s.lanes = t.lanes) (n : LaneNo) : s.lane n = t.lane n := by
  simp [State.lane, h]

end Sys2Proof.Machine
end

