-- ==== Sys2Proof/Laws/Lanes.lean ====
section
/-!
SUPPORT. One lane context: every change that the lane engine makes keeps the lane's laws, and says what becomes of the
segments it held.
-/
namespace Sys2Proof.Machine

/-- A change that leaves state, busy mark, descriptor, chain, parcels and sequences alone, and adds to the lines only
entries that are in flight. -/
theorem Lane.Law.change {l l' : Lane} (h : l.Law) (hs : l'.state = l.state) (hb : l'.busy = l.busy)
    (hd : l'.desc = l.desc) (hc : l'.chain = l.chain) (hr : l'.ready = l.ready)
    (ho : l'.openParcel.isSome = l.openParcel.isSome) (hp : l'.putSeq = l.putSeq) (ht : l'.takeSeq = l.takeSeq)
    (hpl : ∀ e ∈ l'.putLine, e ∈ l.putLine ∨ e.inFlight = true) (hpe : l.putLine = [] → l'.putLine = [])
    (htl : ∀ e ∈ l'.takeLine, e ∈ l.takeLine ∨ e.inFlight = true) (hte : l.takeLine = [] → l'.takeLine = []) :
    l'.Law := by
  have hoc : l'.openCount = l.openCount := by simp [Lane.openCount, ho]
  refine ⟨?_, ?_, ?_, ?_, ?_, ?_, ?_⟩
  · rw [hp, ht, hr, hoc]; exact h.sequences
  · rw [hr, hoc]; exact h.limit
  · rw [hc, hr, hoc]; exact h.segments
  · rw [hc, hd]; exact h.quota
  · intro hcl
    have := h.closed (hs ▸ hcl)
    exact ⟨by rw [hr, hoc]; exact this.1, hpe this.2.1, hte this.2.2⟩
  · intro hdr e he
    exact (hpl e he).elim (h.draining (hs ▸ hdr) e) id
  · intro hbu
    have := h.busy (hb ▸ hbu)
    exact ⟨fun e he => (hpl e he).elim (this.1 e) id, fun e he => (htl e he).elim (this.2 e) id⟩

/-- A change that does not touch the lines either. -/
theorem Lane.Law.same {l l' : Lane} (h : l.Law) (hs : l'.state = l.state) (hb : l'.busy = l.busy)
    (hd : l'.desc = l.desc) (hc : l'.chain = l.chain) (hr : l'.ready = l.ready)
    (ho : l'.openParcel.isSome = l.openParcel.isSome) (hp : l'.putSeq = l.putSeq) (ht : l'.takeSeq = l.takeSeq)
    (hpl : l'.putLine = l.putLine) (htl : l'.takeLine = l.takeLine) : l'.Law :=
  h.change hs hb hd hc hr ho hp ht (fun _ he => .inl (hpl ▸ he)) (fun h => hpl ▸ h) (fun _ he => .inl (htl ▸ he))
    (fun h => htl ▸ h)

/-- A lane that holds nothing, whose lines are empty. -/
theorem Lane.Law.emptied {l : Lane} (hs : l.putSeq = l.takeSeq) (hr : l.ready = 0) (ho : l.openParcel = none)
    (hc : l.chain = []) (hp : l.putLine = []) (ht : l.takeLine = []) : l.Law := by
  have hoc : l.openCount = 0 := by simp [Lane.openCount, ho]
  refine ⟨?_, ?_, ?_, ?_, ?_, ?_, ?_⟩ <;> simp [hr, hoc, hc, hp, ht, hs]

theorem Lane.empty_law : Lane.empty.Law := Lane.Law.emptied rfl rfl rfl rfl rfl rfl

/-- A parcel has become ready (R13). -/
theorem Lane.Law.ready {l l' : Lane} (h : l.Law) (hop : l.openParcel.isSome = true) (hs : l'.state = l.state)
    (hb : l'.busy = l.busy) (hd : l'.desc = l.desc) (hc : l'.chain = l.chain) (hr : l'.ready = l.ready + 1)
    (ho : l'.openParcel = none) (hp : l'.putSeq = l.putSeq) (ht : l'.takeSeq = l.takeSeq)
    (hpl : l'.putLine = l.putLine) (htl : l'.takeLine = l.takeLine) : l'.Law := by
  have h1 : l.openCount = 1 := by simp [Lane.openCount, hop]
  have h0 : l'.openCount = 0 := by simp [Lane.openCount, ho]
  have hcount : l'.ready + l'.openCount = l.ready + l.openCount := by omega
  refine ⟨?_, ?_, ?_, ?_, ?_, ?_, ?_⟩
  · rw [hp, ht, hcount]; exact h.sequences
  · rw [hcount]; exact h.limit
  · rw [hc, hcount]; exact h.segments
  · rw [hc, hd]; exact h.quota
  · intro hcl
    have := h.closed (hs ▸ hcl)
    exact ⟨by rw [hcount]; exact this.1, hpl ▸ this.2.1, htl ▸ this.2.2⟩
  · intro hdr; rw [hpl]; exact h.draining (hs ▸ hdr)
  · intro hbu; rw [hpl, htl]; exact h.busy (hb ▸ hbu)

/-- The lane's state moves between OPEN, DRAINING and FAULTED, or to CLOSED when the lane holds nothing. -/
theorem Lane.Law.newState {l l' : Lane} (h : l.Law) (hb : l'.busy = l.busy)
    (hd : l'.desc = l.desc) (hc : l'.chain = l.chain) (hr : l'.ready = l.ready)
    (ho : l'.openParcel = l.openParcel) (hp : l'.putSeq = l.putSeq) (ht : l'.takeSeq = l.takeSeq)
    (hcl : l'.state = .closed → l.ready + l.openCount = 0 ∧ l'.putLine = [] ∧ l'.takeLine = [])
    (hdr : l'.state = .draining → ∀ e ∈ l'.putLine, e.inFlight = true)
    (hpl : ∀ e ∈ l'.putLine, e ∈ l.putLine) (htl : ∀ e ∈ l'.takeLine, e ∈ l.takeLine) : l'.Law := by
  have hoc : l'.openCount = l.openCount := by simp [Lane.openCount, ho]
  refine ⟨?_, ?_, ?_, ?_, ?_, hdr, ?_⟩
  · rw [hp, ht, hr, hoc]; exact h.sequences
  · rw [hr, hoc]; exact h.limit
  · rw [hc, hr, hoc]; exact h.segments
  · rw [hc, hd]; exact h.quota
  · intro hx; rw [hr, hoc]; exact hcl hx
  · intro hbu
    have := h.busy (hb ▸ hbu)
    exact ⟨fun e he => this.1 e (hpl e he), fun e he => this.2 e (htl e he)⟩

/-- Put bytes or a capture are placed: the chain grows by at most one segment, and a parcel is open (R10, R11, R12). -/
theorem Lane.Law.place {l l' : Lane} (h : l.Law) (segment : Option Nat) (hstate : l.state ≠ .closed)
    (hlimit : l.openParcel = none → l.ready < 65535) (hquota : segment.isSome → l.chain.length < l.desc.quota)
    (hroom : segment = none → l.chain ≠ []) (hs : l'.state = l.state) (hb : l'.busy = l.busy)
    (hd : l'.desc = l.desc) (hc : l'.chain = l.chain ++ segment.toList) (hr : l'.ready = l.ready)
    (ho : l'.openParcel.isSome = true)
    (hp : l'.putSeq = if l.openParcel.isNone then l.putSeq + 1 else l.putSeq) (ht : l'.takeSeq = l.takeSeq)
    (hpl : l'.putLine = l.putLine) (htl : l'.takeLine = l.takeLine) : l'.Law := by
  have h1 : l'.openCount = 1 := by simp [Lane.openCount, ho]
  refine ⟨?_, ?_, ?_, ?_, ?_, ?_, ?_⟩
  · rw [hp, ht, hr, h1, h.sequences]
    cases hop : l.openParcel with
    | none =>
      have : l.openCount = 0 := by simp [Lane.openCount, hop]
      simp only [this, Option.isNone_none, if_true]
      bv_omega
    | some p =>
      have : l.openCount = 1 := by simp [Lane.openCount, hop]
      simp [this]
  · rw [hr, h1]
    cases hop : l.openParcel with
    | none => have := hlimit hop; omega
    | some p =>
      have h2 : l.openCount = 1 := by simp [Lane.openCount, hop]
      have := h.limit
      omega
  · rw [hc, hr, h1]
    constructor
    · intro hnil
      cases segment with
      | none => exact absurd (by simpa using hnil) (hroom rfl)
      | some x => simp at hnil
    · intro hx; omega
  · rw [hc, hd]
    cases segment with
    | none => simpa using h.quota
    | some x => have := hquota rfl; simp; omega
  · intro hcl; exact absurd (hs ▸ hcl) hstate
  · intro hdr; rw [hpl]; exact h.draining (hs ▸ hdr)
  · intro hbu; rw [hpl, htl]; exact h.busy (hb ▸ hbu)

/-! ## The head parcel leaves -/

theorem Lane.moveHead_chain (l : Lane) (pos : Nat) : (l.moveHead pos).2 ++ (l.moveHead pos).1.chain = l.chain := by
  simp [Lane.moveHead]

/-- The head limit lies in the chain. -/
theorem Lane.headLimit_le (l : Lane) : l.headLimit ≤ l.chain.length - 1 := by
  unfold Lane.headLimit
  split <;> omega

/-- A position that is read lies in the chain (R38). -/
theorem segmentAt_mem {chain : List Nat} (h : chain ≠ []) (pos : Nat) : segmentAt chain pos ∈ chain := by
  have hlen : min (pos / 512) (chain.length - 1) < chain.length := by
    have := List.length_pos_iff.2 h
    omega
  simp only [segmentAt, List.getD_eq_getElem?_getD, List.getElem?_eq_getElem hlen, Option.getD_some]
  exact List.getElem_mem hlen

theorem Lane.moveHead_chain_nil (l : Lane) (pos : Nat) : (l.moveHead pos).1.chain = [] ↔ l.chain = [] := by
  constructor
  · intro h
    have h' : l.chain.length ≤ min (pos / 512) l.headLimit := List.drop_eq_nil_iff.1 h
    have := l.headLimit_le
    exact List.length_eq_zero_iff.1 (by omega)
  · intro h
    simp [Lane.moveHead, h]

/-- Dropping the head parcel keeps the laws. -/
theorem Lane.dropHead_law {l : Lane} (h : l.Law) (length : Nat) : (l.dropHead length).1.Law := by
  have hstate : ∀ l' : Lane, l'.state = l.state → l.ready ≠ 0 → l'.state ≠ .closed := by
    intro l' hs hr hcl
    have := (h.closed (hs ▸ hcl)).1
    omega
  have hchain : ∀ pos, ∀ l' : Lane, l'.chain = l.chain → (l'.moveHead pos).1.chain.length ≤ l.desc.quota := by
    intro pos l' hc
    have h1 := congrArg List.length (l'.moveHead_chain pos)
    have h2 := h.quota
    simp [hc] at h1
    omega
  unfold Lane.dropHead
  dsimp only
  split
  · exact h
  · rename_i hr ho
    have hoc : l.openCount = 0 := by simp [Lane.openCount, ho]
    have hs := h.sequences
    refine ⟨?_, ?_, ?_, ?_, ?_, h.draining, h.busy⟩
    · simp only [Lane.rearm, Lane.openCount, hr, ho] at hs ⊢
      simpa using hs
    · simp [Lane.rearm, Lane.openCount, hr, ho]
    · simp [Lane.rearm, Lane.openCount, hr, ho]
    · simp
    · intro hcl; exact absurd hcl (hstate _ rfl (by omega))
  · rename_i p hr ho
    have hoc : l.openCount = 1 := by simp [Lane.openCount, ho]
    have hs := h.sequences
    refine ⟨?_, ?_, ?_, ?_, ?_, h.draining, h.busy⟩
    · simp only [Lane.rearm, Lane.openCount, hr, ho, Lane.moveHead] at hs ⊢
      rw [hs]
      simp
      bv_omega
    · simp [Lane.rearm, Lane.openCount, hr, ho, Lane.moveHead]
    · rw [Lane.moveHead_chain_nil]
      have := h.segments
      simp [Lane.rearm, Lane.openCount, hr, ho, Lane.moveHead] at this ⊢
      exact this
    · exact hchain _ _ rfl
    · intro hcl; exact absurd hcl (hstate _ rfl (by omega))
  · rename_i o k hr
    have hs := h.sequences
    have hl := h.limit
    refine ⟨?_, ?_, ?_, ?_, ?_, h.draining, h.busy⟩
    · simp only [Lane.rearm, Lane.openCount, hr, Lane.moveHead] at hs ⊢
      rw [hs]
      have : k + 2 - 1 + (if l.openParcel.isSome = true then 1 else 0)
          = (k + 2 + (if l.openParcel.isSome = true then 1 else 0)) - 1 := by omega
      rw [this]
      generalize hg : k + 2 + (if l.openParcel.isSome = true then 1 else 0) = m
      have hm : 1 ≤ m := by omega
      obtain ⟨j, rfl⟩ : ∃ j, m = j + 1 := ⟨m - 1, by omega⟩
      simp
      bv_omega
    · simp only [Lane.rearm, Lane.openCount, hr, Lane.moveHead] at hl ⊢
      omega
    · rw [Lane.moveHead_chain_nil]
      have := h.segments
      simp [Lane.rearm, Lane.openCount, hr, Lane.moveHead] at this ⊢
      exact this
    · exact hchain _ _ rfl
    · intro hcl; exact absurd hcl (hstate _ rfl (by omega))

/-- The segments removed are the front of the chain. -/
theorem Lane.dropHead_chain (l : Lane) (length : Nat) :
    (l.dropHead length).2 ++ (l.dropHead length).1.chain = l.chain := by
  unfold Lane.dropHead
  dsimp only
  split
  · simp
  · simp
  · exact Lane.moveHead_chain _ _
  · exact Lane.moveHead_chain _ _

/-- Dropping the head parcel leaves the rest of the context alone. -/
theorem Lane.dropHead_frame (l : Lane) (length : Nat) :
    (l.dropHead length).1.state = l.state ∧ (l.dropHead length).1.busy = l.busy ∧
      (l.dropHead length).1.desc = l.desc ∧ (l.dropHead length).1.openParcel = l.openParcel ∧
      (l.dropHead length).1.putSeq = l.putSeq ∧ (l.dropHead length).1.putLine = l.putLine ∧
      (l.dropHead length).1.takeLine = l.takeLine := by
  unfold Lane.dropHead
  dsimp only
  split <;> simp [Lane.rearm, Lane.moveHead]

/-! ## Eviction -/

theorem evictOne_law {acc : Lane × List Nat} (h : acc.1.Law) (x : Scanned) : (evictOne acc x).1.Law :=
  (Lane.dropHead_law h x.header.length.toNat).same rfl rfl rfl rfl rfl rfl rfl rfl rfl rfl

/-- Evicting keeps the laws, and every segment is kept or freed. -/
theorem evictAll_law (list : List Scanned) :
    ∀ acc : Lane × List Nat, acc.1.Law → (list.foldl evictOne acc).1.Law := by
  induction list with
  | nil => exact fun _ h => h
  | cons x xs ih => exact fun acc h => ih _ (evictOne_law h x)

theorem evictAll_chain (list : List Scanned) :
    ∀ acc : Lane × List Nat, (list.foldl evictOne acc).2 ++ (list.foldl evictOne acc).1.chain
      = acc.2 ++ acc.1.chain := by
  induction list with
  | nil => exact fun _ => rfl
  | cons x xs ih =>
    intro acc
    rw [List.foldl_cons, ih]
    show (acc.2 ++ (acc.1.dropHead x.header.length.toNat).2) ++ (acc.1.dropHead x.header.length.toNat).1.chain = _
    rw [List.append_assoc, Lane.dropHead_chain]

theorem evictAll_frame (list : List Scanned) :
    ∀ acc : Lane × List Nat, (list.foldl evictOne acc).1.state = acc.1.state ∧
      (list.foldl evictOne acc).1.busy = acc.1.busy ∧ (list.foldl evictOne acc).1.desc = acc.1.desc ∧
      (list.foldl evictOne acc).1.openParcel = acc.1.openParcel ∧
      (list.foldl evictOne acc).1.putSeq = acc.1.putSeq ∧
      (list.foldl evictOne acc).1.putLine = acc.1.putLine ∧ (list.foldl evictOne acc).1.takeLine = acc.1.takeLine := by
  induction list with
  | nil => simp
  | cons x xs ih =>
    intro acc
    obtain ⟨a, b, c, d, e, f, g⟩ := ih (evictOne acc x)
    obtain ⟨a', b', c', d', e', f', g'⟩ := acc.1.dropHead_frame x.header.length.toNat
    exact ⟨a.trans a', b.trans b', c.trans c', d.trans d', e.trans e', f.trans f', g.trans g'⟩

/-! ## A capture is withdrawn (R13) -/

theorem Lane.withdraw_law {l : Lane} (h : l.Law) (linked : Bool) : (l.withdraw linked).1.Law := by
  unfold Lane.withdraw
  split
  · exact h
  · rename_i p ho
    have hoc : l.openCount = 1 := by simp [Lane.openCount, ho]
    have hcl : l.state ≠ .closed := by
      intro hx
      have := (h.closed hx).1
      omega
    have hseq : l.putSeq - 1 = l.takeSeq + BitVec.ofNat 16 l.ready := by
      rw [h.sequences, hoc]
      bv_omega
    have hlim := h.limit
    have hquota := h.quota
    have hchain : l.chain ≠ [] := fun hx => by
      have := h.segments.1 hx
      omega
    have hpos : 0 < l.chain.length := List.length_pos_iff.2 hchain
    dsimp only
    split
    · rename_i hr
      refine ⟨?_, ?_, ?_, ?_, fun hx => absurd hx hcl, h.draining, h.busy⟩
      · simpa [Lane.openCount, hr] using hseq
      · simp [Lane.openCount, hr]
      · simp [Lane.openCount, hr]
      · simp
    · rename_i hr
      split
      · rename_i hlink
        simp at hlink
        refine ⟨?_, ?_, ?_, ?_, fun hx => absurd hx hcl, h.draining, h.busy⟩
        · simpa [Lane.openCount] using hseq
        · simp [Lane.openCount]; omega
        · simp [Lane.openCount, hr, hchain]; omega
        · simp; omega
      · refine ⟨?_, ?_, ?_, ?_, fun hx => absurd hx hcl, h.draining, h.busy⟩
        · simpa [Lane.openCount] using hseq
        · simp [Lane.openCount]; omega
        · simp [Lane.openCount, hr, hchain]
        · exact hquota

theorem Lane.withdraw_chain (l : Lane) (linked : Bool) :
    (l.withdraw linked).1.chain ++ (l.withdraw linked).2 = l.chain := by
  unfold Lane.withdraw
  split
  · simp
  · dsimp only
    split
    · simp
    · split <;> simp

theorem Lane.withdraw_state (l : Lane) (linked : Bool) : (l.withdraw linked).1.state = l.state := by
  unfold Lane.withdraw
  split
  · rfl
  · dsimp only
    split
    · rfl
    · split <;> rfl

end Sys2Proof.Machine
end

