-- ==== Sys2Proof/Laws/Notices.lean ====
section
/-!
SUPPORT. The notice writer: every operation keeps its law, and what the operations leave alone.
-/
namespace Sys2Proof.Machine

theorem NoticeWriter.Law.congr {w v : NoticeWriter} (h : w.Law) (hp : v.producer = w.producer)
    (hc : v.consumer = w.consumer) (he : v.entries = w.entries) (hw : v.write = w.write) (hn : v.enable = w.enable)
    (hi : v.intN = w.intN) (hl : v.waiting.length ≤ 8) : v.Law := by
  have hu : v.unconsumed = w.unconsumed := by simp [NoticeWriter.unconsumed, hp, hc]
  refine ⟨?_, ?_, ?_, ?_, hl⟩
  · rw [hu, he]; exact h.bound
  · rw [he]; exact h.ring
  · intro x hx hs; rw [hu, he]; exact h.room x (hw ▸ hx) hs
  · rw [hi, hn, hp, hc]; exact h.intN

/-- A notice write chosen while the ring is not full keeps the law. -/
theorem NoticeWriter.Law.writing {w : NoticeWriter} (h : w.Law) (hf : w.full = false) (ns : List Notice)
    (x : NoticeWrite) (hl : ns.length ≤ 8) : NoticeWriter.Law { w with waiting := ns, write := some x } := by
  have hne : w.unconsumed ≠ w.entries := by simpa [NoticeWriter.full] using hf
  have hb := h.bound
  refine ⟨h.bound, h.ring, fun _ _ _ => ?_, h.intN, hl⟩
  show w.unconsumed < w.entries
  omega

/-- The choice of R140 keeps the law. -/
theorem NoticeWriter.choose_law (ns : List Notice) :
    ∀ w : NoticeWriter, w.Law → ns.length ≤ 8 → (w.choose ns).1.Law := by
  induction ns with
  | nil =>
    intro w h _
    unfold NoticeWriter.choose
    split
    · rename_i hr
      exact h.writing (by simp [NoticeWriter.reportsLoss] at hr; exact hr.2) [] _ (by simp)
    · exact h.congr rfl rfl rfl rfl rfl rfl (by simp)
  | cons n rest ih =>
    intro w h hl
    unfold NoticeWriter.choose
    split
    · rename_i hr
      exact h.writing (by simp [NoticeWriter.reportsLoss] at hr; exact hr.2) _ _ hl
    · split
      · exact ih _ (h.congr rfl rfl rfl rfl rfl rfl h.waiting) (by simp at hl; omega)
      · rename_i hf
        exact h.writing (by simpa using hf) _ _ hl

/-- Driving INT_N is what the law asks of it. -/
theorem NoticeWriter.driveIntN_law {w : NoticeWriter} (hb : w.unconsumed ≤ w.entries) (hr : w.entries ≤ 4096)
    (hw : ∀ x, w.write = some x → x.stale = false → w.unconsumed < w.entries) (hl : w.waiting.length ≤ 8) :
    w.driveIntN.Law :=
  ⟨hb, hr, hw, rfl, hl⟩

theorem State.chooseNotice_law {s : State} (h : s.notice.Law) : s.chooseNotice.notice.Law := by
  unfold State.chooseNotice
  split
  · exact h
  · exact NoticeWriter.choose_law _ _ h h.waiting

theorem State.produce_law {s : State} (n : Notice) (h : s.notice.Law) : (s.produce n).notice.Law := by
  unfold State.produce
  split
  · exact h
  · split
    · exact h.congr rfl rfl rfl rfl rfl rfl h.waiting
    · rename_i hc
      refine State.chooseNotice_law (h.congr rfl rfl rfl rfl rfl rfl ?_)
      have hlt : s.notice.waiting.length < 8 := by
        by_contra hge
        exact hc (by simp [Config.waitingNotices, Nat.le_of_not_lt hge])
      simpa using hlt

/-- The producer index advances by one only while the ring is not full (R144). -/
theorem NoticeWriter.unconsumed_succ {w : NoticeWriter} (h : w.unconsumed < w.entries) (hr : w.entries ≤ 4096) :
    ((w.producer + 1) - w.consumer).toNat = w.unconsumed + 1 := by
  have : (w.producer + 1) - w.consumer = (w.producer - w.consumer) + 1 := by bv_omega
  have h1 : w.unconsumed < 4096 := by omega
  simp only [NoticeWriter.unconsumed] at h1 ⊢
  rw [this, BitVec.toNat_add]
  generalize (w.producer - w.consumer).toNat = k at h1 ⊢
  show (k + 1) % 2 ^ 16 = k + 1
  omega

theorem State.noticeRequestEnded_law {s : State} (ok : Bool) (h : s.notice.Law) :
    (s.noticeRequestEnded ok).notice.Law := by
  unfold State.noticeRequestEnded
  split
  · exact h
  · rename_i w hw
    dsimp only
    split
    · unfold State.noticeWriteDone
      have hnone : NoticeWriter.Law { s.notice with write := none } :=
        ⟨h.bound, h.ring, (by intro _ hx; cases hx), h.intN, h.waiting⟩
      dsimp only
      split
      · exact State.chooseNotice_law hnone
      · rename_i hs
        have hlen : (if w.carried.isSome then s.notice.waiting else s.notice.waiting.tail).length ≤ 8 := by
          have := h.waiting
          split
          · exact this
          · simp; omega
        split
        · exact State.chooseNotice_law (hnone.congr rfl rfl rfl rfl rfl rfl hlen)
        · have hroom := h.room w hw (by simpa using hs)
          refine State.chooseNotice_law (NoticeWriter.driveIntN_law ?_ h.ring (by intro _ hx; cases hx) hlen)
          show ((s.notice.producer + 1) - s.notice.consumer).toNat ≤ s.notice.entries
          rw [NoticeWriter.unconsumed_succ hroom h.ring]
          omega
    · refine ⟨h.bound, h.ring, ?_, h.intN, h.waiting⟩
      intro x hx hs
      cases hx
      exact h.room w hw hs

theorem State.consumerWrite_law {s : State} (v : Quad) (h : s.notice.Law) : (s.consumerWrite v).notice.Law := by
  unfold State.consumerWrite
  dsimp only
  split
  · rename_i hv
    split
    · exact h
    · have hle : (s.notice.producer - v.setWidth 16).toNat ≤ s.notice.unconsumed := by
        simp only [NoticeWriter.unconsumed]
        generalize v.setWidth 16 = x at hv ⊢
        bv_omega
      refine State.chooseNotice_law (NoticeWriter.driveIntN_law ?_ h.ring ?_ h.waiting)
      · exact Nat.le_trans hle h.bound
      · intro x hx hs
        exact Nat.lt_of_le_of_lt hle (h.room x hx hs)
  · exact h.congr rfl rfl rfl rfl rfl rfl h.waiting

end Sys2Proof.Machine
end

