-- ==== Sys2Proof/Laws/Lawful.lean ====
section
/-!
SUPPORT. The laws of the device and the updates that every operation is made of: what each update asks for to keep
them, and the operations of Machine/Ops.lean and Machine/LaneOps.lean.
-/
namespace Sys2Proof.Machine

/-! ## Updates -/

/-- The laws look at seven fields. -/
theorem State.LawfulWith.congr {s t : State} {hand : List Nat} (hs : s.LawfulWith hand) (hn : t.notice = s.notice)
    (hh : t.hold.held = s.hold.held) (ho : t.port.outstanding = s.port.outstanding) (hl : t.lanes = s.lanes)
    (hc : t.cmd = s.cmd) (hp : t.pool = s.pool) (hr : t.rst = s.rst) : t.LawfulWith hand := by
  have hlane : ∀ n, t.lane n = s.lane n := State.lane_congr hl
  refine ⟨hn ▸ hs.notice, ⟨hh ▸ hs.hold.size, hh ▸ hs.hold.lines⟩, ho ▸ hs.port, fun n => hlane n ▸ hs.lanes n, ?_,
    ?_⟩
  · have h := hs.command
    refine ⟨?_, ?_, ?_, ?_, ?_⟩
    · rw [hc]; exact h.idle
    · rw [hc]; exact h.auto
    · rw [hc]; simpa only [hlane] using h.loading
    · rw [hc]; simpa only [hlane] using h.reading
    · rw [hr]; simpa only [State.allClosed, hlane] using h.inReset
  · have h := hs.pool
    refine ⟨?_, ?_, ?_⟩
    · rw [hp, State.chains, hl]; exact h.places
    · rw [hp]; exact h.minFree
    · rw [hp]; exact h.armed

/-- The notice writer changes, and keeps its law. -/
theorem State.LawfulWith.notice_of {s t : State} {hand : List Nat} (hs : s.LawfulWith hand) (hn : t.notice.Law)
    (hh : t.hold.held = s.hold.held) (ho : t.port.outstanding = s.port.outstanding) (hl : t.lanes = s.lanes)
    (hc : t.cmd = s.cmd) (hp : t.pool = s.pool) (hr : t.rst = s.rst) : t.LawfulWith hand := by
  have h : State.LawfulWith { t with notice := s.notice } hand := hs.congr rfl hh ho hl hc hp hr
  exact ⟨hn, h.hold, h.port, h.lanes, ⟨h.command.idle, h.command.auto, h.command.loading, h.command.reading,
    h.command.inReset⟩, ⟨h.pool.places, h.pool.minFree, h.pool.armed⟩⟩

/-- The held table changes, and keeps its law. -/
theorem State.LawfulWith.held_of {s : State} {hand : List Nat} (hs : s.LawfulWith hand) (u : HoldUnit) (hu : u.Law) :
    State.LawfulWith { s with hold := u } hand :=
  ⟨hs.notice, hu, hs.port, hs.lanes, ⟨hs.command.idle, hs.command.auto, hs.command.loading, hs.command.reading,
    hs.command.inReset⟩, ⟨hs.pool.places, hs.pool.minFree, hs.pool.armed⟩⟩

/-- The outstanding list changes, and keeps its size. -/
theorem State.LawfulWith.port_of {s : State} {hand : List Nat} (hs : s.LawfulWith hand) (p : MemoryPort)
    (hp : p.outstanding.length ≤ 8) : State.LawfulWith { s with port := p } hand :=
  ⟨hs.notice, hs.hold, hp, hs.lanes, ⟨hs.command.idle, hs.command.auto, hs.command.loading, hs.command.reading,
    hs.command.inReset⟩, ⟨hs.pool.places, hs.pool.minFree, hs.pool.armed⟩⟩

/-- The command unit changes, and keeps its law. -/
theorem State.LawfulWith.cmd_of {s : State} {hand : List Nat} (hs : s.LawfulWith hand) (c : CommandUnit)
    (hc : State.CommandLaw { s with cmd := c }) : State.LawfulWith { s with cmd := c } hand :=
  ⟨hs.notice, hs.hold, hs.port, hs.lanes, hc, ⟨hs.pool.places, hs.pool.minFree, hs.pool.armed⟩⟩

theorem State.chains_setLane (s : State) (n : LaneNo) (l : Lane) (a : Nat) :
    (s.setLane n l).chains.count a + (s.lane n).chain.count a = s.chains.count a + l.chain.count a := by
  have hlen : n.val < s.lanes.toList.length := by simp
  have hset : (s.setLane n l).lanes.toList = s.lanes.toList.set n.val l := by
    simp [Vector.toList_set]
  have hget : s.lane n = s.lanes.toList[n.val] := by simp [State.lane]
  have hsplit : s.lanes.toList
      = s.lanes.toList.take n.val ++ s.lanes.toList[n.val] :: s.lanes.toList.drop (n.val + 1) := by
    rw [List.getElem_cons_drop, List.take_append_drop]
  rw [State.chains, State.chains, hset, hget, List.set_eq_take_append_cons_drop, if_pos hlen]
  conv_rhs => rw [hsplit]
  simp only [List.map_append, List.map_cons, List.flatten_append, List.flatten_cons, List.count_append]
  omega

/-- A lane context changes and keeps its laws; the segments it gives up or gains go to or come from the hand. -/
theorem State.LawfulWith.setLane {s : State} {hand hand' : List Nat} (hs : s.LawfulWith hand) (n : LaneNo) (l : Lane)
    (hl : l.Law) (hst : (s.lane n).state = .closed → l.state = .closed)
    (hp : ((s.lane n).chain ++ hand).Perm (l.chain ++ hand')) : (s.setLane n l).LawfulWith hand' := by
  have hclosed : ∀ m, (s.lane m).state = .closed → ((s.setLane n l).lane m).state = .closed := by
    intro m hm
    by_cases h : m = n
    · subst h; simpa using hst hm
    · simpa [h] using hm
  have h := hs.command
  refine ⟨hs.notice, hs.hold, hs.port, ?_, ⟨h.idle, h.auto, ?_, ?_, ?_⟩, ⟨?_, hs.pool.minFree, hs.pool.armed⟩⟩
  · intro m
    by_cases h : m = n
    · subst h; simpa using hl
    · simpa [h] using hs.lanes m
  · exact fun step hstep m hm => hclosed m (h.loading step hstep m hm)
  · exact fun ha hr k hk m hm => hclosed m (h.reading ha hr k hk m hm)
  · exact fun hr m => hclosed m (h.inReset hr m)
  · have hplaces := hs.pool.places
    rw [List.perm_iff_count] at hplaces hp ⊢
    intro a
    have h1 := hplaces a
    have h2 := hp a
    have h3 := s.chains_setLane n l a
    simp only [List.count_append, State.setLane_pool] at h1 h2 h3 ⊢
    omega

/-- A lane context changes, with its chain as it was. -/
theorem State.LawfulWith.setLane_same {s : State} {hand : List Nat} (hs : s.LawfulWith hand) (n : LaneNo) (l : Lane)
    (hl : l.Law) (hst : (s.lane n).state = .closed → l.state = .closed) (hc : l.chain = (s.lane n).chain) :
    (s.setLane n l).LawfulWith hand :=
  hs.setLane n l hl hst (hc ▸ List.Perm.refl _)

/-- A part of a lane context that no law looks at changes. -/
theorem State.LawfulWith.updLane {s : State} {hand : List Nat} (hs : s.LawfulWith hand) (n : LaneNo)
    (f : Lane → Lane) (hf : ∀ l : Lane, l.Law → (f l).Law ∧ (l.state = .closed → (f l).state = .closed) ∧
      (f l).chain = l.chain) : (s.updLane n f).LawfulWith hand :=
  have h := hf _ (hs.lanes n)
  hs.setLane_same n _ h.1 h.2.1 h.2.2

/-! ## Answers, requests, notices -/

variable {s : State} {hand : List Nat}

theorem State.LawfulWith.schedule (hs : s.LawfulWith hand) (ts : List Task) : (s.schedule ts).LawfulWith hand :=
  hs.congr rfl rfl rfl rfl rfl rfl rfl

theorem State.LawfulWith.answer (hs : s.LawfulWith hand) (tag : Tag) (error : Bool) (data : Word) :
    (s.answer tag error data).LawfulWith hand :=
  hs.congr rfl rfl rfl rfl rfl rfl rfl

theorem State.LawfulWith.answerError (hs : s.LawfulWith hand) (t : Transaction) :
    (s.answerError t).LawfulWith hand := hs.answer _ _ _

theorem State.LawfulWith.answerOk (hs : s.LawfulWith hand) (t : Transaction) (data : Word) :
    (s.answerOk t data).LawfulWith hand := by
  unfold State.answerOk; split <;> exact hs.answer _ _ _

theorem State.LawfulWith.answerOutcome (hs : s.LawfulWith hand) (t : Transaction) (o : MemOutcome) :
    (s.answerOutcome t o).LawfulWith hand := by
  unfold State.answerOutcome
  split
  · exact hs.answerOk _ _
  · exact hs.answerError _
  · exact hs.answerError _

theorem State.LawfulWith.request (hs : s.LawfulWith hand) (r : MemRequest) : (s.request r).LawfulWith hand :=
  hs.congr rfl rfl rfl rfl rfl rfl rfl

theorem State.LawfulWith.requestAll (hs : s.LawfulWith hand) (rs : List MemRequest) :
    (s.requestAll rs).LawfulWith hand :=
  hs.congr rfl rfl rfl rfl rfl rfl rfl

theorem State.LawfulWith.commandRequests (hs : s.LawfulWith hand) (rs : List MemRequest) :
    (s.commandRequests rs).LawfulWith hand :=
  hs.congr rfl rfl rfl rfl rfl rfl rfl

theorem State.LawfulWith.countFailure (hs : s.LawfulWith hand) (o : MemOutcome) :
    (s.countFailure o).LawfulWith hand := by
  unfold State.countFailure; split
  · exact hs.congr rfl rfl rfl rfl rfl rfl rfl
  · exact hs

/-- Choosing the next notice write changes the notice writer and its queue at the memory port, and nothing else. -/
theorem State.chooseNotice_frame (s : State) : s.chooseNotice.hold = s.hold ∧
    s.chooseNotice.port.outstanding = s.port.outstanding ∧ s.chooseNotice.lanes = s.lanes ∧
    s.chooseNotice.cmd = s.cmd ∧ s.chooseNotice.pool = s.pool ∧ s.chooseNotice.rst = s.rst ∧
    s.chooseNotice.todo = s.todo ∧ s.chooseNotice.sys = s.sys ∧ s.chooseNotice.dec = s.dec ∧
    s.chooseNotice.status = s.status ∧ s.chooseNotice.pending = s.pending ∧ s.chooseNotice.autold = s.autold ∧
    s.chooseNotice.choices = s.choices ∧ s.chooseNotice.port.systemQ = s.port.systemQ ∧
    s.chooseNotice.port.commandQ = s.port.commandQ ∧ s.chooseNotice.port.statusQ = s.port.statusQ := by
  unfold State.chooseNotice; split <;> simp

/-- Producing a notice changes the notice writer and its queue at the memory port, and nothing else (R138). -/
theorem State.produce_frame (s : State) (n : Notice) : (s.produce n).hold = s.hold ∧
    (s.produce n).port.outstanding = s.port.outstanding ∧ (s.produce n).lanes = s.lanes ∧
    (s.produce n).cmd = s.cmd ∧ (s.produce n).pool = s.pool ∧ (s.produce n).rst = s.rst ∧
    (s.produce n).todo = s.todo ∧ (s.produce n).sys = s.sys ∧ (s.produce n).dec = s.dec ∧
    (s.produce n).status = s.status ∧ (s.produce n).pending = s.pending ∧ (s.produce n).autold = s.autold ∧
    (s.produce n).choices = s.choices ∧ (s.produce n).port.systemQ = s.port.systemQ ∧
    (s.produce n).port.commandQ = s.port.commandQ ∧ (s.produce n).port.statusQ = s.port.statusQ := by
  unfold State.produce
  split
  · simp
  · split
    · simp
    · exact State.chooseNotice_frame _

theorem State.LawfulWith.chooseNotice (hs : s.LawfulWith hand) : s.chooseNotice.LawfulWith hand := by
  have h := s.chooseNotice_frame
  exact hs.notice_of (State.chooseNotice_law hs.notice) (by rw [h.1]) h.2.1 h.2.2.1 h.2.2.2.1 h.2.2.2.2.1 h.2.2.2.2.2.1

theorem State.LawfulWith.produce (hs : s.LawfulWith hand) (n : Notice) : (s.produce n).LawfulWith hand := by
  have h := s.produce_frame n
  exact hs.notice_of (State.produce_law n hs.notice) (by rw [h.1]) h.2.1 h.2.2.1 h.2.2.2.1 h.2.2.2.2.1 h.2.2.2.2.2.1

@[simp] theorem State.produce_lane (s : State) (n : Notice) (m : LaneNo) : (s.produce n).lane m = s.lane m :=
  State.lane_congr (s.produce_frame n).2.2.1 m

@[simp] theorem State.produce_pool (s : State) (n : Notice) : (s.produce n).pool = s.pool :=
  (s.produce_frame n).2.2.2.2.1

@[simp] theorem State.produce_hold (s : State) (n : Notice) : (s.produce n).hold = s.hold := (s.produce_frame n).1

@[simp] theorem State.produce_cmd (s : State) (n : Notice) : (s.produce n).cmd = s.cmd :=
  (s.produce_frame n).2.2.2.1

@[simp] theorem State.produce_rst (s : State) (n : Notice) : (s.produce n).rst = s.rst :=
  (s.produce_frame n).2.2.2.2.2.1

@[simp] theorem State.produce_todo (s : State) (n : Notice) : (s.produce n).todo = s.todo :=
  (s.produce_frame n).2.2.2.2.2.2.1

@[simp] theorem State.produce_sys (s : State) (n : Notice) : (s.produce n).sys = s.sys :=
  (s.produce_frame n).2.2.2.2.2.2.2.1

@[simp] theorem State.produce_dec (s : State) (n : Notice) : (s.produce n).dec = s.dec :=
  (s.produce_frame n).2.2.2.2.2.2.2.2.1

@[simp] theorem State.produce_status (s : State) (n : Notice) : (s.produce n).status = s.status :=
  (s.produce_frame n).2.2.2.2.2.2.2.2.2.1

@[simp] theorem State.produce_pending (s : State) (n : Notice) : (s.produce n).pending = s.pending :=
  (s.produce_frame n).2.2.2.2.2.2.2.2.2.2.1

@[simp] theorem State.produce_autold (s : State) (n : Notice) : (s.produce n).autold = s.autold :=
  (s.produce_frame n).2.2.2.2.2.2.2.2.2.2.2.1

@[simp] theorem State.produce_choices (s : State) (n : Notice) : (s.produce n).choices = s.choices :=
  (s.produce_frame n).2.2.2.2.2.2.2.2.2.2.2.2.1

@[simp] theorem State.produce_lanes (s : State) (n : Notice) : (s.produce n).lanes = s.lanes :=
  (s.produce_frame n).2.2.1

@[simp] theorem State.produce_systemQ (s : State) (n : Notice) : (s.produce n).port.systemQ = s.port.systemQ :=
  (s.produce_frame n).2.2.2.2.2.2.2.2.2.2.2.2.2.1

@[simp] theorem State.produce_commandQ (s : State) (n : Notice) : (s.produce n).port.commandQ = s.port.commandQ :=
  (s.produce_frame n).2.2.2.2.2.2.2.2.2.2.2.2.2.2.1

@[simp] theorem State.produce_outstanding (s : State) (n : Notice) :
    (s.produce n).port.outstanding = s.port.outstanding := (s.produce_frame n).2.1

@[simp] theorem State.produce_heldOf (s : State) (n : Notice) (m : LaneNo) (line : Line) :
    (s.produce n).heldOf m line = s.heldOf m line := by simp [State.heldOf]

theorem State.LawfulWith.laneRefuse (hs : s.LawfulWith hand) (n : LaneNo) (entry : Fin 23) (t : Transaction)
    (reason : Byte) : (s.laneRefuse n entry t reason).LawfulWith hand := by
  unfold State.laneRefuse
  exact ((hs.answerError t).updLane n (fun l => { l with refusals := satInc l.refusals }) fun l hl =>
    ⟨hl.same rfl rfl rfl rfl rfl rfl rfl rfl rfl rfl, fun h => h, rfl⟩).produce _

/-! ## The held table -/

theorem State.LawfulWith.unhold (hs : s.LawfulWith hand) (n : LaneNo) (line : Line) :
    (s.unhold n line).LawfulWith hand := by
  refine hs.held_of _ ⟨?_, ?_⟩
  · exact Nat.le_trans (List.length_filter_le _ _) hs.hold.size
  · exact hs.hold.lines.sublist (List.Sublist.map _ List.filter_sublist)

theorem State.LawfulWith.recordHeld (hs : s.LawfulWith hand) (n : LaneNo) (line : Line) (tag : Tag) (kind : WaitKind)
    (hnew : (s.heldOf n line).isSome = false) (hroom : s.hold.held.length < Config.heldEntries) :
    (s.recordHeld n line tag kind).LawfulWith hand := by
  refine hs.held_of _ ⟨?_, ?_⟩
  · simp [Config.heldEntries] at hroom ⊢; omega
  · simp only [List.map_append, List.nodup_append, List.map_cons, List.map_nil]
    refine ⟨hs.hold.lines, by simp, ?_⟩
    intro a ha b hb hab
    simp only [List.mem_singleton] at hb
    subst hb
    obtain ⟨e, he, rfl⟩ := List.mem_map.1 ha
    simp only [State.heldOf, Option.isSome_eq_false_iff, Option.isNone_iff_eq_none, List.find?_eq_none] at hnew
    have h1 : e.lane = n ∧ e.line = line := by simpa [HeldEntry.key] using hab
    exact hnew e he (by simp [h1.1, h1.2])

theorem State.LawfulWith.setWaitKind (hs : s.LawfulWith hand) (n : LaneNo) (line : Line) (kind : WaitKind) :
    (s.setWaitKind n line kind).LawfulWith hand := by
  refine hs.held_of _ ⟨?_, ?_⟩
  · simpa using hs.hold.size
  · have : (List.map (fun e : HeldEntry => if e.lane == n && e.line == line then { e with kind := kind } else e)
        s.hold.held).map HeldEntry.key = s.hold.held.map HeldEntry.key := by
      rw [List.map_map]
      refine List.map_congr_left fun e _ => ?_
      simp only [Function.comp]
      split <;> rfl
    show (List.map HeldEntry.key (List.map _ _)).Nodup
    rw [this]
    exact hs.hold.lines

theorem State.LawfulWith.wake (hs : s.LawfulWith hand) (p : HeldEntry → Bool) : (s.wake p).LawfulWith hand := by
  unfold State.wake
  dsimp only
  split
  · exact hs
  · exact hs.congr rfl rfl rfl rfl rfl rfl rfl

theorem State.LawfulWith.waiterLeft (hs : s.LawfulWith hand) : s.waiterLeft.LawfulWith hand := hs.wake _

theorem State.LawfulWith.dropHeld (hs : s.LawfulWith hand) (n : LaneNo) (line : Line) :
    (s.dropHeld n line).LawfulWith hand := by
  unfold State.dropHeld
  split
  · exact hs
  · split
    · exact (hs.unhold n line).waiterLeft
    · exact hs.unhold n line

/-! ## The pool -/

/-- Segments in hand are pushed (R26, R28). -/
theorem State.LawfulWith.pushSegments {segs : List Nat} (hs : s.LawfulWith (segs ++ hand)) :
    (s.pushSegments segs).LawfulWith hand := by
  have h := hs.command
  have hp := hs.pool
  refine ⟨hs.notice, hs.hold, hs.port, hs.lanes, ⟨h.idle, h.auto, h.loading, h.reading, h.inReset⟩, ⟨?_, ?_, ?_⟩⟩
  · have := hp.places
    rw [List.perm_iff_count] at this ⊢
    intro a
    have := this a
    simp only [State.pushSegments, State.chains, List.count_append, List.count_reverse] at this ⊢
    omega
  · have := hp.minFree
    simp only [State.pushSegments, Pool.freeCount, List.length_append, List.length_reverse] at this ⊢
    omega
  · intro hc hw
    simp only [State.pushSegments, Pool.freeCount, List.length_append, List.length_reverse] at hw ⊢
    cases hsegs : segs with
    | nil =>
      have := hp.armed hc (by simpa [hsegs, Pool.freeCount] using hw)
      simp [this]
    | cons x xs => simp [hsegs] at hw ⊢; omega

theorem State.LawfulWith.returnSegments {segs : List Nat} (hs : s.LawfulWith (segs ++ hand))
    (also : HeldEntry → Bool) : (s.returnSegments segs also).LawfulWith hand :=
  hs.pushSegments.wake _

/-- The top segment is popped into the hand (R26, R27). -/
theorem State.LawfulWith.popSegment (hs : s.LawfulWith hand) (master : Byte) :
    (s.popSegment master).LawfulWith (s.topSegment.toList ++ hand) := by
  have key : State.LawfulWith { s with pool := { s.pool with
      freeList := s.pool.freeList.tail
      minFree := min s.pool.minFree s.pool.freeList.tail.length
      armed := s.pool.armed && !(s.pool.watermark ≤ s.pool.freeCount && s.pool.freeList.tail.length <
        s.pool.watermark) } } (s.topSegment.toList ++ hand) := by
    have h := hs.command
    have hp := hs.pool
    refine ⟨hs.notice, hs.hold, hs.port, hs.lanes, ⟨h.idle, h.auto, h.loading, h.reading, h.inReset⟩, ⟨?_, ?_, ?_⟩⟩
    · have := hp.places
      rw [List.perm_iff_count] at this ⊢
      intro a
      have := this a
      cases hf : s.pool.freeList with
      | nil => simpa [State.topSegment, State.chains, hf] using this
      | cons x xs =>
        simp only [hf, List.count_append, List.count_cons, State.topSegment, State.chains, List.head?_cons,
          Option.toList_some, List.tail_cons, List.count_nil] at this ⊢
        omega
    · have := hp.minFree
      simp only [Pool.freeCount]
      omega
    · intro hc hw
      have h1 := hp.armed hc
      simp only [Pool.freeCount] at hw h1 ⊢
      have h2 : s.pool.freeList.tail.length ≤ s.pool.freeList.length := by simp
      rw [h1 (by omega)]
      simp
      exact Or.inr (by simpa using hw)
  unfold State.popSegment
  dsimp only
  split
  · exact key.produce _
  · exact key

end Sys2Proof.Machine
end

