-- ==== Sys2Proof/Laws/LaneOps.lean ====
section
/-!
SUPPORT. The operations of Machine/LaneOps.lean keep the laws of the device.
-/
namespace Sys2Proof.Machine

variable {s : State} {hand : List Nat}

/-! ## Captures settled -/

theorem State.LawfulWith.captureLost (hs : s.LawfulWith hand) (n : LaneNo) (e : PutEntry) :
    (s.captureLost n e).LawfulWith hand := by
  unfold State.captureLost
  dsimp only
  split
  · exact hs.congr rfl rfl rfl rfl rfl rfl rfl
  · refine State.LawfulWith.produce ?_ _
    exact hs.congr rfl rfl rfl rfl rfl rfl rfl

theorem State.LawfulWith.capturePlaced (hs : s.LawfulWith hand) (n : LaneNo) (e : PutEntry) :
    (s.capturePlaced n e).LawfulWith hand := by
  unfold State.capturePlaced
  dsimp only
  split
  · refine State.LawfulWith.produce ?_ _
    exact hs.congr rfl rfl rfl rfl rfl rfl rfl
  · exact hs

theorem State.LawfulWith.discardCapture (hs : s.LawfulWith hand) (n : LaneNo) (e : PutEntry) (o : MemOutcome) :
    (s.discardCapture n e o).LawfulWith hand :=
  (hs.captureLost n e).answerOutcome _ _

theorem State.LawfulWith.answerByChange (hs : s.LawfulWith hand) (n : LaneNo) (e : PutEntry) :
    (s.answerByChange n e).LawfulWith hand := by
  unfold State.answerByChange
  split
  · exact hs.discardCapture n e _
  · exact hs.answerError _
  · exact hs.answerError _

/-! ## Leaving a line -/

/-- The first entry leaves the put line. -/
theorem Lane.Law.tailPut {l : Lane} (h : l.Law) : Lane.Law { l with putLine := l.putLine.tail } :=
  h.change rfl rfl rfl rfl rfl rfl rfl rfl (fun _ he => .inl (List.mem_of_mem_tail he))
    (fun hn => by simp [hn]) (fun _ he => .inl he) id

/-- The first entry leaves the take line. -/
theorem Lane.Law.tailTake {l : Lane} (h : l.Law) : Lane.Law { l with takeLine := l.takeLine.tail } :=
  h.change rfl rfl rfl rfl rfl rfl rfl rfl (fun _ he => .inl he) id
    (fun _ he => .inl (List.mem_of_mem_tail he)) (fun hn => by simp [hn])

theorem State.LawfulWith.leavePutLine (hs : s.LawfulWith hand) (n : LaneNo) : (s.leavePutLine n).LawfulWith hand :=
  ((hs.dropHeld n .put).updLane n (fun l => { l with putLine := l.putLine.tail }) fun _ hl =>
    ⟨hl.tailPut, id, rfl⟩).schedule _

theorem State.LawfulWith.leaveScan (hs : s.LawfulWith hand) (n : LaneNo) : (s.leaveScan n).LawfulWith hand :=
  ((hs.dropHeld n .put).updLane n (fun l => { l with putLine := l.putLine.tail }) fun _ hl =>
    ⟨hl.tailPut, id, rfl⟩).schedule _

theorem State.LawfulWith.leaveTakeLine (hs : s.LawfulWith hand) (n : LaneNo) : (s.leaveTakeLine n).LawfulWith hand :=
  ((hs.dropHeld n .take).updLane n (fun l => { l with takeLine := l.takeLine.tail }) fun _ hl =>
    ⟨hl.tailTake, id, rfl⟩).schedule _

theorem State.LawfulWith.answerGonePuts (hs : s.LawfulWith hand) (n : LaneNo) (es : List PutEntry) :
    (s.answerGonePuts n es).LawfulWith hand := by
  have key : ∀ (es : List PutEntry) (s : State), s.LawfulWith hand →
      (es.foldl (fun s e => s.answerByChange n e) s).LawfulWith hand := by
    intro es
    induction es with
    | nil => exact fun _ h => h
    | cons e es ih => exact fun s h => ih _ (h.answerByChange n e)
  exact (key es s hs).dropHeld n .put

theorem State.LawfulWith.answerGoneTakes (hs : s.LawfulWith hand) (n : LaneNo) (es : List TakeEntry) :
    (s.answerGoneTakes n es).LawfulWith hand := by
  have key : ∀ (es : List TakeEntry) (s : State), s.LawfulWith hand →
      (es.foldl (fun s e => s.answerError e.tx) s).LawfulWith hand := by
    intro es
    induction es with
    | nil => exact fun _ h => h
    | cons e es ih => exact fun s h => ih _ (h.answerError e.tx)
  exact (key es s hs).dropHeld n .take

theorem State.LawfulWith.changePuts (hs : s.LawfulWith hand) (n : LaneNo) (change : Lane → Lane)
    (gone : PutEntry → Bool)
    (hl : Lane.Law { change (s.lane n) with putLine := (s.lane n).putLine.filter fun e => !gone e })
    (hst : (s.lane n).state = .closed → (change (s.lane n)).state = .closed)
    (hc : (change (s.lane n)).chain = (s.lane n).chain) : (s.changePuts n change gone).LawfulWith hand :=
  (hs.setLane_same n _ hl hst hc).answerGonePuts n _

theorem State.LawfulWith.changeTakes (hs : s.LawfulWith hand) (n : LaneNo) (change : Lane → Lane)
    (hl : Lane.Law { change (s.lane n) with takeLine := (s.lane n).takeLine.filter TakeEntry.inFlight })
    (hst : (s.lane n).state = .closed → (change (s.lane n)).state = .closed)
    (hc : (change (s.lane n)).chain = (s.lane n).chain) : (s.changeTakes n change).LawfulWith hand :=
  (hs.setLane_same n _ hl hst hc).answerGoneTakes n _

theorem State.LawfulWith.changeBoth (hs : s.LawfulWith hand) (n : LaneNo) (change : Lane → Lane)
    (gone : PutEntry → Bool)
    (hl : Lane.Law { change (s.lane n) with
      putLine := (s.lane n).putLine.filter fun e => !gone e
      takeLine := (s.lane n).takeLine.filter TakeEntry.inFlight })
    (hst : (s.lane n).state = .closed → (change (s.lane n)).state = .closed)
    (hc : (change (s.lane n)).chain = (s.lane n).chain) : (s.changeBoth n change gone).LawfulWith hand :=
  ((hs.setLane_same n _ hl hst hc).answerGonePuts n _).answerGoneTakes n _

/-! ## Holding -/

/-- Only counters, offsets, marks and the like change. -/
theorem State.LawfulWith.expire (hs : s.LawfulWith hand) (n : LaneNo) (t : Transaction) (reason : Byte)
    (value16 : Half) (value32 : Quad) : (s.expire n t reason value16 value32).LawfulWith hand :=
  ((hs.answerError t).updLane n (fun l => { l with expiries := satInc l.expiries }) fun _ hl =>
    ⟨hl.same rfl rfl rfl rfl rfl rfl rfl rfl rfl rfl, id, rfl⟩).produce _

theorem State.LawfulWith.expirePut (hs : s.LawfulWith hand) (n : LaneNo) (e : PutEntry) (reason : Byte)
    (value16 : Half) (value32 : Quad) : (s.expirePut n e reason value16 value32).LawfulWith hand := by
  unfold State.expirePut
  dsimp only
  split
  · exact (hs.discardCapture n e _).leavePutLine n
  · exact (hs.expire n _ _ _ _).leavePutLine n
  · exact (hs.expire n _ _ _ _).leavePutLine n

theorem State.LawfulWith.expireTake (hs : s.LawfulWith hand) (n : LaneNo) (e : TakeEntry) (reason : Byte)
    (value16 : Half) (value32 : Quad) : (s.expireTake n e reason value16 value32).LawfulWith hand :=
  (hs.expire n _ _ _ _).leaveTakeLine n

theorem State.LawfulWith.holdPut (hs : s.LawfulWith hand) (n : LaneNo) (e : PutEntry) (kind : WaitKind) :
    (s.holdPut n e kind).LawfulWith hand := by
  unfold State.holdPut
  split
  · exact hs.setWaitKind n .put kind
  · rename_i hnew
    split
    · rename_i hroom
      exact hs.recordHeld n .put _ kind (by simpa using hnew) hroom
    · dsimp only
      split
      · exact (hs.expirePut n e _ _ _).waiterLeft
      · exact hs.expirePut n e _ _ _

theorem State.LawfulWith.holdTake (hs : s.LawfulWith hand) (n : LaneNo) (e : TakeEntry) :
    (s.holdTake n e).LawfulWith hand := by
  unfold State.holdTake
  split
  · exact hs
  · rename_i hnew
    split
    · rename_i hroom
      exact hs.recordHeld n .take _ _ (by simpa using hnew) hroom
    · exact hs.expireTake n e _ _ _

/-! ## Faults -/

theorem State.LawfulWith.faultLane (hs : s.LawfulWith hand) (n : LaneNo) (cause : FaultCause) (r : MemRequest) :
    (s.faultLane n cause r).LawfulWith hand := by
  unfold State.faultLane
  split
  · rename_i hserving
    refine ((hs.produce _).changeBoth n _ _ ?_ ?_ rfl).schedule _
    · rw [State.produce_lane]
      refine (hs.lanes n).newState rfl rfl rfl rfl rfl rfl rfl (fun h => by cases h) (fun h => by cases h) ?_ ?_
      · exact fun e he => (List.mem_filter.1 he).1
      · exact fun e he => (List.mem_filter.1 he).1
    · rw [State.produce_lane]
      intro hcl
      simp [Lane.serving, hcl] at hserving
  · exact hs

theorem State.LawfulWith.laneSuccess (hs : s.LawfulWith hand) (n : LaneNo) : (s.laneSuccess n).LawfulWith hand := by
  refine hs.updLane n _ fun l hl => ?_
  split
  · exact ⟨hl.same rfl rfl rfl rfl rfl rfl rfl rfl rfl rfl, id, rfl⟩
  · exact ⟨hl, id, rfl⟩

theorem State.LawfulWith.laneFailure (hs : s.LawfulWith hand) (n : LaneNo) (r : MemRequest) (o : MemOutcome) :
    (s.laneFailure n r o).LawfulWith hand := by
  unfold State.laneFailure
  have h1 : (s.updLane n fun l => if (s.lane n).serving then { l with errors := l.errors + 1 } else l).LawfulWith
      hand := by
    refine hs.updLane n _ fun l hl => ?_
    split
    · exact ⟨hl.same rfl rfl rfl rfl rfl rfl rfl rfl rfl rfl, id, rfl⟩
    · exact ⟨hl, id, rfl⟩
  dsimp only
  revert h1
  generalize s.updLane n _ = s1
  intro h1
  split
  · exact h1.produce _
  · split
    · exact (h1.produce _).faultLane n _ r
    · split
      · exact (h1.produce _).faultLane n _ r
      · exact h1.produce _

theorem State.LawfulWith.laneEnded (hs : s.LawfulWith hand) (n : LaneNo) (r : MemRequest) (o : MemOutcome) :
    (s.laneEnded n r o).LawfulWith hand := by
  unfold State.laneEnded
  split
  · exact hs.laneFailure n r o
  · exact hs.laneSuccess n

/-! ## A parcel becomes ready -/

theorem State.LawfulWith.parcelReady (hs : s.LawfulWith hand) (n : LaneNo) (master : Byte) :
    (s.parcelReady n master).LawfulWith hand := by
  unfold State.parcelReady
  split
  · exact hs
  · rename_i p hp
    have h1 : (s.setLane n (s.lane n).makeReady.1).LawfulWith hand := by
      refine hs.setLane_same n _ ?_ id rfl
      exact (hs.lanes n).ready (by simp [hp]) rfl rfl rfl rfl rfl rfl rfl rfl rfl rfl
    dsimp only
    split
    · exact (h1.produce _).wake _
    · exact h1.wake _

theorem State.LawfulWith.closeParcel (hs : s.LawfulWith hand) (n : LaneNo) (tag flags master : Byte) :
    (s.closeParcel n tag flags master).LawfulWith hand := by
  unfold State.closeParcel
  split
  · exact hs
  · exact (hs.updLane n (fun l => { l with tailOffset := roundUp8 l.tailOffset }) fun _ hl =>
      ⟨hl.same rfl rfl rfl rfl rfl rfl rfl rfl rfl rfl, id, rfl⟩).request _

/-- The first put goes into flight. -/
theorem State.LawfulWith.setPutStage (hs : s.LawfulWith hand) (n : LaneNo) (stage : PutStage)
    (hstage : (stage != .waiting) = true) : (s.setPutStage n stage).LawfulWith hand := by
  refine hs.updLane n _ fun l hl => ?_
  split
  · exact ⟨hl, id, rfl⟩
  · rename_i e rest hline
    refine ⟨hl.change rfl rfl rfl rfl rfl rfl rfl rfl ?_ (by simp [hline]) (fun _ he => .inl he) id, id, rfl⟩
    intro x hx
    rcases List.mem_cons.1 hx with rfl | hx
    · exact .inr hstage
    · exact .inl (by simp [hline, hx])

/-- The first take goes into flight. -/
theorem State.LawfulWith.setTakeStage (hs : s.LawfulWith hand) (n : LaneNo) (stage : TakeStage)
    (hstage : (stage != .waiting) = true) : (s.setTakeStage n stage).LawfulWith hand := by
  refine hs.updLane n _ fun l hl => ?_
  split
  · exact ⟨hl, id, rfl⟩
  · rename_i e rest hline
    refine ⟨hl.change rfl rfl rfl rfl rfl rfl rfl rfl (fun _ he => .inl he) id ?_ (by simp [hline]), id, rfl⟩
    intro x hx
    rcases List.mem_cons.1 hx with rfl | hx
    · exact .inr hstage
    · exact .inl (by simp [hline, hx])

end Sys2Proof.Machine
end

