-- ==== Sys2Proof/Laws/Puts.lean ====
section
/-!
SUPPORT. The operations of Machine/Puts.lean keep the laws of the device.
-/
namespace Sys2Proof.Machine

variable {s : State} {hand : List Nat}

/-! ## Answers of a put -/

theorem State.LawfulWith.answerPut (hs : s.LawfulWith hand) (n : LaneNo) (e : PutEntry) (ok : Bool) :
    (s.answerPut n e ok).LawfulWith hand := by
  unfold State.answerPut
  split
  · exact (hs.answerOk _ _).leavePutLine n
  · exact (hs.answerError _).leavePutLine n

theorem State.LawfulWith.leavePut (hs : s.LawfulWith hand) (n : LaneNo) (e : PutEntry) :
    (s.leavePut n e).LawfulWith hand := by
  unfold State.leavePut
  split
  · exact hs.leavePutLine n
  · exact hs.leaveScan n

theorem State.LawfulWith.refusePut (hs : s.LawfulWith hand) (n : LaneNo) (e : PutEntry) :
    (s.refusePut n e).LawfulWith hand :=
  (hs.laneRefuse n _ _ _).leavePut n e

theorem State.LawfulWith.faultPut (hs : s.LawfulWith hand) (n : LaneNo) (e : PutEntry) :
    (s.faultPut n e).LawfulWith hand :=
  (hs.answerError _).leavePut n e

theorem State.LawfulWith.closePut (hs : s.LawfulWith hand) (n : LaneNo) (e : PutEntry) (tag : Byte) (failed : Bool) :
    (s.closePut n e tag failed).LawfulWith hand :=
  (hs.closeParcel n _ _ _).setPutStage n _ (by simp)

/-! ## The start of a put -/

/-- What the start of a put asks for: the lane is not CLOSED; a put that opens a parcel is under the parcel limit; a
segment is linked under the quota; without one the lane holds a segment already. -/
structure Lane.CanPlace (l : Lane) (segment : Option Nat) : Prop where
  state : l.state ≠ .closed
  limit : l.openParcel = none → l.ready < 65535
  quota : segment.isSome → l.chain.length < l.desc.quota
  room  : segment = none → l.chain ≠ []

theorem Lane.placePut_law {l : Lane} (h : l.Law) (t : Transaction) {segment : Option Nat} (hc : l.CanPlace segment) :
    (l.placePut t segment).Law :=
  h.place segment hc.state hc.limit hc.quota hc.room rfl rfl rfl rfl rfl rfl rfl rfl rfl rfl

theorem Lane.placeCapture_law {l : Lane} (h : l.Law) {segment : Option Nat} (hc : l.CanPlace segment)
    (ho : l.openParcel = none) : (l.placeCapture segment).Law :=
  h.place segment hc.state hc.limit hc.quota hc.room rfl rfl rfl rfl rfl rfl (by simp [Lane.placeCapture, ho]) rfl rfl
    rfl

theorem State.LawfulWith.startPut {segment : Option Nat} (hs : s.LawfulWith (segment.toList ++ hand)) (n : LaneNo)
    (e : PutEntry) (hc : (s.lane n).CanPlace segment) : (s.startPut n e segment).LawfulWith hand := by
  have h1 : ((s.unhold n .put).setLane n ((s.lane n).placePut e.tx segment)).LawfulWith hand := by
    refine (hs.unhold n .put).setLane n _ (Lane.placePut_law (hs.lanes n) e.tx hc) id ?_
    rw [State.unhold_lane]
    show ((s.lane n).chain ++ (segment.toList ++ hand)).Perm (((s.lane n).chain ++ segment.toList) ++ hand)
    rw [List.append_assoc]
  unfold State.startPut
  dsimp only
  rw [State.unhold_lane]
  revert h1
  generalize (s.unhold n .put).setLane n _ = s1
  intro h1
  generalize s1.chainWrites n (.bodyWrite n) (masterByte e.tx) _ _ = writes
  split
  · split
    · exact h1.closePut n e _ _
    · exact h1.answerPut n e _
    · exact h1
  · exact (h1.setPutStage n _ (by simp)).requestAll _

/-- The segment of a claim is in hand, with the state after the pop. -/
theorem State.LawfulWith.claim (hs : s.LawfulWith hand) (claims : Bool) (master : Byte) :
    (s.claim claims master).2.LawfulWith ((s.claim claims master).1.toList ++ hand) := by
  unfold State.claim
  split
  · exact hs.popSegment master
  · simpa using hs

/-- A claim changes no lane. -/
theorem State.claim_lane (s : State) (claims : Bool) (master : Byte) (n : LaneNo) :
    (s.claim claims master).2.lane n = s.lane n := by
  unfold State.claim
  split
  · unfold State.popSegment
    dsimp only
    split
    · rw [State.produce_lane]; rfl
    · rfl
  · rfl

/-- A claim that is granted finds a segment. -/
theorem State.topSegment_of_granted {n : LaneNo} (h : s.claimGranted n = true) : s.topSegment ≠ none := by
  intro hn
  have : s.pool.freeCount = 0 := by
    simp only [State.topSegment, List.head?_eq_none_iff] at hn
    simp [Pool.freeCount, hn]
  simp [State.claimGranted, this] at h

/-- What the space check answers is what the start of a put or a capture asks for. -/
theorem State.spaceCheck_canPlace {n : LaneNo} {opens : Bool} {need : Nat} {claims : Bool} {master : Byte}
    (hst : (s.lane n).state ≠ .closed) (ho : (s.lane n).openParcel = none → opens = true)
    (hneed : (s.lane n).chain = [] → 0 < need) (h : s.spaceCheck n opens need = .starts claims) :
    (s.lane n).CanPlace (s.claim claims master).1 := by
  unfold State.spaceCheck at h
  dsimp only at h
  split at h
  · cases h
  · rename_i hlimit
    have hlim : (s.lane n).openParcel = none → (s.lane n).ready < 65535 := by
      intro hn
      by_contra hge
      exact hlimit (by simp [ho hn, Config.parcelLimit, Nat.le_of_not_lt hge])
    split at h
    · rename_i hroom
      cases h
      refine ⟨hst, hlim, fun h => by simp [State.claim] at h, fun _ hn => ?_⟩
      have := hneed hn
      simp [Lane.room, hn] at hroom
      omega
    · split at h
      · cases h
      · rename_i hquota
        split at h
        · rename_i hgr
          cases h
          refine ⟨hst, hlim, fun _ => by omega, fun hn => ?_⟩
          exact absurd (by simpa [State.claim] using hn) (State.topSegment_of_granted hgr)
        · cases h

/-! ## Eviction -/

/-- The put fits after the evictions: what its start asks for. -/
theorem State.evictionFits_canPlace {n : LaneNo} {e : PutEntry} {list : List Scanned}
    (hst : (s.lane n).state ≠ .closed) (hl : (s.lane n).Law) (h : s.evictionFits n e list = true) :
    let r := (s.lane n).evictAll list
    (r.1.putNeed e.tx ≤ r.1.room → r.1.CanPlace none) ∧ (∀ f rest, r.2 = f :: rest → r.1.CanPlace (some f)) ∧
      (¬ r.1.putNeed e.tx ≤ r.1.room → r.2 = [] → ∀ x, s.topSegment = some x → r.1.CanPlace (some x)) ∧
      (¬ r.1.putNeed e.tx ≤ r.1.room → r.2 = [] → s.claimGranted n = true) := by
  have hframe : ((s.lane n).evictAll list).1.state = (s.lane n).state ∧
      ((s.lane n).evictAll list).1.desc = (s.lane n).desc :=
    ⟨(evictAll_frame list (s.lane n, [])).1, (evictAll_frame list (s.lane n, [])).2.2.1⟩
  have hlaw : ((s.lane n).evictAll list).1.Law := evictAll_law list (s.lane n, []) hl
  have hchain : ((s.lane n).evictAll list).2 ++ ((s.lane n).evictAll list).1.chain = (s.lane n).chain :=
    evictAll_chain list (s.lane n, [])
  unfold State.evictionFits at h
  dsimp only at h ⊢
  revert h hframe hlaw hchain
  generalize (s.lane n).evictAll list = r
  intro h hframe hlaw hchain
  rw [Bool.and_eq_true] at h
  obtain ⟨h1, h2⟩ := h
  have hlim : r.1.openParcel = none → r.1.ready < 65535 := by
    intro hn
    by_contra hge
    simp [hn, Config.parcelLimit, Nat.le_of_not_lt hge] at h1
  have hstate : r.1.state ≠ .closed := by rw [hframe.1]; exact hst
  refine ⟨fun hroom => ?_, fun f rest hr => ?_, fun hroom hr x _ => ?_, fun hroom hr => ?_⟩
  · refine ⟨hstate, hlim, fun h => by simp at h, fun _ hn => ?_⟩
    have h0 : r.1.room = 0 := by simp [Lane.room, hn]
    rw [h0] at hroom
    have hopen : r.1.openParcel = none := by
      have := (hlaw.segments.1 hn)
      by_contra hx
      have : r.1.openCount = 1 := by simp [Lane.openCount, Option.isSome_iff_ne_none.2 hx]
      omega
    simp [Lane.putNeed, hopen] at hroom
  · refine ⟨hstate, hlim, fun _ => ?_, fun h => by simp at h⟩
    have hq := hl.quota
    have := congrArg List.length hchain
    rw [hframe.2]
    simp [hr] at this
    omega
  · refine ⟨hstate, hlim, fun _ => ?_, fun h => by simp at h⟩
    simp [hr, hroom] at h2
    exact h2.1
  · simp [hr, hroom] at h2
    exact h2.2

theorem State.LawfulWith.produceAll (hs : s.LawfulWith hand) (n : LaneNo) (master : Byte) (list : List Scanned) :
    (list.foldl (fun s h => s.produce (s.evictedNotice n master h)) s).LawfulWith hand := by
  induction list generalizing s with
  | nil => exact hs
  | cons x xs ih => exact ih (hs.produce _)

theorem State.produceAll_frame (n : LaneNo) (master : Byte) (list : List Scanned) : ∀ s : State,
    (list.foldl (fun s h => s.produce (s.evictedNotice n master h)) s).pool = s.pool ∧
      ∀ m, (list.foldl (fun s h => s.produce (s.evictedNotice n master h)) s).lane m = s.lane m := by
  induction list with
  | nil => simp
  | cons x xs ih =>
    intro s
    have h := ih (s.produce (s.evictedNotice n master x))
    refine ⟨h.1.trans (by simp), fun m => (h.2 m).trans (by simp)⟩

theorem State.LawfulWith.evictStart (hs : s.LawfulWith hand) (n : LaneNo) (e : PutEntry) (list : List Scanned)
    (hst : (s.lane n).state ≠ .closed) : (s.evictStart n e list).LawfulWith hand := by
  have hlaw := evictAll_law list (s.lane n, []) (hs.lanes n)
  have hchain := evictAll_chain list (s.lane n, [])
  have hframe := evictAll_frame list (s.lane n, [])
  have hfits := fun h => State.evictionFits_canPlace (s := s) (n := n) (e := e) (list := list) hst (hs.lanes n) h
  have h1 : (s.setLane n ((s.lane n).evictAll list).1).LawfulWith (((s.lane n).evictAll list).2 ++ hand) := by
    refine hs.setLane n _ hlaw (fun h => absurd h hst) ?_
    simp only [List.nil_append] at hchain
    have h2 := hchain.symm
    rw [List.perm_iff_count]
    intro a
    have h3 := congrArg (List.count a) h2
    simp only [List.count_append, Lane.evictAll] at h3 ⊢
    omega
  have h2 := h1.produceAll n (masterByte e.tx) list
  have hp := State.produceAll_frame n (masterByte e.tx) list (s.setLane n ((s.lane n).evictAll list).1)
  unfold State.evictStart
  dsimp only at hfits ⊢
  revert hlaw hchain hframe hfits h1 h2 hp
  generalize (s.lane n).evictAll list = r
  generalize list.foldl (fun s h => s.produce (s.evictedNotice n (masterByte e.tx) h)) (s.setLane n r.1) = s1
  intro _ _ _ hfits _ h2 hp
  have hlane : s1.lane n = r.1 := by rw [hp.2 n]; simp
  have htop : s1.topSegment = s.topSegment := by simp [State.topSegment, hp.1]
  split
  · exact (h2.refusePut n e).returnSegments _
  · rename_i hf
    refine State.LawfulWith.schedule ?_ _
    obtain ⟨ha, hb, hc, hd⟩ := hfits (by simpa using hf)
    split
    · rename_i hroom
      exact (State.LawfulWith.startPut (segment := none) (by simpa using h2) n e
        (hlane ▸ ha hroom)).returnSegments _
    · rename_i hroom
      split
      · rename_i f surplus hr
        refine State.LawfulWith.returnSegments ?_ _
        exact State.LawfulWith.startPut (segment := some f) (by simpa [hr] using h2) n e (hlane ▸ hb f surplus hr)
      · rename_i hr
        have hg := State.topSegment_of_granted (hd hroom hr)
        obtain ⟨x, hx⟩ := Option.ne_none_iff_exists'.1 hg
        have h3 : s1.LawfulWith hand := by simpa [hr] using h2
        refine State.LawfulWith.startPut (h3.claim true (masterByte e.tx)) n e ?_
        rw [State.claim_lane, hlane]
        have : (s1.claim true (masterByte e.tx)).1 = some x := by simp [State.claim, htop, hx]
        rw [this]
        exact hc hroom hr x hx

theorem State.LawfulWith.scanStep (hs : s.LawfulWith hand) (n : LaneNo) (e : PutEntry) (list : List Scanned)
    (hst : (s.lane n).state ≠ .closed) : (s.scanStep n e list).LawfulWith hand := by
  unfold State.scanStep
  dsimp only
  split
  · exact hs.evictStart n e list hst
  · exact (hs.setPutStage n _ (by simp)).request _

theorem State.LawfulWith.evictPut (hs : s.LawfulWith hand) (n : LaneNo) (e : PutEntry)
    (hst : (s.lane n).state ≠ .closed) : (s.evictPut n e).LawfulWith hand := by
  unfold State.evictPut
  dsimp only
  split
  · exact hs.refusePut n e
  · split
    · exact hs.setPutStage n _ (by simp)
    · exact hs.scanStep n e _ hst

/-! ## Evaluation -/

theorem State.LawfulWith.fullPut (hs : s.LawfulWith hand) (n : LaneNo) (e : PutEntry) (kind : WaitKind)
    (hst : (s.lane n).state ≠ .closed) : (s.fullPut n e kind).LawfulWith hand := by
  unfold State.fullPut
  split
  · exact hs.holdPut n e kind
  · exact hs.refusePut n e
  · exact hs.refusePut n e
  · exact hs.evictPut n e hst

theorem State.LawfulWith.evaluatePut (hs : s.LawfulWith hand) (n : LaneNo) (e : PutEntry)
    (hst : (s.lane n).state ≠ .closed) : (s.evaluatePut n e).LawfulWith hand := by
  have hchain : (s.lane n).openParcel ≠ none → (s.lane n).chain ≠ [] := by
    intro ho hn
    have := (hs.lanes n).segments.1 hn
    have : (s.lane n).openCount = 1 := by simp [Lane.openCount, Option.isSome_iff_ne_none.2 ho]
    omega
  unfold State.evaluatePut
  dsimp only
  split
  · rename_i hkept
    simp only [Bool.and_eq_true, Option.isSome_iff_ne_none] at hkept
    exact State.LawfulWith.startPut (segment := none) (by simpa using hs) n e
      ⟨hst, fun h => absurd h hkept.1, fun h => by simp at h, fun _ => hchain hkept.1⟩
  · split
    · exact hs.fullPut n e _ hst
    · rename_i claims hcheck
      refine (hs.claim claims (masterByte e.tx)).startPut n e ?_
      rw [State.claim_lane]
      refine State.spaceCheck_canPlace hst (fun h => by simp [h]) (fun hn => ?_) hcheck
      by_cases ho : (s.lane n).openParcel = none
      · simp [Lane.putNeed, ho]
      · exact absurd hn (hchain ho)

/-! ## Captures -/

theorem State.LawfulWith.startCapture {segment : Option Nat} (hs : s.LawfulWith (segment.toList ++ hand)) (n : LaneNo)
    (e : PutEntry) (o : MemOutcome) (hc : (s.lane n).CanPlace segment) (ho : (s.lane n).openParcel = none) :
    (s.startCapture n e o segment).LawfulWith hand := by
  have h1 : ((s.unhold n .put).updLane n fun l => l.placeCapture segment).LawfulWith hand := by
    refine (hs.unhold n .put).setLane n _ (Lane.placeCapture_law (hs.lanes n) hc ho) id ?_
    rw [State.unhold_lane]
    show ((s.lane n).chain ++ (segment.toList ++ hand)).Perm (((s.lane n).chain ++ segment.toList) ++ hand)
    rw [List.append_assoc]
  unfold State.startCapture
  dsimp only
  refine State.LawfulWith.requestAll (h1.updLane n _ fun l hl => ?_) _
  split
  · exact ⟨hl, id, rfl⟩
  · rename_i e rest hline
    refine ⟨hl.change rfl rfl rfl rfl rfl rfl rfl rfl ?_ (by simp [hline]) (fun _ he => .inl he) id, id, rfl⟩
    intro x hx
    rcases List.mem_cons.1 hx with rfl | hx
    · exact .inr (by simp [PutEntry.inFlight])
    · exact .inl (by simp [hline, hx])

theorem State.LawfulWith.dropCapture (hs : s.LawfulWith hand) (n : LaneNo) (e : PutEntry) (o : MemOutcome) :
    (s.dropCapture n e o).LawfulWith hand :=
  (hs.discardCapture n e o).leavePutLine n

theorem State.LawfulWith.fullCapture (hs : s.LawfulWith hand) (n : LaneNo) (e : PutEntry) (hold : Bool)
    (o : MemOutcome) : (s.fullCapture n e hold o).LawfulWith hand := by
  unfold State.fullCapture
  split
  · exact hs.dropCapture n e o
  · split
    · exact hs.dropCapture n e o
    · exact hs.holdPut n e _

theorem State.LawfulWith.evaluateCapture (hs : s.LawfulWith hand) (n : LaneNo) (e : PutEntry) (hold : Bool)
    (o : MemOutcome) (hst : (s.lane n).state ≠ .closed) : (s.evaluateCapture n e hold o).LawfulWith hand := by
  unfold State.evaluateCapture
  split
  · exact hs.dropCapture n e o
  · rename_i ho
    have ho' : (s.lane n).openParcel = none := by simpa using ho
    split
    · exact hs.fullCapture n e hold o
    · rename_i claims hcheck
      dsimp only
      refine (hs.claim claims (masterByte e.tx)).startCapture n e o ?_ (by rw [State.claim_lane]; exact ho')
      rw [State.claim_lane]
      exact State.spaceCheck_canPlace hst (fun _ => rfl) (fun _ => by simp [captureNeed]) hcheck

theorem State.LawfulWith.withdrawCapture (hs : s.LawfulWith hand) (n : LaneNo) (e : PutEntry) (o : MemOutcome) :
    (s.withdrawCapture n e o).LawfulWith hand := by
  unfold State.withdrawCapture
  dsimp only
  refine (State.LawfulWith.discardCapture (State.LawfulWith.returnSegments ?_ _) n e o).leavePutLine n
  refine hs.setLane n _ (Lane.withdraw_law (hs.lanes n) _) (fun h => (Lane.withdraw_state _ _).trans h) ?_
  rw [← List.append_assoc, Lane.withdraw_chain]

/-! ## The put line -/

/-- A lane with an entry in its put line is not CLOSED (R17). -/
theorem State.LawfulWith.not_closed_of_put (hs : s.LawfulWith hand) {n : LaneNo} {e : PutEntry} {rest : List PutEntry}
    (h : (s.lane n).putLine = e :: rest) : (s.lane n).state ≠ .closed := by
  intro hcl
  have := ((hs.lanes n).closed hcl).2.1
  simp [h] at this

theorem State.LawfulWith.evalPut (hs : s.LawfulWith hand) (n : LaneNo) : (s.evalPut n).LawfulWith hand := by
  unfold State.evalPut
  dsimp only
  split
  · exact hs
  · rename_i e rest hline
    have hst := hs.not_closed_of_put hline
    split
    · split
      · exact hs.faultPut n e
      · split
        · exact hs.evaluateCapture n e _ _ hst
        · exact hs.evaluatePut n e hst
        · exact hs.evaluatePut n e hst
    · exact hs

theorem State.LawfulWith.joinPutLine (hs : s.LawfulWith hand) (n : LaneNo) (e : PutEntry)
    (hst : (s.lane n).state = .opened) (hb : (s.lane n).busy = .clear) : (s.joinPutLine n e).LawfulWith hand := by
  have h1 : (s.updLane n fun l => { l with putLine := l.putLine ++ [e] }).LawfulWith hand := by
    refine hs.setLane_same n _ ?_ id rfl
    have h := hs.lanes n
    exact ⟨h.sequences, h.limit, h.segments, h.quota, (fun hc => by rw [hst] at hc; cases hc),
      (fun hd => by rw [hst] at hd; cases hd), (fun hx => absurd hb hx)⟩
  unfold State.joinPutLine
  dsimp only
  split
  · exact h1.schedule _
  · exact h1

theorem State.LawfulWith.arrivePut (hs : s.LawfulWith hand) (n : LaneNo) (entry : Fin 23) (t : Transaction) :
    (s.arrivePut n entry t).LawfulWith hand := by
  unfold State.arrivePut
  split
  · exact hs.laneRefuse n entry t _
  · rename_i h
    unfold Lane.refusal at h
    split at h
    · cases h
    · rename_i hb
      split at h
      · rename_i hst
        exact hs.joinPutLine n _ hst (by simpa using hb)
      · cases h
      · cases h
      · cases h

theorem State.LawfulWith.arriveCapture (hs : s.LawfulWith hand) (q : TapRequest) (t : Transaction) (o : MemOutcome) :
    (s.arriveCapture q t o).LawfulWith hand := by
  unfold State.arriveCapture
  dsimp only
  split
  · rename_i h
    exact hs.joinPutLine _ _ h.1 h.2
  · exact hs.discardCapture _ _ _

/-! ## Ends of requests -/

theorem State.LawfulWith.bodyDone (hs : s.LawfulWith hand) (n : LaneNo) (e : PutEntry) (failed : Bool) :
    (s.bodyDone n e failed).LawfulWith hand := by
  unfold State.bodyDone
  split
  · split
    · exact hs.answerPut n e _
    · exact hs.closePut n e _ _
  · exact hs.answerPut n e _
  · exact hs

theorem State.LawfulWith.damage (hs : s.LawfulWith hand) (n : LaneNo) : (s.updLane n Lane.damage).LawfulWith hand :=
  hs.updLane n _ fun l hl =>
    ⟨hl.same rfl rfl rfl rfl rfl (by simp [Lane.damage]) rfl rfl rfl rfl, id, rfl⟩

theorem State.LawfulWith.bodyWriteEnded (hs : s.LawfulWith hand) (n : LaneNo) (r : MemRequest) (o : MemOutcome) :
    (s.bodyWriteEnded n r o).LawfulWith hand := by
  have h1 := hs.laneEnded n r o
  have h2 : (if o.failed then (s.laneEnded n r o).updLane n Lane.damage else s.laneEnded n r o).LawfulWith hand := by
    split
    · exact h1.damage n
    · exact h1
  unfold State.bodyWriteEnded
  dsimp only
  revert h2
  generalize (if o.failed then (s.laneEnded n r o).updLane n Lane.damage else s.laneEnded n r o) = s1
  intro h2
  split
  · split
    · split
      · exact h2.bodyDone n _ _
      · exact h2.setPutStage n _ (by simp)
    · exact h2
  · exact h2

theorem State.LawfulWith.captureWriteEnded (hs : s.LawfulWith hand) (n : LaneNo) (r : MemRequest) (o : MemOutcome) :
    (s.captureWriteEnded n r o).LawfulWith hand := by
  have h1 := hs.laneEnded n r o
  unfold State.captureWriteEnded
  dsimp only
  revert h1
  generalize s.laneEnded n r o = s1
  intro h1
  split
  · split
    · split
      · exact h1.setPutStage n _ (by simp)
      · split
        · exact h1.withdrawCapture n _ _
        · exact (h1.closeParcel n _ _ _).setPutStage n _ (by simp)
    · exact h1
  · exact h1

theorem State.LawfulWith.cutEnded (hs : s.LawfulWith hand) (n : LaneNo) (o : MemOutcome) :
    (s.cutEnded n o).LawfulWith hand := by
  have h1 : (s.updLane n fun l => { l with cutting := false }).LawfulWith hand :=
    hs.updLane n _ fun _ hl => ⟨hl.same rfl rfl rfl rfl rfl rfl rfl rfl rfl rfl, id, rfl⟩
  unfold State.cutEnded
  dsimp only
  split
  · exact h1.schedule _
  · exact (h1.parcelReady n _).schedule _

theorem State.LawfulWith.headerWriteEnded (hs : s.LawfulWith hand) (n : LaneNo) (r : MemRequest) (o : MemOutcome) :
    (s.headerWriteEnded n r o).LawfulWith hand := by
  have h1 := hs.laneEnded n r o
  unfold State.headerWriteEnded
  dsimp only
  revert h1
  generalize s.laneEnded n r o = s1
  intro h1
  split
  · exact h1.cutEnded n o
  · split
    · split
      · split
        · exact h1.withdrawCapture n _ _
        · exact (((h1.parcelReady n _).capturePlaced n _).answerOutcome _ _).leavePutLine n
      · split
        · exact h1.answerPut n _ _
        · exact (h1.parcelReady n _).answerPut n _ _
      · exact h1
    · exact h1

theorem State.LawfulWith.scanReadEnded (hs : s.LawfulWith hand) (n : LaneNo) (r : MemRequest) (o : MemOutcome) :
    (s.scanReadEnded n r o).LawfulWith hand := by
  have h1 := hs.laneEnded n r o
  unfold State.scanReadEnded
  dsimp only
  revert h1
  generalize s.laneEnded n r o = s1
  intro h1
  split
  · rename_i e rest hline
    have hst := h1.not_closed_of_put hline
    split
    · split
      · exact h1.faultPut n e
      · split
        · exact h1.scanStep n e _ hst
        · exact (h1.faultLane n _ r).faultPut n e
    · exact h1.refusePut n e
    · exact h1
  · exact h1

end Sys2Proof.Machine
end

