-- ==== Sys2Proof/Laws/Takes.lean ====
section
/-!
SUPPORT. The operations of Machine/Takes.lean keep the laws of the device.
-/
namespace Sys2Proof.Machine

variable {s : State} {hand : List Nat}

theorem State.LawfulWith.answerTake (hs : s.LawfulWith hand) (n : LaneNo) (e : TakeEntry) (data : Word) :
    (s.answerTake n e data).LawfulWith hand :=
  (hs.answerOk _ _).leaveTakeLine n

theorem State.LawfulWith.failTake (hs : s.LawfulWith hand) (n : LaneNo) (e : TakeEntry) :
    (s.failTake n e).LawfulWith hand :=
  (hs.answerError _).leaveTakeLine n

theorem State.LawfulWith.overread (hs : s.LawfulWith hand) (n : LaneNo) :
    (s.updLane n Lane.overread).LawfulWith hand :=
  hs.updLane n _ fun _ hl => ⟨hl.same rfl rfl rfl rfl rfl rfl rfl rfl rfl rfl, id, rfl⟩

theorem State.LawfulWith.releaseHead (hs : s.LawfulWith hand) (n : LaneNo) (h : Header) :
    (s.releaseHead n h).LawfulWith hand := by
  unfold State.releaseHead
  dsimp only
  refine State.LawfulWith.returnSegments (hs.setLane n _ ?_ (fun hc => ?_) ?_) _
  · exact (Lane.dropHead_law (hs.lanes n) _).same rfl rfl rfl rfl rfl rfl rfl rfl rfl rfl
  · exact ((s.lane n).dropHead_frame _).1.trans hc
  · have h2 := (s.lane n).dropHead_chain h.length.toNat
    rw [List.perm_iff_count]
    intro a
    have h3 := congrArg (List.count a) h2
    simp only [List.count_append] at h3 ⊢
    omega

theorem State.LawfulWith.startDataRead (hs : s.LawfulWith hand) (n : LaneNo) (e : TakeEntry) (c : HeadCache) :
    (s.startDataRead n e c).LawfulWith hand := by
  unfold State.startDataRead
  dsimp only
  split
  · exact (hs.overread n).answerTake n e 0
  · exact (hs.setTakeStage n _ (by simp)).requestAll _

theorem State.LawfulWith.carryRelease (hs : s.LawfulWith hand) (n : LaneNo) (e : TakeEntry) (c : HeadCache) :
    (s.carryRelease n e c).LawfulWith hand :=
  (hs.releaseHead n _).answerTake n e _

theorem State.LawfulWith.proceedTake (hs : s.LawfulWith hand) (n : LaneNo) (e : TakeEntry) (c : HeadCache) :
    (s.proceedTake n e c).LawfulWith hand := by
  unfold State.proceedTake
  split
  · exact hs.startDataRead n e c
  · exact hs.answerTake n e _
  · exact hs.carryRelease n e c

theorem State.LawfulWith.emptyTake (hs : s.LawfulWith hand) (n : LaneNo) (e : TakeEntry) (word : Word) :
    (s.emptyTake n e word).LawfulWith hand := by
  unfold State.emptyTake
  split
  · exact hs.holdTake n e
  · exact (hs.overread n).answerTake n e word
  · exact (hs.overread n).answerTake n e word

theorem State.LawfulWith.takeEmpty (hs : s.LawfulWith hand) (n : LaneNo) (e : TakeEntry) :
    (s.takeEmpty n e).LawfulWith hand := by
  unfold State.takeEmpty
  split
  · exact hs.answerTake n e _
  · exact hs.emptyTake n e _
  · exact hs.emptyTake n e _

theorem State.LawfulWith.evalTake (hs : s.LawfulWith hand) (n : LaneNo) : (s.evalTake n).LawfulWith hand := by
  unfold State.evalTake
  dsimp only
  split
  · exact hs
  · split
    · split
      · exact hs.takeEmpty n _
      · split
        · exact ((hs.unhold n .take).setTakeStage n _ (by simp)).request _
        · exact (hs.unhold n .take).proceedTake n _ _
    · exact hs

theorem State.LawfulWith.joinTakeLine (hs : s.LawfulWith hand) (n : LaneNo) (e : TakeEntry)
    (hst : (s.lane n).state ≠ .closed) (hb : (s.lane n).busy = .clear) : (s.joinTakeLine n e).LawfulWith hand := by
  have h1 : (s.updLane n fun l => { l with takeLine := l.takeLine ++ [e] }).LawfulWith hand := by
    refine hs.setLane_same n _ ?_ id rfl
    have h := hs.lanes n
    exact ⟨h.sequences, h.limit, h.segments, h.quota, (fun hc => absurd hc hst), h.draining, (fun hx => absurd hb hx)⟩
  unfold State.joinTakeLine
  dsimp only
  split
  · exact h1.schedule _
  · exact h1

theorem State.LawfulWith.arriveTake (hs : s.LawfulWith hand) (n : LaneNo) (entry : Fin 23) (t : Transaction) :
    (s.arriveTake n entry t).LawfulWith hand := by
  unfold State.arriveTake
  split
  · exact hs.laneRefuse n entry t _
  · split
    · exact hs.laneRefuse n entry t _
    · rename_i h
      unfold Lane.refusal at h
      split at h
      · cases h
      · rename_i hb
        split at h
        · rename_i hst
          exact hs.joinTakeLine n _ (by simp [hst]) (by simpa using hb)
        · rename_i hst
          exact hs.joinTakeLine n _ (by simp [hst]) (by simpa using hb)
        · cases h
        · cases h

theorem State.LawfulWith.setCache (hs : s.LawfulWith hand) (n : LaneNo) (c : HeadCache) :
    (s.updLane n fun l => { l with cache := some c }).LawfulWith hand :=
  hs.updLane n _ fun _ hl => ⟨hl.same rfl rfl rfl rfl rfl rfl rfl rfl rfl rfl, id, rfl⟩

theorem State.LawfulWith.headFetched (hs : s.LawfulWith hand) (n : LaneNo) (e : TakeEntry) (h : Header) :
    (s.headFetched n e h).LawfulWith hand := by
  have h1 := hs.setCache n { header := h, consumed := 0 }
  unfold State.headFetched
  dsimp only
  revert h1
  generalize s.updLane n _ = s1
  intro h1
  split
  · split
    · exact h1.answerTake n e _
    · exact h1.failTake n e
    · exact h1.failTake n e
  · exact h1.proceedTake n e _

theorem State.LawfulWith.headFetchEnded (hs : s.LawfulWith hand) (n : LaneNo) (r : MemRequest) (o : MemOutcome) :
    (s.headFetchEnded n r o).LawfulWith hand := by
  have h1 := hs.laneEnded n r o
  unfold State.headFetchEnded
  dsimp only
  revert h1
  generalize s.laneEnded n r o = s1
  intro h1
  split
  · split
    · split
      · exact h1.headFetched n _ _
      · split
        · exact h1.failTake n _
        · exact (h1.faultLane n _ r).failTake n _
    · exact h1.failTake n _
    · exact h1
  · exact h1

theorem State.LawfulWith.dataReadDone (hs : s.LawfulWith hand) (n : LaneNo) (e : TakeEntry) (k : Nat)
    (got : List Byte) : (s.dataReadDone n e k got).LawfulWith hand := by
  unfold State.dataReadDone
  split
  · exact hs.failTake n e
  · rename_i c hc
    have h1 := hs.setCache n { c with consumed := c.consumed + k }
    dsimp only
    revert h1
    generalize s.updLane n _ = s1
    intro h1
    have h2 : (if k < e.tx.size then s1.updLane n Lane.overread else s1).LawfulWith hand := by
      split
      · exact h1.overread n
      · exact h1
    revert h2
    generalize (if k < e.tx.size then s1.updLane n Lane.overread else s1) = s2
    intro h2
    refine State.LawfulWith.answerTake ?_ n e _
    split
    · exact h2.releaseHead n _
    · exact h2

theorem State.LawfulWith.takeReadEnded (hs : s.LawfulWith hand) (n : LaneNo) (r : MemRequest) (o : MemOutcome) :
    (s.takeReadEnded n r o).LawfulWith hand := by
  have h1 := hs.laneEnded n r o
  unfold State.takeReadEnded
  dsimp only
  revert h1
  generalize s.laneEnded n r o = s1
  intro h1
  split
  · split
    · split
      · exact h1.setTakeStage n _ (by simp)
      · split
        · exact h1.failTake n _
        · exact h1.dataReadDone n _ _ _
    · exact h1
  · exact h1

end Sys2Proof.Machine
end

