-- ==== Sys2Proof/Laws/Commands.lean ====
section
/-!
SUPPORT. The operations of the command unit, of lane states and of the status writer keep the laws of the device.
-/
namespace Sys2Proof.Machine

variable {s : State} {hand : List Nat}

/-! ## The command unit's law -/

/-- A command is running, and reads no images: what the law asks of a change of its work. -/
theorem State.LawfulWith.setWork (hs : s.LawfulWith hand) (w : CommandWork)
    (hrun : s.cmd.running = false → w = .none) (hauto : s.cmd.autoload ≠ none → w.ofAutoload)
    (hread : s.cmd.autoload = none → w.reading →
      ∀ k, s.cmd.imageKind = some k → ∀ n, k.countsOn n → (s.lane n).state = .closed) :
    State.LawfulWith { s with cmd := { s.cmd with work := w } } hand := by
  have h := hs.command
  refine hs.cmd_of _ ⟨fun hr => ⟨hrun hr, (h.idle hr).2⟩, hauto, h.loading, fun ha hw k hk n hn => ?_, h.inReset⟩
  exact hread ha hw k hk n hn

/-- A command or a step of autoload that has work is running. -/
theorem State.LawfulWith.running_of_work (hs : s.LawfulWith hand) (h : s.cmd.work ≠ .none) : s.cmd.running ≠ false :=
  fun hr => h (hs.command.idle hr).1

/-- Autoload is running. -/
theorem State.LawfulWith.running_of_autoload (hs : s.LawfulWith hand) (h : s.cmd.autoload ≠ none) :
    s.cmd.running ≠ false :=
  fun hr => h (hs.command.idle hr).2

/-- A lane command or WRITE STATUS at work is not autoload. -/
theorem State.LawfulWith.no_autoload (hs : s.LawfulWith hand) (h : ¬ s.cmd.work.ofAutoload) : s.cmd.autoload = none :=
  by_contra fun ha => h (hs.command.auto ha)

/-! ## Response words, completion, image reads -/

theorem State.LawfulWith.respond (hs : s.LawfulWith hand) (ticket : Half) (outcome reason detail code : Byte) :
    (s.respond ticket outcome reason detail code).LawfulWith hand :=
  hs.commandRequests _

/-- The command unit becomes IDLE. -/
theorem State.LawfulWith.becomeIdle (hs : s.LawfulWith hand) (c : Command) : State.LawfulWith
    { s with cmd := { s.cmd with running := false, current := c, autoload := none, work := .none } } hand := by
  have h := hs.command
  exact hs.cmd_of _ ⟨fun _ => ⟨rfl, rfl⟩, fun hn => absurd rfl hn, (fun _ hn => by cases hn),
    (fun _ hw => by cases hw), h.inReset⟩

theorem State.LawfulWith.completeCommand (hs : s.LawfulWith hand) (outcome reason detail : Byte)
    (ha : s.cmd.autoload = none) : (s.completeCommand outcome reason detail).LawfulWith hand := by
  have key : ∀ t : State, t.LawfulWith hand → t.cmd.autoload = none → State.LawfulWith
      { t with cmd := { t.cmd with running := false, current := .none, work := .none } } hand := by
    intro t ht hta
    have h := ht.becomeIdle .none
    rwa [← hta] at h
  unfold State.completeCommand
  dsimp only
  refine State.LawfulWith.schedule (key _ ?_ ?_) _
  · split
    · exact (hs.respond _ _ _ _ _).produce _
    · exact hs.respond _ _ _ _ _
  · split
    · rw [State.produce_cmd]; exact ha
    · exact ha

theorem State.LawfulWith.endAutoload (hs : s.LawfulWith hand) (code outcome reason detail : Byte) :
    (s.endAutoload code outcome reason detail).LawfulWith hand :=
  State.LawfulWith.schedule ((hs.respond 0 outcome reason detail code).becomeIdle _) _

theorem State.LawfulWith.rejectCommand (hs : s.LawfulWith hand) (reason detail : Byte) :
    (s.rejectCommand reason detail).LawfulWith hand := by
  unfold State.rejectCommand
  split
  · rename_i ha
    exact hs.completeCommand _ _ _ ha
  · exact hs.endAutoload _ _ _ _

theorem State.LawfulWith.readImages (hs : s.LawfulWith hand) (offsets : List Nat) (hrun : s.cmd.running ≠ false)
    (hread : s.cmd.autoload = none →
      ∀ k, s.cmd.imageKind = some k → ∀ n, k.countsOn n → (s.lane n).state = .closed) :
    (s.readImages offsets).LawfulWith hand :=
  State.LawfulWith.commandRequests
    (hs.setWork (.images offsets.length [] Option.none) (fun h => absurd h hrun) (fun _ => trivial)
      (fun ha _ => hread ha)) _

/-! ## Lane states -/

theorem State.LawfulWith.drainTest (hs : s.LawfulWith hand) (n : LaneNo) : (s.drainTest n).LawfulWith hand := by
  unfold State.drainTest
  split
  · rename_i hd
    have hl := hs.lanes n
    simp only [Lane.drained, Lane.idle, Bool.and_eq_true, beq_iff_eq, Bool.not_eq_true', Option.isNone_iff_eq_none]
      at hd
    obtain ⟨⟨⟨⟨hst, hr⟩, ho⟩, ⟨hput, htake⟩, hcut⟩, hb⟩ := hd
    refine (hs.changeTakes n _ ?_ (fun _ => rfl) rfl).produce _
    refine hl.newState rfl rfl rfl rfl rfl rfl rfl (fun _ => ?_) (fun h => by cases h) (fun _ he => he)
      (fun _ he => (List.mem_filter.1 he).1)
    refine ⟨by simp [hr, Lane.openCount, ho], ?_, ?_⟩
    · refine List.eq_nil_iff_forall_not_mem.2 fun e he => ?_
      have h1 := hl.draining hst e he
      have h2 : (s.lane n).putInFlight = true := List.any_eq_true.2 ⟨e, he, h1⟩
      simp [h2] at hput
    · refine List.eq_nil_iff_forall_not_mem.2 fun e he => ?_
      have h1 := List.mem_filter.1 he
      have h2 : (s.lane n).takeInFlight = true := List.any_eq_true.2 ⟨e, h1.1, h1.2⟩
      simp [h2] at htake
  · exact hs

theorem State.LawfulWith.cutTest (hs : s.LawfulWith hand) (n : LaneNo) : (s.cutTest n).LawfulWith hand := by
  unfold State.cutTest
  dsimp only
  split
  · exact (hs.closeParcel n _ _ _).updLane n (fun l => { l with cutting := true }) fun _ hl =>
      ⟨hl.same rfl rfl rfl rfl rfl rfl rfl rfl rfl rfl, id, rfl⟩
  · exact hs

theorem State.LawfulWith.closeTest (hs : s.LawfulWith hand) (n : LaneNo) : (s.closeTest n).LawfulWith hand := by
  unfold State.closeTest
  dsimp only
  split
  · rename_i h
    simp only [Bool.and_eq_true, State.closing, beq_iff_eq] at h
    exact hs.completeCommand _ _ _ (hs.no_autoload (by simp [h.1.1, CommandWork.ofAutoload]))
  · exact hs

/-- The discard empties a lane whose lines are empty (R8). -/
theorem Lane.discard_law {l : Lane} (hp : l.putLine = []) (ht : l.takeLine = []) : l.discard.Law :=
  Lane.Law.emptied rfl rfl rfl rfl hp ht

theorem State.LawfulWith.discardTest (hs : s.LawfulWith hand) (n : LaneNo) : (s.discardTest n).LawfulWith hand := by
  unfold State.discardTest
  split
  · rename_i h
    obtain ⟨hb, hidle⟩ := h
    have hl := hs.lanes n
    simp only [Lane.idle, Bool.and_eq_true, Bool.not_eq_true'] at hidle
    have hput : (s.lane n).putLine = [] := by
      refine List.eq_nil_iff_forall_not_mem.2 fun e he => ?_
      have h2 : (s.lane n).putInFlight = true := List.any_eq_true.2 ⟨e, he, (hl.busy hb).1 e he⟩
      simp [h2] at hidle
    have htake : (s.lane n).takeLine = [] := by
      refine List.eq_nil_iff_forall_not_mem.2 fun e he => ?_
      have h2 : (s.lane n).takeInFlight = true := List.any_eq_true.2 ⟨e, he, (hl.busy hb).2 e he⟩
      simp [h2] at hidle
    have h1 : (s.setLane n (s.lane n).discard).LawfulWith ((s.lane n).chain ++ hand) := by
      refine hs.setLane n _ (Lane.discard_law hput htake) (fun hc => ?_) (List.Perm.refl _)
      simp only [Lane.discard]
      split
      · rfl
      · rfl
      · exact hc
    have h2 := h1.returnSegments fun _ => false
    unfold State.discardLane
    dsimp only
    revert h2
    generalize (s.setLane n (s.lane n).discard).returnSegments (s.lane n).chain (fun _ => false) = s1
    intro h2
    have h3 : (if (s.lane n).busy = .flush ∧ (s.lane n).state = .draining then s1.produce (laneClosedNotice n)
        else s1).LawfulWith hand := by
      split
      · exact h2.produce _
      · exact h2
    revert h3
    generalize (if (s.lane n).busy = .flush ∧ (s.lane n).state = .draining then s1.produce (laneClosedNotice n)
        else s1) = s2
    intro h3
    split
    · rename_i he
      simp only [State.emptying, beq_iff_eq] at he
      exact h3.completeCommand _ _ _ (h3.no_autoload (by simp [he, CommandWork.ofAutoload]))
    · exact h3
  · exact hs

theorem State.LawfulWith.laneTests (hs : s.LawfulWith hand) (n : LaneNo) : (s.laneTests n).LawfulWith hand := by
  unfold State.laneTests
  split
  · exact hs.discardTest n
  · exact ((hs.cutTest n).drainTest n).closeTest n

theorem State.LawfulWith.takeClose (hs : s.LawfulWith hand) (n : LaneNo) (hst : (s.lane n).state = .opened)
    (hrun : s.cmd.running ≠ false) (ha : s.cmd.autoload = none) : (s.takeClose n).LawfulWith hand := by
  have h1 := hs.setWork (.closing n) (fun h => absurd h hrun) (fun h => absurd ha h) (fun _ h => by cases h)
  unfold State.takeClose
  refine (h1.changePuts n _ _ ?_ ?_ rfl).schedule _
  · refine (hs.lanes n).newState rfl rfl rfl rfl rfl rfl rfl (fun h => by cases h) (fun _ e he => ?_)
      (fun _ he => (List.mem_filter.1 he).1) (fun _ he => he)
    simpa [PutEntry.notInFlight] using (List.mem_filter.1 he).2
  · intro hc
    exact absurd (hst.symm.trans hc) (by simp)

theorem State.LawfulWith.takeEmptying (hs : s.LawfulWith hand) (n : LaneNo) (mark : BusyMark)
    (hrun : s.cmd.running ≠ false) (ha : s.cmd.autoload = none) : (s.takeEmptying n mark).LawfulWith hand := by
  have h1 := hs.setWork (.emptying n) (fun h => absurd h hrun) (fun h => absurd ha h) (fun _ h => by cases h)
  have h := hs.lanes n
  have hput : ∀ e ∈ (s.lane n).putLine.filter (fun e => !e.notInFlight), e.inFlight = true := by
    intro e he
    simpa [PutEntry.notInFlight] using (List.mem_filter.1 he).2
  have htake : ∀ e ∈ (s.lane n).takeLine.filter TakeEntry.inFlight, e.inFlight = true :=
    fun e he => (List.mem_filter.1 he).2
  unfold State.takeEmptying
  refine (h1.changeBoth n _ _ ⟨h.sequences, h.limit, h.segments, h.quota, fun hc => ?_, fun _ => hput,
    fun _ => ⟨hput, htake⟩⟩ id rfl).schedule _
  have := h.closed hc
  refine ⟨this.1, ?_, ?_⟩
  · exact (congrArg (List.filter _) this.2.1).trans rfl
  · exact (congrArg (List.filter _) this.2.2).trans rfl

/-! ## The status writer -/

theorem State.LawfulWith.beginWriteBack (hs : s.LawfulWith hand) : s.beginWriteBack.LawfulWith hand :=
  hs.congr rfl rfl rfl rfl rfl rfl rfl

theorem State.LawfulWith.generationTest (hs : s.LawfulWith hand) : s.generationTest.LawfulWith hand := by
  unfold State.generationTest
  split
  · exact hs.congr rfl rfl rfl rfl rfl rfl rfl
  · exact hs

theorem State.LawfulWith.beginFollowOn (hs : s.LawfulWith hand) : s.beginFollowOn.LawfulWith hand := by
  have h1 : State.LawfulWith { s with status := { s.status with followOn := false } } hand :=
    hs.congr rfl rfl rfl rfl rfl rfl rfl
  unfold State.beginFollowOn
  dsimp only
  split
  · rename_i hw
    have hw' : s.cmd.work = .status true := by simpa using hw
    have ha := hs.no_autoload (by simp [hw', CommandWork.ofAutoload])
    have hrun := hs.running_of_work (by simp [hw'])
    exact (h1.setWork (.status false) (fun h => absurd h hrun) (fun h => absurd ha h)
      (fun _ h => by cases h)).beginWriteBack
  · exact h1.beginWriteBack

theorem State.LawfulWith.endWriteBack (hs : s.LawfulWith hand) : s.endWriteBack.LawfulWith hand := by
  have h1 : ∀ t : State, t.LawfulWith hand →
      (if t.cmd.work == .status false then t.completeCommand outcomeDone 0 0 else t).LawfulWith hand := by
    intro t ht
    split
    · rename_i hw
      have hw' : t.cmd.work = .status false := by simpa using hw
      exact ht.completeCommand _ _ _ (ht.no_autoload (by simp [hw', CommandWork.ofAutoload]))
    · exact ht
  have h2 : ∀ t : State, t.LawfulWith hand →
      (if t.status.followOn then t.beginFollowOn else t).LawfulWith hand := by
    intro t ht
    split
    · exact ht.beginFollowOn
    · exact ht
  refine h2 _ (h1 _ ?_)
  exact hs.congr rfl rfl rfl rfl rfl rfl rfl

theorem State.LawfulWith.statusWriteEnded (hs : s.LawfulWith hand) (i : Nat) : (s.statusWriteEnded i).LawfulWith hand := by
  unfold State.statusWriteEnded
  split
  · exact hs.endWriteBack
  · refine State.LawfulWith.generationTest ?_
    exact hs.congr rfl rfl rfl rfl rfl rfl rfl

theorem State.LawfulWith.takeWriteStatus (hs : s.LawfulWith hand) (hrun : s.cmd.running ≠ false)
    (ha : s.cmd.autoload = none) : s.takeWriteStatus.LawfulWith hand := by
  have h1 := fun f => hs.setWork (.status f) (fun h => absurd h hrun) (fun h => absurd ha h) (fun _ h => by cases h)
  unfold State.takeWriteStatus
  split
  · exact (h1 true).congr rfl rfl rfl rfl rfl rfl rfl
  · exact (h1 false).beginWriteBack

theorem State.LawfulWith.takeIntervalExpiry (hs : s.LawfulWith hand) : s.takeIntervalExpiry.LawfulWith hand := by
  have h1 : State.LawfulWith { s with status := { s.status with expiryDue := false } } hand :=
    hs.congr rfl rfl rfl rfl rfl rfl rfl
  unfold State.takeIntervalExpiry
  split
  · dsimp only
    split
    · exact h1
    · exact h1.beginWriteBack
  · exact hs

/-! ## Autoload and images -/

theorem State.LawfulWith.autoDescriptor (hs : s.LawfulWith hand) (n : LaneNo) (hrun : s.cmd.running ≠ false)
    (hauto : s.cmd.work.ofAutoload) (hclosed : ∀ m : LaneNo, n.val ≤ m.val → (s.lane m).state = .closed) :
    (s.autoDescriptor n).LawfulWith hand := by
  have h1 : State.LawfulWith { s with cmd := { s.cmd with autoload := some (.descriptor n) } } hand := by
    refine hs.cmd_of _ ⟨fun h => absurd h hrun, fun _ => hauto, fun step hstep m hm => ?_, (fun h => by cases h),
      hs.command.inReset⟩
    cases hstep
    exact hclosed m hm
  exact h1.readImages _ hrun (fun h => by cases h)

theorem State.LawfulWith.autoNext (hs : s.LawfulWith hand) {step : AutoStep} (ha : s.cmd.autoload = some step) :
    (s.autoNext step).LawfulWith hand := by
  have hne : s.cmd.autoload ≠ none := by simp [ha]
  have hrun := hs.running_of_autoload hne
  have hw := hs.command.auto hne
  have hl := hs.command.loading step ha
  unfold State.autoNext
  split
  · have h1 : State.LawfulWith { s with cmd := { s.cmd with autoload := some .apertures } } hand := by
      refine hs.cmd_of _ ⟨fun h => absurd h hrun, fun _ => hw, fun st hst m _ => ?_, (fun h => by cases h),
        hs.command.inReset⟩
      exact hl m trivial
    exact h1.readImages _ hrun (fun h => by cases h)
  · exact hs.autoDescriptor 0 hrun hw (fun m _ => hl m trivial)
  · rename_i n
    split
    · rename_i hn
      exact hs.autoDescriptor ⟨n.val + 1, hn⟩ hrun hw (fun m hm => hl m (Nat.le_of_succ_le hm))
    · exact hs.endAutoload _ _ _ _

theorem State.LawfulWith.commandDone (hs : s.LawfulWith hand) : s.commandDone.LawfulWith hand := by
  unfold State.commandDone
  split
  · rename_i ha
    exact hs.completeCommand _ _ _ ha
  · rename_i step ha
    exact hs.autoNext ha

theorem legalRing_le {n : Nat} (h : legalRing n = true) : n ≤ 4096 := by
  simp [legalRing] at h
  omega

/-- While every lane is CLOSED, no lane holds a segment. -/
theorem State.LawfulWith.chains_of_allClosed (hs : s.LawfulWith hand) (hc : s.allClosed) : s.chains = [] := by
  rw [State.chains, List.flatten_eq_nil_iff]
  intro l hl
  obtain ⟨lane, hmem, rfl⟩ := List.mem_map.1 hl
  obtain ⟨i, hi, rfl⟩ := List.mem_iff_getElem.1 hmem
  have hi' : i < 16 := by simpa using hi
  have h : s.lane ⟨i, hi'⟩ = s.lanes.toList[i] := by simp [State.lane]
  rw [← h]
  have h2 := hs.lanes ⟨i, hi'⟩
  exact h2.segments.2 (h2.closed (hc ⟨i, hi'⟩)).1

theorem State.LawfulWith.applySetup (hs : s.LawfulWith []) (h : SetupHeader) (hc : s.allClosed)
    (hring : h.ringEntries ≤ 4096) : (s.applySetup h).LawfulWith [] := by
  have hcmd := hs.command
  have hchains : (s.applySetup h).chains = [] := hs.chains_of_allClosed hc
  refine ⟨?_, ?_, hs.port, hs.lanes, ⟨hcmd.idle, hcmd.auto, hcmd.loading, hcmd.reading, hcmd.inReset⟩, ⟨?_, ?_, ?_⟩⟩
  · refine NoticeWriter.driveIntN_law ?_ hring (fun x hx hst => ?_) (by simp)
    · simp [NoticeWriter.unconsumed]
    · simp only [Option.map_eq_some_iff] at hx
      obtain ⟨w, _, rfl⟩ := hx
      cases hst
  · exact ⟨hs.hold.size, hs.hold.lines⟩
  · rw [hchains]; simp [State.applySetup]
  · simp [State.applySetup, Pool.freeCount]
  · intro _ _; rfl

theorem SetupHeader.ring_of_accepted {h : SetupHeader} {control : Nat} (hn : h.rejection control = none) :
    legalRing h.ringEntries = true := by
  by_contra hr
  have hr' : legalRing h.ringEntries = false := by simpa using hr
  unfold SetupHeader.rejection at hn
  simp only [hr', Bool.not_false, if_true] at hn
  repeat' split at hn
  all_goals cases hn

theorem State.LawfulWith.setupRead (hs : s.LawfulWith []) (words : List (Nat × Word)) (hc : s.allClosed) :
    (s.setupRead words).LawfulWith [] := by
  unfold State.setupRead
  dsimp only
  split
  · exact hs.rejectCommand _ _
  · rename_i hn
    exact (hs.applySetup _ hc (legalRing_le (SetupHeader.ring_of_accepted hn))).commandDone

theorem State.LawfulWith.aperturesRead (hs : s.LawfulWith hand) (words : List (Nat × Word))
    (hrun : s.cmd.running ≠ false) : (s.aperturesRead words).LawfulWith hand := by
  unfold State.aperturesRead
  split
  · exact hs.rejectCommand _ _
  · rename_i es _
    exact (hs.setWork (.freezing (tableOf es)) (fun h => absurd h hrun) (fun _ => trivial)
      (fun _ h => by cases h)).congr rfl rfl rfl rfl rfl rfl rfl

theorem State.LawfulWith.replaceTest (hs : s.LawfulWith hand) : s.replaceTest.LawfulWith hand := by
  unfold State.replaceTest
  split
  · split
    · refine (State.LawfulWith.commandDone ?_).schedule _
      exact hs.congr rfl rfl rfl rfl rfl rfl rfl
    · exact hs
  · exact hs

/-- A descriptor applied to a CLOSED lane that the command unit does not count on being CLOSED. -/
theorem State.LawfulWith.openLane (hs : s.LawfulWith hand) (n : LaneNo) (d : Descriptor)
    (hst : (s.lane n).state = .closed) (hload : ∀ step, s.cmd.autoload = some step → ¬ step.countsOn n)
    (hread : s.cmd.autoload = none → ¬ s.cmd.work.reading) (hreset : s.rst = false) :
    (s.updLane n fun l => l.openWith d).LawfulWith hand := by
  have hl := hs.lanes n
  have hcl := hl.closed hst
  have h0 : (s.lane n).ready = 0 ∧ (s.lane n).openParcel = none := by
    have h1 := hcl.1
    refine ⟨by omega, ?_⟩
    by_contra hx
    have : (s.lane n).openCount = 1 := by simp [Lane.openCount, Option.isSome_iff_ne_none.2 hx]
    omega
  have hlane : ((s.lane n).openWith d).Law :=
    Lane.Law.emptied rfl h0.1 h0.2 (hl.segments.2 hcl.1) hcl.2.1 hcl.2.2
  have hchain : ((s.lane n).openWith d).chain = (s.lane n).chain := rfl
  have hother : ∀ m, m ≠ n → (s.lane m).state = .closed →
      ((s.updLane n fun l => l.openWith d).lane m).state = .closed := fun m hm h => by simpa [hm] using h
  have h := hs.command
  refine ⟨hs.notice, hs.hold, hs.port, fun m => ?_, ⟨h.idle, h.auto, fun step hstep m hm => ?_, fun ha hw => ?_,
    fun hr => ?_⟩, ⟨?_, hs.pool.minFree, hs.pool.armed⟩⟩
  · by_cases hm : m = n
    · subst hm; simpa using hlane
    · simpa [hm] using hs.lanes m
  · exact hother m (fun e => hload step hstep (e ▸ hm)) (h.loading step hstep m hm)
  · exact absurd hw (hread ha)
  · exact absurd (hr.symm.trans hreset) (by simp)
  · have hplaces := hs.pool.places
    rw [List.perm_iff_count] at hplaces ⊢
    intro a
    have h1 := hplaces a
    have h3 := s.chains_setLane n ((s.lane n).openWith d) a
    rw [hchain] at h3
    simp only [List.count_append, State.updLane, State.setLane_pool] at h1 h3 ⊢
    omega

end Sys2Proof.Machine
end

