-- ==== Sys2Proof/Laws/Events.lean ====
section
/-!
SUPPORT. Everything that an event can do keeps the laws of the device: the command unit's images, the decoder, the
memory port, and the parts of an event.
-/
namespace Sys2Proof.Machine

variable {s : State} {hand : List Nat}

/-! ## Images -/

/-- Completion changes no lane and not RST_N, and ends autoload's or the command's work. -/
theorem State.completeCommand_frame (s : State) (outcome reason detail : Byte) :
    (s.completeCommand outcome reason detail).lanes = s.lanes ∧
      (s.completeCommand outcome reason detail).rst = s.rst ∧
      (s.completeCommand outcome reason detail).cmd.work = .none ∧
      (s.completeCommand outcome reason detail).cmd.autoload = s.cmd.autoload := by
  unfold State.completeCommand
  dsimp only
  split
  · have h := (s.respond s.cmd.current.ticket outcome reason detail s.cmd.current.code).produce_frame
      ((s.respond s.cmd.current.ticket outcome reason detail s.cmd.current.code).commandDoneNotice outcome reason
        detail)
    refine ⟨h.2.2.1, h.2.2.2.2.2.1, rfl, ?_⟩
    exact Eq.trans (b := (State.produce _ _).cmd.autoload) rfl (congrArg CommandUnit.autoload h.2.2.2.1)
  · exact ⟨rfl, rfl, rfl, rfl⟩

theorem State.LawfulWith.descriptorRead (hs : s.LawfulWith hand) (n : LaneNo) (words : List (Nat × Word))
    (hst : (s.lane n).state = .closed) (hreset : s.rst = false)
    (hauto : ∀ step, s.cmd.autoload = some step → step = .descriptor n) :
    (s.descriptorRead n words).LawfulWith hand := by
  unfold State.descriptorRead
  dsimp only
  split
  · exact hs.commandDone
  · split
    · exact hs.rejectCommand _ _
    · rename_i desc _
      refine hs.commandDone.openLane n desc ?_ ?_ ?_ ?_
      · unfold State.commandDone
        split
        · rw [State.lane_congr (s.completeCommand_frame _ _ _).1]; exact hst
        · rename_i step ha
          rw [hauto step ha, State.autoNext]
          split <;> exact hst
      · unfold State.commandDone
        split
        · rename_i ha
          intro step hstep
          rw [(s.completeCommand_frame _ _ _).2.2.2, ha] at hstep
          cases hstep
        · rename_i step ha
          rw [hauto step ha, State.autoNext]
          split
          · intro step' hstep'
            cases hstep'
            simp [AutoStep.countsOn]
          · intro step' hstep'
            cases hstep'
      · unfold State.commandDone
        split
        · intro _
          rw [(s.completeCommand_frame _ _ _).2.2.1]
          exact fun h => h
        · rename_i step ha
          rw [hauto step ha, State.autoNext]
          split
          · intro h; cases h
          · intro _ h; exact h
      · unfold State.commandDone
        split
        · rw [(s.completeCommand_frame _ _ _).2.1]; exact hreset
        · rename_i step ha
          rw [hauto step ha, State.autoNext]
          split <;> exact hreset

theorem State.LawfulWith.imagesRead (hs : s.LawfulWith []) (words : List (Nat × Word)) (failed : Option Nat)
    (hrun : s.cmd.running ≠ false) (hreset : failed = none → s.rst = false)
    (hk : ∀ k, s.cmd.imageKind = some k → ∀ n, k.countsOn n → (s.lane n).state = .closed) :
    (s.imagesRead words failed).LawfulWith [] := by
  unfold State.imagesRead
  split
  · exact hs
  · exact hs.rejectCommand _ _
  · rename_i hkind
    exact hs.setupRead words fun n => hk _ hkind n trivial
  · exact hs.aperturesRead words hrun
  · rename_i n hkind
    refine hs.descriptorRead n words (hk _ hkind n rfl) (hreset rfl) fun step ha => ?_
    unfold CommandUnit.imageKind at hkind
    rw [ha] at hkind
    cases step with
    | setup => cases hkind
    | apertures => cases hkind
    | descriptor m => cases hkind; rfl

theorem State.LawfulWith.imageReadEnded (hs : s.LawfulWith []) (r : MemRequest) (offset : Nat) (ticket : Half)
    (o : MemOutcome) (hreset : o.failed = false → s.rst = false) : (s.imageReadEnded r offset ticket o).LawfulWith [] := by
  have hfail : ∀ x, firstFailed x offset ≠ none := by intro x; cases x <;> simp [firstFailed]
  have h1 : ∀ t : State, t.LawfulWith [] → (o.failed = false → t.rst = false) →
      (match t.cmd.work with
        | .images left words failed =>
          let words := match o with
            | .ok w => words ++ [(offset, w)]
            | _ => words
          let failed := if o.failed then firstFailed failed offset else failed
          if 1 < left then { t with cmd := { t.cmd with work := .images (left - 1) words failed } }
          else ({ t with cmd := { t.cmd with work := .none } }).imagesRead words failed
        | _ => t).LawfulWith [] := by
    intro t ht hr
    split
    · rename_i left words failed hw
      have hrun := ht.running_of_work (by simp [hw])
      have hread : ∀ k, t.cmd.imageKind = some k → ∀ n, k.countsOn n → (t.lane n).state = .closed := by
        intro k hk n hn
        cases ha : t.cmd.autoload with
        | none => exact ht.command.reading ha (by simp [hw, CommandWork.reading]) k hk n hn
        | some step =>
          refine ht.command.loading step ha n ?_
          unfold CommandUnit.imageKind at hk
          rw [ha] at hk
          cases step with
          | setup => trivial
          | apertures => trivial
          | descriptor m =>
            cases hk
            have : m = n := hn
            simp [AutoStep.countsOn, this]
      dsimp only
      split
      · exact ht.setWork _ (fun h => absurd h hrun) (fun _ => trivial) (fun _ _ => hread)
      · have h2 := ht.setWork .none (fun h => rfl) (fun _ => trivial) (fun _ h => by cases h)
        refine h2.imagesRead _ _ hrun (fun hf => hr ?_) hread
        by_cases ho : o.failed = true
        · rw [if_pos ho] at hf; exact absurd hf (hfail _)
        · simpa using ho
    · exact ht
  unfold State.imageReadEnded
  refine h1 _ ?_ ?_
  · split
    · exact hs.produce _
    · exact hs
  · intro ho
    rw [if_neg (by simp [ho])]
    exact hreset ho

theorem State.LawfulWith.responseWriteEnded (hs : s.LawfulWith hand) (r : MemRequest) (ticket : Half)
    (o : MemOutcome) : (s.responseWriteEnded r ticket o).LawfulWith hand := by
  unfold State.responseWriteEnded
  split
  · exact hs.produce _
  · exact hs

/-! ## Commands are taken -/

/-- No lane is other than CLOSED. -/
theorem State.allClosed_of_firstNotClosed (h : s.firstNotClosed = none) : s.allClosed := by
  intro n
  unfold State.firstNotClosed at h
  rw [List.find?_eq_none] at h
  have h1 := h n.val (List.mem_range.2 n.isLt)
  simpa using h1

theorem State.LawfulWith.beginCommand (hs : s.LawfulWith hand) (hrun : s.cmd.running ≠ false)
    (ha : s.cmd.autoload = none) : (s.beginCommand s.cmd.current).LawfulWith hand := by
  have hkind : ∀ k, s.cmd.imageKind = some k → (s.cmd.current.code = codeLoadSetup ∧ k = .setup) ∨ k = .apertures ∨
      (s.cmd.current.code = codeOpenLane ∧ ∃ n, laneOf s.cmd.current.lane = some n ∧ k = .descriptor n) := by
    intro k hk
    unfold CommandUnit.imageKind at hk
    rw [ha] at hk
    dsimp only at hk
    split at hk
    · rename_i hc; cases hk; exact .inl ⟨hc, rfl⟩
    · split at hk
      · cases hk; exact .inr (.inl rfl)
      · split at hk
        · rename_i hc
          obtain ⟨n, hn, rfl⟩ := Option.map_eq_some_iff.1 hk
          exact .inr (.inr ⟨hc, n, hn, rfl⟩)
        · cases hk
  unfold State.beginCommand
  split
  · rename_i hcode
    unfold State.beginLoadSetup
    split
    · exact hs.rejectCommand _ _
    · rename_i hn
      exact hs.readImages _ hrun fun _ _ _ n _ => State.allClosed_of_firstNotClosed hn n
  · rename_i hsetup
    split
    · rename_i hcode
      refine hs.readImages _ hrun fun _ k hk n hn => ?_
      rcases hkind k hk with h | h | h
      · exact absurd h.1 hsetup
      · subst h; exact hn.elim
      · exact absurd (hcode.symm.trans h.1) (by decide)
    · split
      · exact hs.takeWriteStatus hrun ha
      · split
        · split
          · exact hs.rejectCommand _ _
          · rename_i m hm
            unfold State.beginLaneCommand
            dsimp only
            split
            · rename_i hcode
              split
              · rename_i hst
                refine hs.readImages _ hrun fun _ k hk n hn => ?_
                rcases hkind k hk with h | h | ⟨_, n', hn', h⟩
                · exact absurd h.1 hsetup
                · subst h; exact hn.elim
                · subst h
                  have h1 : n' = n := hn
                  rw [hm] at hn'
                  cases hn'
                  exact h1 ▸ hst
              · exact hs.rejectCommand _ _
            · split
              · split
                · rename_i hst
                  exact hs.takeClose m hst hrun ha
                · exact hs.rejectCommand _ _
              · split
                · split
                  · exact hs.takeEmptying m _ hrun ha
                  · exact hs.rejectCommand _ _
                · exact hs.takeEmptying m _ hrun ha
        · exact hs.rejectCommand _ _

theorem State.LawfulWith.takeCommand (hs : s.LawfulWith hand) (t : Transaction) (hidle : s.cmd.running = false) :
    (s.takeCommand t).LawfulWith hand := by
  have h := hs.command
  have hi := h.idle hidle
  have h1 : State.LawfulWith { s with cmd := { s.cmd with
      running := true, current := commandOf t, taken := s.cmd.taken + 1 } } hand :=
    hs.cmd_of _ ⟨(fun h => by cases h), h.auto, h.loading,
      (fun _ hw => by simp [hi.1, CommandWork.reading] at hw), h.inReset⟩
  exact ((h1.respond _ _ _ _ _).request _).beginCommand (by simp [State.respond]) hi.2

theorem State.LawfulWith.refuseCommand (hs : s.LawfulWith hand) (t : Transaction) (reason : Byte) :
    (s.refuseCommand t reason).LawfulWith hand := by
  unfold State.refuseCommand
  refine State.LawfulWith.produce (State.LawfulWith.answerError ?_ t) _
  exact hs.congr rfl rfl rfl rfl rfl rfl rfl

theorem State.LawfulWith.enterWaiter (hs : s.LawfulWith hand) (t : Transaction) :
    (s.enterWaiter t).LawfulWith hand := by
  unfold State.enterWaiter
  split
  · exact hs.refuseCommand t _
  · split
    · exact hs.refuseCommand t _
    · exact hs.congr rfl rfl rfl rfl rfl rfl rfl

theorem State.LawfulWith.commandWord (hs : s.LawfulWith hand) (t : Transaction) :
    (s.commandWord t).LawfulWith hand := by
  unfold State.commandWord
  split
  · exact hs.enterWaiter t
  · rename_i h
    exact hs.takeCommand t (by simpa using h)

theorem State.LawfulWith.handover (hs : s.LawfulWith hand) : s.handover.LawfulWith hand := by
  unfold State.handover
  split
  · exact hs
  · split
    · exact hs
    · rename_i h
      refine State.LawfulWith.takeCommand ?_ _ (by simpa using h)
      exact hs.congr rfl rfl rfl rfl rfl rfl rfl

theorem State.LawfulWith.waiterExpiry (hs : s.LawfulWith hand) : s.waiterExpiry.LawfulWith hand := by
  unfold State.waiterExpiry
  split
  · exact hs
  · split
    · refine State.LawfulWith.refuseCommand ?_ _ _
      exact hs.congr rfl rfl rfl rfl rfl rfl rfl
    · exact hs

/-! ## The decoder and the system port -/

theorem State.LawfulWith.refuseMisaligned (hs : s.LawfulWith hand) (t : Transaction) :
    (s.refuseMisaligned t).LawfulWith hand := by
  refine State.LawfulWith.produce (State.LawfulWith.answerError ?_ t) _
  exact hs.congr rfl rfl rfl rfl rfl rfl rfl

theorem State.LawfulWith.refuseGuard (hs : s.LawfulWith hand) (t : Transaction) (source reason : Byte) :
    (s.refuseGuard t source reason).LawfulWith hand := by
  refine State.LawfulWith.produce (State.LawfulWith.answerError ?_ t) _
  exact hs.congr rfl rfl rfl rfl rfl rfl rfl

theorem State.LawfulWith.refuseSize (hs : s.LawfulWith hand) (t : Transaction) :
    (s.refuseSize t).LawfulWith hand := by
  refine State.LawfulWith.produce (State.LawfulWith.answerError ?_ t) _
  exact hs.congr rfl rfl rfl rfl rfl rfl rfl

/-- A consumer index write changes the notice writer and its queue, and nothing else. -/
theorem State.consumerWrite_frame (s : State) (v : Quad) : (s.consumerWrite v).hold = s.hold ∧
    (s.consumerWrite v).port.outstanding = s.port.outstanding ∧ (s.consumerWrite v).lanes = s.lanes ∧
    (s.consumerWrite v).cmd = s.cmd ∧ (s.consumerWrite v).pool = s.pool ∧ (s.consumerWrite v).rst = s.rst := by
  unfold State.consumerWrite
  dsimp only
  split
  · split
    · simp
    · exact ⟨(State.chooseNotice_frame _).1, (State.chooseNotice_frame _).2.1, (State.chooseNotice_frame _).2.2.1,
        (State.chooseNotice_frame _).2.2.2.1, (State.chooseNotice_frame _).2.2.2.2.1,
        (State.chooseNotice_frame _).2.2.2.2.2.1⟩
  · simp

theorem State.LawfulWith.consumerWrite (hs : s.LawfulWith hand) (v : Quad) : (s.consumerWrite v).LawfulWith hand := by
  have h := s.consumerWrite_frame v
  exact hs.notice_of (State.consumerWrite_law v hs.notice) (by rw [h.1]) h.2.1 h.2.2.1 h.2.2.2.1 h.2.2.2.2.1
    h.2.2.2.2.2

theorem State.LawfulWith.control (hs : s.LawfulWith hand) (t : Transaction) : (s.control t).LawfulWith hand := by
  unfold State.control
  dsimp only
  split
  · exact hs.request _
  · split
    · split
      · exact hs.commandWord t
      · exact hs.refuseSize t
    · split
      · split
        · first
            | exact (hs.consumerWrite _).request _
            | exact State.LawfulWith.request (hs.consumerWrite _) _
            | exact State.LawfulWith.consumerWrite (hs.request _) _
        · exact hs.refuseSize t
      · exact hs.request _

theorem State.LawfulWith.byEntry (hs : s.LawfulWith hand) (t : Transaction) (i : Fin 23) (a : Aperture) :
    (s.byEntry t i a).LawfulWith hand := by
  unfold State.byEntry
  split
  · exact hs.request _
  · split
    · exact hs.refuseGuard t _ _
    · exact hs.request _
  · dsimp only
    split
    · exact hs.refuseGuard t _ _
    · exact hs.request _
  · split
    · exact hs.arrivePut _ _ _
    · exact hs.answerOk _ _
  · exact hs.arriveTake _ _ _
  · exact hs.request _

theorem State.LawfulWith.decode (hs : s.LawfulWith hand) (t : Transaction) : (s.decode t).LawfulWith hand := by
  unfold State.decode
  split
  · exact hs.control t
  · split
    · exact hs.refuseGuard t _ _
    · split
      · exact hs.byEntry t _ _
      · exact hs.request _

theorem State.LawfulWith.take (hs : s.LawfulWith hand) (t : Transaction) : (s.take t).LawfulWith hand := by
  have h1 : (s.occupy t).LawfulWith hand := hs.congr rfl rfl rfl rfl rfl rfl rfl
  unfold State.take
  dsimp only
  split
  · exact h1.refuseMisaligned t
  · split
    · exact h1.congr rfl rfl rfl rfl rfl rfl rfl
    · exact h1.decode t

theorem State.LawfulWith.takePresented (hs : s.LawfulWith hand) : s.takePresented.LawfulWith hand := by
  unfold State.takePresented
  split
  · exact hs
  · split
    · refine State.LawfulWith.schedule (State.LawfulWith.take ?_ _) _
      exact hs.congr rfl rfl rfl rfl rfl rfl rfl
    · exact hs

/-! ## The parts of an event -/

theorem State.LawfulWith.wakeEntry (hs : s.LawfulWith hand) (n : LaneNo) (line : Line) :
    (s.wakeEntry n line).LawfulWith hand := by
  unfold State.wakeEntry
  split
  · split
    · exact hs.evalPut n
    · exact hs.evalTake n
  · exact hs

theorem State.LawfulWith.waitEnd (hs : s.LawfulWith hand) (n : LaneNo) : (s.waitEnd n).LawfulWith hand := by
  unfold State.waitEnd
  split
  · exact hs.evalPut n
  · exact hs

theorem State.LawfulWith.doTask (hs : s.LawfulWith hand) (t : Task) : (s.doTask t).LawfulWith hand := by
  unfold State.doTask
  split
  · exact hs.evalPut _
  · exact hs.evalTake _
  · exact hs.wakeEntry _ _
  · exact hs.laneTests _
  · exact hs.waitEnd _
  · exact hs.handover
  · refine State.LawfulWith.schedule ?_ _
    exact hs.congr rfl rfl rfl rfl rfl rfl rfl
  · exact hs.decode _
  · exact hs.takePresented

theorem State.LawfulWith.runTasks (fuel : Nat) : ∀ (ts : List Task) (s : State), s.LawfulWith hand →
    (Machine.runTasks fuel ts s).LawfulWith hand := by
  induction fuel with
  | zero => exact fun _ _ h => h
  | succ fuel ih =>
    intro ts s hs
    cases ts with
    | nil => exact hs
    | cons t rest => exact ih _ _ ((hs.doTask t).congr rfl rfl rfl rfl rfl rfl rfl)

theorem State.LawfulWith.settle (hs : s.LawfulWith hand) : s.settle.LawfulWith hand :=
  State.LawfulWith.runTasks _ _ _ (hs.congr rfl rfl rfl rfl rfl rfl rfl)

theorem State.LawfulWith.finish (hs : s.LawfulWith hand) : s.finish.LawfulWith hand :=
  (hs.settle.replaceTest.settle.schedule _).settle

theorem State.LawfulWith.begin (hs : s.LawfulWith hand) : s.begin.LawfulWith hand :=
  hs.congr rfl rfl rfl rfl rfl rfl rfl

/-! ## The memory port -/

/-- Selecting a request takes it from its queue; a status write also takes its snapshot. -/
theorem State.LawfulWith.selectRequest (hs : s.LawfulWith hand) {r : MemRequest} {t : State}
    (h : s.selectRequest = some (r, t)) : t.LawfulWith hand ∧ t.port.outstanding = s.port.outstanding := by
  unfold State.selectRequest at h
  split at h
  · cases h; exact ⟨hs.congr rfl rfl rfl rfl rfl rfl rfl, rfl⟩
  · cases h; exact ⟨hs.congr rfl rfl rfl rfl rfl rfl rfl, rfl⟩
  · cases h; exact ⟨hs.congr rfl rfl rfl rfl rfl rfl rfl, rfl⟩
  · cases h
    unfold State.takeSnapshot
    split
    · exact ⟨hs.congr rfl rfl rfl rfl rfl rfl rfl, rfl⟩
    · split <;> exact ⟨hs.congr rfl rfl rfl rfl rfl rfl rfl, rfl⟩
  · cases h

theorem State.LawfulWith.issueRequest (hs : s.LawfulWith hand) : s.issueRequest.LawfulWith hand := by
  unfold State.issueRequest
  split
  · rename_i hlen
    split
    · rename_i r t h
      obtain ⟨h1, h2⟩ := hs.selectRequest h
      refine h1.port_of _ ?_
      simp [h2, Config.outstandingEntries] at hlen ⊢
      omega
    · exact hs
  · exact hs

theorem State.LawfulWith.forwardEnded (hs : s.LawfulWith hand) (r : MemRequest) (t : Transaction) (source : Byte)
    (tap : Option TapRequest) (o : MemOutcome) : (s.forwardEnded r t source tap o).LawfulWith hand := by
  have h1 : (if o.failed then s.produce (memoryErrorNotice r o source (BitVec.ofNat 16 t.size)) else s).LawfulWith
      hand := by
    split
    · exact hs.produce _
    · exact hs
  unfold State.forwardEnded
  dsimp only
  split
  · exact h1.answerOutcome t o
  · exact h1.arriveCapture _ t o

/-- The end of a request of the notice writer changes the notice writer and its queue, and nothing else. -/
theorem State.noticeRequestEnded_frame (s : State) (ok : Bool) : (s.noticeRequestEnded ok).hold = s.hold ∧
    (s.noticeRequestEnded ok).port.outstanding = s.port.outstanding ∧ (s.noticeRequestEnded ok).lanes = s.lanes ∧
    (s.noticeRequestEnded ok).cmd = s.cmd ∧ (s.noticeRequestEnded ok).pool = s.pool ∧
    (s.noticeRequestEnded ok).rst = s.rst := by
  have key : ∀ t : State, t.hold = s.hold ∧ t.port.outstanding = s.port.outstanding ∧ t.lanes = s.lanes ∧
      t.cmd = s.cmd ∧ t.pool = s.pool ∧ t.rst = s.rst →
      t.chooseNotice.hold = s.hold ∧ t.chooseNotice.port.outstanding = s.port.outstanding ∧
        t.chooseNotice.lanes = s.lanes ∧ t.chooseNotice.cmd = s.cmd ∧ t.chooseNotice.pool = s.pool ∧
        t.chooseNotice.rst = s.rst := by
    intro t ht
    have h := t.chooseNotice_frame
    exact ⟨h.1.trans ht.1, h.2.1.trans ht.2.1, h.2.2.1.trans ht.2.2.1, h.2.2.2.1.trans ht.2.2.2.1,
      h.2.2.2.2.1.trans ht.2.2.2.2.1, h.2.2.2.2.2.1.trans ht.2.2.2.2.2⟩
  unfold State.noticeRequestEnded
  split
  · simp
  · dsimp only
    split
    · unfold State.noticeWriteDone
      dsimp only
      split
      · exact key _ ⟨rfl, rfl, rfl, rfl, rfl, rfl⟩
      · split <;> exact key _ ⟨rfl, rfl, rfl, rfl, rfl, rfl⟩
    · simp

theorem State.LawfulWith.noticeRequestEnded (hs : s.LawfulWith hand) (ok : Bool) :
    (s.noticeRequestEnded ok).LawfulWith hand := by
  have h := s.noticeRequestEnded_frame ok
  exact hs.notice_of (State.noticeRequestEnded_law ok hs.notice) (by rw [h.1]) h.2.1 h.2.2.1 h.2.2.2.1 h.2.2.2.2.1
    h.2.2.2.2.2

theorem State.LawfulWith.requestEnded (hs : s.LawfulWith []) (r : MemRequest) (o : MemOutcome)
    (hreset : o.failed = false → s.rst = false) : (s.requestEnded r o).LawfulWith [] := by
  have h1 := hs.countFailure o
  have hr : o.failed = false → (s.countFailure o).rst = false := by
    unfold State.countFailure; split <;> exact hreset
  unfold State.requestEnded
  dsimp only
  revert h1 hr
  generalize s.countFailure o = s1
  intro h1 hr
  split
  · exact h1.forwardEnded _ _ _ _ _
  · exact h1.bodyWriteEnded _ _ _
  · exact h1.headerWriteEnded _ _ _
  · exact h1.captureWriteEnded _ _ _
  · exact h1.scanReadEnded _ _ _
  · exact h1.headFetchEnded _ _ _
  · exact h1.takeReadEnded _ _ _
  · exact h1.imageReadEnded _ _ _ _ hr
  · exact h1.responseWriteEnded _ _ _
  · exact h1.noticeRequestEnded _
  · exact h1.statusWriteEnded _

theorem State.LawfulWith.memoryResponse (hs : s.LawfulWith []) (m : MemResponse) (hreset : s.rst = false) :
    (s.memoryResponse m).LawfulWith [] := by
  unfold State.memoryResponse
  split
  · exact hs
  · rename_i e rest hout
    have h1 : State.LawfulWith { s with port := { s.port with outstanding := rest } } [] := by
      refine hs.port_of _ ?_
      have := hs.port
      simp [hout] at this ⊢
      omega
    dsimp only
    split
    · exact h1
    · exact h1.requestEnded _ _ fun _ => hreset

/-- An abandoned request ends in failure, so that RST_N does not matter to it. -/
theorem State.LawfulWith.abandon (hs : s.LawfulWith []) (place : Nat) : (s.abandon place).LawfulWith [] := by
  unfold State.abandon
  split
  · exact hs
  · split
    · refine State.LawfulWith.requestEnded (hs.port_of _ ?_) _ _ (fun h => by cases h)
      simpa using hs.port
    · exact hs

theorem State.LawfulWith.abandonReached (count : Nat) : ∀ s : State, s.LawfulWith [] →
    (s.abandonReached count).LawfulWith [] := by
  induction count with
  | zero => exact fun _ h => h
  | succ count ih =>
    intro s hs
    unfold State.abandonReached
    split
    · exact ih _ (hs.abandon _).settle
    · exact hs

/-! ## Ticks and expiries -/

theorem State.LawfulWith.countTick (hs : s.LawfulWith hand) : s.countTick.LawfulWith hand := by
  have h1 : State.LawfulWith { s with hold := s.hold.tick (s.hold.ticks + 1) } hand := by
    refine hs.held_of _ ⟨by simpa [HoldUnit.tick] using hs.hold.size, ?_⟩
    show (List.map HeldEntry.key (List.map _ s.hold.held)).Nodup
    rw [List.map_map]
    exact hs.hold.lines
  have h2 := h1.port_of { s.port with
    outstanding := s.port.outstanding.map (Outstanding.tick (s.hold.ticks + 1)) } (by simpa using hs.port)
  exact h2.congr rfl rfl rfl rfl rfl rfl rfl

theorem State.LawfulWith.tick (hs : s.LawfulWith []) : s.tick.LawfulWith [] :=
  State.LawfulWith.abandonReached _ _ hs.countTick

theorem State.LawfulWith.takeExpiry (hs : s.LawfulWith hand) (n : LaneNo) (line : Line) :
    (s.takeExpiry n line).LawfulWith hand := by
  unfold State.takeExpiry
  split
  · exact hs
  · dsimp only
    split
    · exact hs
    · split
      · split
        · exact hs.expirePut _ _ _ _ _
        · exact hs
      · split
        · exact hs.expireTake _ _ _ _ _
        · exact hs

theorem State.LawfulWith.dueWriteBack (hs : s.LawfulWith hand) : s.dueWriteBack.LawfulWith hand := by
  unfold State.dueWriteBack
  split
  · exact hs
  · split
    · exact hs.beginFollowOn
    · exact hs.takeIntervalExpiry

theorem State.LawfulWith.releaseReset (hs : s.LawfulWith hand) (cfgb : BitVec 8) (autold : Bool)
    (hreset : s.rst = true) : (s.releaseReset cfgb autold).LawfulWith hand := by
  have hclosed := hs.command.inReset hreset
  have h := hs.command
  have h1 : ∀ c : BitVec 8, State.LawfulWith
      { s with rst := false, autold := autold, dec := { s.dec with cfgb := c } } hand := by
    intro c
    exact ⟨hs.notice, hs.hold, hs.port, hs.lanes, ⟨h.idle, h.auto, h.loading, h.reading, (fun h => by cases h)⟩,
      ⟨hs.pool.places, hs.pool.minFree, hs.pool.armed⟩⟩
  unfold State.releaseReset
  dsimp only
  split
  · refine State.LawfulWith.commandRequests ((h1 cfgb).cmd_of { s.cmd with
      running := true, autoload := some .setup, work := .images setupOffsets.length [] Option.none } ?_) _
    exact ⟨(fun h => by cases h), fun _ => trivial, fun _ _ n _ => hclosed n, (fun h => by cases h), (fun h => by cases h)⟩
  · exact h1 cfgb

/-- A body that keeps the laws makes an event that keeps them, when RST_N is high at its begin. -/
theorem State.Lawful.event {body : State → State} (hs : s.Lawful)
    (hbody : ∀ t : State, t.rst = false → t.Lawful → (body t).Lawful) {t : State}
    (h : Machine.event body s = .next t) : t.Lawful := by
  unfold Machine.event at h
  cases h
  split
  · exact State.LawfulWith.begin hs
  · rename_i hr
    exact State.LawfulWith.finish (hbody _ (by simpa [State.begin] using hr) (State.LawfulWith.begin hs))

end Sys2Proof.Machine
end

