-- ==== Sys2Proof/Laws/Frames.lean ====
section
/-!
SUPPORT. What the answers of the system port, the settling of captures and the notice writer's choice leave alone: one
lemma per field per operation.
-/
namespace Sys2Proof.Machine

/-! ## answerError -/

@[simp] theorem State.answerError_pending (s : State) (t : Transaction) :
    (s.answerError t).pending = s.pending := by
  rfl

@[simp] theorem State.answerError_rst (s : State) (t : Transaction) :
    (s.answerError t).rst = s.rst := by
  rfl

@[simp] theorem State.answerError_autold (s : State) (t : Transaction) :
    (s.answerError t).autold = s.autold := by
  rfl

@[simp] theorem State.answerError_lanes (s : State) (t : Transaction) :
    (s.answerError t).lanes = s.lanes := by
  rfl

@[simp] theorem State.answerError_pool (s : State) (t : Transaction) :
    (s.answerError t).pool = s.pool := by
  rfl

@[simp] theorem State.answerError_hold (s : State) (t : Transaction) :
    (s.answerError t).hold = s.hold := by
  rfl

@[simp] theorem State.answerError_cmd (s : State) (t : Transaction) :
    (s.answerError t).cmd = s.cmd := by
  rfl

@[simp] theorem State.answerError_status (s : State) (t : Transaction) :
    (s.answerError t).status = s.status := by
  rfl

@[simp] theorem State.answerError_todo (s : State) (t : Transaction) :
    (s.answerError t).todo = s.todo := by
  rfl

@[simp] theorem State.answerError_choices (s : State) (t : Transaction) :
    (s.answerError t).choices = s.choices := by
  rfl

@[simp] theorem State.answerError_dec (s : State) (t : Transaction) :
    (s.answerError t).dec = s.dec := by
  rfl

@[simp] theorem State.answerError_notice (s : State) (t : Transaction) :
    (s.answerError t).notice = s.notice := by
  rfl

@[simp] theorem State.answerError_port (s : State) (t : Transaction) :
    (s.answerError t).port = s.port := by
  rfl

@[simp] theorem State.answerError_sys_presented (s : State) (t : Transaction) :
    (s.answerError t).sys.presented = s.sys.presented := by
  rfl

@[simp] theorem State.answerError_sys_freeze (s : State) (t : Transaction) :
    (s.answerError t).sys.freeze = s.sys.freeze := by
  rfl

@[simp] theorem State.answerError_lane (s : State) (t : Transaction) (m : LaneNo) :
    (s.answerError t).lane m = s.lane m := State.lane_congr (s.answerError_lanes t) m

@[simp] theorem State.answerError_heldOf (s : State) (t : Transaction) (m : LaneNo) (line : Line) :
    (s.answerError t).heldOf m line = s.heldOf m line := by simp [State.heldOf]

/-! ## answerOk -/

@[simp] theorem State.answerOk_pending (s : State) (t : Transaction) (data : Word) :
    (s.answerOk t data).pending = s.pending := by
  unfold State.answerOk; split <;> rfl

@[simp] theorem State.answerOk_rst (s : State) (t : Transaction) (data : Word) :
    (s.answerOk t data).rst = s.rst := by
  unfold State.answerOk; split <;> rfl

@[simp] theorem State.answerOk_autold (s : State) (t : Transaction) (data : Word) :
    (s.answerOk t data).autold = s.autold := by
  unfold State.answerOk; split <;> rfl

@[simp] theorem State.answerOk_lanes (s : State) (t : Transaction) (data : Word) :
    (s.answerOk t data).lanes = s.lanes := by
  unfold State.answerOk; split <;> rfl

@[simp] theorem State.answerOk_pool (s : State) (t : Transaction) (data : Word) :
    (s.answerOk t data).pool = s.pool := by
  unfold State.answerOk; split <;> rfl

@[simp] theorem State.answerOk_hold (s : State) (t : Transaction) (data : Word) :
    (s.answerOk t data).hold = s.hold := by
  unfold State.answerOk; split <;> rfl

@[simp] theorem State.answerOk_cmd (s : State) (t : Transaction) (data : Word) :
    (s.answerOk t data).cmd = s.cmd := by
  unfold State.answerOk; split <;> rfl

@[simp] theorem State.answerOk_status (s : State) (t : Transaction) (data : Word) :
    (s.answerOk t data).status = s.status := by
  unfold State.answerOk; split <;> rfl

@[simp] theorem State.answerOk_todo (s : State) (t : Transaction) (data : Word) :
    (s.answerOk t data).todo = s.todo := by
  unfold State.answerOk; split <;> rfl

@[simp] theorem State.answerOk_choices (s : State) (t : Transaction) (data : Word) :
    (s.answerOk t data).choices = s.choices := by
  unfold State.answerOk; split <;> rfl

@[simp] theorem State.answerOk_dec (s : State) (t : Transaction) (data : Word) :
    (s.answerOk t data).dec = s.dec := by
  unfold State.answerOk; split <;> rfl

@[simp] theorem State.answerOk_notice (s : State) (t : Transaction) (data : Word) :
    (s.answerOk t data).notice = s.notice := by
  unfold State.answerOk; split <;> rfl

@[simp] theorem State.answerOk_port (s : State) (t : Transaction) (data : Word) :
    (s.answerOk t data).port = s.port := by
  unfold State.answerOk; split <;> rfl

@[simp] theorem State.answerOk_sys_presented (s : State) (t : Transaction) (data : Word) :
    (s.answerOk t data).sys.presented = s.sys.presented := by
  unfold State.answerOk; split <;> rfl

@[simp] theorem State.answerOk_sys_freeze (s : State) (t : Transaction) (data : Word) :
    (s.answerOk t data).sys.freeze = s.sys.freeze := by
  unfold State.answerOk; split <;> rfl

@[simp] theorem State.answerOk_lane (s : State) (t : Transaction) (data : Word) (m : LaneNo) :
    (s.answerOk t data).lane m = s.lane m := State.lane_congr (s.answerOk_lanes t data) m

@[simp] theorem State.answerOk_heldOf (s : State) (t : Transaction) (data : Word) (m : LaneNo) (line : Line) :
    (s.answerOk t data).heldOf m line = s.heldOf m line := by simp [State.heldOf]

/-! ## answerOutcome -/

@[simp] theorem State.answerOutcome_pending (s : State) (t : Transaction) (o : MemOutcome) :
    (s.answerOutcome t o).pending = s.pending := by
  cases o <;> simp [State.answerOutcome]

@[simp] theorem State.answerOutcome_rst (s : State) (t : Transaction) (o : MemOutcome) :
    (s.answerOutcome t o).rst = s.rst := by
  cases o <;> simp [State.answerOutcome]

@[simp] theorem State.answerOutcome_autold (s : State) (t : Transaction) (o : MemOutcome) :
    (s.answerOutcome t o).autold = s.autold := by
  cases o <;> simp [State.answerOutcome]

@[simp] theorem State.answerOutcome_lanes (s : State) (t : Transaction) (o : MemOutcome) :
    (s.answerOutcome t o).lanes = s.lanes := by
  cases o <;> simp [State.answerOutcome]

@[simp] theorem State.answerOutcome_pool (s : State) (t : Transaction) (o : MemOutcome) :
    (s.answerOutcome t o).pool = s.pool := by
  cases o <;> simp [State.answerOutcome]

@[simp] theorem State.answerOutcome_hold (s : State) (t : Transaction) (o : MemOutcome) :
    (s.answerOutcome t o).hold = s.hold := by
  cases o <;> simp [State.answerOutcome]

@[simp] theorem State.answerOutcome_cmd (s : State) (t : Transaction) (o : MemOutcome) :
    (s.answerOutcome t o).cmd = s.cmd := by
  cases o <;> simp [State.answerOutcome]

@[simp] theorem State.answerOutcome_status (s : State) (t : Transaction) (o : MemOutcome) :
    (s.answerOutcome t o).status = s.status := by
  cases o <;> simp [State.answerOutcome]

@[simp] theorem State.answerOutcome_todo (s : State) (t : Transaction) (o : MemOutcome) :
    (s.answerOutcome t o).todo = s.todo := by
  cases o <;> simp [State.answerOutcome]

@[simp] theorem State.answerOutcome_choices (s : State) (t : Transaction) (o : MemOutcome) :
    (s.answerOutcome t o).choices = s.choices := by
  cases o <;> simp [State.answerOutcome]

@[simp] theorem State.answerOutcome_dec (s : State) (t : Transaction) (o : MemOutcome) :
    (s.answerOutcome t o).dec = s.dec := by
  cases o <;> simp [State.answerOutcome]

@[simp] theorem State.answerOutcome_notice (s : State) (t : Transaction) (o : MemOutcome) :
    (s.answerOutcome t o).notice = s.notice := by
  cases o <;> simp [State.answerOutcome]

@[simp] theorem State.answerOutcome_port (s : State) (t : Transaction) (o : MemOutcome) :
    (s.answerOutcome t o).port = s.port := by
  cases o <;> simp [State.answerOutcome]

@[simp] theorem State.answerOutcome_sys_presented (s : State) (t : Transaction) (o : MemOutcome) :
    (s.answerOutcome t o).sys.presented = s.sys.presented := by
  cases o <;> simp [State.answerOutcome]

@[simp] theorem State.answerOutcome_sys_freeze (s : State) (t : Transaction) (o : MemOutcome) :
    (s.answerOutcome t o).sys.freeze = s.sys.freeze := by
  cases o <;> simp [State.answerOutcome]

@[simp] theorem State.answerOutcome_lane (s : State) (t : Transaction) (o : MemOutcome) (m : LaneNo) :
    (s.answerOutcome t o).lane m = s.lane m := State.lane_congr (s.answerOutcome_lanes t o) m

@[simp] theorem State.answerOutcome_heldOf (s : State) (t : Transaction) (o : MemOutcome) (m : LaneNo) (line : Line) :
    (s.answerOutcome t o).heldOf m line = s.heldOf m line := by simp [State.heldOf]

/-! ## captureLost -/

@[simp] theorem State.captureLost_pending (s : State) (n : LaneNo) (e : PutEntry) :
    (s.captureLost n e).pending = s.pending := by
  unfold State.captureLost; dsimp only; split <;> simp

@[simp] theorem State.captureLost_rst (s : State) (n : LaneNo) (e : PutEntry) :
    (s.captureLost n e).rst = s.rst := by
  unfold State.captureLost; dsimp only; split <;> simp

@[simp] theorem State.captureLost_autold (s : State) (n : LaneNo) (e : PutEntry) :
    (s.captureLost n e).autold = s.autold := by
  unfold State.captureLost; dsimp only; split <;> simp

@[simp] theorem State.captureLost_lanes (s : State) (n : LaneNo) (e : PutEntry) :
    (s.captureLost n e).lanes = s.lanes := by
  unfold State.captureLost; dsimp only; split <;> simp

@[simp] theorem State.captureLost_pool (s : State) (n : LaneNo) (e : PutEntry) :
    (s.captureLost n e).pool = s.pool := by
  unfold State.captureLost; dsimp only; split <;> simp

@[simp] theorem State.captureLost_hold (s : State) (n : LaneNo) (e : PutEntry) :
    (s.captureLost n e).hold = s.hold := by
  unfold State.captureLost; dsimp only; split <;> simp

@[simp] theorem State.captureLost_cmd (s : State) (n : LaneNo) (e : PutEntry) :
    (s.captureLost n e).cmd = s.cmd := by
  unfold State.captureLost; dsimp only; split <;> simp

@[simp] theorem State.captureLost_status (s : State) (n : LaneNo) (e : PutEntry) :
    (s.captureLost n e).status = s.status := by
  unfold State.captureLost; dsimp only; split <;> simp

@[simp] theorem State.captureLost_todo (s : State) (n : LaneNo) (e : PutEntry) :
    (s.captureLost n e).todo = s.todo := by
  unfold State.captureLost; dsimp only; split <;> simp

@[simp] theorem State.captureLost_choices (s : State) (n : LaneNo) (e : PutEntry) :
    (s.captureLost n e).choices = s.choices := by
  unfold State.captureLost; dsimp only; split <;> simp

@[simp] theorem State.captureLost_sys_presented (s : State) (n : LaneNo) (e : PutEntry) :
    (s.captureLost n e).sys.presented = s.sys.presented := by
  unfold State.captureLost; dsimp only; split <;> simp

@[simp] theorem State.captureLost_sys_freeze (s : State) (n : LaneNo) (e : PutEntry) :
    (s.captureLost n e).sys.freeze = s.sys.freeze := by
  unfold State.captureLost; dsimp only; split <;> simp

@[simp] theorem State.captureLost_port_systemQ (s : State) (n : LaneNo) (e : PutEntry) :
    (s.captureLost n e).port.systemQ = s.port.systemQ := by
  unfold State.captureLost; dsimp only; split <;> simp

@[simp] theorem State.captureLost_port_commandQ (s : State) (n : LaneNo) (e : PutEntry) :
    (s.captureLost n e).port.commandQ = s.port.commandQ := by
  unfold State.captureLost; dsimp only; split <;> simp

@[simp] theorem State.captureLost_port_outstanding (s : State) (n : LaneNo) (e : PutEntry) :
    (s.captureLost n e).port.outstanding = s.port.outstanding := by
  unfold State.captureLost; dsimp only; split <;> simp

@[simp] theorem State.captureLost_lane (s : State) (n : LaneNo) (e : PutEntry) (m : LaneNo) :
    (s.captureLost n e).lane m = s.lane m := State.lane_congr (s.captureLost_lanes n e) m

@[simp] theorem State.captureLost_heldOf (s : State) (n : LaneNo) (e : PutEntry) (m : LaneNo) (line : Line) :
    (s.captureLost n e).heldOf m line = s.heldOf m line := by simp [State.heldOf]

/-! ## capturePlaced -/

@[simp] theorem State.capturePlaced_pending (s : State) (n : LaneNo) (e : PutEntry) :
    (s.capturePlaced n e).pending = s.pending := by
  unfold State.capturePlaced; dsimp only; split <;> simp

@[simp] theorem State.capturePlaced_rst (s : State) (n : LaneNo) (e : PutEntry) :
    (s.capturePlaced n e).rst = s.rst := by
  unfold State.capturePlaced; dsimp only; split <;> simp

@[simp] theorem State.capturePlaced_autold (s : State) (n : LaneNo) (e : PutEntry) :
    (s.capturePlaced n e).autold = s.autold := by
  unfold State.capturePlaced; dsimp only; split <;> simp

@[simp] theorem State.capturePlaced_lanes (s : State) (n : LaneNo) (e : PutEntry) :
    (s.capturePlaced n e).lanes = s.lanes := by
  unfold State.capturePlaced; dsimp only; split <;> simp

@[simp] theorem State.capturePlaced_pool (s : State) (n : LaneNo) (e : PutEntry) :
    (s.capturePlaced n e).pool = s.pool := by
  unfold State.capturePlaced; dsimp only; split <;> simp

@[simp] theorem State.capturePlaced_hold (s : State) (n : LaneNo) (e : PutEntry) :
    (s.capturePlaced n e).hold = s.hold := by
  unfold State.capturePlaced; dsimp only; split <;> simp

@[simp] theorem State.capturePlaced_cmd (s : State) (n : LaneNo) (e : PutEntry) :
    (s.capturePlaced n e).cmd = s.cmd := by
  unfold State.capturePlaced; dsimp only; split <;> simp

@[simp] theorem State.capturePlaced_status (s : State) (n : LaneNo) (e : PutEntry) :
    (s.capturePlaced n e).status = s.status := by
  unfold State.capturePlaced; dsimp only; split <;> simp

@[simp] theorem State.capturePlaced_todo (s : State) (n : LaneNo) (e : PutEntry) :
    (s.capturePlaced n e).todo = s.todo := by
  unfold State.capturePlaced; dsimp only; split <;> simp

@[simp] theorem State.capturePlaced_choices (s : State) (n : LaneNo) (e : PutEntry) :
    (s.capturePlaced n e).choices = s.choices := by
  unfold State.capturePlaced; dsimp only; split <;> simp

@[simp] theorem State.capturePlaced_sys_presented (s : State) (n : LaneNo) (e : PutEntry) :
    (s.capturePlaced n e).sys.presented = s.sys.presented := by
  unfold State.capturePlaced; dsimp only; split <;> simp

@[simp] theorem State.capturePlaced_sys_freeze (s : State) (n : LaneNo) (e : PutEntry) :
    (s.capturePlaced n e).sys.freeze = s.sys.freeze := by
  unfold State.capturePlaced; dsimp only; split <;> simp

@[simp] theorem State.capturePlaced_port_systemQ (s : State) (n : LaneNo) (e : PutEntry) :
    (s.capturePlaced n e).port.systemQ = s.port.systemQ := by
  unfold State.capturePlaced; dsimp only; split <;> simp

@[simp] theorem State.capturePlaced_port_commandQ (s : State) (n : LaneNo) (e : PutEntry) :
    (s.capturePlaced n e).port.commandQ = s.port.commandQ := by
  unfold State.capturePlaced; dsimp only; split <;> simp

@[simp] theorem State.capturePlaced_port_outstanding (s : State) (n : LaneNo) (e : PutEntry) :
    (s.capturePlaced n e).port.outstanding = s.port.outstanding := by
  unfold State.capturePlaced; dsimp only; split <;> simp

@[simp] theorem State.capturePlaced_lane (s : State) (n : LaneNo) (e : PutEntry) (m : LaneNo) :
    (s.capturePlaced n e).lane m = s.lane m := State.lane_congr (s.capturePlaced_lanes n e) m

@[simp] theorem State.capturePlaced_heldOf (s : State) (n : LaneNo) (e : PutEntry) (m : LaneNo) (line : Line) :
    (s.capturePlaced n e).heldOf m line = s.heldOf m line := by simp [State.heldOf]

/-! ## discardCapture -/

@[simp] theorem State.discardCapture_pending (s : State) (n : LaneNo) (e : PutEntry) (o : MemOutcome) :
    (s.discardCapture n e o).pending = s.pending := by
  simp [State.discardCapture]

@[simp] theorem State.discardCapture_rst (s : State) (n : LaneNo) (e : PutEntry) (o : MemOutcome) :
    (s.discardCapture n e o).rst = s.rst := by
  simp [State.discardCapture]

@[simp] theorem State.discardCapture_autold (s : State) (n : LaneNo) (e : PutEntry) (o : MemOutcome) :
    (s.discardCapture n e o).autold = s.autold := by
  simp [State.discardCapture]

@[simp] theorem State.discardCapture_lanes (s : State) (n : LaneNo) (e : PutEntry) (o : MemOutcome) :
    (s.discardCapture n e o).lanes = s.lanes := by
  simp [State.discardCapture]

@[simp] theorem State.discardCapture_pool (s : State) (n : LaneNo) (e : PutEntry) (o : MemOutcome) :
    (s.discardCapture n e o).pool = s.pool := by
  simp [State.discardCapture]

@[simp] theorem State.discardCapture_hold (s : State) (n : LaneNo) (e : PutEntry) (o : MemOutcome) :
    (s.discardCapture n e o).hold = s.hold := by
  simp [State.discardCapture]

@[simp] theorem State.discardCapture_cmd (s : State) (n : LaneNo) (e : PutEntry) (o : MemOutcome) :
    (s.discardCapture n e o).cmd = s.cmd := by
  simp [State.discardCapture]

@[simp] theorem State.discardCapture_status (s : State) (n : LaneNo) (e : PutEntry) (o : MemOutcome) :
    (s.discardCapture n e o).status = s.status := by
  simp [State.discardCapture]

@[simp] theorem State.discardCapture_todo (s : State) (n : LaneNo) (e : PutEntry) (o : MemOutcome) :
    (s.discardCapture n e o).todo = s.todo := by
  simp [State.discardCapture]

@[simp] theorem State.discardCapture_choices (s : State) (n : LaneNo) (e : PutEntry) (o : MemOutcome) :
    (s.discardCapture n e o).choices = s.choices := by
  simp [State.discardCapture]

@[simp] theorem State.discardCapture_sys_presented (s : State) (n : LaneNo) (e : PutEntry) (o : MemOutcome) :
    (s.discardCapture n e o).sys.presented = s.sys.presented := by
  simp [State.discardCapture]

@[simp] theorem State.discardCapture_sys_freeze (s : State) (n : LaneNo) (e : PutEntry) (o : MemOutcome) :
    (s.discardCapture n e o).sys.freeze = s.sys.freeze := by
  simp [State.discardCapture]

@[simp] theorem State.discardCapture_port_systemQ (s : State) (n : LaneNo) (e : PutEntry) (o : MemOutcome) :
    (s.discardCapture n e o).port.systemQ = s.port.systemQ := by
  simp [State.discardCapture]

@[simp] theorem State.discardCapture_port_commandQ (s : State) (n : LaneNo) (e : PutEntry) (o : MemOutcome) :
    (s.discardCapture n e o).port.commandQ = s.port.commandQ := by
  simp [State.discardCapture]

@[simp] theorem State.discardCapture_port_outstanding (s : State) (n : LaneNo) (e : PutEntry) (o : MemOutcome) :
    (s.discardCapture n e o).port.outstanding = s.port.outstanding := by
  simp [State.discardCapture]

@[simp] theorem State.discardCapture_lane (s : State) (n : LaneNo) (e : PutEntry) (o : MemOutcome) (m : LaneNo) :
    (s.discardCapture n e o).lane m = s.lane m := State.lane_congr (s.discardCapture_lanes n e o) m

@[simp] theorem State.discardCapture_heldOf (s : State) (n : LaneNo) (e : PutEntry) (o : MemOutcome) (m : LaneNo) (line : Line) :
    (s.discardCapture n e o).heldOf m line = s.heldOf m line := by simp [State.heldOf]

/-! ## chooseNotice -/

@[simp] theorem State.chooseNotice_pending (s : State) : s.chooseNotice.pending = s.pending :=
  s.chooseNotice_frame.2.2.2.2.2.2.2.2.2.2.1

@[simp] theorem State.chooseNotice_rst (s : State) : s.chooseNotice.rst = s.rst :=
  s.chooseNotice_frame.2.2.2.2.2.1

@[simp] theorem State.chooseNotice_autold (s : State) : s.chooseNotice.autold = s.autold :=
  s.chooseNotice_frame.2.2.2.2.2.2.2.2.2.2.2.1

@[simp] theorem State.chooseNotice_lanes (s : State) : s.chooseNotice.lanes = s.lanes :=
  s.chooseNotice_frame.2.2.1

@[simp] theorem State.chooseNotice_pool (s : State) : s.chooseNotice.pool = s.pool :=
  s.chooseNotice_frame.2.2.2.2.1

@[simp] theorem State.chooseNotice_hold (s : State) : s.chooseNotice.hold = s.hold :=
  s.chooseNotice_frame.1

@[simp] theorem State.chooseNotice_cmd (s : State) : s.chooseNotice.cmd = s.cmd :=
  s.chooseNotice_frame.2.2.2.1

@[simp] theorem State.chooseNotice_status (s : State) : s.chooseNotice.status = s.status :=
  s.chooseNotice_frame.2.2.2.2.2.2.2.2.2.1

@[simp] theorem State.chooseNotice_todo (s : State) : s.chooseNotice.todo = s.todo :=
  s.chooseNotice_frame.2.2.2.2.2.2.1

@[simp] theorem State.chooseNotice_choices (s : State) : s.chooseNotice.choices = s.choices :=
  s.chooseNotice_frame.2.2.2.2.2.2.2.2.2.2.2.2.1

@[simp] theorem State.chooseNotice_dec (s : State) : s.chooseNotice.dec = s.dec :=
  s.chooseNotice_frame.2.2.2.2.2.2.2.2.1

@[simp] theorem State.chooseNotice_sys (s : State) : s.chooseNotice.sys = s.sys :=
  s.chooseNotice_frame.2.2.2.2.2.2.2.1

@[simp] theorem State.chooseNotice_port_systemQ (s : State) : s.chooseNotice.port.systemQ = s.port.systemQ :=
  s.chooseNotice_frame.2.2.2.2.2.2.2.2.2.2.2.2.2.1

@[simp] theorem State.chooseNotice_port_commandQ (s : State) : s.chooseNotice.port.commandQ = s.port.commandQ :=
  s.chooseNotice_frame.2.2.2.2.2.2.2.2.2.2.2.2.2.2.1

@[simp] theorem State.chooseNotice_port_outstanding (s : State) : s.chooseNotice.port.outstanding = s.port.outstanding :=
  s.chooseNotice_frame.2.1

@[simp] theorem State.chooseNotice_lane (s : State) (m : LaneNo) : s.chooseNotice.lane m = s.lane m :=
  State.lane_congr s.chooseNotice_lanes m

end Sys2Proof.Machine
end

