-- ==== Sys2Proof/Laws/Calm.lean ====
section
/-!
SUPPORT. Events that have no work but their own: what an event answers when its state is calm, and the parts of an event
that have nothing to do.
-/
namespace Sys2Proof.Machine

variable {s t : State}

/-! ## Parts of an event -/

@[simp] theorem runTasks_nil (fuel : Nat) (s : State) : runTasks fuel [] s = s := by cases fuel <;> rfl

@[simp] theorem runTasks_cons (fuel : Nat) (t : Task) (rest : List Task) (s : State) :
    runTasks (fuel + 1) (t :: rest) s = runTasks fuel ((s.doTask t).todo ++ rest) { s.doTask t with todo := [] } := rfl

theorem State.todo_nil (h : s.todo = []) : { s with todo := [] } = s := by cases s; cases h; rfl

/-- With nothing noted there is nothing to do. -/
theorem State.settle_of_todo (h : s.todo = []) : s.settle = s := by
  unfold State.settle; rw [h, runTasks_nil, State.todo_nil h]

theorem runTasks_todo (fuel : Nat) : ∀ (ts : List Task) (s : State), s.todo = [] → (runTasks fuel ts s).todo = [] := by
  induction fuel with
  | zero => exact fun _ _ h => h
  | succ fuel ih =>
    intro ts s h
    cases ts with
    | nil => exact h
    | cons t rest => exact ih _ _ rfl

/-- After an event's parts are done nothing is noted. -/
theorem State.settle_todo (s : State) : s.settle.todo = [] := runTasks_todo _ _ _ rfl

/-! ## Calm states -/

theorem State.Calm.congr (h : s.Calm) (hr : t.rst = s.rst) (hp : t.sys.presented = s.sys.presented)
    (hw : t.cmd.work = s.cmd.work) : t.Calm :=
  ⟨hr.trans h.running, hp.trans h.presented, fun table => by rw [hw]; exact h.thawed table⟩

theorem State.Calm.begin (h : s.Calm) : s.begin.Calm := h.congr rfl rfl rfl

theorem State.replaceTest_of_calm (h : s.Calm) : s.replaceTest = s := by
  unfold State.replaceTest
  split
  · rename_i hw; exact absurd hw (h.thawed _)
  · rfl

theorem State.takePresented_of_calm (h : s.Calm) : s.takePresented = s := by
  unfold State.takePresented; rw [h.presented]

/-- The last part of an event that has taken every transaction. -/
theorem State.takePresented_last (fuel : Nat) (h : s.Calm) (ht : s.todo = []) :
    runTasks fuel [.takePresented] s = s := by
  cases fuel with
  | zero => rfl
  | succ fuel =>
    rw [runTasks_cons, show s.doTask .takePresented = s from State.takePresented_of_calm h, ht]
    simp [State.todo_nil ht]

/-- An event that leaves a calm state is over. -/
theorem State.finish_of_calm (h : s.Calm) (ht : s.todo = []) : s.finish = s := by
  unfold State.finish
  rw [State.settle_of_todo ht, State.replaceTest_of_calm h, State.settle_of_todo ht]
  unfold State.settle
  simp only [State.schedule_todo, ht, List.nil_append]
  have : { s.schedule [Task.takePresented] with todo := [] } = s := State.todo_nil (s := s) ht
  rw [this]
  exact State.takePresented_last _ h ht

/-- An event whose body notes nothing more to do. -/
theorem event_of_calm {body : State → State} (hr : s.rst = false) (h : (body s.begin).Calm)
    (ht : (body s.begin).todo = []) : event body s = .next (body s.begin) := by
  unfold event; rw [hr, State.finish_of_calm h ht]; rfl

/-- An event whose body is known. -/
theorem event_eq {body : State → State} {u : State} (hr : s.rst = false) (hb : body s.begin = u) (hc : u.Calm)
    (ht : u.todo = []) : event body s = .next u := by
  subst hb; exact event_of_calm hr hc ht

/-- An event whose body notes parts to do. -/
theorem event_settles {body : State → State} (hr : s.rst = false) (h : (body s.begin).settle.Calm) :
    event body s = .next (body s.begin).settle := by
  have hf : (body s.begin).finish = (body s.begin).settle := by
    conv_rhs => rw [← State.finish_of_calm h (State.settle_todo _)]
    unfold State.finish
    rw [State.settle_of_todo (State.settle_todo (body s.begin))]
  unfold event; rw [hr, hf]; rfl

/-- An event whose body is known and notes parts to do. -/
theorem event_runs {body : State → State} {u v : State} (hr : s.rst = false) (hb : body s.begin = u)
    (hs : u.settle = v) (hc : v.Calm) : event body s = .next v := by
  subst hb; subst hs; exact event_settles hr hc

/-- A state in which no replacement of the aperture table is due. -/
theorem State.replaceTest_of_work (h : s.Calm) (hw : t.cmd.work = s.cmd.work) : t.replaceTest = t := by
  unfold State.replaceTest
  split
  · rename_i hx; exact absurd (hw.symm.trans hx) (h.thawed _)
  · rfl

/-- The event that presents a transaction in a calm state. -/
theorem State.offer_finish (h : s.Calm) (t : Transaction) : (s.begin.offer t).finish =
    runTasks 4095 ((s.begin.offer t).takePresented.todo)
      { (s.begin.offer t).takePresented with todo := [] } := by
  have e1 : (s.begin.offer t).todo = [] := rfl
  have e2 : ({ (s.begin.offer t).schedule [.takePresented] with todo := [] } : State) = s.begin.offer t := rfl
  unfold State.finish
  rw [State.settle_of_todo e1, State.replaceTest_of_work (t := s.begin.offer t) h rfl, State.settle_of_todo e1]
  show runTasks 4096 ([] ++ [.takePresented]) { (s.begin.offer t).schedule [.takePresented] with todo := [] } = _
  rw [e2]
  show runTasks 4095 ((s.begin.offer t).takePresented.todo ++ []) _ = _
  rw [List.append_nil]
  rfl

/-- A presented transaction is taken, and what comes of it is done, in the same event. -/
theorem present_takes {t : Transaction} (h : s.Calm) (hf : s.tagFree t.tag = true) :
    present t s = .next (runTasks 4095 ((s.begin.take t).todo ++ [.takePresented])
      ({ (s.begin.take t) with todo := [] })) := by
  have hp : s.begin.sys.presented = [] := h.presented
  have hb : ({ s.begin.offer t with sys := { (s.begin.offer t).sys with presented := [] } } : State) = s.begin := by
    conv_rhs => rw [show s.begin = { s.begin with sys := { s.begin.sys with presented := s.begin.sys.presented } } from rfl]
    rw [hp]; rfl
  have e3 : (s.begin.offer t).takePresented = (s.begin.take t).schedule [.takePresented] := by
    unfold State.takePresented
    have hq : (s.begin.offer t).sys.presented = [t] := by
      show s.begin.sys.presented ++ [t] = [t]; rw [hp]; rfl
    have hc : (!(s.begin.offer t).rst && (s.begin.offer t).tagFree t.tag) = true := by
      show (!s.rst && s.tagFree t.tag) = true
      rw [h.running, hf]; rfl
    rw [hq]
    simp only [hc, if_true]
    rw [hb]
  unfold present event
  rw [h.running]
  simp only [Bool.false_eq_true, if_false]
  rw [State.offer_finish h, e3]
  rfl

/-- A presented transaction whose path notes nothing more to do. -/
theorem present_done {t : Transaction} (h : s.Calm) (hf : s.tagFree t.tag = true) (hc : (s.begin.take t).Calm)
    (ht : (s.begin.take t).todo = []) : present t s = .next (s.begin.take t) := by
  rw [present_takes h hf, ht, State.todo_nil ht, List.nil_append, State.takePresented_last _ hc ht]

/-- A transaction whose tag is outstanding stays presented. -/
theorem present_waits {t : Transaction} (h : s.Calm) (hf : s.tagFree t.tag = false) :
    present t s = .next (s.begin.offer t) := by
  have e3 : (s.begin.offer t).takePresented = s.begin.offer t := by
    unfold State.takePresented
    have hq : (s.begin.offer t).sys.presented = [t] := by
      show s.sys.presented ++ [t] = [t]; rw [h.presented]; rfl
    have hc : (!(s.begin.offer t).rst && (s.begin.offer t).tagFree t.tag) = false := by
      show (!s.rst && s.tagFree t.tag) = false
      rw [hf]; simp
    rw [hq]
    simp [hc]
  unfold present event
  rw [h.running]
  simp only [Bool.false_eq_true, if_false]
  rw [State.offer_finish h, e3]
  rfl

/-! ## Lane tasks that have nothing to do -/

/-- No test of the lane engine applies to an OPEN lane that no command works on. -/
theorem State.laneTests_open {n : LaneNo} (ho : (s.lane n).state = .opened) (hb : (s.lane n).busy = .clear)
    (hc : s.cmd.work ≠ .closing n) : s.laneTests n = s := by
  have h1 : s.closing n = false := by
    unfold State.closing; simpa using hc
  have h2 : s.cutTest n = s := by unfold State.cutTest; simp [h1]
  have h3 : s.drainTest n = s := by unfold State.drainTest Lane.drained; simp [ho]
  have h4 : s.closeTest n = s := by unfold State.closeTest; simp [h1]
  unfold State.laneTests
  simp [hb, h2, h3, h4]

theorem State.evalPut_nil {n : LaneNo} (h : (s.lane n).putLine = []) : s.evalPut n = s := by
  unfold State.evalPut; simp [h]

theorem State.evalTake_nil {n : LaneNo} (h : (s.lane n).takeLine = []) : s.evalTake n = s := by
  unfold State.evalTake; simp [h]

theorem State.waitEnd_none {n : LaneNo} (h : ∀ p ∈ (s.lane n).putLine, p.stage ≠ .waitTake) : s.waitEnd n = s := by
  unfold State.waitEnd
  split
  · rename_i hx
    rw [Option.any_eq_true] at hx
    obtain ⟨p, hp, hs⟩ := hx
    exact absurd (by simpa using hs) (h p (List.mem_of_mem_head? hp))
  · rfl

/-- Nothing is woken when no held entry is picked. -/
theorem State.wake_none {p : HeldEntry → Bool} (h : ∀ e ∈ s.hold.held, p e = false) : s.wake p = s := by
  have : s.hold.held.filter p = [] := by simpa [List.filter_eq_nil_iff] using h
  unfold State.wake
  simp [this, sortEntries]

/-- A line with no held entry keeps the held table as it is. -/
theorem State.unhold_none {n : LaneNo} {line : Line} (h : s.heldOf n line = none) : s.unhold n line = s := by
  unfold State.unhold
  have : s.hold.held.filter (fun e => !(e.lane == n && e.line == line)) = s.hold.held := by
    rw [List.filter_eq_self]
    intro e he
    unfold State.heldOf at h
    rw [List.find?_eq_none] at h
    simpa [Classical.or_iff_not_imp_left] using h e he
  rw [this]

theorem State.dropHeld_none {n : LaneNo} {line : Line} (h : s.heldOf n line = none) : s.dropHeld n line = s := by
  unfold State.dropHeld; simp [h]

/-- A line of one entry is empty when the entry has left it. -/
theorem State.putLine_tail {n : LaneNo} {e : PutEntry} (h : (s.lane n).putLine = [e]) :
    (s.updLane n fun l => { l with putLine := l.putLine.tail }) = s.updLane n fun l => { l with putLine := [] } := by
  unfold State.updLane; dsimp only; rw [h]; rfl

/-- A line of one entry is empty when the entry has left it. -/
theorem State.takeLine_tail {n : LaneNo} {e : TakeEntry} (h : (s.lane n).takeLine = [e]) :
    (s.updLane n fun l => { l with takeLine := l.takeLine.tail }) = s.updLane n fun l => { l with takeLine := [] } := by
  unfold State.updLane; dsimp only; rw [h]; rfl

/-- What follows when the only entry of a put line leaves it: nothing. -/
theorem State.settle_leavePut {n : LaneNo} (ht : s.todo = []) (hl : (s.lane n).putLine = [])
    (ho : (s.lane n).state = .opened) (hb : (s.lane n).busy = .clear) (hc : s.cmd.work ≠ .closing n) :
    (s.schedule [.laneTests n, .evalPut n]).settle = s := by
  have h1 : s.doTask (.laneTests n) = s := State.laneTests_open ho hb hc
  have h2 : s.doTask (.evalPut n) = s := State.evalPut_nil hl
  have h0 : ({ s.schedule [.laneTests n, .evalPut n] with todo := [] } : State) = s := State.todo_nil (s := s) ht
  unfold State.settle
  rw [h0, State.schedule_todo, ht]
  show runTasks 4096 [.laneTests n, .evalPut n] s = s
  rw [runTasks_cons, h1, ht, State.todo_nil ht, List.nil_append, runTasks_cons, h2, ht, State.todo_nil ht,
    List.nil_append, runTasks_nil]

/-- What follows when the only entry of a take line leaves it: nothing. -/
theorem State.settle_leaveTake {n : LaneNo} (ht : s.todo = []) (hl : (s.lane n).takeLine = [])
    (hw : ∀ p ∈ (s.lane n).putLine, p.stage ≠ .waitTake) (ho : (s.lane n).state = .opened)
    (hb : (s.lane n).busy = .clear) (hc : s.cmd.work ≠ .closing n) :
    (s.schedule [.laneTests n, .waitEnd n, .evalTake n]).settle = s := by
  have h1 : s.doTask (.laneTests n) = s := State.laneTests_open ho hb hc
  have h2 : s.doTask (.waitEnd n) = s := State.waitEnd_none hw
  have h3 : s.doTask (.evalTake n) = s := State.evalTake_nil hl
  have h0 : ({ s.schedule [.laneTests n, .waitEnd n, .evalTake n] with todo := [] } : State) = s :=
    State.todo_nil (s := s) ht
  unfold State.settle
  rw [h0, State.schedule_todo, ht]
  show runTasks 4096 [.laneTests n, .waitEnd n, .evalTake n] s = s
  rw [runTasks_cons, h1, ht, State.todo_nil ht, List.nil_append, runTasks_cons, h2, ht, State.todo_nil ht,
    List.nil_append, runTasks_cons, h3, ht, State.todo_nil ht, List.nil_append, runTasks_nil]

/-! ## Events of one or two parts -/

@[simp] theorem State.schedule_nil (s : State) : s.schedule [] = s := by
  unfold State.schedule; rw [List.append_nil]

/-- Parts that have nothing to do are done at once. -/
theorem runTasks_noops (ht : s.todo = []) (rest : List Task) : ∀ (ts : List Task) (fuel : Nat),
    (∀ x ∈ ts, s.doTask x = s) → runTasks (fuel + ts.length) (ts ++ rest) s = runTasks fuel rest s := by
  intro ts
  induction ts with
  | nil => intro fuel _; rfl
  | cons t ts ih =>
    intro fuel h
    have h1 : s.doTask t = s := h t List.mem_cons_self
    show runTasks (fuel + ts.length + 1) (t :: (ts ++ rest)) s = _
    rw [runTasks_cons, h1, ht, State.todo_nil ht, List.nil_append]
    exact ih fuel fun x hx => h x (List.mem_cons_of_mem _ hx)

/-- An event whose body notes parts that have nothing to do. -/
theorem event_noops {body : State → State} {ts : List Task} (hr : s.rst = false) (hb : body s.begin = t.schedule ts)
    (ht : t.todo = []) (hn : ∀ x ∈ ts, t.doTask x = t) (hl : ts.length ≤ 4096) (hc : t.Calm) :
    event body s = .next t := by
  refine event_runs hr hb ?_ hc
  have h0 : ({ t.schedule ts with todo := [] } : State) = t := State.todo_nil (s := t) ht
  unfold State.settle
  rw [h0, State.schedule_todo, ht, List.nil_append]
  have := runTasks_noops ht [] ts (4096 - ts.length) hn
  rw [List.append_nil, Nat.sub_add_cancel hl, runTasks_nil] at this
  exact this

/-- An event whose body notes one part; what that part notes has nothing to do. -/
theorem event_task {body : State → State} {u : State} {task : Task} {ts : List Task} (hr : s.rst = false)
    (hb : body s.begin = u.schedule [task]) (hu : u.todo = []) (hd : u.doTask task = t.schedule ts) (ht : t.todo = [])
    (hn : ∀ x ∈ ts, t.doTask x = t) (hl : ts.length ≤ 4095) (hc : t.Calm) : event body s = .next t := by
  refine event_runs hr hb ?_ hc
  have h0 : ({ u.schedule [task] with todo := [] } : State) = u := State.todo_nil (s := u) hu
  have h1 : ({ t.schedule ts with todo := [] } : State) = t := State.todo_nil (s := t) ht
  unfold State.settle
  rw [h0, State.schedule_todo, hu, List.nil_append]
  show runTasks 4096 [task] u = t
  rw [runTasks_cons, hd, State.schedule_todo, ht, List.nil_append, h1]
  have := runTasks_noops ht [] ts (4095 - ts.length) hn
  rw [Nat.sub_add_cancel hl, runTasks_nil] at this
  exact this

/-- A presented transaction whose path notes one part; what that part notes has nothing to do. -/
theorem present_task {x : Transaction} {u : State} {task : Task} {ts : List Task} (h : s.Calm)
    (hf : s.tagFree x.tag = true) (hb : s.begin.take x = u.schedule [task]) (hu : u.todo = [])
    (hd : u.doTask task = t.schedule ts) (ht : t.todo = []) (hn : ∀ x ∈ ts, t.doTask x = t)
    (hl : ts.length ≤ 4094) (hc : t.Calm) : present x s = .next t := by
  have h0 : ({ u.schedule [task] with todo := [] } : State) = u := State.todo_nil (s := u) hu
  have h1 : ({ t.schedule ts with todo := [] } : State) = t := State.todo_nil (s := t) ht
  rw [present_takes h hf, hb, State.schedule_todo, hu, h0, List.nil_append]
  show Host.Outcome.next (runTasks 4095 (task :: [.takePresented]) u) = _
  rw [runTasks_cons, hd, State.schedule_todo, ht, List.nil_append, h1]
  have := runTasks_noops ht [.takePresented] ts (4094 - ts.length) hn
  rw [Nat.sub_add_cancel hl] at this
  rw [this, State.takePresented_last _ hc ht]

/-- A presented transaction whose path notes parts that have nothing to do. -/
theorem present_noops {x : Transaction} {ts : List Task} (h : s.Calm) (hf : s.tagFree x.tag = true)
    (hb : s.begin.take x = t.schedule ts) (ht : t.todo = []) (hn : ∀ x ∈ ts, t.doTask x = t)
    (hl : ts.length ≤ 4095) (hc : t.Calm) : present x s = .next t := by
  have h1 : ({ t.schedule ts with todo := [] } : State) = t := State.todo_nil (s := t) ht
  rw [present_takes h hf, hb, State.schedule_todo, ht, h1, List.nil_append]
  have := runTasks_noops ht [.takePresented] ts (4095 - ts.length) hn
  rw [Nat.sub_add_cancel hl] at this
  rw [this, State.takePresented_last _ hc ht]

/-! ## Addresses and lanes -/

/-- An address in a chain depends on the pool's base and the chain alone. -/
theorem State.chainAddress_congr {n : LaneNo} (hp : t.pool = s.pool) (hc : (t.lane n).chain = (s.lane n).chain)
    (pos : Nat) : t.chainAddress n pos = s.chainAddress n pos := by
  unfold State.chainAddress State.poolAddress; rw [hp, hc]

@[simp] theorem State.setLane_setLane (s : State) (n : LaneNo) (l m : Lane) :
    (s.setLane n l).setLane n m = s.setLane n m := by
  unfold State.setLane; simp

/-- Setting a lane to what it is changes nothing. -/
theorem State.setLane_self (s : State) {n : LaneNo} {l : Lane} (h : l = s.lane n) : s.setLane n l = s := by
  subst h; unfold State.setLane State.lane; simp

/-- A lane with an empty put line is not scanning. -/
theorem Lane.scanning_nil {l : Lane} (h : l.putLine = []) : l.scanning = false := by
  unfold Lane.scanning; simp [h]

/-- The tests that follow when a take leaves an OPEN lane whose lines are empty have nothing to do. -/
theorem State.leaveTake_noops {n : LaneNo} (hl : (s.lane n).takeLine = []) (hw : (s.lane n).putLine = [])
    (ho : (s.lane n).state = .opened) (hb : (s.lane n).busy = .clear) (hc : s.cmd.work ≠ .closing n) :
    ∀ x ∈ [Task.laneTests n, .waitEnd n, .evalTake n], s.doTask x = s := by
  intro x hx
  simp only [List.mem_cons, List.not_mem_nil, or_false] at hx
  rcases hx with rfl | rfl | rfl
  · exact State.laneTests_open ho hb hc
  · exact State.waitEnd_none (by simp [hw])
  · exact State.evalTake_nil hl

/-- The tests that follow when a put leaves an OPEN lane whose put line is empty have nothing to do. -/
theorem State.leavePut_noops {n : LaneNo} (hl : (s.lane n).putLine = [])
    (ho : (s.lane n).state = .opened) (hb : (s.lane n).busy = .clear) (hc : s.cmd.work ≠ .closing n) :
    ∀ x ∈ [Task.laneTests n, .evalPut n], s.doTask x = s := by
  intro x hx
  simp only [List.mem_cons, List.not_mem_nil, or_false] at hx
  rcases hx with rfl | rfl
  · exact State.laneTests_open ho hb hc
  · exact State.evalPut_nil hl

/-- An answer and a change of a lane do not meet. -/
theorem State.answer_setLane (s : State) (n : LaneNo) (l : Lane) (tag : Tag) (error : Bool) (d : Word) :
    (s.setLane n l).answer tag error d = (s.answer tag error d).setLane n l := rfl

/-- A new request and a change of a lane do not meet. -/
theorem State.request_setLane (s : State) (n : LaneNo) (l : Lane) (r : MemRequest) :
    (s.setLane n l).request r = (s.request r).setLane n l := rfl

/-- A notice and a change of a lane do not meet. -/
theorem State.produce_setLane (s : State) (n : LaneNo) (l : Lane) (x : Notice) :
    (s.setLane n l).produce x = (s.produce x).setLane n l := by
  have hc : ∀ u : State, (u.setLane n l).chooseNotice = u.chooseNotice.setLane n l := by
    intro u
    unfold State.chooseNotice
    by_cases h : u.notice.write.isSome
    · rw [if_pos h, if_pos (by simpa using h)]
    · rw [if_neg h, if_neg (by simpa using h)]; rfl
  unfold State.produce
  by_cases h : (!s.notice.enables x.kind) = true
  · have h' : (!(s.setLane n l).notice.enables x.kind) = true := h
    rw [if_pos h', if_pos h]
  · have h' : ¬ (!(s.setLane n l).notice.enables x.kind) = true := h
    rw [if_neg h', if_neg h]
    by_cases h2 : (s.notice.entries == 0 || decide (Config.waitingNotices ≤ s.notice.waiting.length)) = true
    · have h2' : ((s.setLane n l).notice.entries == 0 ||
          decide (Config.waitingNotices ≤ (s.setLane n l).notice.waiting.length)) = true := h2
      rw [if_pos h2', if_pos h2]; rfl
    · have h2' : ¬ ((s.setLane n l).notice.entries == 0 ||
          decide (Config.waitingNotices ≤ (s.setLane n l).notice.waiting.length)) = true := h2
      rw [if_neg h2', if_neg h2]
      exact hc { s with notice := { s.notice with waiting := s.notice.waiting ++ [x] } }

/-- A notice and a change of the command unit do not meet. -/
theorem State.produce_setCmd (s : State) (c : CommandUnit) (x : Notice) :
    ({ s with cmd := c } : State).produce x = { s.produce x with cmd := c } := by
  have hc : ∀ u : State, ({ u with cmd := c } : State).chooseNotice = { u.chooseNotice with cmd := c } := by
    intro u
    unfold State.chooseNotice
    by_cases h : u.notice.write.isSome
    · rw [if_pos h, if_pos (by simpa using h)]
    · rw [if_neg h, if_neg (by simpa using h)]
  unfold State.produce
  by_cases h : (!s.notice.enables x.kind) = true
  · rw [if_pos h, if_pos h]
  · rw [if_neg h, if_neg h]
    by_cases h2 : (s.notice.entries == 0 || decide (Config.waitingNotices ≤ s.notice.waiting.length)) = true
    · rw [if_pos h2, if_pos h2]
    · rw [if_neg h2, if_neg h2]
      exact hc { s with notice := { s.notice with waiting := s.notice.waiting ++ [x] } }

/-- The only entry of a put line is evaluated as a put. -/
theorem State.evalPut_put {n : LaneNo} {e : PutEntry} (hl : (s.lane n).putLine = [e]) (hs : e.stage = .waiting)
    (hk : ∀ hold o, e.kind ≠ .capture hold o) : s.evalPut n = s.evaluatePut n e := by
  unfold State.evalPut
  simp only [hl, hs]
  cases hkind : e.kind with
  | capture hold o => exact absurd hkind (hk hold o)
  | body => simp
  | final tag => simp

/-! ## The control block's addresses and the command word -/

/-- An offset of the control block is read back from its address. -/
theorem State.controlOffset_address (s : State) {o : Nat} (h : o < 4096) : s.controlOffset (s.controlAddress o) = o := by
  unfold State.controlOffset State.controlAddress
  have : s.dec.cfgb.zeroExtend 32 <<< 24 + BitVec.ofNat 32 o - (s.dec.cfgb.zeroExtend 32 <<< 24 + BitVec.ofNat 32 0)
      = BitVec.ofNat 32 o := by
    rw [show BitVec.ofNat 32 0 = 0#32 from rfl, BitVec.add_zero, BitVec.add_comm, BitVec.add_sub_cancel]
  rw [this, BitVec.toNat_ofNat]
  omega

theorem State.inControl_address (s : State) {o : Nat} (h : o < 4096) : s.inControl (s.controlAddress o) = true := by
  unfold State.inControl; rw [s.controlOffset_address h]; simpa using h

/-- The fields of a command word are read back. -/
theorem commandOf_commandTransaction (s : State) (code : Byte) (w : CommandWrite) :
    commandOf (commandTransaction s code w) =
      { code := code, lane := w.lane, flags := w.flags, ticket := w.ticket, master := w.master.zeroExtend 8 } := by
  have h1 : ∀ (a b c d : Half) (i : Nat), i < 16 → (packHalves a b c d).getLsbD i = a.getLsbD i := by
    intro a b c d i hi
    unfold packHalves
    rw [BitVec.getLsbD_append, if_pos hi]
  have h2 : ∀ (a b c d : Half) (i : Nat), i < 16 → (packHalves a b c d).getLsbD (16 + i) = b.getLsbD i := by
    intro a b c d i hi
    unfold packHalves
    rw [BitVec.getLsbD_append, if_neg (by omega), show 16 + i - 16 = i by omega, BitVec.getLsbD_append, if_pos hi]
  have h3 : ∀ (a b c d : Half) (i : Nat), i < 16 → (packHalves a b c d).getLsbD (32 + i) = c.getLsbD i := by
    intro a b c d i hi
    unfold packHalves
    rw [BitVec.getLsbD_append, if_neg (by omega), BitVec.getLsbD_append, if_neg (by omega), BitVec.getLsbD_append,
      if_pos (by omega), show 32 + i - 16 - 16 = i by omega]
  have h4 : ∀ (a b : Byte) (i : Nat), i < 8 → (packPair a b).getLsbD i = a.getLsbD i := by
    intro a b i hi
    unfold packPair
    rw [BitVec.getLsbD_append, if_pos hi]
  have h5 : ∀ (a b : Byte) (i : Nat), i < 8 → (packPair a b).getLsbD (8 + i) = b.getLsbD i := by
    intro a b i hi
    unfold packPair
    rw [BitVec.getLsbD_append, if_neg (by omega), show 8 + i - 8 = i by omega]
  unfold commandOf commandTransaction
  refine (Command.mk.injEq _ _ _ _ _ _ _ _ _ _).mpr ⟨?_, ?_, ?_, ?_, rfl⟩
  · apply BitVec.eq_of_getLsbD_eq
    intro i hi
    unfold byteOf
    rw [BitVec.getLsbD_extractLsb', decide_eq_true hi, Bool.true_and, show 8 * 0 + i = i by omega, h1 _ _ _ _ _ (by omega),
      h4 _ _ _ hi]
  · apply BitVec.eq_of_getLsbD_eq
    intro i hi
    unfold byteOf
    rw [BitVec.getLsbD_extractLsb', decide_eq_true hi, Bool.true_and, show 8 * 1 + i = 8 + i by omega,
      h1 _ _ _ _ _ (by omega), h5 _ _ _ hi]
  · apply BitVec.eq_of_getLsbD_eq
    intro i hi
    unfold byteOf
    rw [BitVec.getLsbD_extractLsb', decide_eq_true hi, Bool.true_and, show 8 * 2 + i = 16 + i by omega,
      h2 _ _ _ _ _ (by omega), h4 _ _ _ hi]
  · apply BitVec.eq_of_getLsbD_eq
    intro i hi
    unfold halfOf
    rw [BitVec.getLsbD_extractLsb', decide_eq_true hi, Bool.true_and, show 8 * 4 + i = 32 + i by omega,
      h3 _ _ _ _ _ (by omega)]

/-- The path of a command word that the IDLE unit finds. -/
theorem State.take_command {code : Byte} {w : CommandWrite} (h : s.Decodes (commandTransaction s code w))
    (hr : s.cmd.running = false) : s.begin.take (commandTransaction s code w)
      = (s.begin.occupy (commandTransaction s code w)).takeCommand (commandTransaction s code w) := by
  have hi : (s.begin.occupy (commandTransaction s code w)).inControl (commandTransaction s code w).address = true :=
    s.inControl_address (o := 0x800) (by omega)
  have ho : (s.begin.occupy (commandTransaction s code w)).controlOffset (commandTransaction s code w).address = 0x800 :=
    s.controlOffset_address (by omega)
  have hz : (s.begin.occupy (commandTransaction s code w)).sys.freeze = false := h.thawed
  have hq : (s.begin.occupy (commandTransaction s code w)).cmd.running = false := hr
  unfold State.take
  simp only [h.aligned, hz, Bool.not_true, Bool.false_eq_true, if_false]
  unfold State.decode
  rw [if_pos hi]
  unfold State.control
  dsimp only
  rw [ho]
  unfold State.commandWord
  rw [hq]
  rfl

/-- A command word that is taken: the copy, the response, the forwarded write; then its work begins. -/
theorem State.takeCommand_begin {code : Byte} {w : CommandWrite} (hn : s.cmd.autoload = none) :
    (s.begin.occupy (commandTransaction s code w)).takeCommand (commandTransaction s code w)
      = (s.commandTaken code w s.cmd.work []).beginCommand
        { code := code, lane := w.lane, flags := w.flags, ticket := w.ticket, master := w.master.zeroExtend 8 } := by
  unfold State.takeCommand
  rw [commandOf_commandTransaction]
  dsimp only
  unfold State.respond State.commandTaken CommandUnit.master State.commandRequests State.request
  simp [hn, masterByte, commandTransaction]
  rfl

/-! ## Commands are events -/

/-- Every command but those of RST_N is one event. -/
theorem exec_event (c : Instr) (s : State) (h1 : c ≠ .hardReset) (h2 : ∀ cfgb autold, c ≠ .resetRelease cfgb autold) :
    ∃ body, exec c s = event body s := by
  cases c with
  | hardReset => exact absurd rfl h1
  | resetRelease a b => exact absurd rfl (h2 a b)
  | _ =>
    simp only [exec, execTick, execHoldExpiry, execCommandWaiterExpiry, execMemoryRequestAbandon, execStatusIntervalExpiry,
      execSystemPortTransaction, execBodyPut, execFinalPut, execPutStatusRead, execDataRead, execHeadInfoRead,
      execRelease, execTappedAccess, execNoticeConsumerIndex, execLoadSetup, execLoadApertures, execOpenLane,
      execCloseLane, execFlushLane, execResetLane, execWriteStatus, execUnknownCommand, execCommandWaiterHandover,
      execMemoryRequestIssue, execPassThroughEnd, execBodyWriteEnd, execHeaderWriteEnd, execCaptureWriteEnd,
      execScanReadEnd, execHeadFetchEnd, execTakeReadEnd, execImageReadEnd, execResponseWriteEnd, execNoticeWriteEnd,
      execStatusWriteEnd, execLateResponse, execPutTakeWaitEnd, execHeldEntryWake, execParcelCut, execDrainCompletion,
      execLaneDiscard, execApertureReplacement, execNoticeWrite, execStatusWriteBack, execGenerationEnd, present]
    exact ⟨_, rfl⟩

/-! ## Changes of a lane whose lines are empty -/

/-- A change of a lane's state that finds its put line empty. -/
theorem State.changePuts_quiet {n : LaneNo} (hp : (s.lane n).putLine = []) (hh : s.heldOf n .put = none)
    (f : Lane → Lane) (gone : PutEntry → Bool) :
    s.changePuts n f gone = s.setLane n { f (s.lane n) with putLine := [] } := by
  unfold State.changePuts State.answerGonePuts
  dsimp only
  rw [hp]
  simp only [List.filter_nil, List.foldl_nil]
  exact State.dropHeld_none (by simpa using hh)

/-- A change of a lane's state that finds its take line empty. -/
theorem State.changeTakes_quiet {n : LaneNo} (hp : (s.lane n).takeLine = []) (hh : s.heldOf n .take = none)
    (f : Lane → Lane) : s.changeTakes n f = s.setLane n { f (s.lane n) with takeLine := [] } := by
  unfold State.changeTakes State.answerGoneTakes
  dsimp only
  rw [hp]
  simp only [List.filter_nil, List.foldl_nil]
  exact State.dropHeld_none (by simpa using hh)

/-- A change of a lane's state that finds both its lines empty. -/
theorem State.changeBoth_quiet {n : LaneNo} (hp : (s.lane n).putLine = []) (ht : (s.lane n).takeLine = [])
    (h1 : s.heldOf n .put = none) (h2 : s.heldOf n .take = none) (f : Lane → Lane) (gone : PutEntry → Bool) :
    s.changeBoth n f gone = s.setLane n { f (s.lane n) with putLine := [], takeLine := [] } := by
  unfold State.changeBoth State.answerGonePuts State.answerGoneTakes
  dsimp only
  rw [hp, ht]
  simp only [List.filter_nil, List.foldl_nil]
  have h1' : (s.setLane n { f (s.lane n) with putLine := [], takeLine := [] }).heldOf n .put = none := h1
  rw [State.dropHeld_none h1']
  exact State.dropHeld_none (by exact h2)

/-- The cut of an open parcel that is due (R4). -/
theorem State.cutTest_due {n : LaneNo} {p : OpenParcel} (hc : s.closing n = true) (hs : (s.lane n).state = .draining)
    (hp : (s.lane n).openParcel = some p) (hf : (s.lane n).putInFlight = false) (hk : (s.lane n).cutting = false) :
    s.cutTest n = (s.setLane n
        { s.lane n with tailOffset := roundUp8 (s.lane n).tailOffset, cutting := true }).request
      (wordRequest (.headerWrite n) 0xFF (s.poolAddress p.segment p.offset) true
        (closingHeader (BitVec.ofNat 16 p.length) p.sequence 0xFF (p.flags ||| flagCut)).word) := by
  unfold State.cutTest
  rw [if_pos (by simp [hc, hs, hp, hf, hk])]
  unfold State.closeParcel State.updLane
  simp only [hp]
  show ((s.setLane n _).request _).setLane n _ = _
  have : ∀ (l m : Lane) (r : MemRequest), ((s.setLane n l).request r).setLane n m = (s.setLane n m).request r := by
    intro l m r; unfold State.request State.setLane; simp
  rw [this]
  simp

/-- The end of a command and a change of a lane do not meet. -/
theorem State.completeCommand_setLane (s : State) (n : LaneNo) (l : Lane) (outcome reason detail : Byte) :
    (s.setLane n l).completeCommand outcome reason detail = (s.completeCommand outcome reason detail).setLane n l := by
  have hr : ∀ ticket code, (s.setLane n l).respond ticket outcome reason detail code
      = (s.respond ticket outcome reason detail code).setLane n l := fun _ _ => rfl
  unfold State.completeCommand
  dsimp only
  rw [show (s.setLane n l).cmd = s.cmd from rfl, hr]
  split
  · rw [State.produce_setLane]; rfl
  · rfl

/-- A notice and a change of the pool do not meet. -/
theorem State.produce_setPool (s : State) (p : Pool) (x : Notice) :
    ({ s with pool := p } : State).produce x = { s.produce x with pool := p } := by
  have hc : ∀ u : State, ({ u with pool := p } : State).chooseNotice = { u.chooseNotice with pool := p } := by
    intro u
    unfold State.chooseNotice
    by_cases h : u.notice.write.isSome
    · rw [if_pos h, if_pos (by simpa using h)]
    · rw [if_neg h, if_neg (by simpa using h)]
  unfold State.produce
  by_cases h : (!s.notice.enables x.kind) = true
  · rw [if_pos h, if_pos h]
  · rw [if_neg h, if_neg h]
    by_cases h2 : (s.notice.entries == 0 || decide (Config.waitingNotices ≤ s.notice.waiting.length)) = true
    · rw [if_pos h2, if_pos h2]
    · rw [if_neg h2, if_neg h2]
      exact hc { s with notice := { s.notice with waiting := s.notice.waiting ++ [x] } }

/-- The end of a command and a change of the pool do not meet. -/
theorem State.completeCommand_setPool (s : State) (p : Pool) (outcome reason detail : Byte) :
    ({ s with pool := p } : State).completeCommand outcome reason detail
      = { s.completeCommand outcome reason detail with pool := p } := by
  have hr : ∀ ticket code, ({ s with pool := p } : State).respond ticket outcome reason detail code
      = { s.respond ticket outcome reason detail code with pool := p } := fun _ _ => rfl
  unfold State.completeCommand
  dsimp only
  rw [hr]
  split
  · rw [State.produce_setPool]; rfl
  · rfl

/-- Segments that are pushed wake nobody when nothing is held. -/
theorem State.returnSegments_none (h : s.hold.held = []) (segs : List Nat) (also : HeldEntry → Bool) :
    s.returnSegments segs also = s.pushSegments segs := by
  unfold State.returnSegments
  exact State.wake_none (by simp [State.pushSegments, h])

/-! ## Lines of one entry -/

/-- The only entry of a put line leaves it. -/
theorem State.leavePut_setLane {n : LaneNo} {l : Lane} {e : PutEntry} (hh : s.heldOf n .put = none)
    (hl : l.putLine = [e]) :
    (s.setLane n l).leavePutLine n = (s.setLane n { l with putLine := [] }).schedule [.laneTests n, .evalPut n] := by
  unfold State.leavePutLine
  rw [State.dropHeld_none (by exact hh), State.putLine_tail (e := e) (by simpa using hl)]
  unfold State.updLane
  rw [State.setLane_setLane, State.lane_setLane_same]

/-- The only entry of a take line leaves it. -/
theorem State.leaveTake_setLane {n : LaneNo} {l : Lane} {e : TakeEntry} (hh : s.heldOf n .take = none)
    (hl : l.takeLine = [e]) :
    (s.setLane n l).leaveTakeLine n
      = (s.setLane n { l with takeLine := [] }).schedule [.laneTests n, .waitEnd n, .evalTake n] := by
  unfold State.leaveTakeLine
  rw [State.dropHeld_none (by exact hh), State.takeLine_tail (e := e) (by simpa using hl)]
  unfold State.updLane
  rw [State.setLane_setLane, State.lane_setLane_same]

/-- The only put of a line is answered and leaves it. -/
theorem State.answerPut_setLane {n : LaneNo} {l : Lane} {e : PutEntry} (hh : s.heldOf n .put = none)
    (hl : l.putLine = [e]) (hd : e.tx.direction = .write) (ok : Bool) :
    (s.setLane n l).answerPut n e ok
      = ((s.setLane n { l with putLine := [] }).answer e.tx.tag (!ok) 0).schedule [.laneTests n, .evalPut n] := by
  have h : ∀ b, ((s.setLane n l).answer e.tx.tag b 0).leavePutLine n
      = ((s.setLane n { l with putLine := [] }).answer e.tx.tag b 0).schedule [.laneTests n, .evalPut n] := by
    intro b
    rw [State.answer_setLane, State.leavePut_setLane (by exact hh) hl]
    rfl
  unfold State.answerPut
  cases ok
  · exact h true
  · rw [if_pos rfl]
    unfold State.answerOk
    rw [hd]
    exact h false

/-- The only take of a line is answered OK with data and leaves it. -/
theorem State.answerTake_setLane {n : LaneNo} {l : Lane} {e : TakeEntry} (hh : s.heldOf n .take = none)
    (hl : l.takeLine = [e]) (hd : e.tx.direction = .read) (d : Word) :
    (s.setLane n l).answerTake n e d
      = ((s.setLane n { l with takeLine := [] }).answer e.tx.tag false (maskWord (laneEnables e.tx) d)).schedule
        [.laneTests n, .waitEnd n, .evalTake n] := by
  unfold State.answerTake State.answerOk
  rw [hd]
  dsimp only
  rw [State.answer_setLane, State.leaveTake_setLane (by exact hh) hl]
  rfl

/-- The only take of a line is answered ERROR and leaves it. -/
theorem State.failTake_setLane {n : LaneNo} {l : Lane} {e : TakeEntry} (hh : s.heldOf n .take = none)
    (hl : l.takeLine = [e]) :
    (s.setLane n l).failTake n e
      = ((s.setLane n { l with takeLine := [] }).answer e.tx.tag true 0).schedule
        [.laneTests n, .waitEnd n, .evalTake n] := by
  unfold State.failTake State.answerError
  rw [State.answer_setLane, State.leaveTake_setLane (by exact hh) hl]
  rfl

/-- The only put of a line goes to another stage. -/
theorem State.setPutStage_setLane {n : LaneNo} {l : Lane} {e : PutEntry} (hl : l.putLine = [e]) (stage : PutStage) :
    (s.setLane n l).setPutStage n stage = s.setLane n { l with putLine := [{ e with stage := stage }] } := by
  unfold State.setPutStage State.updLane
  rw [State.setLane_setLane, State.lane_setLane_same]
  dsimp only
  rw [hl]

/-- The only take of a line goes to another stage. -/
theorem State.setTakeStage_setLane {n : LaneNo} {l : Lane} {e : TakeEntry} (hl : l.takeLine = [e]) (stage : TakeStage) :
    (s.setLane n l).setTakeStage n stage = s.setLane n { l with takeLine := [{ e with stage := stage }] } := by
  unfold State.setTakeStage State.updLane
  rw [State.setLane_setLane, State.lane_setLane_same]
  dsimp only
  rw [hl]

/-- The open parcel of a lane closes. -/
theorem State.closeParcel_setLane {n : LaneNo} {l : Lane} {p : OpenParcel} (hp : l.openParcel = some p)
    (tag flags master : Byte) :
    (s.setLane n l).closeParcel n tag flags master
      = (s.setLane n { l with tailOffset := roundUp8 l.tailOffset }).request
        (wordRequest (.headerWrite n) master (s.poolAddress p.segment p.offset) true
          (closingHeader (BitVec.ofNat 16 p.length) p.sequence tag (p.flags ||| flags)).word) := by
  unfold State.closeParcel State.updLane
  rw [State.lane_setLane_same]
  split
  · rename_i h; rw [hp] at h; cases h
  · rename_i h
    rw [hp] at h
    cases h
    dsimp only
    rw [State.setLane_setLane]
    rfl

/-! ## Requests that end -/

/-- A response ends the oldest request. -/
theorem State.begin_memoryResponse {r : MemRequest} {rest : List Outstanding} (h : s.Ends r rest) (m : MemResponse) :
    s.begin.memoryResponse m = (s.ended rest).requestEnded r (outcomeOf m) := by
  obtain ⟨e, h1, h2, h3⟩ := h.oldest
  unfold State.memoryResponse
  rw [show s.begin.port.outstanding = e :: rest from h1]
  dsimp only
  rw [h3, h2]
  rfl

/-- With no entry to be abandoned a tick abandons none. -/
theorem State.abandonReached_none (h : ∀ e ∈ s.port.outstanding, e.expires = false) (count : Nat) :
    s.abandonReached count = s := by
  cases count with
  | zero => rfl
  | succ count =>
    unfold State.abandonReached
    rw [List.findIdx?_eq_none_iff.mpr fun e he => by simp [h e he]]

/-- The oldest entry to be abandoned goes first: it keeps its place with its mark set, and its owner receives failure. -/
theorem State.abandonReached_first {front rest : List Outstanding} {e : Outstanding}
    (h : s.port.outstanding = front ++ e :: rest) (hf : ∀ x ∈ front, x.expires = false) (he : e.expires = true)
    (count : Nat) : s.abandonReached (count + 1) = ((({ s with port := { s.port with
      outstanding := front ++ { e with abandoned := true } :: rest
      timeouts := satInc s.port.timeouts } } : State).requestEnded e.request .timeout).settle).abandonReached count := by
  have hi : s.port.outstanding.findIdx? Outstanding.expires = some front.length := by
    rw [h, List.findIdx?_append, List.findIdx?_eq_none_iff.mpr fun x hx => by simp [hf x hx]]
    simp [List.findIdx?_cons, he]
  have hg : s.port.outstanding[front.length]? = some e := by rw [h]; simp
  have ht : (s.port.outstanding.take front.length).any Outstanding.expires = false := by
    rw [h, List.take_left]
    simpa using hf
  conv_lhs => unfold State.abandonReached
  rw [hi]
  dsimp only
  unfold State.abandon
  rw [hg]
  dsimp only
  rw [he, ht, h]
  simp

/-- A tick that reaches no request's deadline. -/
theorem State.tick_none (h : ∀ e ∈ s.port.outstanding, e.abandoned = true ∨
    (e.due = false ∧ e.deadline ≠ some (s.hold.ticks + 1))) : s.tick = s.countTick := by
  refine State.abandonReached_none (fun e he => ?_) _
  obtain ⟨x, hx, rfl⟩ := List.mem_map.mp (show e ∈ s.port.outstanding.map (Outstanding.tick (s.hold.ticks + 1)) from he)
  unfold Outstanding.expires Outstanding.tick
  rcases h x hx with ha | ⟨hd, hn⟩
  · simp [ha]
  · simp only [hd, Bool.false_or, Bool.and_eq_false_iff, beq_eq_false_iff_ne]
    exact .inl (.inr hn)

/-- A request of an OPEN lane that ends in success. -/
theorem State.laneSuccess_open {n : LaneNo} (h : (s.lane n).state = .opened) :
    s.laneSuccess n = s.setLane n { s.lane n with errors := 0 } := by
  unfold State.laneSuccess State.updLane Lane.serving; simp [h]

/-- A request of an OPEN lane, not a header write, that ends in failure below the fault threshold. -/
theorem State.laneFailure_open {n : LaneNo} {r : MemRequest} {rest : List Outstanding}
    (h : (s.lane n).state = .opened) (hr : r.owner ≠ .headerWrite n)
    (ht : (s.lane n).errors + 1 ≠ (s.lane n).desc.faultThreshold) :
    ((s.ended rest).countFailure .error).laneFailure n r .error
      = (s.endedFailed r rest (laneByte n) (BitVec.ofNat 16 ((s.lane n).errors + 1))).setLane n
        { s.lane n with errors := (s.lane n).errors + 1 } := by
  have hl : ((s.ended rest).countFailure .error).lane n = s.lane n := rfl
  have hs : (s.lane n).serving = true := by unfold Lane.serving; simp [h]
  unfold State.laneFailure State.updLane
  dsimp only
  rw [hl, hs]
  simp only [if_true, Bool.not_true, Bool.false_eq_true, if_false]
  rw [State.produce_setLane]
  simp only [State.lane_setLane_same]
  rw [if_neg (by simpa using hr), if_neg (by simpa using ht)]
  rfl

end Sys2Proof.Machine
end

