-- ==== Sys2Proof/Laws/Words.lean ====
section
/-!
SUPPORT. The fields of a word are read back as they were packed (12.1, R169).
-/
namespace Sys2Proof.Machine

variable (a b c d : Half) (p q : Quad) (x y : Byte)

theorem quadOf_packQuads_low : quadOf (packQuads p q) 0 = p := by
  unfold quadOf packQuads
  rw [BitVec.extractLsb'_append_eq_of_add_le (by omega)]
  exact BitVec.extractLsb'_eq_self

theorem quadOf_packQuads_high : quadOf (packQuads p q) 4 = q := by
  unfold quadOf packQuads
  rw [BitVec.extractLsb'_append_eq_of_le (by omega)]
  exact BitVec.extractLsb'_eq_self

/-- A half of the second quad of a word. -/
theorem halfOf_packQuads_high (k : Nat) (h : 4 ≤ k) : halfOf (packQuads p q) k = q.extractLsb' (8 * k - 32) 16 := by
  unfold halfOf packQuads
  rw [BitVec.extractLsb'_append_eq_of_le (by omega)]

/-- A half of the first quad of a word. -/
theorem halfOf_packQuads_low (k : Nat) (h : k ≤ 2) : halfOf (packQuads p q) k = p.extractLsb' (8 * k) 16 := by
  unfold halfOf packQuads
  rw [BitVec.extractLsb'_append_eq_of_add_le (by omega)]

/-- A byte of the second quad of a word. -/
theorem byteOf_packQuads_high (k : Nat) (h : 4 ≤ k) : byteOf (packQuads p q) k = q.extractLsb' (8 * k - 32) 8 := by
  unfold byteOf packQuads
  rw [BitVec.extractLsb'_append_eq_of_le (by omega)]

/-- A byte of the first quad of a word. -/
theorem byteOf_packQuads_low (k : Nat) (h : k ≤ 3) : byteOf (packQuads p q) k = p.extractLsb' (8 * k) 8 := by
  unfold byteOf packQuads
  rw [BitVec.extractLsb'_append_eq_of_add_le (by omega)]

/-- The four halves of a word. -/
theorem halfOf_packHalves : halfOf (packHalves a b c d) 0 = a ∧ halfOf (packHalves a b c d) 2 = b ∧
    halfOf (packHalves a b c d) 4 = c ∧ halfOf (packHalves a b c d) 6 = d := by
  unfold halfOf packHalves
  refine ⟨?_, ?_, ?_, ?_⟩ <;>
    (repeat (first
      | rw [BitVec.extractLsb'_append_eq_of_add_le (by omega)]
      | rw [BitVec.extractLsb'_append_eq_of_le (by omega)])) <;>
    exact BitVec.extractLsb'_eq_self

/-- The eight bytes of a word of four pairs. -/
theorem byteOf_packPairs (x₀ x₁ x₂ x₃ x₄ x₅ x₆ x₇ : Byte) :
    (List.range 8).map (byteOf (packHalves (packPair x₀ x₁) (packPair x₂ x₃) (packPair x₄ x₅) (packPair x₆ x₇))) =
      [x₀, x₁, x₂, x₃, x₄, x₅, x₆, x₇] := by
  simp only [List.range_succ, List.range_zero, List.nil_append, List.map_cons, List.map_nil,
    List.cons_append, List.cons.injEq, and_true]
  unfold byteOf packHalves packPair
  refine ⟨?_, ?_, ?_, ?_, ?_, ?_, ?_, ?_⟩ <;>
    (repeat (first
      | rw [BitVec.extractLsb'_append_eq_of_add_le (by omega)]
      | rw [BitVec.extractLsb'_append_eq_of_le (by omega)])) <;>
    exact BitVec.extractLsb'_eq_self

/-- The two bytes of a pair. -/
theorem extract_packPair : (packPair x y).extractLsb' 0 8 = x ∧ (packPair x y).extractLsb' 8 8 = y := by
  unfold packPair
  refine ⟨?_, ?_⟩ <;>
    (repeat (first
      | rw [BitVec.extractLsb'_append_eq_of_add_le (by omega)]
      | rw [BitVec.extractLsb'_append_eq_of_le (by omega)])) <;>
    exact BitVec.extractLsb'_eq_self

/-- The halves and the bytes of a quad that is a pair of bytes above a half. -/
theorem extract_pairHalf : (packPair x y ++ a : Quad).extractLsb' 0 16 = a ∧
    (packPair x y ++ a : Quad).extractLsb' 16 8 = x ∧ (packPair x y ++ a : Quad).extractLsb' 24 8 = y := by
  unfold packPair
  refine ⟨?_, ?_, ?_⟩ <;>
    (repeat (first
      | rw [BitVec.extractLsb'_append_eq_of_add_le (by omega)]
      | rw [BitVec.extractLsb'_append_eq_of_le (by omega)])) <;>
    exact BitVec.extractLsb'_eq_self

/-- A field of a field of a word. -/
theorem extract_extract {n : Nat} (w : BitVec n) (i len j k : Nat) (h : j + k ≤ len) :
    (w.extractLsb' i len).extractLsb' j k = w.extractLsb' (i + j) k := by
  apply BitVec.eq_of_getLsbD_eq
  intro m hm
  have : j + m < len := by omega
  simp [hm, this]
  congr 1
  omega

theorem byteOf_push_zero (b : Byte) (w : Word) : byteOf ((w <<< 8) ||| b.zeroExtend 64) 0 = b := by
  unfold byteOf
  apply BitVec.eq_of_getLsbD_eq
  intro i hi
  have h : i < 64 := by omega
  simp [hi, h]

theorem byteOf_push_succ (b : Byte) (w : Word) (k : Nat) (h : k < 7) :
    byteOf ((w <<< 8) ||| b.zeroExtend 64) (k + 1) = byteOf w k := by
  unfold byteOf
  apply BitVec.eq_of_getLsbD_eq
  intro i hi
  have h0 : b.getLsbD (8 * (k + 1) + i) = false := BitVec.getLsbD_of_ge _ _ (by omega)
  have h1 : ¬ 8 * (k + 1) + i < 8 := by omega
  have h2 : 8 * (k + 1) + i - 8 = 8 * k + i := by omega
  have h3 : 8 * (k + 1) + i < 64 := by omega
  simp [hi, h0, h1, h2, h3]
  exact BitVec.getElem_eq_testBit_toNat _ _ (by omega)

/-- Byte lane `k` of a word packed from bytes. -/
theorem byteOf_packBytes (bs : List Byte) (hb : bs.length ≤ 8) (k : Nat) (hk : k < 8) :
    byteOf (packBytes bs) k = bs.getD k 0 := by
  unfold packBytes
  rw [List.take_of_length_le hb]
  induction bs generalizing k with
  | nil => simp [byteOf]
  | cons b bs ih =>
    rw [List.foldr_cons]
    cases k with
    | zero => rw [byteOf_push_zero]; rfl
    | succ k => rw [byteOf_push_succ _ _ _ (by omega), ih (by simp at hb; omega) k (by omega)]; rfl

/-- Byte lane `k` of a masked word: its byte if the lane is enabled, else 0x00 (R162). -/
theorem byteOf_maskWord (e : BitVec 8) (w : Word) (k : Nat) (hk : k < 8) :
    byteOf (maskWord e w) k = if e.getLsbD k then byteOf w k else 0 := by
  unfold maskWord
  rw [byteOf_packBytes _ (by simp) _ hk]
  simp [List.getD, hk]

end Sys2Proof.Machine
end

