-- ==== Sys2Proof/WellFormed.lean ====
section
/-!
DEFINITION. Which commands are well formed: what their row of the table says of their operands before any state is
looked at. The block gives every command its meaning, well formed or not; the check is for statements about a row.
-/
namespace Sys2Proof

/-- The sizes the system port carries (R161). -/
def Transaction.sizeLegal (t : Transaction) : Bool :=
  t.size == 1 || t.size == 2 || t.size == 4 || t.size == 8

/-- The offset of the address in its 4 KiB block (R39, R57). -/
def Transaction.blockOffset (t : Transaction) : Nat := t.address.toNat % 4096

/-- What each row says of its operands: legal sizes; the direction and region of a PUT or TAKE aperture access
(R39, R40, R57); a code outside the seven commands for UNKNOWN_COMMAND (R126). -/
def Instr.wellFormed : Instr → Bool
  | .systemPortTransaction t => t.sizeLegal
  | .tappedAccess t => t.sizeLegal
  | .bodyPut t => t.sizeLegal && t.direction == .write && t.blockOffset < 0x800
  | .finalPut t => t.sizeLegal && t.direction == .write && 0x800 ≤ t.blockOffset
  | .putStatusRead t => t.sizeLegal && t.direction == .read
  | .dataRead t => t.sizeLegal && t.direction == .read && t.blockOffset < 0x800
  | .headInfoRead t =>
    t.sizeLegal && t.direction == .read && 0x800 ≤ t.blockOffset && t.blockOffset < 0xC00
  | .release t => t.sizeLegal && t.direction == .read && 0xC00 ≤ t.blockOffset
  | .unknownCommand code _ => code == 0 || 7 < code.toNat
  | .hardReset | .resetRelease _ _ | .tick | .holdExpiry _ _ | .commandWaiterExpiry
  | .memoryRequestAbandon _ | .statusIntervalExpiry | .noticeConsumerIndex _ _ _
  | .loadSetup _ | .loadApertures _ | .openLane _ | .closeLane _ | .flushLane _ | .resetLane _
  | .writeStatus _ | .commandWaiterHandover | .memoryRequestIssue | .passThroughEnd _
  | .bodyWriteEnd _ | .headerWriteEnd _ | .captureWriteEnd _ | .scanReadEnd _ | .headFetchEnd _
  | .takeReadEnd _ | .imageReadEnd _ | .responseWriteEnd _ | .noticeWriteEnd _ | .statusWriteEnd _
  | .lateResponse _ | .putTakeWaitEnd _ | .heldEntryWake _ _ | .parcelCut _ | .drainCompletion _
  | .laneDiscard _ | .apertureReplacement | .noticeWrite | .statusWriteBack | .generationEnd => true

end Sys2Proof
end

