-- ==== Sys2Proof/Tests/Slice0.lean ====
section
/-!
SUPPORT. Tests: the smoke tests of the well-formedness check, small tests of single commands, and for every statement
with hypotheses a state and operands that meet them, clause by clause.
-/
namespace Sys2Proof.Tests
open Sys2Proof.Machine

/-! ## Small worlds -/

/-- The machine right after RST_N has risen with AUTOLD low and CFGB 0. -/
def on : State := { State.reset with rst := false }

/-- A transaction of master 3 under tag 0. -/
def tx (direction : Direction) (address size : Nat) : Transaction :=
  { address := BitVec.ofNat 32 address, direction := direction, size := size, master := 3, tag := 0,
    data := 0x8877665544332211 }

def desc (full : FullAction) (empty : EmptyAction) : Descriptor :=
  { autoOpen := false, autoRelease := false, fullAction := full, emptyAction := empty, faultThreshold := 3, quota := 2,
    maxLength := 40, holdLimit := 10, readyThreshold := 2 }

/-- An OPEN lane that holds nothing. -/
def emptyLane (full : FullAction) (empty : EmptyAction) : Lane :=
  { Lane.empty with state := .opened, desc := desc full empty, armed := true }

/-- A stored header of 16 bytes, sequence 0, tag 7. -/
def storedHeader : Header := closingHeader 16 0 7 0

/-- An OPEN lane with an open parcel of 8 bytes in segment 5. -/
def openLane (full : FullAction) : Lane :=
  { emptyLane full .fill with
    chain := [5], tailOffset := 16, putSeq := 1,
    openParcel := some { segment := 5, offset := 0, length := 8, flags := 0, sequence := 0 } }

/-- An OPEN lane with one ready parcel of 16 bytes in segment 5. -/
def readyLane (empty : EmptyAction) : Lane :=
  { emptyLane .refuse empty with chain := [5], tailOffset := 24, putSeq := 1, ready := 1 }

/-- An OPEN lane whose chain is full at its quota. -/
def fullLane (full : FullAction) : Lane :=
  { openLane full with
    chain := [5, 6], tailOffset := 512,
    openParcel := some { segment := 6, offset := 500, length := 4, flags := 0, sequence := 0 } }

/-- Aperture entry 1 is `a`, lane 2 is `l`, and a pool of 16 segments has all but 5 and 6 free. -/
def world (a : Aperture) (l : Lane) : State :=
  ({ on with
    dec := { on.dec with entries := (Vector.replicate 23 .invalid).set 0 a }
    pool := { base := 0x40000000, count := 16, freeList := [0, 1, 2, 3, 4, 7, 8, 9, 10, 11, 12, 13, 14, 15],
              minFree := 14, watermark := 2, armed := true } } : State).setLane 2 l

def putEntry : Aperture := .put 0x60000000 12 2
def takeEntry : Aperture := .take 0x60000000 12 2

/-- A command word write by master 3 under tag 0 for `lane`. -/
def cw (lane : Nat) : CommandWrite :=
  { master := 3, tag := 0, lane := BitVec.ofNat 8 lane, flags := 0, unused3 := 0, ticket := 0x1234, unused6 := 0 }

/-- A held entry of lane 2 whose deadline was reached. -/
def heldBy (line : Line) (kind : WaitKind) : HeldEntry :=
  { tag := 0, lane := 2, line := line, kind := kind, start := 0, deadline := 10, due := true }

/-- `s` with `e` held. -/
def withHeld (s : State) (e : HeldEntry) : State := { s with hold := { s.hold with held := [e] } }

/-- A put-line entry and a take-line entry. -/
def putOf (kind : PutKind) (stage : PutStage) : PutEntry :=
  { tx := tx .write 0x60000000 8, entry := 0, kind := kind, stage := stage, linked := false }
def takeOf (kind : TakeKind) (stage : TakeStage) : TakeEntry :=
  { tx := tx .read 0x60000000 8, entry := 0, kind := kind, stage := stage }

/-- The same under tag `k`. -/
def putAt (k : Tag) (kind : PutKind) (stage : PutStage) : PutEntry :=
  { putOf kind stage with tx := { tx .write 0x60000000 8 with tag := k } }
def takeAt (k : Tag) (kind : TakeKind) (stage : TakeStage) : TakeEntry :=
  { takeOf kind stage with tx := { tx .read 0x60000000 8 with tag := k } }

/-- A request of `owner`, and the machine with it as the oldest outstanding request. -/
def requestOf (owner : Owner) : MemRequest := wordRequest owner 3 0x40000A00 true 0
def withOldest (s : State) (owner : Owner) : State :=
  { s with port := { s.port with
      outstanding := [{ request := requestOf owner, issueTick := 0, deadline := none, due := false,
                        abandoned := false }] } }

/-- The state a command leaves. -/
def after (c : Instr) (s : State) : State :=
  match exec c s with
  | .next t => t
  | _ => s

/-! ## What the witnesses show -/

theorem calm_of {s : State} (h : (!s.rst && s.sys.presented.isEmpty && s.cmd.work == .none) = true) : s.Calm := by
  simp only [Bool.and_eq_true, Bool.not_eq_true', List.isEmpty_iff, beq_iff_eq] at h
  exact ⟨h.1.1, h.1.2, fun table => by rw [h.2]; intro hx; cases hx⟩

theorem decodes_of {s : State} {t : Transaction} (hc : s.Calm)
    (h : (s.tagFree t.tag && aligned t && !s.sys.freeze) = true) : s.Decodes t := by
  simp only [Bool.and_eq_true, Bool.not_eq_true'] at h
  exact ⟨hc, h.1.1, h.1.2, h.2⟩

theorem routes_of {s : State} {t : Transaction} {i : Fin 23} {a : Aperture} (hd : s.Decodes t)
    (h : (!s.inControl t.address && !s.dec.guarded t.address && s.dec.firstMatch t == some (i, a)) = true) :
    s.Routes t i a := by
  simp only [Bool.and_eq_true, Bool.not_eq_true', beq_iff_eq] at h
  exact ⟨hd, h.1.1, h.1.2, h.2⟩

theorem putQuiet_of {s : State} {n : LaneNo}
    (h : ((s.lane n).state == .opened && (s.lane n).busy == .clear && (s.lane n).putLine.isEmpty
      && (s.heldOf n .put).isNone && s.cmd.work != .closing n) = true) : s.PutQuiet n := by
  simp only [Bool.and_eq_true, beq_iff_eq, List.isEmpty_iff, Option.isNone_iff_eq_none, bne_iff_ne] at h
  exact ⟨h.1.1.1.1, h.1.1.1.2, h.1.1.2, h.1.2, h.2⟩

theorem takeQuiet_of {s : State} {n : LaneNo}
    (h : ((s.lane n).state == .opened && (s.lane n).busy == .clear && (s.lane n).takeLine.isEmpty
      && (s.heldOf n .take).isNone && (s.lane n).putLine.isEmpty && s.cmd.work != .closing n) = true) :
    s.TakeQuiet n := by
  simp only [Bool.and_eq_true, beq_iff_eq, List.isEmpty_iff, Option.isNone_iff_eq_none, bne_iff_ne] at h
  exact ⟨h.1.1.1.1.1, h.1.1.1.1.2, h.1.1.1.2, h.1.1.2, h.1.2, h.2⟩

theorem puts_of {s : State} {n : LaneNo} {e : PutEntry}
    (h : ((s.lane n).state == .opened && (s.lane n).busy == .clear && (s.lane n).putLine == [e]
      && (s.heldOf n .put).isNone && s.cmd.work != .closing n) = true) : s.Puts n e := by
  simp only [Bool.and_eq_true, beq_iff_eq, Option.isNone_iff_eq_none, bne_iff_ne] at h
  exact ⟨h.1.1.1.1, h.1.1.1.2, h.1.1.2, h.1.2, h.2⟩

theorem takes_of {s : State} {n : LaneNo} {e : TakeEntry}
    (h : ((s.lane n).state == .opened && (s.lane n).busy == .clear && (s.lane n).takeLine == [e]
      && (s.heldOf n .take).isNone && (s.lane n).putLine.isEmpty && s.cmd.work != .closing n) = true) :
    s.Takes n e := by
  simp only [Bool.and_eq_true, beq_iff_eq, List.isEmpty_iff, Option.isNone_iff_eq_none, bne_iff_ne] at h
  exact ⟨h.1.1.1.1.1, h.1.1.1.1.2, h.1.1.1.2, h.1.1.2, h.1.2, h.2⟩

theorem ends_of {s : State} (hc : s.Calm) (owner : Owner) : (withOldest s owner).Ends (requestOf owner) [] :=
  ⟨⟨hc.running, hc.presented, hc.thawed⟩, _, rfl, rfl, rfl⟩

theorem heldOf_kind {s : State} {n : LaneNo} {line : Line} {e : HeldEntry} (h : s.heldOf n line = some e) {k : WaitKind}
    (hk : e.kind = k) : ∀ x, s.heldOf n line = some x → x.kind = k := fun _ hx => by
  rw [h] at hx
  cases hx
  exact hk

/-- No entry of a put line is a capture. -/
def noCapture (es : List PutEntry) : Bool := es.all fun e => match e.kind with
  | .capture _ _ => false
  | _ => true

theorem noCapture_of {es : List PutEntry} (h : noCapture es = true) : ∀ e ∈ es, ∀ hold o, e.kind ≠ .capture hold o := by
  intro e he hold o hk
  have := List.all_eq_true.mp h e he
  rw [hk] at this
  cases this

theorem on_calm : on.Calm := calm_of (by decide)
theorem world_calm (a : Aperture) (l : Lane) : (world a l).Calm := ⟨rfl, rfl, fun _ h => by cases h⟩

theorem world_routes {a : Aperture} {l : Lane} {t : Transaction} {i : Fin 23} {b : Aperture}
    (h1 : ((world a l).tagFree t.tag && aligned t && !(world a l).sys.freeze) = true)
    (h2 : (!(world a l).inControl t.address && !(world a l).dec.guarded t.address &&
      (world a l).dec.firstMatch t == some (i, b)) = true) : (world a l).Routes t i b :=
  routes_of (decodes_of (world_calm a l) h1) h2

/-! ## Queue, reset, clock -/

theorem witness_EmptyQueueIsOneCycle :
    (State.reset.pending = [] ∧ State.reset.rst = true) ∧
    (({ on with hold := { on.hold with cycle := 98 } } : State).hold.cycle + 1 < on.hold.divider.toNat) ∧
    (on.hold.divider.toNat ≤ ({ on with hold := { on.hold with cycle := 99 } } : State).hold.cycle + 1) ∧
    on.pending = [] ∧ on.rst = false := by decide

theorem witness_ResetReleaseCompletes :
    State.reset.rst = true ∧ State.reset.sys.presented = [] ∧ ∀ table, State.reset.cmd.work ≠ .freezing table :=
  ⟨rfl, rfl, fun _ h => by cases h⟩

theorem witness_NothingHappensInReset :
    State.reset.rst = true ∧ Instr.tick ≠ .hardReset ∧ ∀ cfgb autold, Instr.tick ≠ .resetRelease cfgb autold :=
  ⟨rfl, by decide, fun _ _ h => by cases h⟩

/-- The machine with a command word waiting whose deadline was reached. -/
def waiting : State :=
  { on with hold := { on.hold with
      waiter := some { tx := commandTransaction on 2 (cw 0), arrival := 0, deadline := 5, due := true } } }

theorem witness_CommandWaiterExpiryCompletes :
    waiting.Calm ∧ ∃ w, waiting.hold.waiter = some w ∧ w.due = true := ⟨calm_of (by decide), _, rfl, rfl⟩

/-- The machine with an expiry of the interval not taken. -/
def expired (running : Bool) : State :=
  { on with status := { on.status with expiryDue := true, inProgress := running, left := 5 } }

theorem witness_StatusIntervalExpiryCompletes :
    ((expired false).Calm ∧ (expired false).status.expiryDue = true ∧ (expired false).status.inProgress = false) ∧
    ((expired true).Calm ∧ (expired true).status.expiryDue = true ∧ (expired true).status.inProgress = true) :=
  ⟨⟨calm_of (by decide), rfl, rfl⟩, calm_of (by decide), rfl, rfl⟩

/-- Eight forwarded reads are outstanding; the deadline of those at the places in `due` was reached. -/
def eightDue (due : List Nat) : State :=
  { on with port := { on.port with
      outstanding := (List.range 8).map fun i =>
        { request := requestOf (.forward (tx .read 0x60000000 8) 0xFF none), issueTick := 0, deadline := some 9,
          due := due.contains i, abandoned := false } } }
def eight : State := eightDue [7]

theorem witness_MemoryRequestAbandonCompletes :
    (eight.Calm ∧ (∃ e, eight.port.outstanding[7]? = some e ∧ e.due = true ∧ e.abandoned = false ∧
      e.request.owner = .forward (tx .read 0x60000000 8) 0xFF none) ∧
      ∀ x ∈ eight.port.outstanding.take 7, x.due = true → x.abandoned = true) ∧
    ((eightDue [6, 7]).Calm ∧ (∃ e, (eightDue [6, 7]).port.outstanding[7]? = some e ∧ e.due = true ∧
      e.abandoned = false) ∧
      ∃ x ∈ (eightDue [6, 7]).port.outstanding.take 7, x.due = true ∧ x.abandoned = false) :=
  ⟨⟨calm_of (by decide), ⟨_, rfl, rfl, rfl, rfl⟩, by decide⟩, calm_of (by decide), ⟨_, rfl, rfl, rfl⟩, by decide⟩

/-- A request of `owner` is outstanding behind one that is never due, one whose deadline is the next tick and one that is
abandoned. -/
def reaching (owner : Owner) : State :=
  let entry (owner : Owner) (deadline : Option Quad) (abandoned : Bool) : Outstanding :=
    { request := requestOf owner, issueTick := 0, deadline := deadline, due := abandoned, abandoned := abandoned }
  let read : Owner := .forward (tx .read 0x60000000 8) 0xFF none
  { on with port := { on.port with
      outstanding := [entry read none false, entry read (some 1) false, entry read (some 1) true, entry owner (some 1) false] } }

theorem witness_TickCompletes :
    let reached (e : Outstanding) : Bool := !e.abandoned && (e.due || e.deadline == some (on.hold.ticks + 1))
    (on.Calm ∧ on.port.outstanding = []) ∧
    ((eightDue []).Calm ∧ ∀ e ∈ (eightDue []).port.outstanding, reached e = false) ∧
    (let s := reaching (.forward (tx .write 0x1000 4) 3 none);
      s.Calm ∧ (s.port.outstanding.filter reached).length = 2 ∧
        ∀ e ∈ s.port.outstanding, reached e = true → ∃ t source, e.request.owner = .forward t source none) ∧
    (∀ owner, (reaching owner).Calm ∧ ∃ front e rest, (reaching owner).port.outstanding = front ++ e :: rest ∧
      front.length = 1 ∧ (∀ x ∈ front, reached x = false) ∧ reached e = true) ∧
    ((∀ e ∈ (eightDue []).port.outstanding, e.due = true → e.abandoned = true) ∧
      ∃ front e rest, (eightDue [6, 7]).port.outstanding = front ++ e :: rest ∧ front.length = 6 ∧
        (∀ x ∈ front, x.due = true → x.abandoned = true) ∧ e.due = true ∧ e.abandoned = false) := by
  refine ⟨⟨on_calm, rfl⟩, ⟨calm_of (by decide), by decide⟩, ⟨calm_of (by decide), by decide, ?_⟩,
    fun owner => ⟨⟨rfl, rfl, fun _ h => by cases h⟩, _ :: [], _, _, rfl, rfl, ?_, rfl⟩, by decide,
    (eightDue [6, 7]).port.outstanding.take 6, _, _, rfl, rfl, by decide, rfl, rfl⟩
  · intro e he _
    simp only [reaching, List.mem_cons, List.not_mem_nil, or_false] at he
    rcases he with rfl | rfl | rfl | rfl <;> exact ⟨_, _, rfl⟩
  · intro x hx
    rw [List.mem_singleton.mp hx]
    rfl

/-- The tick abandons both entries whose deadline it reaches, the older first, and no other. -/
theorem test_tick_abandons :
    let s := after .tick (reaching (.forward { tx .write 0x1000 4 with tag := 5 } 3 none))
    s.sys.responses.map (fun r => (r.tag, r.error)) = [(0, true), (5, true)] ∧ s.port.timeouts = 2 ∧ s.port.errors = 2 ∧
      s.port.outstanding.map Outstanding.abandoned = [false, true, true, true] ∧
      after (.memoryRequestAbandon 3) s = s.begin := by decide

def heldPut (kind : PutKind) : State :=
  withHeld (world putEntry { openLane .hold with putLine := [putOf kind .waiting] }) (heldBy .put .pool)
def heldTake : State :=
  withHeld (world takeEntry { emptyLane .refuse .hold with takeLine := [takeOf .data .waiting] }) (heldBy .take .parcel)

theorem witness_HoldExpiryCompletes :
    (∀ kind, (heldPut kind).Calm ∧ ((heldPut kind).lane 2).state = .opened ∧ ((heldPut kind).lane 2).busy = .clear ∧
      (heldPut kind).cmd.work ≠ .closing 2 ∧ (heldBy .put .pool).due = true ∧
      ((heldPut kind).lane 2).putLine = [putOf kind .waiting] ∧
      (heldPut kind).heldOf 2 .put = some (heldBy .put .pool) ∧
      ∀ x ∈ (heldPut kind).hold.held, x.kind = .pool → x.lane = 2 ∧ x.line = .put) ∧
    (heldTake.Calm ∧ (heldTake.lane 2).state = .opened ∧ (heldTake.lane 2).busy = .clear ∧
      heldTake.cmd.work ≠ .closing 2 ∧ (heldTake.lane 2).takeLine = [takeOf .data .waiting] ∧
      (heldTake.lane 2).putLine = [] ∧ heldTake.heldOf 2 .take = some (heldBy .take .parcel) ∧
      (heldBy .take .parcel).due = true ∧ (heldBy .take .parcel).kind = .parcel) := by
  refine ⟨fun kind => ⟨⟨rfl, rfl, fun _ h => by cases h⟩, rfl, rfl, nofun, rfl, rfl, by rfl, ?_⟩,
    ⟨rfl, rfl, fun _ h => by cases h⟩, rfl, rfl, nofun, rfl, rfl, by rfl, rfl, rfl⟩
  intro x hx _
  simp only [heldPut, withHeld, List.mem_singleton] at hx
  subst hx
  exact ⟨rfl, rfl⟩

/-! ## System port and decoder -/

theorem witness_MisalignedIsRefused :
    on.Calm ∧ on.presents (.systemPortTransaction (tx .read 2 4)) = some (tx .read 2 4) ∧ on.tagFree 0 = true ∧
      aligned (tx .read 2 4) = false ∧ aligned (tx .read 0 3) = false ∧ aligned (tx .read 0 16) = false ∧
      aligned (tx .read 4 4) = true := ⟨on_calm, rfl, by decide, by decide, by decide, by decide, by decide⟩

/-- Tag 0 is outstanding. -/
def occupied : State := on.occupy (tx .read 0x60000000 8)
/-- Decode is frozen, a validated table waits, and a forwarded read is unended unless `quiet`. -/
def replacing (quiet : Bool) : State :=
  { on with
    sys := { on.sys with freeze := true }
    cmd := { on.cmd with running := true, work := .freezing (Vector.replicate 23 .invalid) }
    port := { on.port with systemQ := if quiet then [] else [requestOf (.bodyWrite 2)] } }

theorem witness_TransactionsThatWait :
    (occupied.Calm ∧ occupied.presents (.dataRead (tx .read 0x60000008 8)) = some (tx .read 0x60000008 8) ∧
      occupied.tagFree 0 = false) ∧
    ((replacing false).presents (.dataRead (tx .read 0x60000008 8)) = some (tx .read 0x60000008 8) ∧
      (replacing false).rst = false ∧ (replacing false).sys.presented = [] ∧
      (replacing false).cmd.work = .freezing (Vector.replicate 23 .invalid) ∧ (replacing false).sys.freeze = true ∧
      (replacing false).systemQuiet = false ∧ (replacing false).tagFree 0 = true ∧
      aligned (tx .read 0x60000008 8) = true) :=
  ⟨⟨calm_of (by decide), rfl, by decide⟩, rfl, rfl, rfl, rfl, rfl, by decide, by decide, by decide⟩

theorem witness_PassThroughCompletes :
    on.Decodes (tx .write 0x1000 8) ∧ on.inControl 0x1000 = false ∧ on.dec.guarded 0x1000 = false ∧
      on.dec.firstMatch (tx .write 0x1000 8) = none :=
  ⟨decodes_of on_calm (by decide), by decide, by decide, by decide⟩

/-- A PASS entry at 0x60000000 that relocates to 0x40000000, beside a pool guard range of 16 segments there. -/
def passWorld : State :=
  { world (.pass 0x60000000 16 0x40000000) (emptyLane .refuse .fill) with
    dec := { (world (.pass 0x60000000 16 0x40000000) (emptyLane .refuse .fill)).dec with
      guard := some (0x40000000, 0x40002000) } }

theorem passWorld_routes {a : Nat}
    (h1 : (passWorld.tagFree 0 && aligned (tx .read a 8) && !passWorld.sys.freeze) = true)
    (h2 : (!passWorld.inControl (tx .read a 8).address && !passWorld.dec.guarded (tx .read a 8).address &&
      passWorld.dec.firstMatch (tx .read a 8) == some (0, .pass 0x60000000 16 0x40000000)) = true) :
    passWorld.Routes (tx .read a 8) 0 (.pass 0x60000000 16 0x40000000) :=
  routes_of (decodes_of ⟨rfl, rfl, fun _ h => by cases h⟩ h1) h2

theorem witness_PassEntryRelocates :
    (passWorld.Routes (tx .read 0x60001FF8 8) 0 (.pass 0x60000000 16 0x40000000) ∧
      passWorld.dec.guarded (0x40000000 + ((tx .read 0x60001FF8 8).address - 0x60000000)) = true) ∧
    (passWorld.Routes (tx .read 0x60002000 8) 0 (.pass 0x60000000 16 0x40000000) ∧
      passWorld.dec.guarded (0x40000000 + ((tx .read 0x60002000 8).address - 0x60000000)) = false) :=
  ⟨⟨passWorld_routes (by decide) (by decide), by decide⟩, passWorld_routes (by decide) (by decide), by decide⟩

theorem witness_GuardEntryDecides (mode : GuardMode) (direction : Direction) :
    (world (.guard 0x60000000 12 mode 0x8) (emptyLane .refuse .fill)).Routes (tx direction 0x60000FF8 8) 0
      (.guard 0x60000000 12 mode 0x8) := by
  cases mode <;> cases direction <;> exact world_routes (by decide) (by decide)

theorem witness_FirstMatchingEntryDecides :
    (world putEntry (emptyLane .refuse .fill)).inControl 0x60000FFF = false ∧
    (world putEntry (emptyLane .refuse .fill)).dec.guarded 0x60000FFF = false ∧
    (world putEntry (emptyLane .refuse .fill)).dec.firstMatch (tx .write 0x60000FFF 1) = some (0, putEntry) ∧
    (world putEntry (emptyLane .refuse .fill)).dec.firstMatch (tx .write 0x60001000 1) = none := by decide

/-- A pool guard range of 16 segments at 0x40000000. -/
def guardedPool : State := { on with dec := { on.dec with guard := some (0x40000000, 0x40002000) } }

theorem witness_PoolRangeIsRefused :
    guardedPool.Decodes (tx .read 0x40001FF8 8) ∧ guardedPool.inControl 0x40001FF8 = false ∧
      guardedPool.dec.guarded 0x40001FF8 = true ∧ guardedPool.dec.guarded 0x40002000 = false :=
  ⟨decodes_of (calm_of (by decide)) (by decide), by decide, by decide, by decide⟩

theorem witness_ControlBlockAccess :
    (on.Decodes (tx .read 0xFF8 8) ∧ on.inControl 0xFF8 = true) ∧
    (on.Decodes (tx .write 0x814 4) ∧ on.inControl 0x814 = true ∧
      touches (on.controlOffset 0x814) 4 0x800 8 = false ∧ touches (on.controlOffset 0x814) 4 0x810 4 = false) ∧
    (on.Decodes (tx .write 0x807 1) ∧ touches (on.controlOffset 0x807) 1 0x800 8 = true ∧
      ¬ (on.controlOffset 0x807 = 0x800 ∧ 1 = 8)) ∧
    (on.Decodes (tx .write 0x810 8) ∧ touches (on.controlOffset 0x810) 8 0x800 8 = false ∧
      touches (on.controlOffset 0x810) 8 0x810 4 = true ∧ ¬ (on.controlOffset 0x810 = 0x810 ∧ 8 = 4)) :=
  ⟨⟨decodes_of on_calm (by decide), by decide⟩,
    ⟨decodes_of on_calm (by decide), by decide, by decide, by decide⟩,
    ⟨decodes_of on_calm (by decide), by decide, by decide⟩,
    decodes_of on_calm (by decide), by decide, by decide, by decide⟩

theorem witness_TappedAccessCompletes (reads hold : Bool) (direction : Direction) :
    (world (.tap 0x60000000 12 2 reads hold) (emptyLane .refuse .fill)).Routes (tx direction 0x60000104 4) 0
      (.tap 0x60000000 12 2 reads hold) := by
  cases reads <;> cases hold <;> cases direction <;> exact world_routes (by decide) (by decide)

theorem witness_PutStatusReadCompletes :
    (world putEntry (emptyLane .refuse .fill)).Routes (tx .read 0x60000FF8 8) 0 putEntry :=
  world_routes (by decide) (by decide)

theorem witness_LaneRefusesByState :
    ((world putEntry .empty).presents (.bodyPut (tx .write 0x60000000 8)) = some (tx .write 0x60000000 8) ∧
      ((world putEntry .empty).lane 2).refusal true = some 0x16 ∧
      (world putEntry .empty).Routes (tx .write 0x60000000 8) 0 putEntry) ∧
    ((world takeEntry .empty).presents (.release (tx .read 0x60000C00 8)) = some (tx .read 0x60000C00 8) ∧
      ((world takeEntry .empty).lane 2).refusal false = some 0x16 ∧
      (world takeEntry .empty).Routes (tx .read 0x60000C00 8) 0 takeEntry) :=
  ⟨⟨rfl, by decide, world_routes (by decide) (by decide)⟩, rfl, by decide, world_routes (by decide) (by decide)⟩

theorem witness_WriteToTakeApertureIsRefused :
    (world takeEntry (emptyLane .refuse .fill)).presents (.systemPortTransaction (tx .write 0x60000FFF 1))
      = some (tx .write 0x60000FFF 1) ∧
    (world takeEntry (emptyLane .refuse .fill)).Routes (tx .write 0x60000FFF 1) 0 takeEntry :=
  ⟨rfl, world_routes (by decide) (by decide)⟩

/-! ## Puts and takes -/

/-- `s` presents with `c` a write to a PUT aperture of lane 2, whose put side has nothing to do. -/
def putMeets (s : State) (c : Transaction → Instr) (a : Nat) : Prop :=
  s.presents (c (tx .write a 8)) = some (tx .write a 8) ∧ s.Routes (tx .write a 8) 0 putEntry ∧
    (tx .write a 8).direction = .write ∧ s.PutQuiet 2

/-- `s` presents with `c` a read in a TAKE aperture of lane 2, whose take side has nothing to do. -/
def takeMeets (s : State) (c : Transaction → Instr) (a : Nat) : Prop :=
  s.presents (c (tx .read a 8)) = some (tx .read a 8) ∧ s.Routes (tx .read a 8) 0 takeEntry ∧
    (tx .read a 8).direction = .read ∧ s.TakeQuiet 2

theorem putMeets_of {s : State} {c : Transaction → Instr} {a : Nat} (hr : s.Routes (tx .write a 8) 0 putEntry)
    (h : ((s.lane 2).state == .opened && (s.lane 2).busy == .clear && (s.lane 2).putLine.isEmpty
      && (s.heldOf 2 .put).isNone && s.cmd.work != .closing 2) = true)
    (hc : s.presents (c (tx .write a 8)) = some (tx .write a 8) := by rfl) : putMeets s c a :=
  ⟨hc, hr, rfl, putQuiet_of h⟩

theorem takeMeets_of {s : State} {c : Transaction → Instr} {a : Nat} (hr : s.Routes (tx .read a 8) 0 takeEntry)
    (h : ((s.lane 2).state == .opened && (s.lane 2).busy == .clear && (s.lane 2).takeLine.isEmpty
      && (s.heldOf 2 .take).isNone && (s.lane 2).putLine.isEmpty && s.cmd.work != .closing 2) = true)
    (hc : s.presents (c (tx .read a 8)) = some (tx .read a 8) := by rfl) : takeMeets s c a :=
  ⟨hc, hr, rfl, takeQuiet_of h⟩

theorem witness_PutStarts :
    (putMeets (world putEntry (emptyLane .refuse .fill)) .bodyPut 0x600007F8 ∧
      (emptyLane .refuse .fill).keptBytes (tx .write 0x600007F8 8) ≠ [] ∧
      (world putEntry (emptyLane .refuse .fill)).spaceCheck 2 true 16 = .starts true ∧
      (emptyLane .refuse .fill).putNeed (tx .write 0x600007F8 8) = 16) ∧
    (putMeets (world putEntry (openLane .refuse)) .finalPut 0x60000800 ∧
      (openLane .refuse).keptBytes (tx .write 0x60000800 8) ≠ [] ∧
      (world putEntry (openLane .refuse)).spaceCheck 2 false 8 = .starts false ∧
      (openLane .refuse).putNeed (tx .write 0x60000800 8) = 8) :=
  ⟨⟨putMeets_of (world_routes (by decide) (by decide)) (by decide), by decide, by decide, by decide⟩,
    putMeets_of (world_routes (by decide) (by decide)) (by decide), by decide, by decide, by decide⟩

/-- A lane whose open parcel has reached the maximum length. -/
def longLane : Lane :=
  { openLane .refuse with
    openParcel := some { segment := 5, offset := 0, length := 40, flags := 0, sequence := 0 }, tailOffset := 48 }

theorem witness_PutThatKeepsNothingStarts :
    (putMeets (world putEntry longLane) .bodyPut 0x600007F8 ∧
      (tx .write 0x600007F8 8).address.toNat % 4096 < 0x800) ∧
    (putMeets (world putEntry longLane) .finalPut 0x60000800 ∧ 0x800 ≤ (tx .write 0x60000800 8).address.toNat % 4096) ∧
    ∃ p, ((world putEntry longLane).lane 2).openParcel = some p ∧
      ((world putEntry longLane).lane 2).desc.maxLength ≤ p.length :=
  ⟨⟨putMeets_of (world_routes (by decide) (by decide)) (by decide), by decide⟩,
    ⟨putMeets_of (world_routes (by decide) (by decide)) (by decide), by decide⟩, _, rfl, by decide⟩

theorem witness_FullLaneRefusesPut :
    (putMeets (world putEntry (fullLane .refuse)) .bodyPut 0x60000000 ∧
      (fullLane .refuse).keptBytes (tx .write 0x60000000 8) ≠ [] ∧
      (world putEntry (fullLane .refuse)).spaceCheck 2 false 8 = .full .space ∧
      ((world putEntry (fullLane .refuse)).lane 2).desc.fullAction = .refuse) ∧
    (putMeets (world putEntry (fullLane .evict)) .bodyPut 0x60000000 ∧
      (world putEntry (fullLane .evict)).spaceCheck 2 false 8 = .full .space ∧
      ((world putEntry (fullLane .evict)).lane 2).desc.fullAction = .evict ∧
      ((world putEntry (fullLane .evict)).lane 2).ready = 0) ∧
    (fullLane .refuse).putNeed (tx .write 0x60000000 8) = 8 :=
  ⟨⟨putMeets_of (world_routes (by decide) (by decide)) (by decide), by decide, by decide, by decide⟩,
    ⟨putMeets_of (world_routes (by decide) (by decide)) (by decide), by decide, by decide, by decide⟩, by decide⟩

/-- A held put of `lane`. -/
def heldPutOf (lane : LaneNo) (kind : WaitKind) (start : Quad) : HeldEntry :=
  { heldBy .put kind with lane := lane, start := start, due := false }

/-- At tick 50 puts of lanes 5 and 3 are held for POOL since tick 4, of lane 1 since before the wrap, and of lane 2 for
SPACE. -/
def poolWaits : State :=
  let s := world putEntry (fullLane .hold)
  { s with hold := { s.hold with ticks := 50, held :=
      [heldPutOf 5 .pool 4, heldPutOf 3 .pool 4, heldPutOf 1 .pool 0xFFFFFFFA, heldPutOf 2 .space 2] } }

theorem witness_FullLaneRefusesPut_claims :
    (∃ e, poolWaits.heldOf 5 .put = some e ∧ e.kind = .pool) ∧
    (∀ e, poolWaits.heldOf 2 .put = some e → e.kind ≠ .pool) ∧ (poolWaits.heldOf 2 .put).isSome = true ∧
    (∀ e, poolWaits.heldOf 15 .put = some e → e.kind ≠ .pool) ∧
    poolWaits.pool.freeList = 0 :: [1, 2, 3, 4, 7, 8, 9, 10, 11, 12, 13, 14, 15] :=
  ⟨⟨_, rfl, rfl⟩, fun e h => by rw [heldOf_kind (e := heldPutOf 2 .space 2) rfl rfl e h]; decide, rfl,
    fun e h => (by cases h), rfl⟩

/-- `s` with `count` held takes of other lanes. -/
def busyTable (s : State) (count : Nat) : State :=
  { s with hold := { s.hold with
      held := (List.range count).map fun i => { heldBy .take .parcel with lane := Fin.ofNat 16 (i + 3), due := false } } }

theorem busyTable_routes {count : Nat} {t : Transaction} {a : Aperture} {l : Lane}
    (h : (world a l).Routes t 0 a) : (busyTable (world a l) count).Routes t 0 a :=
  ⟨⟨⟨rfl, rfl, fun _ h => by cases h⟩, h.decodes.free, h.decodes.aligned, h.decodes.thawed⟩, h.outside, h.allowed,
    h.first⟩

theorem witness_FullLaneHoldsPut :
    (putMeets (busyTable (world putEntry (fullLane .hold)) 5) .bodyPut 0x60000000 ∧
      (busyTable (world putEntry (fullLane .hold)) 5).spaceCheck 2 false 8 = .full .space ∧
      (busyTable (world putEntry (fullLane .hold)) 5).hold.held.length < 6) ∧
    (putMeets (busyTable (world putEntry (fullLane .hold)) 6) .bodyPut 0x60000000 ∧
      (busyTable (world putEntry (fullLane .hold)) 6).spaceCheck 2 false 8 = .full .space ∧
      (busyTable (world putEntry (fullLane .hold)) 6).hold.held.length = 6 ∧
      ∀ x ∈ (busyTable (world putEntry (fullLane .hold)) 6).hold.held, x.kind ≠ .pool) ∧
    (fullLane .hold).putNeed (tx .write 0x60000000 8) = 8 ∧ (fullLane .hold).desc.fullAction = .hold ∧
    (fullLane .hold).keptBytes (tx .write 0x60000000 8) ≠ [] :=
  ⟨⟨putMeets_of (busyTable_routes (world_routes (by decide) (by decide))) (by decide), by decide, by decide⟩,
    ⟨putMeets_of (busyTable_routes (world_routes (by decide) (by decide))) (by decide), by decide, by decide, by decide⟩,
    by decide, by decide, by decide⟩

theorem witness_TakeFetchesHead :
    takeMeets (world takeEntry (readyLane .fill)) .headInfoRead 0x60000BF8 ∧ (readyLane .fill).ready ≠ 0 ∧
      (readyLane .fill).cache = none :=
  ⟨takeMeets_of (world_routes (by decide) (by decide)) (by decide), by decide, rfl⟩

/-- The lane with its head cache filled and `consumed` bytes taken. -/
def cachedLane (consumed : Nat) : Lane :=
  { readyLane .fill with cache := some { header := storedHeader, consumed := consumed } }

theorem witness_DataReadCompletes :
    (takeMeets (world takeEntry (cachedLane 12)) .dataRead 0x600007F8 ∧
      (tx .read 0x600007F8 8).address.toNat % 4096 < 0x800 ∧
      min 8 (storedHeader.length.toNat - 12) ≠ 0) ∧
    (takeMeets (world takeEntry (cachedLane 16)) .dataRead 0x600007F8 ∧ min 8 (storedHeader.length.toNat - 16) = 0) :=
  ⟨⟨takeMeets_of (world_routes (by decide) (by decide)) (by decide), by decide, by decide⟩,
    takeMeets_of (world_routes (by decide) (by decide)) (by decide), by decide⟩

theorem witness_HeadInfoReadCompletes :
    (takeMeets (world takeEntry (cachedLane 12)) .headInfoRead 0x60000800 ∧
      takeRegion (tx .read 0x60000800 8) = .info) ∧
    takeRegion (tx .read 0x60000BFF 1) = .info :=
  ⟨⟨takeMeets_of (world_routes (by decide) (by decide)) (by decide), by decide⟩, by decide⟩

/-- A lane of three segments, whose head parcel has a stored length of `length` and starts at `head`. -/
def longerLane (ready length head : Nat) (openParcel : Option OpenParcel) : Lane :=
  { emptyLane .refuse .fill with
    chain := [5, 6, 7], headOffset := head, tailOffset := 100, ready := ready, openParcel := openParcel, gap := true
    cache := some { header := closingHeader (BitVec.ofNat 16 length) 0 7 0, consumed := 4 } }

/-- An open parcel that begins at offset 504 of segment 6. -/
def openAt504 : OpenParcel := { segment := 6, offset := 504, length := 16, flags := 8, sequence := 1 }

theorem witness_ReleaseCompletes :
    (takeMeets (world takeEntry (cachedLane 12)) .release 0x60000C00 ∧
      takeRegion (tx .read 0x60000C00 8) = .release ∧ (world takeEntry (cachedLane 12)).hold.held = [] ∧
      (cachedLane 12).ready = 1 ∧ (cachedLane 12).openParcel = none ∧
      (cachedLane 12).cache = some { header := storedHeader, consumed := 12 }) ∧
    (takeMeets (world takeEntry (longerLane 1 1000 0 (some openAt504))) .release 0x60000C00 ∧
      (longerLane 1 1000 0 (some openAt504)).ready = 1 ∧ openAt504.offset < 512) ∧
    (∀ length ∈ [1, 65535], takeMeets (world takeEntry (longerLane 2 length 504 none)) .release 0x60000C00 ∧
      1 < (longerLane 2 length 504 none).ready) ∧
    takeRegion (tx .read 0x60000FFF 1) = .release :=
  ⟨⟨takeMeets_of (world_routes (by decide) (by decide)) (by decide), by decide, rfl, by decide, rfl, rfl⟩,
    ⟨takeMeets_of (world_routes (by decide) (by decide)) (by decide), rfl, by decide⟩,
    fun length h => by
      simp only [List.mem_cons, List.not_mem_nil, or_false] at h
      rcases h with rfl | rfl <;>
        exact ⟨takeMeets_of (world_routes (by decide) (by decide)) (by decide), by decide⟩, by decide⟩

/-- Both cases of the new head: within the chain, and past its end for a forged length. -/
theorem test_release_moves_head :
    (let s := after (.release (tx .read 0x60000C00 8)) (world takeEntry (longerLane 2 9 504 none));
      (s.lane 2).chain = [6, 7] ∧ (s.lane 2).headOffset = 16 ∧ s.pool.freeList.head? = some 5) ∧
    (let s := after (.release (tx .read 0x60000C00 8)) (world takeEntry (longerLane 2 65535 504 none));
      (s.lane 2).chain = [7] ∧ s.pool.freeList.take 2 = [6, 5]) := by decide

/-- Lane 2, DRAINING, with one ready parcel of 16 bytes and no open parcel. -/
def lastParcel (auto : Bool) (takes : List TakeEntry) : Lane :=
  { readyLane .fill with
    state := .draining, takeLine := takes, cache := some { header := storedHeader, consumed := 8 }
    desc := { desc .refuse .fill with autoRelease := auto } }
def waitingTakes : List TakeEntry := [takeAt 5 .info .waiting, takeAt 6 .data .waiting]
/-- Its take line with `e` in flight, and a request of `owner` outstanding. -/
def drainingTake (auto : Bool) (e : TakeEntry) (owner : Owner) : State :=
  withOldest (world takeEntry (lastParcel auto (e :: waitingTakes))) owner

theorem witness_ReleaseCompletes_drains :
    (∀ auto takes, let s := world takeEntry (lastParcel auto takes);
      (s.lane 2).state = .draining ∧ (s.lane 2).busy = .clear ∧ (s.lane 2).cutting = false ∧
        s.cmd.work ≠ .closing 2 ∧ (s.lane 2).putLine = [] ∧ (s.lane 2).ready = 1 ∧ (s.lane 2).openParcel = none ∧
        s.hold.held = [] ∧ (s.lane 2).takeLine = takes ∧ (s.lane 2).desc.autoRelease = auto ∧
        (s.lane 2).cache = some { header := storedHeader, consumed := 8 }) ∧
    ((world takeEntry (lastParcel false [])).Routes (tx .read 0x60000C00 8) 0 takeEntry ∧
      takeRegion (tx .read 0x60000C00 8) = .release) ∧
    (∀ auto e owner, (drainingTake auto e owner).Ends (requestOf owner) [] ∧
      ((drainingTake auto e owner).lane 2).takeLine = e :: waitingTakes) ∧
    ((∀ x ∈ waitingTakes, x.stage = .waiting) ∧ storedHeader.passes (lastParcel false []).takeSeq = true ∧
      8 + 8 = storedHeader.length.toNat) :=
  ⟨fun _ _ => ⟨rfl, rfl, rfl, nofun, rfl, rfl, rfl, rfl, rfl, rfl, rfl⟩,
    ⟨world_routes (by decide) (by decide), by decide⟩,
    fun _ _ _ => ⟨⟨⟨rfl, rfl, fun _ h => by cases h⟩, _, rfl, rfl, rfl⟩, rfl⟩, by decide⟩

/-- The release behind its head fetch, and the AUTO_RELEASE, that drain the lane answer what waits behind ERROR. -/
theorem test_release_drains :
    let s := after (.headFetchEnd (.ok storedHeader.word))
      (drainingTake false (takeAt 3 .release .fetching) (.headFetch 2))
    let t := after (.takeReadEnd (.ok 0)) (drainingTake true (takeAt 3 .data (.reading 8 1 false [])) (.takeRead 2))
    (s.lane 2).state = .closed ∧ s.sys.responses.map (fun r => (r.tag, r.error)) = [(3, false), (5, true), (6, true)] ∧
      (t.lane 2).state = .closed ∧
      t.sys.responses.map (fun r => (r.tag, r.error)) = [(3, false), (5, true), (6, true)] := by decide

theorem witness_EmptyReleaseIsAnswered :
    (let s := world takeEntry { emptyLane .refuse .hold with takeLine := [takeOf .release .waiting] };
      (s.lane 2).takeLine = [takeOf .release .waiting] ∧ (takeOf .release .waiting).kind = .release ∧
        (s.lane 2).scanning = false ∧ (s.lane 2).ready = 0) ∧
    takeMeets (world takeEntry (emptyLane .refuse .hold)) .release 0x60000C00 ∧
      takeRegion (tx .read 0x60000C00 8) = .release ∧
      (emptyLane .refuse .hold).ready = 0 :=
  ⟨by decide, takeMeets_of (world_routes (by decide) (by decide)) (by decide), by decide, rfl⟩

theorem witness_EmptyLaneFills :
    takeMeets (world takeEntry (emptyLane .refuse .fill)) .headInfoRead 0x60000BF8 ∧
      takeRegion (tx .read 0x60000BF8 8) ≠ .release ∧
      (emptyLane .refuse .fill).ready = 0 ∧ (emptyLane .refuse .fill).desc.emptyAction = .fill :=
  ⟨takeMeets_of (world_routes (by decide) (by decide)) (by decide), by decide, rfl, rfl⟩

theorem witness_EmptyLaneHoldsTake (count : Nat) (h : count = 5 ∨ count = 6) :
    takeMeets (busyTable (world takeEntry (emptyLane .refuse .hold)) count) .dataRead 0x60000000 ∧
      takeRegion (tx .read 0x60000000 8) ≠ .release ∧ (emptyLane .refuse .hold).ready = 0 ∧
      (emptyLane .refuse .hold).desc.emptyAction = .hold ∧
      (busyTable (world takeEntry (emptyLane .refuse .hold)) count).hold.held.length = count :=
  ⟨takeMeets_of (busyTable_routes (world_routes (by decide) (by decide))) (by rcases h with rfl | rfl <;> decide),
    by decide, rfl, rfl, by rcases h with rfl | rfl <;> rfl⟩

/-! ## Commands -/

theorem witness_NoticeConsumerIndexCompletes : on.Decodes (consumerTransaction on 3 0 0) :=
  decodes_of on_calm (by decide)

/-- The notice writer with 5 unconsumed notices, across the wrap of the indices. -/
def ringState : State :=
  { on with notice := { on.notice with entries := 16, producer := 3, consumer := 65534 } }

theorem witness_ConsumerIndexRule :
    (on.inControl (consumerTransaction on 3 0 5).address = true ∧
      on.controlOffset (consumerTransaction on 3 0 5).address = 0x810 ∧ (consumerTransaction on 3 0 5).size = 4 ∧
      (consumerTransaction on 3 0 5).direction = .write) ∧
    (¬ ((4 : Half) - ringState.notice.consumer).toNat ≤ (ringState.notice.producer - ringState.notice.consumer).toNat) ∧
    (((3 : Half) - ringState.notice.consumer).toNat ≤ (ringState.notice.producer - ringState.notice.consumer).toNat ∧
      (3 : Half) ≠ ringState.notice.consumer) ∧
    ((65534 - ringState.notice.consumer : Half).toNat ≤
      (ringState.notice.producer - ringState.notice.consumer).toNat ∧ 65534 = ringState.notice.consumer) ∧
    (on.notice.producer = 0 ∧ on.notice.consumer = 0 ∧ (1 : Half) ≠ 0) := by decide

theorem command_decodes {s : State} {code : Byte} {w : CommandWrite} (hc : s.Calm) (h0 : s.dec.cfgb = 0)
    (hf : s.tagFree w.tag = true) (hz : s.sys.freeze = false) : s.Decodes (commandTransaction s code w) := by
  refine ⟨hc, hf, ?_, hz⟩
  unfold aligned commandTransaction State.controlAddress
  simp only [h0]
  decide

/-- Lane 15 in state `st`, holding nothing. -/
def lane15 (st : LaneState) : State := on.setLane 15 { Lane.empty with state := st }

theorem lane15_decodes (st : LaneState) (code : Byte) (lane : Nat) :
    (lane15 st).Decodes (commandTransaction (lane15 st) code (cw lane)) :=
  command_decodes ⟨rfl, rfl, fun _ h => by cases h⟩ rfl rfl rfl

theorem witness_ImageCommandsComplete :
    on.cmd.running = false ∧ on.cmd.autoload = none ∧
    (on.Decodes (commandTransaction on 1 (cw 0)) ∧ on.allClosed) ∧ on.Decodes (commandTransaction on 2 (cw 0)) ∧
    ((lane15 .closed).Decodes (commandTransaction (lane15 .closed) 3 (cw 15)) ∧ (cw 15).lane.toNat = 15 ∧
      ((lane15 .closed).lane 15).state = .closed) :=
  ⟨rfl, rfl, ⟨decodes_of on_calm (by decide), fun n => by revert n; decide⟩, decodes_of on_calm (by decide),
    lane15_decodes _ _ _, by decide, by decide⟩

theorem witness_RejectedCommandsComplete :
    on.cmd.running = false ∧ on.cmd.autoload = none ∧ on.hold.waiter = none ∧
    (on.Decodes (commandTransaction on 0 (cw 0)) ∧ on.Decodes (commandTransaction on 8 (cw 0)) ∧
      ((0 : Byte) = 0 ∨ 7 < (0 : Byte).toNat) ∧ ((8 : Byte) = 0 ∨ 7 < (8 : Byte).toNat)) ∧
    ((lane15 .opened).Decodes (commandTransaction (lane15 .opened) 1 (cw 0)) ∧
      ((lane15 .opened).lane 15).state ≠ .closed ∧ ∀ m, m < (15 : LaneNo) → ((lane15 .opened).lane m).state = .closed) ∧
    (16 ≤ (cw 16).lane.toNat ∧ ∀ code, on.Decodes (commandTransaction on code (cw 16))) ∧
    ((cw 15).lane.toNat = 15 ∧
      ((lane15 .opened).Decodes (commandTransaction (lane15 .opened) 3 (cw 15)) ∧
        ((lane15 .opened).lane 15).state ≠ .closed) ∧
      ((lane15 .draining).Decodes (commandTransaction (lane15 .draining) 4 (cw 15)) ∧
        ((lane15 .draining).lane 15).state ≠ .opened) ∧
      ((lane15 .faulted).Decodes (commandTransaction (lane15 .faulted) 5 (cw 15)) ∧
        ((lane15 .faulted).lane 15).state ≠ .opened ∧ ((lane15 .faulted).lane 15).state ≠ .draining)) :=
  ⟨rfl, rfl, rfl,
    ⟨decodes_of on_calm (by decide), decodes_of on_calm (by decide), by decide, by decide⟩,
    ⟨lane15_decodes _ _ _, by decide, by decide⟩,
    ⟨by decide, fun code => command_decodes on_calm rfl rfl rfl⟩,
    by decide, ⟨lane15_decodes _ _ _, by decide⟩, ⟨lane15_decodes _ _ _, by decide⟩,
    lane15_decodes _ _ _, by decide, by decide⟩

/-- An aperture image of kind `kind` for `lane` at 0x60000000, of 4096 bytes. -/
def image (kind lane : Byte) : ApertureImage :=
  { base := 0x60000000, target := 0x70000000, kind := kind, exponent := 12, lane := lane, guardMode := 3, mask := 8,
    options := 3 }

/-- The descriptor of `desc .hold .hold` in its image. -/
def descriptorImage : DescriptorImage :=
  { flags := 0, full := 1, empty := 1, threshold := 3, quota := 2, maxLength := 40, holdLimit := 10, ready := 2 }

theorem witness_RejectedCommandsComplete_images :
    (∀ kind ∈ [(1 : Byte), 2, 3, 4, 5], (image kind 15).kind = kind ∧ (image kind 15).kind ≠ 0 ∧
      (image kind 15).lane.toNat = 15 ∧ 12 ≤ (image kind 15).exponent.toNat ∧ (image kind 15).exponent.toNat ≤ 31 ∧
      (image kind 15).base.toNat % 2 ^ (image kind 15).exponent.toNat = 0) ∧
    ((image 0 0).kind = 0 ∧ 5 < (image 6 0).kind.toNat ∧ 15 < (image 3 16).lane.toNat) ∧
    ¬ (12 ≤ ({ image 1 0 with exponent := 11 } : ApertureImage).exponent.toNat) ∧
    ({ image 1 0 with base := 0x60000800 } : ApertureImage).base.toNat % 2 ^ 12 ≠ 0 ∧
    (Aperture.tap 0x60000000 12 15 true true ∈ [Aperture.tap 0x60000000 12 15 true true] ∧
      Aperture.put 0x60000000 12 15 ∈ [Aperture.put 0x60000000 12 15]) ∧
    descriptorImage.validate 16 = .ok (desc .hold .hold) ∧
    (((descriptorImage.full = 1 ∨ descriptorImage.full = 2) ∧ descriptorImage.empty = 1) ∧
      1 ≤ descriptorImage.threshold.toNat ∧ descriptorImage.threshold.toNat ≤ 15 ∧ 1 ≤ descriptorImage.quota.toNat ∧
      descriptorImage.quota.toNat ≤ 16 ∧ descriptorImage.maxLength ≠ 0 ∧ descriptorImage.holdLimit ≠ 0 ∧
      descriptorImage.ready ≠ 0) := by decide

/-- A pool that would overlap the control block, a put beside a lower tap of its lane, and a quota of 0. -/
theorem test_rejections :
    ({ parseSetup [(0, 0x00000000C4125E70), (8, 0x07FF001000020010), (16, 0x0000010A41000000)] with poolCount := 16 } :
      SetupHeader).rejection 0 = some (0x04, 0x04) ∧
    (image 3 15).validate 0 [.tap 0x60000000 12 15 true true] = none ∧
    (image 3 15).validate 0 [.tap 0x60000000 12 14 true true] = some (.put 0x60000000 12 15) ∧
    ({ descriptorImage with quota := 0 } : DescriptorImage).validate 16 = .error 4 := by decide

/-- The machine with a write-back running or not. -/
def writing (running : Bool) : State :=
  { on with status := { on.status with inProgress := running, left := 5 } }

theorem witness_WriteStatusCompletes (running : Bool) :
    (writing running).cmd.running = false ∧ (writing running).cmd.autoload = none ∧
      (writing running).Decodes (commandTransaction (writing running) 7 (cw 0)) ∧
      (writing running).status.inProgress = running :=
  ⟨rfl, rfl, command_decodes ⟨rfl, rfl, fun _ h => by cases h⟩ rfl rfl rfl, rfl⟩

theorem world_decodes (a : Aperture) (l : Lane) (code : Byte) (lane : Nat) :
    (world a l).Decodes (commandTransaction (world a l) code (cw lane)) :=
  command_decodes (world_calm a l) rfl rfl rfl

theorem witness_CloseLaneCompletes :
    ((world putEntry (openLane .refuse)).PutQuiet 2 ∧ ((world putEntry (openLane .refuse)).lane 2).cutting = false ∧
      ((world putEntry (openLane .refuse)).lane 2).openParcel.isSome = true) ∧
    ((world putEntry (readyLane .fill)).PutQuiet 2 ∧ ((world putEntry (readyLane .fill)).lane 2).cutting = false ∧
      ((world putEntry (readyLane .fill)).lane 2).openParcel = none ∧
      ((world putEntry (readyLane .fill)).lane 2).ready ≠ 0) ∧
    ((world putEntry (emptyLane .refuse .fill)).PutQuiet 2 ∧
      ((world putEntry (emptyLane .refuse .fill)).lane 2).cutting = false ∧
      ((world putEntry (emptyLane .refuse .fill)).lane 2).openParcel = none ∧
      ((world putEntry (emptyLane .refuse .fill)).lane 2).ready = 0 ∧
      ((world putEntry (emptyLane .refuse .fill)).lane 2).takeLine = [] ∧
      (world putEntry (emptyLane .refuse .fill)).heldOf 2 .take = none) ∧
    (∀ l, (world putEntry l).cmd.running = false ∧ (world putEntry l).cmd.autoload = none ∧
      (world putEntry l).hold.waiter = none ∧
      (world putEntry l).Decodes (commandTransaction (world putEntry l) 4 (cw 2))) ∧
    (cw 2).lane.toNat = 2 :=
  ⟨⟨putQuiet_of (by decide), by decide, by decide⟩, ⟨putQuiet_of (by decide), by decide, by decide, by decide⟩,
    ⟨putQuiet_of (by decide), by decide, by decide, by decide, by decide, by decide⟩,
    fun l => ⟨rfl, rfl, rfl, world_decodes _ _ _ _⟩, by decide⟩

/-- A ring of 16 entries is in force. -/
def ringed (s : State) : State := { s with notice := { s.notice with ringBase := 0x41000000, entries := 16 } }

/-- A put and a tapped access's capture that wait. -/
def waitingPuts : List PutEntry := [putAt 1 .body .waiting, putAt 2 (.final 7) .waiting]
def waitingCaptures : List PutEntry :=
  [putAt 1 .body .waiting, putAt 2 (.capture true (.ok 5)) .waiting, putAt 3 (.capture true .timeout) .waiting]
def writingPut : PutEntry := putAt 4 .body (.writingBody 1 false)

/-- Lane 2 with puts that wait, the first held; and with one in flight before them. -/
def putsWait : State := ringed (withHeld (world putEntry { readyLane .fill with putLine := waitingPuts }) (heldBy .put .pool))
def putInFlight : State := ringed (world putEntry { readyLane .fill with putLine := writingPut :: waitingCaptures })

theorem ringed_decodes {s : State} (hc : s.Calm) (h0 : s.dec.cfgb = 0) (hf : s.tagFree 0 = true)
    (hz : s.sys.freeze = false) (code : Byte) (lane : Nat) : s.Decodes (commandTransaction s code (cw lane)) :=
  command_decodes hc h0 hf hz

theorem witness_CloseLaneCompletes_waiting :
    (∀ s ∈ [putsWait, putInFlight], s.cmd.running = false ∧ s.cmd.autoload = none ∧ s.hold.waiter = none ∧
      s.Decodes (commandTransaction s 4 (cw 2)) ∧ (s.lane 2).state = .opened ∧ (s.lane 2).busy = .clear) ∧
    ((putsWait.lane 2).putLine = waitingPuts ∧ (∀ e ∈ waitingPuts, e.stage = .waiting) ∧
      (∀ e ∈ waitingPuts, ∀ hold o, e.kind ≠ .capture hold o) ∧
      (∀ x ∈ putsWait.hold.held, x.kind = .pool → x.lane = 2 ∧ x.line = .put) ∧ (putsWait.lane 2).cutting = false ∧
      (putsWait.lane 2).openParcel = none ∧ (putsWait.lane 2).ready ≠ 0) ∧
    ((putInFlight.lane 2).putLine = writingPut :: waitingCaptures ∧ (∀ e ∈ waitingCaptures, e.stage = .waiting) ∧
      writingPut.stage ≠ .waiting ∧ putInFlight.heldOf 2 .put = none) := by
  refine ⟨fun s h => ?_, ⟨by decide, by decide, noCapture_of (by decide), by decide, by decide, by decide, by decide⟩,
    by decide⟩
  simp only [List.mem_cons, List.not_mem_nil, or_false] at h
  rcases h with rfl | rfl <;>
    exact ⟨rfl, rfl, rfl, command_decodes ⟨rfl, rfl, fun _ h => by cases h⟩ rfl (by decide) rfl, rfl, rfl⟩

/-- Lane 2 with entries that wait in both lines, one of them held: a put in flight before them, a take in flight before
them, a cut under way, or nothing in flight. -/
def linesWait (puts : List PutEntry) (takes : List TakeEntry) (cutting : Bool) (held : HeldEntry) : State :=
  ringed (withHeld (world putEntry
    { readyLane .fill with putLine := puts, takeLine := takes ++ [takeAt 6 .data .waiting], cutting := cutting }) held)

theorem linesWait_meets (puts : List PutEntry) (takes : List TakeEntry) (cutting : Bool) (held : HeldEntry) :
    let s := linesWait puts takes cutting held
    s.cmd.running = false ∧ s.cmd.autoload = none ∧ s.hold.waiter = none ∧ (s.lane 2).state = .opened ∧
      (s.lane 2).putLine = puts ∧ (s.lane 2).takeLine = takes ++ [takeAt 6 .data .waiting] ∧
      (s.lane 2).cutting = cutting ∧ s.hold.held = [held] ∧ s.Decodes (commandTransaction s 5 (cw 2)) ∧
      s.Decodes (commandTransaction s 6 (cw 2)) :=
  ⟨rfl, rfl, rfl, rfl, rfl, rfl, rfl, rfl, command_decodes ⟨rfl, rfl, fun _ h => by cases h⟩ rfl rfl rfl,
    command_decodes ⟨rfl, rfl, fun _ h => by cases h⟩ rfl rfl rfl⟩

theorem witness_EmptyingCommandsComplete_waiting :
    (∃ e ∈ writingPut :: waitingCaptures, e.stage ≠ .waiting) ∧
    (∃ e ∈ [takeAt 5 .info .fetching] ++ [takeAt 6 .data .waiting], e.stage ≠ .waiting) ∧
    (∀ e ∈ waitingPuts, e.stage = .waiting ∧ ∀ hold o, e.kind ≠ .capture hold o) ∧
    (∀ e ∈ [] ++ [takeAt 6 .data .waiting], e.stage = .waiting) ∧
    (∀ x ∈ [heldBy .put .pool], x.lane = 2 ∧ (x.kind = .pool → x.lane = 2 ∧ x.line = .put)) ∧
    (∀ x ∈ [heldBy .take .parcel], x.kind = .pool → x.lane = 2 ∧ x.line = .put) :=
  ⟨by decide, by decide, fun e he => ⟨by revert e; decide, noCapture_of (es := waitingPuts) (by decide) e he⟩, by decide,
    by decide, by decide⟩

/-- CLOSE answers the captures behind the put in flight, the first with its own data, and loses both. -/
theorem test_closeLane_answers :
    let s := after (.closeLane (cw 2)) putInFlight
    s.sys.responses.map (fun r => (r.tag, r.error)) = [(1, true), (2, false), (3, true)] ∧ s.dec.tapLost = 2 ∧
      (s.lane 2).putLine = [writingPut] ∧ (s.lane 2).state = .draining := by decide

theorem witness_EmptyingCommandsComplete :
    (∀ l, (world putEntry l).cmd.running = false ∧ (world putEntry l).cmd.autoload = none ∧
      (world putEntry l).hold.waiter = none ∧ (world putEntry l).hold.held = [] ∧
      (world putEntry l).Decodes (commandTransaction (world putEntry l) 5 (cw 2)) ∧
      (world putEntry l).Decodes (commandTransaction (world putEntry l) 6 (cw 2))) ∧
    (cw 2).lane.toNat = 2 ∧
    (∀ st ∈ [LaneState.opened, .draining, .faulted, .closed],
      let l := (world putEntry { readyLane .fill with state := st }).lane 2
      l.state = st ∧ l.putLine = [] ∧ l.takeLine = [] ∧ l.cutting = false) :=
  ⟨fun l => ⟨rfl, rfl, rfl, rfl, world_decodes _ _ _ _, world_decodes _ _ _ _⟩, by decide, by decide⟩

/-- The unit is RUNNING, with the command hold limit `limit` and the slot taken or not. -/
def busyUnit (limit : Half) (taken : Bool) : State :=
  { on with
    cmd := { on.cmd with running := true }
    hold := { on.hold with
      commandLimit := limit
      waiter := if taken then some { tx := commandTransaction on 2 (cw 0), arrival := 0, deadline := 5, due := false }
        else none } }

theorem witness_CommandWaitsForTheUnit (limit : Half) (taken : Bool) :
    (busyUnit limit taken).presents (.loadSetup (cw 0)) = some (commandTransaction (busyUnit limit taken) 1 (cw 0)) ∧
      (busyUnit limit taken).Decodes (commandTransaction (busyUnit limit taken) 1 (cw 0)) ∧
      (busyUnit limit taken).inControl 0x800 = true ∧ (busyUnit limit taken).controlOffset 0x800 = 0x800 ∧
      (commandTransaction (busyUnit limit taken) 1 (cw 0)).address = 0x800 ∧
      (commandTransaction (busyUnit limit taken) 1 (cw 0)).size = 8 ∧
      (commandTransaction (busyUnit limit taken) 1 (cw 0)).direction = .write ∧
      (busyUnit limit taken).cmd.running = true ∧ (busyUnit limit taken).hold.commandLimit = limit ∧
      (taken = true → (busyUnit limit taken).hold.waiter ≠ none) ∧
      (taken = false → (busyUnit limit taken).hold.waiter = none) := by
  refine ⟨rfl, command_decodes ⟨rfl, rfl, fun _ h => by cases h⟩ rfl rfl rfl, by show on.inControl 0x800 = true; decide,
    by show on.controlOffset 0x800 = 0x800; decide,
    by show on.controlAddress 0x800 = 0x800; decide, rfl, rfl, rfl, rfl, ?_, ?_⟩ <;>
    (intro h; subst h) <;> first | rfl | (intro h; cases h)

theorem witness_CommandWaiterHandoverCompletes :
    waiting.Calm ∧ (∃ w, waiting.hold.waiter = some w ∧ byteOf w.tx.data 0 = 2) ∧ waiting.cmd.running = false ∧
      waiting.cmd.autoload = none := ⟨calm_of (by decide), ⟨_, rfl, by decide⟩, rfl, rfl⟩

/-- WRITE STATUS of master 2 waits for the generation end write, with a LOAD APERTURES in the slot. -/
def handingOver : State :=
  let s := withOldest (ringed (writing true)) (.statusWrite 74)
  { s with
    cmd := { s.cmd with
      running := true, work := .status false
      current := { code := 7, lane := 0, flags := 0, ticket := 9, master := 2 } }
    hold := waiting.hold }

theorem witness_CommandWaiterHandoverCompletes_end :
    handingOver.Ends (requestOf (.statusWrite 74)) [] ∧ (requestOf (.statusWrite 74)).owner = .statusWrite 74 ∧
      handingOver.cmd.work = .status false ∧ handingOver.cmd.autoload = none ∧ handingOver.status.followOn = false ∧
      handingOver.cmd.current.flags.getLsbD 0 = false ∧
      (∃ w, handingOver.hold.waiter = some w ∧ byteOf w.tx.data 0 = 2) ∧ MemResponse.ok 0 ≠ .error :=
  ⟨⟨⟨rfl, rfl, fun _ h => by cases h⟩, _, rfl, rfl, rfl⟩, rfl, rfl, rfl, rfl, by decide, ⟨_, rfl, by decide⟩, by decide⟩

/-- The command that ends is answered DONE before the one that waited is answered IN_PROGRESS. -/
theorem test_handover_in_the_end :
    let s := after (.statusWriteEnd (.ok 0)) handingOver
    (s.port.commandQ.take 2).map MemRequest.data = [0x0000070000020009, 0x0000020000011234] ∧ s.hold.waiter = none ∧
      s.cmd.running = true ∧ s.port.commandQ.length = 48 := by decide

/-! ## The memory port -/

/-- The machine with requests waiting in the classes that are true. -/
def waitingRequests (notice command system status : Bool) : State :=
  { on with port := { on.port with
      noticeQ := if notice then [requestOf .noticeWrite] else []
      commandQ := if command then [requestOf (.responseWrite 0)] else []
      systemQ := if system then [requestOf (.bodyWrite 2)] else []
      statusQ := if status then [2, 10, 73, 74] else [] } }

theorem witness_RequestIssueCompletes :
    (eight.Calm ∧ 8 ≤ eight.port.outstanding.length) ∧
    ∀ notice command system status, (waitingRequests notice command system status).Calm ∧
      (waitingRequests notice command system status).port.outstanding.length < 8 ∧
      ((waitingRequests notice command system status).port.noticeQ = [] ↔ notice = false) ∧
      ((waitingRequests notice command system status).port.commandQ = [] ↔ command = false) ∧
      ((waitingRequests notice command system status).port.systemQ = [] ↔ system = false) ∧
      ((waitingRequests notice command system status).port.statusQ = [] ↔ status = false) := by
  refine ⟨⟨calm_of (by decide), by decide⟩, fun a b c d => ⟨⟨rfl, rfl, fun _ h => by cases h⟩, by show 0 < 8; decide, ?_⟩⟩
  cases a <;> cases b <;> cases c <;> cases d <;> decide

/-- The 73rd write carries the last word of lane 15's record; the 9th the upper global word by its low half only. -/
theorem test_statusWrites :
    statusLane 73 = 15 ∧ 73 = 10 + 4 * 15 + 3 ∧ (on.statusWrite 73).address = 0xE38 ∧
      (on.statusWrite 9).address = 0xC38 ∧ (on.statusWrite 9).enables = 0x0F ∧ (on.statusWrite 74).address = 0xC3C := by
  decide

theorem witness_PassThroughEndCompletes :
    (withOldest on (.forward (tx .read 0x60000000 8) 0xFF none)).Ends
      (requestOf (.forward (tx .read 0x60000000 8) 0xFF none)) [] ∧
    (withOldest on (.forward (tx .read 0x60000000 8) 1 (some { lane := 2, entry := 0, hold := false }))).Ends
      (requestOf (.forward (tx .read 0x60000000 8) 1 (some { lane := 2, entry := 0, hold := false }))) [] ∧
    (on.lane 2).state ≠ .opened := ⟨ends_of on_calm _, ends_of on_calm _, by decide⟩

/-- A tapped access of 4 bytes at 0x60000104 is the oldest request, its capture for lane 2, which is `l`. -/
def tapRequest (hold : Bool) : TapRequest := { lane := 2, entry := 4, hold := hold }
def tapOwner (direction : Direction) (hold : Bool) : Owner :=
  .forward (tx direction 0x60000104 4) 5 (some (tapRequest hold))
def tapEnd (l : Lane) (direction : Direction) (hold : Bool) : State :=
  withOldest (ringed (world putEntry l)) (tapOwner direction hold)

/-- A lane with a ready parcel whose tail has no room for a capture. -/
def tailEnd (holdLimit : Half) : Lane :=
  { readyLane .fill with
    chain := [5, 6], tailOffset := 504, desc := { desc .refuse .fill with holdLimit := holdLimit } }

theorem witness_PassThroughEndCompletes_captures :
    (∀ l direction hold, (tapEnd l direction hold).Ends (requestOf (tapOwner direction hold)) [] ∧
      (requestOf (tapOwner direction hold)).owner = tapOwner direction hold) ∧
    (let s := tapEnd (emptyLane .refuse .fill) .read false;
      s.PutQuiet 2 ∧ (s.lane 2).openParcel = none ∧ s.spaceCheck 2 true 24 = .starts true) ∧
    (let s := tapEnd (readyLane .fill) .write true;
      s.PutQuiet 2 ∧ (s.lane 2).openParcel = none ∧ s.spaceCheck 2 true 24 = .starts false) ∧
    (let s := tapEnd (openLane .hold) .write true; s.PutQuiet 2 ∧ (s.lane 2).openParcel ≠ none) ∧
    (∀ l ∈ [tailEnd 0, tailEnd 10], let s := tapEnd l .write true;
      s.PutQuiet 2 ∧ (s.lane 2).openParcel = none ∧ s.spaceCheck 2 true 24 = .full .space) ∧
    ((tailEnd 0).desc.holdLimit = 0 ∧ (tapRequest false).hold = false ∧ (tapRequest true).hold = true ∧
      (tailEnd 10).desc.holdLimit ≠ 0) ∧
    (∀ count ∈ [5, 6], let s := busyTable (tapEnd (tailEnd 10) .write true) count;
      s.Ends (requestOf (tapOwner .write true)) [] ∧ s.PutQuiet 2 ∧ s.spaceCheck 2 true 24 = .full .space ∧
        s.hold.held.length = count) := by
  refine ⟨fun l d h => ⟨⟨⟨rfl, rfl, fun _ h => by cases h⟩, _, rfl, rfl, rfl⟩, rfl⟩,
    ⟨putQuiet_of (by decide), by decide, by decide⟩, ⟨putQuiet_of (by decide), by decide, by decide⟩,
    ⟨putQuiet_of (by decide), by decide⟩, fun l h => ⟨putQuiet_of (by revert l; decide), by revert l; decide⟩,
    by decide, fun count h => ⟨⟨⟨rfl, rfl, fun _ h => by cases h⟩, _, rfl, rfl, rfl⟩,
      putQuiet_of (by revert count; decide), by revert count; decide⟩⟩

theorem witness_PassThroughEndCompletes_arrivals :
    (∀ m ∈ [MemResponse.ok 5, .error], let s := tapEnd { emptyLane .refuse .fill with busy := .flush } .read true;
      (m = .error ∨ m = .ok 5) ∧ (s.lane 2).state = .opened ∧ (s.lane 2).busy ≠ .clear) ∧
    (let s := tapEnd { openLane .refuse with putLine := [putOf .body (.writingBody 1 false)] } .write false;
      (s.lane 2).state = .opened ∧ (s.lane 2).busy = .clear ∧ (s.lane 2).putLine ≠ []) := by decide

/-- A tapped read that ends ERROR is noticed and its capture starts with the outcome ERROR and no data; beside a put in
flight the capture waits; on a busy lane it is lost, and the access is answered with its own outcome. -/
theorem test_tapped_error :
    (let s := after (.passThroughEnd .error) (tapEnd (emptyLane .refuse .fill) .read false);
      s.port.systemQ.map MemRequest.data = [0x0000000060000104, 0x0502040300000000] ∧ s.sys.responses = [] ∧
        s.notice.waiting.map Notice.kind = [.memoryError] ∧ s.port.errors = 1) ∧
    (let s := after (.passThroughEnd .error)
        (tapEnd { openLane .refuse with putLine := [putOf .body (.writingBody 1 false)] } .read false);
      (s.lane 2).putLine.map PutEntry.kind = [.body, .capture false .error] ∧ s.sys.responses = []) ∧
    (let s := after (.passThroughEnd .error) (tapEnd { emptyLane .refuse .fill with busy := .reset } .read true);
      s.sys.responses = [{ tag := 0, error := true, data := 0 }] ∧ s.dec.tapLost = 1) := by decide

/-- The capture of a read opens a parcel with CAPTURE and length 16, and its access is not answered yet. -/
theorem test_capture_starts :
    let s := after (.passThroughEnd (.ok 0x1122334455667788)) (tapEnd (emptyLane .refuse .fill) .read false)
    (s.lane 2).openParcel = some { segment := 0, offset := 0, length := 16, flags := 8, sequence := 0 } ∧
      s.port.systemQ.map MemRequest.data = [0x0000000060000104, 0x0500040311223344] ∧ s.sys.responses = [] := by decide

theorem witness_TapLossRuns :
    (on.dec.runs[0]).running = false ∧
    (({ on with dec := { on.dec with runs := on.dec.runs.set 0 { running := true, count := 4 } } } :
      State).dec.runs[0]).running = true := by decide

/-- Lane 2 with an open parcel and put `e` alone in its line, and a request of `owner` outstanding. -/
def putting (kind : PutKind) (stage : PutStage) (owner : Owner) (ready : Nat := 0) (armed : Bool := true) : State :=
  withOldest (world putEntry
    { openLane .evict with putLine := [putOf kind stage], ready := ready, armed := armed }) owner

theorem putting_ends (kind : PutKind) (stage : PutStage) (owner : Owner) (ready : Nat) (armed : Bool) :
    (putting kind stage owner ready armed).Ends (requestOf owner) [] ∧
      (putting kind stage owner ready armed).Puts 2 (putOf kind stage) ∧ (requestOf owner).owner = owner ∧
      ((putting kind stage owner ready armed).lane 2).openParcel = (openLane .evict).openParcel ∧
      (openLane .evict).openParcel.isSome = true ∧ ((putting kind stage owner ready armed).lane 2).takeLine = [] ∧
      (putting kind stage owner ready armed).heldOf 2 .take = none ∧
      ((putting kind stage owner ready armed).lane 2).cutting = false ∧
      ((putting kind stage owner ready armed).lane 2).armed = armed ∧
      ((putting kind stage owner ready armed).lane 2).ready = ready :=
  ⟨ends_of (world_calm _ _) owner, ⟨rfl, rfl, rfl, rfl, nofun⟩, rfl, rfl, rfl, rfl, rfl, rfl, rfl, rfl⟩

theorem witness_BodyWriteEndCompletes :
    (∀ kind left, (putting kind (.writingBody left false) (.bodyWrite 2)).Ends (requestOf (.bodyWrite 2)) [] ∧
      (putting kind (.writingBody left false) (.bodyWrite 2)).Puts 2 (putOf kind (.writingBody left false)) ∧
      (requestOf (.bodyWrite 2)).owner = .bodyWrite 2 ∧ (putOf kind (.writingBody left false)).tx.direction = .write) ∧
    ((putting .body (.writingBody 1 false) (.bodyWrite 2)).lane 2).errors + 1 ≠ (desc .evict .fill).faultThreshold ∧
    ((putting (.final 7) (.writingBody 1 false) (.bodyWrite 2)).lane 2).openParcel.isSome = true :=
  ⟨fun kind left => ⟨(putting_ends _ _ _ _ _).1, (putting_ends _ _ _ _ _).2.1, rfl, rfl⟩, by decide, rfl⟩

theorem witness_BodyWriteEndCompletes_below :
    (∀ kind left, ((putting kind (.writingBody left false) (.bodyWrite 2)).lane 2).errors + 1
      ≠ ((putting kind (.writingBody left false) (.bodyWrite 2)).lane 2).desc.faultThreshold) ∧
    (∀ kind left, (putting kind (.writingBody left false) (.bodyWrite 2)).Ends (requestOf (.bodyWrite 2)) [] ∧
      (putting kind (.writingBody left false) (.bodyWrite 2)).Puts 2 (putOf kind (.writingBody left false))) ∧
    (putOf (.final 7) (.writingBody 1 false)).kind = .final 7 ∧ 1 < 2 :=
  ⟨fun _ _ => by show (1 : Nat) ≠ 3; decide, fun _ _ => ⟨(putting_ends _ _ _ _ _).1, (putting_ends _ _ _ _ _).2.1⟩,
    rfl, by decide⟩

/-- The last body write of a final put fails: the header is written with DAMAGED, and when that ends the parcel is ready
and the put is answered ERROR. -/
theorem test_damaged_final :
    let s := after (.bodyWriteEnd .error) (putting (.final 7) (.writingBody 1 false) (.bodyWrite 2))
    let t := after (.headerWriteEnd (.ok 0)) (withOldest s (.headerWrite 2))
    (s.lane 2).errors = 1 ∧ s.sys.responses = [] ∧
      s.port.systemQ.map MemRequest.data = [(closingHeader 8 0 7 flagDamaged).word] ∧
      (t.lane 2).ready = 1 ∧ t.sys.responses.map (fun r => (r.tag, r.error)) = [(0, true)] := by decide

/-- A put of lane 2 writes its body, with `left` writes unended: waiting entries are behind it and in the take line, one
of them held, and the next failure brings the count to the threshold. -/
def atThreshold (left : Nat) : State :=
  withOldest (ringed (withHeld (world putEntry { openLane .hold with
    errors := 2
    putLine := putAt 4 .body (.writingBody left false) :: waitingCaptures
    takeLine := [takeAt 5 .info .waiting, takeAt 6 .data .waiting] }) (heldBy .take .parcel))) (.bodyWrite 2)

/-- Lane 2, FAULTED, with a put whose last body write is unended. -/
def faultedPut (kind : PutKind) : State :=
  withOldest (ringed (world putEntry { openLane .hold with
    errors := 2, state := .faulted, cause := .headerCheck, putLine := [putOf kind (.writingBody 1 false)] }))
    (.bodyWrite 2)

theorem witness_BodyWriteEndCompletes_faults :
    ((atThreshold 2).Ends (requestOf (.bodyWrite 2)) [] ∧ ((atThreshold 2).lane 2).state = .opened ∧
      ((atThreshold 2).lane 2).busy = .clear ∧ (atThreshold 2).cmd.work ≠ .closing 2 ∧
      ((atThreshold 2).lane 2).putLine = putAt 4 .body (.writingBody 2 false) :: waitingCaptures ∧
      (∀ x ∈ waitingCaptures, x.stage = .waiting) ∧ (atThreshold 2).heldOf 2 .put = none ∧
      (∀ h, (atThreshold 2).heldOf 2 .take = some h → h.kind = .parcel) ∧
      ((atThreshold 2).lane 2).errors + 1 = ((atThreshold 2).lane 2).desc.faultThreshold) ∧
    ∀ kind, (faultedPut kind).Ends (requestOf (.bodyWrite 2)) [] ∧ ((faultedPut kind).lane 2).state = .faulted ∧
      ((faultedPut kind).lane 2).busy = .clear ∧ (faultedPut kind).cmd.work ≠ .closing 2 ∧
      ((faultedPut kind).lane 2).putLine = [putOf kind (.writingBody 1 false)] ∧
      (faultedPut kind).heldOf 2 .put = none ∧ (putOf kind (.writingBody 1 false)).tx.direction = .write :=
  ⟨⟨⟨⟨rfl, rfl, fun _ h => by cases h⟩, _, rfl, rfl, rfl⟩, by decide, by decide, by decide, by decide, by decide,
      by decide, heldOf_kind (e := heldBy .take .parcel) (by rfl) rfl, by decide⟩,
    fun kind => ⟨⟨⟨rfl, rfl, fun _ h => by cases h⟩, _, rfl, rfl, rfl⟩, rfl, rfl, nofun, rfl, rfl, rfl⟩⟩

/-- The fault answers what waits, the put line's entries first, and leaves the put in flight. -/
theorem test_fault_answers :
    let s := after (.bodyWriteEnd .error) (atThreshold 2)
    s.sys.responses.map (fun r => (r.tag, r.error))
        = [(1, true), (2, false), (3, true), (5, true), (6, true)] ∧
      (s.lane 2).cause = .memoryErrors ∧ (s.lane 2).putLine.length = 1 ∧ s.hold.held = [] := by decide

/-- Lane 2, DRAINING or busy with `mark`, with `puts` in flight, a command at `work` on it, and a request of `owner`. -/
def commanded (state : LaneState) (mark : BusyMark) (cutting : Bool) (work : CommandWork) (puts : List PutEntry)
    (owner : Owner) : State :=
  let s := withOldest (world putEntry { openLane .refuse with
    state := state, busy := mark, cutting := cutting, putLine := puts, errors := 2, ready := 1, putSeq := 2 }) owner
  { s with cmd := { s.cmd with
      running := true, work := work, current := { code := 4, lane := 2, flags := 0, ticket := 9, master := 2 } } }

theorem commanded_meets (state : LaneState) (mark : BusyMark) (cutting : Bool) (work : CommandWork)
    (puts : List PutEntry) (owner : Owner) (h : ∀ table, work ≠ .freezing table) :
    let s := commanded state mark cutting work puts owner
    s.Ends (requestOf owner) [] ∧ (requestOf owner).owner = owner ∧ (s.lane 2).state = state ∧
      (s.lane 2).busy = mark ∧ (s.lane 2).cutting = cutting ∧ s.cmd.work = work ∧ s.cmd.autoload = none ∧
      s.hold.waiter = none ∧ s.hold.held = [] ∧ s.heldOf 2 .put = none ∧ s.heldOf 2 .take = none ∧
      (s.lane 2).putLine = puts ∧ (s.lane 2).takeLine = [] ∧ (s.lane 2).openParcel.isSome = true :=
  ⟨⟨⟨rfl, rfl, h⟩, _, rfl, rfl, rfl⟩, rfl, rfl, rfl, rfl, rfl, rfl, rfl, rfl, rfl, rfl, rfl, rfl, rfl⟩

theorem witness_BodyWriteEndCompletes_commanded :
    (∀ n, ∀ table, CommandWork.closing n ≠ .freezing table ∧ CommandWork.emptying n ≠ .freezing table) ∧
    ((putOf .body (.writingBody 1 false)).stage = .writingBody 1 false ∧
      (putOf .body (.writingBody 1 false)).tx.direction = .write) ∧
    (let s := commanded .draining .clear false (.closing 2) [putOf .body (.writingBody 1 false)] (.bodyWrite 2);
      (s.lane 2).errors + 1 = (s.lane 2).desc.faultThreshold) ∧
    (let s := commanded .draining .clear false (.closing 2) [putOf .body (.writingBody 1 false)] (.bodyWrite 2);
      let t := s.setLane 2 { s.lane 2 with errors := 0 };
      (t.lane 2).errors + 1 ≠ (t.lane 2).desc.faultThreshold) :=
  ⟨fun _ _ => ⟨nofun, nofun⟩, ⟨rfl, rfl⟩, by decide, by decide⟩

/-- The body put in flight ends: CLOSE cuts its parcel; FLUSH discards the lane and ends DONE in the same event. -/
theorem test_command_behind_body_write :
    (let s := after (.bodyWriteEnd (.ok 0))
        (commanded .draining .clear false (.closing 2) [putOf .body (.writingBody 1 false)] (.bodyWrite 2));
      s.sys.responses = [{ tag := 0, error := false, data := 0 }] ∧ (s.lane 2).cutting = true ∧
        s.port.systemQ.map MemRequest.owner = [.headerWrite 2] ∧ s.cmd.running = true) ∧
    (let s := after (.bodyWriteEnd (.ok 0))
        (commanded .opened .flush false (.emptying 2) [putOf .body (.writingBody 1 false)] (.bodyWrite 2));
      s.sys.responses = [{ tag := 0, error := false, data := 0 }] ∧ (s.lane 2).chain = [] ∧ (s.lane 2).gap = true ∧
        (s.lane 2).state = .opened ∧ s.pool.freeList.head? = some 5 ∧ s.cmd.running = false) := by decide

theorem witness_HeaderWriteEndCompletes_commanded :
    (putOf (.final 7) (.writingHeader true)).kind = .final 7 ∧
    (putOf (.final 7) (.writingHeader true)).stage = .writingHeader true ∧
    (putOf (.final 7) (.writingHeader true)).tx.direction = .write ∧
    (∀ owner, (withHeld (commanded .draining .clear true (.closing 2) [] owner) (heldBy .take .parcel)).heldOf 2 .put
      = none ∧ ∀ h, (withHeld (commanded .draining .clear true (.closing 2) [] owner) (heldBy .take .parcel)).heldOf 2
        .take = some h → h.kind = .parcel) :=
  ⟨rfl, rfl, rfl, fun _ => ⟨rfl, heldOf_kind (e := heldBy .take .parcel) (by rfl) rfl⟩⟩

/-- The cut's header write ends: the parcel is ready and noticed with master 0xFF, or the lane is FAULTED; either way CLOSE
LANE ends DONE. -/
theorem test_cut_ends :
    (let s := after (.headerWriteEnd (.ok 0)) (ringed (commanded .draining .clear true (.closing 2) [] (.headerWrite 2)));
      (s.lane 2).ready = 2 ∧ (s.lane 2).openParcel = none ∧ s.notice.waiting.map Notice.master = [0xFF] ∧
        s.cmd.running = false ∧ s.port.commandQ.map MemRequest.data = [0x0000040000020009]) ∧
    (let s := after (.headerWriteEnd .error) (commanded .draining .clear true (.closing 2) [] (.headerWrite 2));
      (s.lane 2).state = .faulted ∧ (s.lane 2).cause = .headerWrite ∧ s.cmd.running = false) := by decide

/-- A capture of lane 2 whose header write is unended, with entries waiting behind it. -/
def captureHeader (ready : Nat) (chain : List Nat) (segment offset : Nat) (linked : Bool) : State :=
  withOldest (world putEntry { emptyLane .refuse .fill with
    chain := chain, ready := ready, tailOffset := 24, putSeq := 3, takeSeq := 1
    openParcel := some { segment := segment, offset := offset, length := 16, flags := 8, sequence := 2 }
    putLine := { putOf (.capture true (.ok 5)) (.writingHeader false) with linked := linked } :: waitingCaptures })
    (.headerWrite 2)

theorem witness_HeaderWriteEndCompletes_capture (ready : Nat) (chain : List Nat) (segment offset : Nat)
    (linked : Bool) :
    let s := captureHeader ready chain segment offset linked
    let e : PutEntry := { putOf (.capture true (.ok 5)) (.writingHeader false) with linked := linked }
    s.Ends (requestOf (.headerWrite 2)) [] ∧ (s.lane 2).state = .opened ∧ (s.lane 2).busy = .clear ∧
      s.cmd.work ≠ .closing 2 ∧ (s.lane 2).cutting = false ∧ (s.lane 2).putLine = e :: waitingCaptures ∧
      (∀ x ∈ waitingCaptures, x.stage = .waiting) ∧ (s.lane 2).takeLine = [] ∧ s.hold.held = [] ∧
      e.kind = .capture true (.ok 5) ∧ e.stage = .writingHeader false ∧
      (s.lane 2).openParcel = some { segment := segment, offset := offset, length := 16, flags := 8, sequence := 2 } ∧
      (s.lane 2).ready = ready ∧ (s.lane 2).chain = chain ∧ e.linked = linked :=
  ⟨⟨⟨rfl, rfl, fun _ h => by cases h⟩, _, rfl, rfl, rfl⟩, rfl, rfl, nofun, rfl, rfl, by decide, rfl, rfl, rfl, rfl, rfl,
    rfl, rfl, rfl⟩

/-- The captures that wait are lost before the one whose header write failed, which is answered last (log 36). -/
theorem test_capture_header_fails :
    let s := after (.headerWriteEnd .error) (captureHeader 1 [5, 6] 6 0 true)
    s.sys.responses.map (fun r => (r.tag, r.error)) = [(1, true), (2, false), (3, true), (0, false)] ∧
      (s.lane 2).chain = [5] ∧ (s.lane 2).tailOffset = 512 ∧ (s.lane 2).cause = .headerWrite ∧ s.dec.tapLost = 3 := by
  decide

theorem witness_HeaderWriteEndCompletes (ready : Nat) (h : ready = 0 ∨ ready = 1) :
    let s := putting (.final 7) (.writingHeader false) (.headerWrite 2) ready
    s.Ends (requestOf (.headerWrite 2)) [] ∧ s.Puts 2 (putOf (.final 7) (.writingHeader false)) ∧
      (requestOf (.headerWrite 2)).owner = .headerWrite 2 ∧ (s.lane 2).openParcel.isSome = true ∧
      (s.lane 2).cutting = false ∧ s.heldOf 2 .take = none ∧ (s.lane 2).takeLine = [] ∧
      ((s.lane 2).armed && (s.lane 2).ready + 1 == (s.lane 2).desc.readyThreshold) = decide (ready = 1) := by
  refine ⟨(putting_ends _ _ _ _ _).1, (putting_ends _ _ _ _ _).2.1, rfl, rfl, rfl, rfl, rfl, ?_⟩
  rcases h with rfl | rfl <;> decide

theorem witness_CaptureWriteEndCompletes (stage : PutStage) (owner : Owner) :
    let s := putting (.capture true (.ok 5)) stage owner 0 false
    s.Ends (requestOf owner) [] ∧ s.Puts 2 (putOf (.capture true (.ok 5)) stage) ∧ (requestOf owner).owner = owner ∧
      (s.lane 2).openParcel.isSome = true ∧ (s.lane 2).cutting = false ∧ s.heldOf 2 .take = none ∧
      (s.lane 2).armed = false :=
  ⟨(putting_ends _ _ _ _ _).1, (putting_ends _ _ _ _ _).2.1, rfl, rfl, rfl, rfl, rfl⟩

/-- The same with PARCEL_READY armed, at its threshold or not. -/
theorem witness_CaptureWriteEndCompletes_armed (ready : Nat) :
    let s := putting (.capture true (.ok 5)) (.writingHeader false) (.headerWrite 2) ready true
    s.Ends (requestOf (.headerWrite 2)) [] ∧ s.Puts 2 (putOf (.capture true (.ok 5)) (.writingHeader false)) ∧
      (s.lane 2).cutting = false ∧ s.heldOf 2 .take = none ∧ (s.lane 2).armed = true ∧ (s.lane 2).ready = ready ∧
      (s.lane 2).desc.readyThreshold = 2 :=
  ⟨(putting_ends _ _ _ _ _).1, (putting_ends _ _ _ _ _).2.1, rfl, rfl, rfl, rfl, rfl⟩

/-- A capture of lane 2 whose second body write is unended: its open parcel begins at `offset` of `segment` in `chain`. -/
def capturing (ready : Nat) (chain : List Nat) (segment offset : Nat) (linked : Bool) (left : Nat := 1)
    (failed : Bool := false) : State :=
  withOldest (ringed (world putEntry { emptyLane .refuse .fill with
    chain := chain, ready := ready, tailOffset := 24, putSeq := 3, takeSeq := 1
    openParcel := some { segment := segment, offset := offset, length := 16, flags := 8, sequence := 2 }
    putLine := [{ putOf (.capture true (.ok 5)) (.writingBody left failed) with linked := linked }] })) (.captureWrite 2)

theorem witness_CaptureWriteEndCompletes_withdrawn (ready : Nat) (chain : List Nat) (segment offset : Nat)
    (linked : Bool) (left : Nat) (failed : Bool) :
    let s := capturing ready chain segment offset linked left failed
    let e : PutEntry := { putOf (.capture true (.ok 5)) (.writingBody left failed) with linked := linked }
    s.Ends (requestOf (.captureWrite 2)) [] ∧ s.Puts 2 e ∧ e.kind = .capture true (.ok 5) ∧
      (s.lane 2).openParcel = some { segment := segment, offset := offset, length := 16, flags := 8, sequence := 2 } ∧
      (requestOf (.captureWrite 2)).owner = .captureWrite 2 ∧ e.stage = .writingBody left failed ∧ s.hold.held = [] ∧
      (s.lane 2).errors + 1 ≠ (s.lane 2).desc.faultThreshold ∧ (s.lane 2).ready = ready ∧ (s.lane 2).chain = chain ∧
      e.linked = linked :=
  ⟨⟨⟨rfl, rfl, fun _ h => by cases h⟩, _, rfl, rfl, rfl⟩, ⟨rfl, rfl, rfl, rfl, nofun⟩, rfl, rfl, rfl, rfl, rfl, by
    show (1 : Nat) ≠ 3; decide, rfl, rfl, rfl⟩

/-- The whole chain goes with the only parcel; a linked segment goes where a ready parcel stays, with the tail where the
capture's header slot lay, or at the end of the segment before; else only the tail moves. -/
theorem test_capture_withdrawn :
    (let s := after (.captureWriteEnd .error) (capturing 0 [5, 6] 5 504 true);
      (s.lane 2).chain = [] ∧ s.pool.freeList.take 2 = [6, 5] ∧ s.dec.tapLost = 1 ∧ (s.lane 2).putSeq = 2) ∧
    (let s := after (.captureWriteEnd .error) (capturing 1 [5, 6] 5 504 true);
      (s.lane 2).chain = [5] ∧ (s.lane 2).tailOffset = 504 ∧ s.pool.freeList.head? = some 6) ∧
    (let s := after (.captureWriteEnd .error) (capturing 1 [5, 6] 6 0 true);
      (s.lane 2).chain = [5] ∧ (s.lane 2).tailOffset = 512) ∧
    (let s := after (.captureWriteEnd .error) (capturing 1 [5, 6] 6 0 false);
      (s.lane 2).chain = [5, 6] ∧ (s.lane 2).tailOffset = 0) := by decide

/-- Lane 2, full, with two ready parcels and a put that scans. -/
def scanLane : Lane :=
  { fullLane .evict with
    ready := 2, putSeq := 3, putLine := [putOf .body (.scanning [])] }
def scanning : State := withOldest (world putEntry scanLane) (.scanRead 2)

theorem witness_ScanReadEndCompletes :
    scanning.Ends (requestOf (.scanRead 2)) [] ∧ scanning.Puts 2 (putOf .body (.scanning [])) ∧
      (scanning.lane 2).takeLine = [] ∧
      (Header.ofWord storedHeader.word).passes ((scanning.lane 2).takeSeq + BitVec.ofNat 16 0) = true ∧
      1 < (scanning.lane 2).ready ∧
      ((scanning.ended []).setLane 2 { scanning.lane 2 with errors := 0 }).evictionFits 2 (putOf .body (.scanning []))
        [{ segment := 5, offset := 0, header := Header.ofWord storedHeader.word }] = false ∧
      (scanning.lane 2).errors + 1 ≠ (scanning.lane 2).desc.faultThreshold :=
  ⟨ends_of (world_calm _ _) _, puts_of (by decide), by decide, by decide, by decide, by decide, by decide⟩

/-- Lane 2 under EVICT with `ready` parcels in a full chain, and the takes `takes` in its line. -/
def evictLane (ready : Nat) (chain : List Nat) (tail : Nat) (takes : List TakeEntry) (cache : Option HeadCache) : Lane :=
  { emptyLane .evict .fill with
    chain := chain, ready := ready, tailOffset := tail, putSeq := BitVec.ofNat 16 ready, takeLine := takes
    cache := cache }

/-- A header of `length` bytes at the start of segment 5. -/
def scannedHeader (length : Nat) : Scanned :=
  { segment := 5, offset := 0, header := closingHeader (BitVec.ofNat 16 length) 0 7 0 }

theorem witness_ScanReadEndCompletes_arrival :
    (∀ ready takes cache, let s := world putEntry (evictLane ready [5, 6] 504 takes cache);
      putMeets s .bodyPut 0x60000000 ∧ (s.lane 2).desc.fullAction = .evict ∧ (s.lane 2).ready = ready ∧
        (s.lane 2).takeLine = takes ∧ (s.lane 2).cache = cache ∧ (s.lane 2).openParcel.isNone = true) ∧
    ((world putEntry (evictLane 2 [5, 6] 504 [] none)).spaceCheck 2 true 16 = .full .space ∧
      (evictLane 2 [5, 6] 504 [] none).putNeed (tx .write 0x60000000 8) = 16) ∧
    ((takeAt 3 .info .fetching).stage ≠ .waiting ∧ (takeAt 3 .info .waiting).stage = .waiting) ∧
    (let e := putOf .body .waiting;
      let cache : HeadCache := { header := (scannedHeader 100).header, consumed := 4 };
      let s := world putEntry (evictLane 2 [5, 6] 504 [] (some cache));
      1 < (s.lane 2).ready ∧ ((s.begin.occupy e.tx).setLane 2 { s.lane 2 with putLine := [e] }).evictionFits 2 e
        [scannedHeader 100] = false) :=
  ⟨fun _ _ _ => ⟨⟨rfl, ⟨⟨⟨rfl, rfl, fun _ h => by cases h⟩, rfl, by decide, rfl⟩, by
      show on.inControl 0x60000000 = false; decide, by show on.dec.guarded 0x60000000 = false; decide, by rfl⟩, rfl,
    ⟨rfl, rfl, rfl, rfl, nofun⟩⟩, rfl, rfl, rfl, rfl, rfl⟩, by decide, by decide, by decide⟩

/-- The put of `scanLane` alone in lane 2, which is `l`. -/
def evicting (l : Lane) : State := world putEntry { l with putLine := [putOf .body (.scanning [])] }

theorem witness_ScanReadEndCompletes_start :
    (let s := scanning; let u := (s.ended []).setLane 2 { s.lane 2 with errors := 0 };
      2 ≤ [scannedHeader 16, scannedHeader 16].length ∧ (s.lane 2).ready = 2 ∧
        u.evictionFits 2 (putOf .body (.scanning [])) [scannedHeader 600] = true) ∧
    (let s := evicting (evictLane 3 [5, 6, 7] 400 [] none); let e := putOf .body (.scanning []);
      s.evictionFits 2 e [scannedHeader 600] = true ∧ ((s.lane 2).evictAll [scannedHeader 600]).1.chain = [6, 7] ∧
        (s.lane 2).putNeed e.tx ≤ 512 - 400) ∧
    (let s := evicting (evictLane 3 [5, 6, 7] 504 [] none); let e := putOf .body (.scanning []);
      s.evictionFits 2 e [scannedHeader 600] = true ∧ 512 - 504 < (s.lane 2).putNeed e.tx ∧
        ((s.lane 2).evictAll [scannedHeader 600]).2 = 5 :: []) ∧
    (let s := evicting (evictLane 2 [5] 504 [] none); let e := putOf .body (.scanning []);
      s.evictionFits 2 e [scannedHeader 100] = true ∧ 512 - 504 < (s.lane 2).putNeed e.tx ∧
        ((s.lane 2).evictAll [scannedHeader 100]).2 = []) ∧
    (let s := evicting (evictLane 2 [5, 6] 504 [] none); let e := putOf .body (.scanning []);
      s.evictionFits 2 e [scannedHeader 100] = false ∧ s.heldOf 2 .put = none ∧ e.stage ≠ .waiting) ∧
    ((evictLane 1 [5, 6] 504 [] none).ready = 1 ∧ (evictLane 1 [5, 6] 504 [] none).openParcel = none ∧
      openAt504.offset < 512 ∧ 1 < (evictLane 2 [5, 6] 504 [] none).ready) := by decide

/-- The start event: the parcel of 600 bytes goes, its segment 5 becomes the put's, and the eviction is noticed first. -/
theorem test_eviction :
    let s := after (.scanReadEnd (.ok (scannedHeader 600).header.word))
      (withOldest (ringed (evicting (evictLane 2 [5, 6] 504 [] none))) (.scanRead 2))
    (s.lane 2).chain = [6, 5] ∧ (s.lane 2).ready = 1 ∧ (s.lane 2).evicted = 1 ∧ (s.lane 2).gap = true ∧
      s.notice.waiting.map Notice.kind = [.parcelEvicted] ∧
      s.port.systemQ.map MemRequest.address = [0x40000A00] := by decide

/-- The first of a capture's writes fails and the second ends OK: the capture is withdrawn, the count back at 0. -/
theorem test_capture_first_fails :
    let s := after (.captureWriteEnd .error) (capturing 1 [6] 6 8 false 2)
    let t := after (.captureWriteEnd (.ok 0)) (withOldest s (.captureWrite 2))
    ((s.lane 2).errors = 1 ∧ (s.lane 2).putLine.map PutEntry.stage = [.writingBody 1 true] ∧ s.dec.tapLost = 0) ∧
      (t.lane 2).errors = 0 ∧ (t.lane 2).openParcel = none ∧ (t.lane 2).tailOffset = 8 ∧ (t.lane 2).putSeq = 2 ∧
      t.dec.tapLost = 1 ∧ t.sys.responses.map (fun r => (r.tag, r.error)) = [(0, false)] := by decide

/-- Lane 2 with a ready parcel and take `e` alone in its line, and a request of `owner` outstanding. -/
def taking (cache : Option HeadCache) (stage : TakeStage) (owner : Owner) : State :=
  withOldest (world takeEntry { readyLane .fill with cache := cache, takeLine := [takeOf .info stage] }) owner

theorem witness_TakeReadsComplete :
    (∀ cache stage owner, (taking cache stage owner).Ends (requestOf owner) [] ∧
      (taking cache stage owner).Takes 2 (takeOf .info stage) ∧ (taking cache stage owner).heldOf 2 .put = none ∧
      (takeOf .info stage).tx.direction = .read ∧ (takeOf .info stage).kind = .info ∧
      (takeOf .info stage).tx.size = 8 ∧ ((taking cache stage owner).lane 2).cache = cache ∧
      ((taking cache stage owner).lane 2).desc.autoRelease = false ∧
      ((taking cache stage owner).lane 2).errors + 1 ≠ ((taking cache stage owner).lane 2).desc.faultThreshold) ∧
    (Header.ofWord storedHeader.word).passes (readyLane .fill).takeSeq = true ∧
    (Header.ofWord 0).passes (readyLane .fill).takeSeq = false :=
  ⟨fun _ _ _ => ⟨ends_of (world_calm _ _) _, ⟨rfl, rfl, rfl, rfl, rfl, nofun⟩, rfl, rfl, rfl, rfl, rfl, rfl, by
    show (1 : Nat) ≠ 3; decide⟩, by decide, by decide⟩

/-- A put of lane 2 scans, with entries waiting behind it and takes paused. -/
def scanFails : State :=
  withOldest (world putEntry { evictLane 3 [5, 6] 504 waitingTakes none with
    errors := 2, putLine := putOf .body (.scanning [scannedHeader 16]) :: waitingCaptures }) (.scanRead 2)

theorem witness_ScanReadEndCompletes_check :
    scanFails.Ends (requestOf (.scanRead 2)) [] ∧ (scanFails.lane 2).state = .opened ∧ (scanFails.lane 2).busy = .clear ∧
      scanFails.cmd.work ≠ .closing 2 ∧
      (scanFails.lane 2).putLine = putOf .body (.scanning [scannedHeader 16]) :: waitingCaptures ∧
      (∀ x ∈ waitingCaptures, x.stage = .waiting) ∧ (∀ x ∈ (scanFails.lane 2).takeLine, x.stage = .waiting) ∧
      scanFails.heldOf 2 .put = none ∧ scanFails.heldOf 2 .take = none ∧
      (Header.ofWord (scannedHeader 16).header.word).passes ((scanFails.lane 2).takeSeq + BitVec.ofNat 16 1) = false :=
  ⟨⟨⟨rfl, rfl, fun _ h => by cases h⟩, _, rfl, rfl, rfl⟩, by decide, by decide, by decide, by decide, by decide,
    by decide, by decide, by decide, by decide⟩

/-- Lane 2, FAULTED, with a put whose scan read is unended. -/
def faultedScan : State :=
  withOldest (world putEntry { evictLane 3 [5, 6] 504 [] none with
    state := .faulted, cause := .memoryErrors, errors := 3, putLine := [putOf .body (.scanning [scannedHeader 16])] })
    (.scanRead 2)

theorem witness_ScanReadEndCompletes_faults :
    ((scanFails.lane 2).errors + 1 = (scanFails.lane 2).desc.faultThreshold) ∧
    faultedScan.Ends (requestOf (.scanRead 2)) [] ∧ (requestOf (.scanRead 2)).owner = .scanRead 2 ∧
      (faultedScan.lane 2).state = .faulted ∧ (faultedScan.lane 2).busy = .clear ∧ faultedScan.cmd.work ≠ .closing 2 ∧
      (faultedScan.lane 2).putLine = [putOf .body (.scanning [scannedHeader 16])] ∧ (faultedScan.lane 2).takeLine = [] ∧
      faultedScan.heldOf 2 .put = none ∧ (putOf .body (.scanning [scannedHeader 16])).stage = .scanning [scannedHeader 16] :=
  ⟨by decide, ⟨⟨rfl, rfl, fun _ h => by cases h⟩, _, rfl, rfl, rfl⟩, rfl, rfl, rfl, nofun, rfl, rfl, rfl, rfl⟩

/-- A scan read that faults the lane still refuses its put; one that ends OK on a FAULTED lane does not. -/
theorem test_scan_faults :
    (let s := after (.scanReadEnd .error) scanFails;
      (s.lane 2).cause = .memoryErrors ∧ (s.lane 2).refusals = 1 ∧ (s.lane 2).chain = [5, 6] ∧
        s.sys.responses.map (fun r => (r.tag, r.error))
          = [(1, true), (2, false), (3, true), (5, true), (6, true), (0, true)]) ∧
    (let s := after (.scanReadEnd (.ok (scannedHeader 16).header.word)) faultedScan;
      (s.lane 2).refusals = 0 ∧ s.sys.responses.map (fun r => (r.tag, r.error)) = [(0, true)]) := by decide

/-- A header with the wrong sequence faults the lane in the scan: everything that waits is answered, nothing is evicted. -/
theorem test_scan_check_fails :
    let s := after (.scanReadEnd (.ok (scannedHeader 16).header.word)) scanFails
    (s.lane 2).cause = .headerCheck ∧ (s.lane 2).errors = 0 ∧ (s.lane 2).ready = 3 ∧ (s.lane 2).chain = [5, 6] ∧
      (s.lane 2).refusals = 0 ∧ s.sys.responses.map (fun r => (r.tag, r.error))
        = [(1, true), (2, false), (3, true), (5, true), (6, true), (0, true)] := by decide

/-- A data read of lane 2 with one read unended, of a head parcel of 16 bytes of which `consumed` are consumed. -/
def dataTake (size : Nat) : TakeEntry :=
  { takeOf .data (.reading 8 1 false []) with tx := tx .read 0x60000000 size }
def readingLane (consumed : Nat) (auto : Bool) (e : TakeEntry) (puts : List PutEntry) : Lane :=
  { readyLane .fill with
    ready := 2, chain := [5, 6], headOffset := 8, tailOffset := 100, takeLine := [e], putLine := puts
    cache := some { header := storedHeader, consumed := consumed }
    desc := { desc .refuse .fill with autoRelease := auto } }
def reading (consumed : Nat) (auto : Bool) (e : TakeEntry) : State :=
  withOldest (world takeEntry (readingLane consumed auto e [])) (.takeRead 2)

/-- The same lane FAULTED, its request of `owner`. -/
def faultedTake (e : TakeEntry) (puts : List PutEntry) (owner : Owner) : State :=
  withOldest (world takeEntry { readingLane 8 true e puts with state := .faulted, cause := .memoryErrors }) owner

theorem witness_TakeReadsComplete_consuming :
    (∀ consumed auto, let s := reading consumed auto (dataTake 8);
      s.Ends (requestOf (.takeRead 2)) [] ∧ s.Takes 2 (dataTake 8) ∧ (dataTake 8).tx.direction = .read ∧
        (requestOf (.takeRead 2)).owner = .takeRead 2 ∧ (dataTake 8).stage = .reading 8 1 false [] ∧
        (s.lane 2).cache = some { header := storedHeader, consumed := consumed } ∧
        (s.lane 2).desc.autoRelease = auto ∧ s.hold.held = [] ∧ (s.lane 2).ready ≠ 0) ∧
    (8 = (dataTake 8).tx.size ∧ 8 + 8 = storedHeader.length.toNat) ∧
    (let e := takeOf .data (.reading 4 1 false []); (reading 12 true e).Takes 2 e ∧ 4 < e.tx.size ∧
      (reading 4 true e).Takes 2 e ∧ 4 + 4 ≠ storedHeader.length.toNat) :=
  ⟨fun _ _ => ⟨⟨⟨rfl, rfl, fun _ h => by cases h⟩, _, rfl, rfl, rfl⟩, ⟨rfl, rfl, rfl, rfl, rfl, nofun⟩, rfl, rfl, rfl,
      rfl, rfl, rfl, by show (2 : Nat) ≠ 0; decide⟩, by decide, ⟨rfl, rfl, rfl, rfl, rfl, nofun⟩, by decide,
    ⟨rfl, rfl, rfl, rfl, rfl, nofun⟩, by decide⟩

theorem witness_TakeReadsComplete_below :
    (∀ k left failed, let e := takeOf .data (.reading k left failed []);
      (reading 0 true e).Ends (requestOf (.takeRead 2)) [] ∧ (reading 0 true e).Takes 2 e ∧
        ((reading 0 true e).lane 2).errors + 1 ≠ ((reading 0 true e).lane 2).desc.faultThreshold) ∧
    (let e := takeOf .data (.reading 4 1 false []); e.tx.direction = .read ∧ 4 < e.tx.size ∧
      12 + 4 = storedHeader.length.toNat ∧ (reading 12 true e).hold.held = [] ∧ ((reading 12 true e).lane 2).ready ≠ 0 ∧
      ((reading 12 true e).lane 2).desc.autoRelease = true ∧
      ((reading 12 true e).lane 2).cache = some { header := storedHeader, consumed := 12 }) :=
  ⟨fun _ _ _ => ⟨⟨⟨rfl, rfl, fun _ h => by cases h⟩, _, rfl, rfl, rfl⟩, ⟨rfl, rfl, rfl, rfl, rfl, nofun⟩, by
    show (1 : Nat) ≠ 3; decide⟩, by decide⟩

/-- The first of two body reads fails and the second ends OK: ERROR, nothing consumed. A read that takes the last bytes
and asks for more is an overread and a release. -/
theorem test_data_read_ends :
    (let s := after (.takeReadEnd .error) (reading 0 true (takeOf .data (.reading 8 2 false [])));
      let t := after (.takeReadEnd (.ok 0)) (withOldest s (.takeRead 2));
      (s.lane 2).errors = 1 ∧ s.sys.responses = [] ∧ (t.lane 2).errors = 0 ∧
        t.sys.responses.map (fun r => (r.tag, r.error)) = [(0, true)] ∧
        (t.lane 2).cache = some { header := storedHeader, consumed := 0 }) ∧
    (let s := after (.takeReadEnd (.ok 0)) (reading 12 true (takeOf .data (.reading 4 1 false [])));
      (s.lane 2).overreads = 1 ∧ (s.lane 2).released = 1 ∧ (s.lane 2).cache = none ∧ (s.lane 2).ready = 1 ∧
        s.sys.responses.map (fun r => (r.tag, r.error)) = [(0, false)]) := by decide

theorem witness_TakeReadsComplete_fetched (kind : TakeKind) :
    let e := takeOf kind .fetching
    let s := withOldest (world takeEntry { readyLane .fill with takeLine := [e] }) (.headFetch 2)
    s.Ends (requestOf (.headFetch 2)) [] ∧ s.Takes 2 e ∧ e.tx.direction = .read ∧ e.stage = .fetching ∧
      e.kind = kind ∧ e.tx.size ≠ 0 ∧ s.hold.held = [] ∧ (s.lane 2).ready ≠ 0 ∧
      (Header.ofWord storedHeader.word).passes (readyLane .fill).takeSeq = true :=
  ⟨⟨⟨rfl, rfl, fun _ h => by cases h⟩, _, rfl, rfl, rfl⟩, ⟨rfl, rfl, rfl, rfl, rfl, nofun⟩, rfl, rfl, rfl, by
    show (8 : Nat) ≠ 0; decide, rfl, by show (1 : Nat) ≠ 0; decide, by decide⟩

/-- A take `e` of lane 2 in flight, with entries waiting in both lines, one held, and one failure left to the threshold. -/
def takeAtThreshold (e : TakeEntry) (owner : Owner) : State :=
  withOldest (withHeld (world takeEntry { readyLane .fill with
    errors := 2, takeLine := e :: waitingTakes, putLine := waitingCaptures }) (heldBy .put .pool)) owner

theorem witness_TakeReadsComplete_threshold (e : TakeEntry) (owner : Owner) :
    let s := takeAtThreshold e owner
    s.Ends (requestOf owner) [] ∧ (s.lane 2).state = .opened ∧ (s.lane 2).busy = .clear ∧ s.cmd.work ≠ .closing 2 ∧
      (s.lane 2).takeLine = e :: waitingTakes ∧ (∀ x ∈ waitingTakes, x.stage = .waiting) ∧
      (s.lane 2).putLine = waitingCaptures ∧ (∀ x ∈ waitingCaptures, x.stage = .waiting) ∧
      (∀ x ∈ [heldBy .put .pool], x.kind = .pool → x.lane = 2 ∧ x.line = .put) ∧ s.hold.held = [heldBy .put .pool] ∧
      s.heldOf 2 .take = none ∧ (s.lane 2).errors + 1 = (s.lane 2).desc.faultThreshold :=
  ⟨⟨⟨rfl, rfl, fun _ h => by cases h⟩, _, rfl, rfl, rfl⟩, rfl, rfl, nofun, rfl, by decide, rfl, by decide, by decide, rfl,
    rfl, rfl⟩

/-- The first of two body reads faults the lane at once; the data read stays for the second. -/
theorem test_take_faults :
    let e := takeAt 0 .data (.reading 8 2 false [])
    let s := after (.takeReadEnd .error) (takeAtThreshold e (.takeRead 2))
    (s.lane 2).state = .faulted ∧ (s.lane 2).takeLine = [{ e with stage := .reading 8 1 true [] }] ∧ s.hold.held = [] ∧
      s.sys.responses.map (fun r => (r.tag, r.error)) = [(1, true), (2, false), (3, true), (5, true), (6, true)] := by
  decide

theorem witness_TakeReadsComplete_faulted (e : TakeEntry) (puts : List PutEntry) (owner : Owner) :
    let s := faultedTake e puts owner
    (s.Ends (requestOf owner) [] ∧ (s.lane 2).state = .faulted ∧ (s.lane 2).busy = .clear ∧ s.cmd.work ≠ .closing 2 ∧
      (s.lane 2).takeLine = [e] ∧ s.heldOf 2 .take = none ∧ s.heldOf 2 .put = none ∧ (s.lane 2).putLine = puts ∧
      (s.lane 2).cache = some { header := storedHeader, consumed := 8 } ∧ (requestOf owner).owner = owner) ∧
    ((putOf .body .waitTake).stage = .waitTake ∧ ∀ hold o, (putOf .body .waitTake).kind ≠ .capture hold o) ∧
    (takeOf .info .fetching).stage = .fetching ∧
    ((Header.ofWord storedHeader.word).passes (readyLane .fill).takeSeq = true ∧
      (Header.ofWord 0).passes (readyLane .fill).takeSeq = false) :=
  ⟨⟨⟨⟨rfl, rfl, fun _ h => by cases h⟩, _, rfl, rfl, rfl⟩, rfl, rfl, nofun, rfl, rfl, rfl, rfl, rfl, rfl⟩,
    ⟨rfl, fun _ _ h => (by cases h)⟩, rfl, by decide⟩

/-- A put that waits for a take is answered when the take is, not in the event of the fault between its two reads. -/
theorem test_fault_keeps_waitTake :
    let e := takeAt 3 .data (.reading 8 2 false [])
    let l := { readingLane 0 false e [putAt 4 .body .waitTake] with errors := 2 }
    let s := after (.takeReadEnd .error) (withOldest (world takeEntry l) (.takeRead 2))
    let t := after (.takeReadEnd (.ok 0)) (withOldest s (.takeRead 2))
    ((s.lane 2).state = .faulted ∧ s.sys.responses = [] ∧ (s.lane 2).putLine = [putAt 4 .body .waitTake]) ∧
      t.sys.responses.map (fun r => (r.tag, r.error)) = [(3, true), (4, true)] ∧ (t.lane 2).putLine = [] := by decide

/-- The unit runs a command with `code` on `lane` and waits for `left` image reads, `words` read. -/
def loading (code : Byte) (lane left : Nat) (words : List (Nat × Word)) : State :=
  withOldest
    { world .invalid .empty with
      cmd := { on.cmd with
        running := true
        current := { code := code, lane := BitVec.ofNat 8 lane, flags := 0, ticket := 0x1234, master := 3 }
        work := .images left words none } } (.imageRead 56 0x1234)

theorem loading_ends (code : Byte) (lane left : Nat) (words : List (Nat × Word)) :
    (loading code lane left words).Ends (requestOf (.imageRead 56 0x1234)) [] :=
  ⟨⟨rfl, rfl, fun _ h => by cases h⟩, _, rfl, rfl, rfl⟩

/-- The first 32 bytes of a legal setup header: pool of 16 segments at 0x40000000, ring of 16 entries at 0x41000000. -/
def setupWords : List (Nat × Word) :=
  [(0x00, 0x40000000C4125E70), (0x08, 0x07FF001000020010), (0x10, 0x0000010A41000000), (0x18, 0x0000000000000000)]

/-- A legal descriptor of lane 15: REFUSE, FILL, threshold 3, quota 2, maximum length 40, ready threshold 2. -/
def descriptorWords : List (Nat × Word) := [(0x3F0, 0x0028000203020200), (0x3F8, 0x0000000000020000)]

theorem witness_ImageReadEndCompletes :
    (∀ code lane left words, (loading code lane left words).Ends (requestOf (.imageRead 56 0x1234)) [] ∧
      (loading code lane left words).cmd.work = .images left words none ∧
      (loading code lane left words).cmd.autoload = none ∧ (loading code lane left words).hold.waiter = none ∧
      (loading code lane left words).cmd.current.flags.getLsbD 0 = false ∧
      (loading code lane left words).cmd.current.code = code) ∧
    (parseSetup (setupWords ++ [(56, 0)])).rejection ((loading 1 0 1 setupWords).controlAddress 0).toNat = none ∧
    ((loading 3 15 1 descriptorWords).cmd.current.lane.toNat = 15 ∧
      ∃ d, (parseDescriptor (descriptorWords ++ [(56, 0)]) 15).validate (loading 3 15 1 descriptorWords).pool.count
        = .ok d) :=
  ⟨fun _ _ _ _ => ⟨loading_ends _ _ _ _, rfl, rfl, rfl, by
    show (0 : Byte).getLsbD 0 = false
    decide, rfl⟩, by decide, by decide, _, by rfl⟩

/-- The unit at the last image read, behind the failure `failed` of an earlier one, in autoload or not. -/
def lastRead (code : Byte) (left : Nat) (words : List (Nat × Word)) (failed : Option Nat) (auto : Option AutoStep) :
    State :=
  let s := loading code 15 left words
  { s with cmd := { s.cmd with work := .images left words failed, autoload := auto } }

/-- Aperture images: entry 1 INVALID, entry 2 PUT lane 2, entry 3 of kind 4 (TAKE) or 5 (TAP) for lane 2. -/
def apertureWords (kind : Nat) : List (Nat × Word) :=
  [(0x110, 0x0000000060000000), (0x118, 0x0000000000020C03), (0x120, 0x0000000061000000),
    (0x128, BitVec.ofNat 64 (0x20C00 + kind))]

theorem witness_ImageReadEndCompletes_fails (code : Byte) (left : Nat) (words : List (Nat × Word))
    (failed : Option Nat) (auto : Option AutoStep) :
    let s := lastRead code left words failed auto
    s.Ends (requestOf (.imageRead 56 0x1234)) [] ∧ (requestOf (.imageRead 56 0x1234)).owner = .imageRead 56 0x1234 ∧
      s.cmd.work = .images left words failed ∧ s.cmd.autoload = auto ∧ s.hold.waiter = none ∧
      s.cmd.current.flags.getLsbD 0 = false ∧ s.cmd.current.code = code ∧ s.cmd.current.lane.toNat = 15 ∧
      (s.ended []).systemQuiet = true ∧ s.dec.frozen = [] :=
  ⟨⟨⟨rfl, rfl, fun _ h => by cases h⟩, _, rfl, rfl, rfl⟩, rfl, rfl, rfl, rfl, by
    show (0 : Byte).getLsbD 0 = false; decide, rfl, by show (BitVec.ofNat 8 15).toNat = 15; decide, rfl, rfl⟩

/-- The same with a request of a put waiting: the port is not quiet. -/
def lastReadBusy : State :=
  let s := lastRead 2 1 (apertureWords 4) none none
  { s with port := { s.port with systemQ := [requestOf (.bodyWrite 2)] } }

theorem witness_ImageReadEndCompletes_content :
    (parseSetup ([] ++ [(56, 0)])).rejection 0 = some (0x02, 0) ∧
    (parseDescriptor ([] ++ [(56, 0)]) 15).validate 16 = .error 1 ∧
    (∃ es, validateFrom (apertureWords 4 ++ [(56, 0)]) 0 23 [] = .ok es) ∧
    validateFrom (apertureWords 5 ++ [(56, 0)]) 0 23 [] = .error 3 ∧
    (lastReadBusy.ended []).systemQuiet = false ∧
    ((parseDescriptor (descriptorWords ++ [(56, 0)]) 15).flags.getLsbD 0 = false ∧
      (parseDescriptor [(0x3F0, 1), (56, 0)] 15).flags.getLsbD 0 = true ∧
      (parseDescriptor [(0x3F0, 1), (56, 0)] 15).validate 16 = .error 1) ∧
    (let images := [(0x3F0, 0x0028000203020201), (0x3F8, 0x0000000000020000), (56, 0)];
      (parseDescriptor images 15).flags.getLsbD 0 = true ∧ ∃ d, (parseDescriptor images 15).validate 16 = .ok d) :=
  ⟨by decide, by rfl, ⟨_, rfl⟩, by rfl, by decide, ⟨by decide, by decide, by rfl⟩, by decide, _, rfl⟩

/-- A failed read of the table rejects LOAD APERTURES with the entry of the lowest failed offset; autoload goes on from the
table to the descriptor of lane 0. -/
theorem test_images_end :
    (after (.imageReadEnd (.ok 0)) (lastRead 2 1 [] (some 0x128) none)).port.commandQ.map MemRequest.data
      = [0x000002030A031234] ∧
    (after (.imageReadEnd (.ok 0)) (lastRead 2 1 (apertureWords 4) none (some .apertures))).port.commandQ.map
      MemRequest.address = [0x300, 0x308] := by decide

theorem witness_ImageReadEndCompletes_autoload (left : Nat) (failed : Option Nat) (step : AutoStep) :
    let s := lastRead 0 left [] failed (some step)
    s.Ends (requestOf (.imageRead 56 0x1234)) [] ∧ (requestOf (.imageRead 56 0x1234)).owner = .imageRead 56 0x1234 ∧
      s.cmd.work = .images left [] failed ∧ s.cmd.autoload = some step ∧ s.hold.waiter = none :=
  ⟨⟨⟨rfl, rfl, fun _ h => by cases h⟩, _, rfl, rfl, rfl⟩, rfl, rfl, rfl, rfl⟩

/-- A failed read of a descriptor stops autoload with IMAGE_READ_ERROR, the lane and OPEN LANE's code. -/
theorem test_autoload_stops :
    let s := after (.imageReadEnd .error) (lastRead 0 1 [] none (some (.descriptor 15)))
    s.port.commandQ.map MemRequest.data = [0x0000030F0A030000] ∧ s.cmd.running = false ∧ s.cmd.autoload = none := by
  decide

/-- The notice writer with `left` requests of a notice write unended. -/
def noticing (left : Nat) : State :=
  withOldest { on with notice := { on.notice with
      entries := 16
      waiting := [refusalNotice (tx .read 2 4) 0xFF 0x10]
      write := some { carried := none, left := left, failed := false, stale := false } } } .noticeWrite

theorem witness_UnitRequestsEnd :
    (withOldest on (.responseWrite 0x1234)).Ends (requestOf (.responseWrite 0x1234)) [] ∧
    (∀ left, (noticing left).Ends (requestOf .noticeWrite) [] ∧
      (noticing left).notice.write = some { carried := none, left := left, failed := false, stale := false } ∧
      (noticing left).notice.waiting = [refusalNotice (tx .read 2 4) 0xFF 0x10] ∧ (noticing left).notice.loss = 0) ∧
    (∀ i, (withOldest (writing true) (.statusWrite i)).Ends (requestOf (.statusWrite i)) [] ∧
      1 < (withOldest (writing true) (.statusWrite i)).status.left ∧
      (withOldest (writing true) (.statusWrite i)).cmd.work ≠ .status false ∧
      (withOldest (writing true) (.statusWrite i)).status.followOn = false) ∧
    (on.Calm ∧ on.port.outstanding = []) ∧
    (∃ x rest, ({ on with port := { on.port with outstanding := [
        { request := requestOf .noticeWrite, issueTick := 0, deadline := some 9, due := true, abandoned := true }] } } :
        State).port.outstanding = x :: rest ∧ x.abandoned = true) :=
  ⟨ends_of on_calm _, fun left => ⟨⟨⟨rfl, rfl, fun _ h => by cases h⟩, _, rfl, rfl, rfl⟩, rfl, rfl, rfl⟩,
    fun i => ⟨⟨⟨rfl, rfl, fun _ h => by cases h⟩, _, rfl, rfl, rfl⟩, by
      show 1 < 5
      decide, nofun, rfl⟩,
    ⟨on_calm, rfl⟩, _, _, rfl, rfl⟩

/-- A write-back with `left` writes unended, the oldest of them write `i`, and a follow-on marked or not. -/
def statusEnding (i left : Nat) (followOn : Bool) (work : CommandWork) : State :=
  let s := withOldest (ringed on) (.statusWrite i)
  { s with
    status := { s.status with inProgress := true, generation := 8, left := left, followOn := followOn }
    cmd := { s.cmd with running := work != .none, work := work } }

theorem witness_UnitRequestsEnd_status (i left : Nat) (followOn : Bool) (work : CommandWork)
    (h : ∀ table, work ≠ .freezing table) :
    let s := statusEnding i left followOn work
    s.Ends (requestOf (.statusWrite i)) [] ∧ (requestOf (.statusWrite i)).owner = .statusWrite i ∧
      s.status.left = left ∧ s.status.inProgress = true ∧ s.status.followOn = followOn ∧ s.cmd.work = work ∧
      s.cmd.autoload = none ∧ s.hold.waiter = none ∧ 74 ∉ s.port.statusQ ∧
      (∀ waits, CommandWork.none ≠ .status waits) ∧ CommandWork.status true ≠ .status false :=
  ⟨⟨⟨rfl, rfl, h⟩, _, rfl, rfl, rfl⟩, rfl, rfl, rfl, rfl, rfl, rfl, rfl, nofun, nofun, nofun⟩

/-- The last of the 73 writes fails: it is counted, with no notice, and the generation end write is created. The end of
that one starts the write-back that was marked, for the command that marked it. -/
theorem test_status_ends :
    (let s := after (.statusWriteEnd .error) (statusEnding 73 1 false (.status false));
      s.port.statusQ = [74] ∧ s.port.errors = 1 ∧ s.notice.waiting = [] ∧ s.status.inProgress = true) ∧
    (let s := after (.statusWriteEnd .error) (statusEnding 74 0 true (.status true));
      s.status.inProgress = true ∧ s.status.followOn = false ∧ s.status.generation = 9 ∧ s.port.statusQ.length = 73 ∧
        s.cmd.work = .status false ∧ s.cmd.running = true) := by decide

/-- A notice write `w` with its last request unended, two notices pending and `loss` counted. -/
def noticeEnds (w : NoticeWrite) (loss : Half) : State :=
  let s := withOldest (ringed on) .noticeWrite
  { s with notice := { s.notice with
      write := some w, waiting := [refusalNotice (tx .read 2 4) 0xFF 0x10, laneClosedNotice 3], loss := loss
      enable := true, writeErrors := 65535 } }

theorem witness_UnitRequestsEnd_notices (carried : Option Half) (left : Nat) (failed stale : Bool) (loss : Half) :
    let w : NoticeWrite := { carried := carried, left := left, failed := failed, stale := stale }
    (noticeEnds w loss).Ends (requestOf .noticeWrite) [] ∧ (requestOf .noticeWrite).owner = .noticeWrite ∧
      (noticeEnds w loss).notice.write = some w :=
  ⟨⟨⟨rfl, rfl, fun _ h => by cases h⟩, _, rfl, rfl, rfl⟩, rfl, rfl⟩

/-- A notice that fails is counted lost and a NOTICE_LOSS with the whole loss follows; one that succeeds lowers the loss by
what it carried and drives INT_N low. -/
theorem test_notice_ends :
    (let s := after (.noticeWriteEnd .error) (noticeEnds { carried := none, left := 1, failed := false, stale := false } 4);
      s.notice.loss = 5 ∧ s.notice.waiting = [laneClosedNotice 3] ∧ s.notice.writeErrors = 65535 ∧
        s.notice.producer = 0 ∧ s.notice.write.bind NoticeWrite.carried = some 5) ∧
    (let s := after (.noticeWriteEnd (.ok 0))
        (noticeEnds { carried := some 4, left := 1, failed := false, stale := false } 4);
      s.notice.loss = 0 ∧ s.notice.waiting.length = 2 ∧ s.notice.producer = 1 ∧ s.notice.intN = false) := by decide

/-! ## Steps the block makes by itself -/

/-- `s` with the unit at work on `work`. -/
def atWork (s : State) (work : CommandWork) : State := { s with cmd := { s.cmd with running := true, work := work } }

/-- A put of lane 2 that has room now and waited for a take, or was held. -/
def roomy (stage : PutStage) : State :=
  withHeld (world putEntry { openLane .evict with putLine := [putOf .body stage] }) (heldBy .put .space)

/-- A take of lane 2 that was held and has a parcel now. -/
def woken : State :=
  withHeld (world takeEntry { readyLane .hold with takeLine := [takeOf .data .waiting] }) (heldBy .take .parcel)

/-- Lane 2 DRAINING with nothing left but the take line `line`. -/
def drainingLane (line : List TakeEntry) : Lane :=
  { emptyLane .refuse .hold with state := .draining, takeLine := line }

theorem witness_LaneStepsComplete :
    (∀ stage ∈ [PutStage.waitTake, .waiting], (roomy stage).Calm ∧ ((roomy stage).lane 2).putLine = [putOf .body stage] ∧
      ((roomy stage).lane 2).keptBytes (putOf .body stage).tx ≠ [] ∧
      (roomy stage).spaceCheck 2 ((roomy stage).lane 2).openParcel.isNone
        (((roomy stage).lane 2).putNeed (putOf .body stage).tx) = .starts false ∧
      ((roomy stage).lane 2).takeLine = [] ∧ ((roomy stage).lane 2).state ≠ .faulted ∧
      (roomy stage).heldOf 2 .put ≠ none) ∧
    (let s := world putEntry { openLane .evict with state := .faulted, putLine := [putOf .body .waitTake] };
      s.Calm ∧ (s.lane 2).putLine = [putOf .body .waitTake] ∧ (s.lane 2).takeLine = [] ∧ (s.lane 2).state = .faulted ∧
        (s.lane 2).busy = .clear ∧ s.cmd.work ≠ .closing 2 ∧ s.heldOf 2 .put = none) ∧
    (woken.Calm ∧ (woken.lane 2).takeLine = [takeOf .data .waiting] ∧ (woken.lane 2).putLine = [] ∧
      (woken.lane 2).ready ≠ 0 ∧ (woken.lane 2).cache = none ∧ woken.heldOf 2 .take ≠ none) ∧
    (let s := atWork (world putEntry { openLane .refuse with state := .draining }) (.closing 2);
      s.Calm ∧ s.cmd.work = .closing 2 ∧ (s.lane 2).state = .draining ∧ (s.lane 2).openParcel.isSome = true ∧
        (s.lane 2).putLine = [] ∧ (s.lane 2).cutting = false) ∧
    (let s := world takeEntry (drainingLane []);
      s.Calm ∧ (s.lane 2).state = .draining ∧ (s.lane 2).busy = .clear ∧ (s.lane 2).ready = 0 ∧
        (s.lane 2).openParcel = none ∧ (s.lane 2).putLine = [] ∧ (s.lane 2).cutting = false ∧
        (s.lane 2).takeLine = [] ∧ s.heldOf 2 .take = none) ∧
    (let s := withHeld (world takeEntry (drainingLane [takeOf .data .waiting])) (heldBy .take .parcel);
      s.Calm ∧ (s.lane 2).takeLine = [takeOf .data .waiting] ∧ s.heldOf 2 .take = some (heldBy .take .parcel) ∧
        (heldBy .take .parcel).kind = .parcel) ∧
    (let s := atWork (world putEntry { readyLane .fill with busy := .reset }) (.emptying 2);
      s.Calm ∧ s.cmd.work = .emptying 2 ∧ s.hold.waiter = none ∧ s.hold.held = [] ∧ (s.lane 2).putLine = [] ∧
        (s.lane 2).takeLine = [] ∧ (s.lane 2).cutting = false ∧ (s.lane 2).busy = .reset) := by
  refine ⟨fun stage h => ⟨⟨rfl, rfl, fun _ h => by cases h⟩, by revert stage; decide⟩,
    ⟨calm_of (by decide), by decide⟩, ⟨calm_of (by decide), by decide⟩, ⟨⟨rfl, rfl, fun _ h => by cases h⟩, by decide⟩,
    ⟨calm_of (by decide), by decide⟩, ⟨calm_of (by decide), by decide⟩, ⟨rfl, rfl, fun _ h => by cases h⟩, by decide⟩

/-- A held put that still finds its lane full, and a held take that still finds no parcel. -/
def stillFull : State :=
  withHeld (world putEntry { fullLane .hold with putLine := [putOf .body .waiting] }) (heldBy .put .pool)
def stillEmpty : State :=
  withHeld (world takeEntry { emptyLane .refuse .hold with takeLine := [takeOf .data .waiting] }) (heldBy .take .parcel)

theorem witness_LaneStepsComplete_waits :
    (stillFull.Calm ∧ (stillFull.lane 2).putLine = [putOf .body .waiting] ∧
      noCapture [putOf .body .waiting] = true ∧ (stillFull.lane 2).keptBytes (putOf .body .waiting).tx ≠ [] ∧
      stillFull.spaceCheck 2 (stillFull.lane 2).openParcel.isNone
        ((stillFull.lane 2).putNeed (putOf .body .waiting).tx) = .full .space ∧
      (stillFull.lane 2).desc.fullAction = .hold ∧ stillFull.heldOf 2 .put ≠ none) ∧
    (stillEmpty.Calm ∧ (stillEmpty.lane 2).takeLine = [takeOf .data .waiting] ∧ (stillEmpty.lane 2).putLine = [] ∧
      (stillEmpty.lane 2).ready = 0 ∧ (stillEmpty.lane 2).desc.emptyAction = .hold ∧
      (takeOf .data .waiting).kind ≠ .release ∧ stillEmpty.heldOf 2 .take ≠ none) ∧
    (∀ st, let s := atWork (world putEntry { readyLane .fill with busy := .flush, state := st }) (.emptying 2);
      s.Calm ∧ s.cmd.work = .emptying 2 ∧ s.hold.waiter = none ∧ s.hold.held = [] ∧ (s.lane 2).putLine = [] ∧
        (s.lane 2).takeLine = [] ∧ (s.lane 2).cutting = false ∧ (s.lane 2).busy = .flush ∧ (s.lane 2).state = st) :=
  ⟨⟨calm_of (by decide), by decide⟩, ⟨calm_of (by decide), by decide⟩, fun _ =>
    ⟨⟨rfl, rfl, fun _ h => by cases h⟩, rfl, rfl, rfl, rfl, rfl, rfl, rfl, rfl⟩⟩

theorem witness_LaneStepsComplete_wakes :
    (poolWaits.heldOf 15 .take = none ∧ poolWaits.heldOf 3 .put ≠ none ∧ stillEmpty.heldOf 2 .take ≠ none) ∧
    (let s := world putEntry { openLane .hold with armed := false };
      (s.lane 2).openParcel.isSome = true ∧ (s.lane 2).armed = false) := by decide

/-- The held put that still waits keeps hold start and deadline, with the wait kind found now. -/
theorem test_wake_still_waits :
    (after (.heldEntryWake 2 .put) stillFull).hold.held = [heldBy .put .space] := by decide

/-- Pool waiters rank by hold start across the wrap, then by lane; two segments wake two of the three. -/
theorem test_pool_waiters :
    poolWaits.poolWaiters.map HeldEntry.lane = [1, 3, 5] ∧
    (({ poolWaits with pool := { poolWaits.pool with freeList := [] } } : State).returnSegments [7, 8]
      fun _ => false).todo = [.wake 1 .put, .wake 3 .put] := by decide

/-- A notice waits, with a ring in force and no notice write unended. -/
def oneNotice : State :=
  { on with notice := { on.notice with entries := 16, waiting := [refusalNotice (tx .read 2 4) 0xFF 0x10] } }

theorem witness_UnitStepsComplete :
    (∀ quiet, (replacing quiet).rst = false ∧ (replacing quiet).sys.presented = [] ∧
      (replacing quiet).sys.freeze = true ∧ (replacing quiet).cmd.work = .freezing (Vector.replicate 23 .invalid) ∧
      (replacing quiet).systemQuiet = quiet ∧ (replacing quiet).cmd.autoload = none ∧
      (replacing quiet).hold.waiter = none ∧ (replacing quiet).dec.frozen = []) ∧
    (oneNotice.Calm ∧ oneNotice.notice.write = none ∧
      oneNotice.notice.waiting = [refusalNotice (tx .read 2 4) 0xFF 0x10] ∧ oneNotice.notice.loss = 0 ∧
      oneNotice.notice.full = false) ∧
    (let s : State := { on with status := { on.status with followOn := true } };
      s.Calm ∧ s.status.inProgress = false ∧ s.status.followOn = true ∧ s.cmd.work ≠ .status true) ∧
    (let s : State := { on with status := { on.status with inProgress := true } };
      s.Calm ∧ s.status.inProgress = true ∧ s.status.left = 0 ∧ s.port.statusQ = [] ∧
        ∀ e ∈ s.port.outstanding, e.request.owner ≠ .statusWrite 74) :=
  ⟨fun quiet => ⟨rfl, rfl, rfl, rfl, by cases quiet <;> rfl, rfl, rfl, rfl⟩, ⟨calm_of (by decide), by decide⟩,
    ⟨calm_of (by decide), by decide⟩, calm_of (by decide), by decide⟩

/-- The last read that delays a replacement is the oldest request, and two accesses that pass through wait frozen. -/
def frozenAccess (tag : Tag) (address : Nat) : Transaction := { tx .write address 8 with tag := tag }
def replacingEnd : State :=
  let s := withOldest (replacing true) (.forward (tx .read 0x60000000 8) 0xFF none)
  { s with dec := { s.dec with frozen := [frozenAccess 1 0x70000000, frozenAccess 2 0x70000008] } }

theorem witness_UnitStepsComplete_frozen :
    let t := tx .read 0x60000000 8
    (replacingEnd.rst = false ∧ replacingEnd.sys.presented = [] ∧ replacingEnd.sys.freeze = true ∧
      replacingEnd.cmd.work = .freezing (Vector.replicate 23 .invalid) ∧ replacingEnd.cmd.autoload = none ∧
      replacingEnd.hold.waiter = none ∧ replacingEnd.port.systemQ = [] ∧ replacingEnd.dec.frozen.length = 2) ∧
    (replacingEnd.cmd.current.flags.getLsbD 0 = false) ∧
    (∃ old, replacingEnd.port.outstanding = [old] ∧ old.abandoned = false ∧
      old.request = requestOf (.forward t 0xFF none)) ∧
    ∀ x ∈ replacingEnd.dec.frozen, replacingEnd.inControl x.address = false ∧
      replacingEnd.dec.guarded x.address = false ∧ replacingEnd.dec.firstMatch x = none :=
  ⟨⟨rfl, rfl, rfl, rfl, rfl, rfl, rfl, rfl⟩, by decide, ⟨_, rfl, rfl, rfl⟩, by decide⟩

/-- The frozen accesses are decoded oldest first in the event of the replacement, and answered by none yet. -/
theorem test_frozen_accesses :
    let s := after (.passThroughEnd (.ok 5)) replacingEnd
    s.port.systemQ.map MemRequest.address = [0x70000000, 0x70000008] ∧ s.dec.frozen = [] ∧ s.sys.freeze = false ∧
      s.sys.responses = [{ tag := 0, error := false, data := 5 }] ∧ s.cmd.running = false := by decide

/-- A notice writer with a ring of 16 entries, `loss` counted and a ring that is full or not. -/
def choosing (loss producer : Half) : State :=
  { ringed on with notice := { (ringed on).notice with loss := loss, producer := producer, waiting := [laneClosedNotice 3] } }

theorem witness_UnitStepsComplete_choice :
    ((choosing 0 3).notice.mask.getLsbD 4 = true ∧ (choosing 0 3).notice.entries ≠ 0 ∧
      (choosing 0 3).notice.waiting.length < 8 ∧ on.notice.entries = 0 ∧
      ({ on.notice with mask := 0 } : NoticeWriter).mask.getLsbD 4 = false) ∧
    ((choosing 5 3).notice.loss ≠ 0 ∧ (choosing 5 3).notice.mask.getLsbD 10 = true ∧
      (choosing 5 3).notice.write = none ∧
      ¬ ((choosing 5 3).notice.producer - (choosing 5 3).notice.consumer).toNat = (choosing 5 3).notice.entries) ∧
    ((choosing 5 16).notice.producer - (choosing 5 16).notice.consumer).toNat = (choosing 5 16).notice.entries ∧
    ((choosing 0 3).notice.loss = 0 ∧ (choosing 0 3).notice.waiting = [laneClosedNotice 3]) := by decide

/-- A full ring loses the first pending notice; a loss goes first while there is room. -/
theorem test_choice :
    (choosing 0 16).chooseNotice.notice.loss = 1 ∧ (choosing 0 16).chooseNotice.notice.waiting = [] ∧
      (choosing 5 3).chooseNotice.notice.write.bind NoticeWrite.carried = some 5 ∧
      (choosing 5 3).chooseNotice.port.noticeQ.map MemRequest.address = [0x41000030, 0x41000038] := by decide

/-! ## Order -/

/-- A younger request whose deadline was reached waits for the older one to be abandoned. -/
theorem test_abandon_order :
    (after (.memoryRequestAbandon 7) (eightDue [6, 7])).port.timeouts = 0 ∧
    (after (.memoryRequestAbandon 6) (eightDue [6, 7])).port.timeouts = 1 ∧
    (after (.memoryRequestAbandon 7) (after (.memoryRequestAbandon 6) (eightDue [6, 7]))).port.timeouts = 2 := by decide

/-- A position past the chain's end lies in the chain's last segment. -/
theorem test_segmentAt : segmentAt [5, 6] 511 = 5 ∧ segmentAt [5, 6] 1024 = 6 ∧ segmentAt [5, 6] 65535 = 6 := by decide

/-- A scan that ends with its put refused lets the paused take go first: the next put waits for it. -/
theorem test_paused_take_goes_first :
    let l := { evictLane 2 [5, 6] 504 [takeAt 5 .info .waiting] none with
      putLine := [putAt 1 .body (.scanning []), putAt 2 .body .waiting] }
    let s := after (.scanReadEnd .error) (withOldest (world putEntry l) (.scanRead 2))
    s.sys.responses = [{ tag := 1, error := true, data := 0 }] ∧ (s.lane 2).takeLine = [takeAt 5 .info .fetching] ∧
      (s.lane 2).putLine = [putAt 2 .body .waitTake] := by decide

/-! ## The laws -/

/-- A pool of 16 segments of which lane 2 holds segment 5, with one ready parcel in it. -/
def lawfulWorld : State :=
  let s := world takeEntry (readyLane .fill)
  { s with pool := { s.pool with freeList := [0, 1, 2, 3, 4, 6, 7, 8, 9, 10, 11, 12, 13, 14, 15], minFree := 15 } }

theorem witness_StepKeepsLaws : lawfulWorld.Lawful ∧ ∃ t, step lawfulWorld = .next t := by
  have hl : ∀ n : LaneNo, lawfulWorld.lane n = if n = 2 then readyLane .fill else .empty := by decide
  refine ⟨⟨⟨by decide, by decide, (fun _ h => by cases h), by decide, by decide⟩, ⟨by decide, by decide⟩, by decide,
    fun n => ?_, ⟨fun _ => ⟨rfl, rfl⟩, fun h => absurd rfl h, (fun _ h => by cases h), fun _ h => False.elim h,
      fun h => by cases h⟩, ⟨by decide, by decide, fun _ _ => rfl⟩⟩, _, rfl⟩
  rw [hl]
  split
  · exact ⟨by decide, by decide, by decide, by decide, by decide, by decide, by decide⟩
  · exact ⟨rfl, by decide, by decide, by decide, by decide, by decide, by decide⟩

theorem witness_LawsSay : lawfulWorld.Lawful := witness_StepKeepsLaws.1

/-! ## The well-formedness check refuses -/

theorem test_wellFormed_refuses_size :
    Instr.wellFormed (.systemPortTransaction (tx .read 0 3)) = false ∧
    Instr.wellFormed (.tappedAccess (tx .read 0 0)) = false ∧ Instr.wellFormed (.bodyPut (tx .write 0 16)) = false ∧
    Instr.wellFormed (.finalPut (tx .write 0x800 3)) = false ∧ Instr.wellFormed (.putStatusRead (tx .read 0 5)) = false ∧
    Instr.wellFormed (.dataRead (tx .read 0 6)) = false ∧ Instr.wellFormed (.headInfoRead (tx .read 0x800 7)) = false ∧
    Instr.wellFormed (.release (tx .read 0xC00 9)) = false := by decide

theorem test_wellFormed_refuses_direction :
    Instr.wellFormed (.bodyPut (tx .read 0 8)) = false ∧ Instr.wellFormed (.finalPut (tx .read 0x800 8)) = false ∧
    Instr.wellFormed (.putStatusRead (tx .write 0 8)) = false ∧ Instr.wellFormed (.dataRead (tx .write 0 8)) = false ∧
    Instr.wellFormed (.headInfoRead (tx .write 0x800 8)) = false ∧
    Instr.wellFormed (.release (tx .write 0xC00 8)) = false := by decide

theorem test_wellFormed_refuses_region :
    Instr.wellFormed (.bodyPut (tx .write 0x800 8)) = false ∧ Instr.wellFormed (.finalPut (tx .write 0x7F8 8)) = false ∧
    Instr.wellFormed (.dataRead (tx .read 0x800 8)) = false ∧ Instr.wellFormed (.headInfoRead (tx .read 0x7F8 8)) = false ∧
    Instr.wellFormed (.headInfoRead (tx .read 0xC00 8)) = false ∧
    Instr.wellFormed (.release (tx .read 0xBF8 8)) = false := by decide

theorem test_wellFormed_refuses_code :
    Instr.wellFormed (.unknownCommand 1 (cw 0)) = false ∧ Instr.wellFormed (.unknownCommand 7 (cw 0)) = false := by
  decide

theorem test_wellFormed_admits :
    Instr.wellFormed (.bodyPut (tx .write 0x7F8 8)) = true ∧ Instr.wellFormed (.finalPut (tx .write 0x800 8)) = true ∧
    Instr.wellFormed (.dataRead (tx .read 0 1)) = true ∧ Instr.wellFormed (.headInfoRead (tx .read 0xBF8 8)) = true ∧
    Instr.wellFormed (.release (tx .read 0xFF8 8)) = true ∧ Instr.wellFormed (.unknownCommand 8 (cw 0)) = true ∧
    Instr.wellFormed .tick = true := by decide

/-! ## Single commands -/

/-- No row of the table gives bits. -/
theorem test_decodeTableWord : decodeTableWord 16 0x1234 = none ∧ State.reset.withFetchWord 16 0x1234 = State.reset := by
  decide

/-- With AUTOLD high autoload begins with eight reads at 0x05000000, the control block of CFGB 5. -/
theorem test_resetRelease :
    ((after (.resetRelease 5 true) State.reset).port.commandQ.map MemRequest.address)
      = [0x05000000, 0x05000008, 0x05000010, 0x05000018, 0x05000020, 0x05000028, 0x05000030, 0x05000038] := by decide

/-- A body put opens a parcel in segment 0, the top of the free list, and issues one body write behind its header slot. -/
theorem test_bodyPut :
    let s := after (.bodyPut (tx .write 0x60000000 8)) (world putEntry (emptyLane .refuse .fill))
    (s.lane 2).chain = [0] ∧ (s.lane 2).tailOffset = 16 ∧ (s.lane 2).putSeq = 1 ∧ s.pool.minFree = 13 ∧
      s.port.systemQ.map MemRequest.address = [0x40000008] ∧ s.sys.responses = [] := by decide

/-- A final put that finds the lane full is refused LANE_FULL. -/
theorem test_finalPut_full :
    let s := after (.finalPut (tx .write 0x60000800 8)) (world putEntry (fullLane .refuse))
    s.sys.responses = [{ tag := 0, error := true, data := 0 }] ∧ (s.lane 2).refusals = 1 ∧
      s.notice.loss = 1 := by decide

/-- The release word of the parcel of `cachedLane`: length 16, no parcel left, sequence 0, tag 7. -/
theorem test_release :
    let s := after (.release (tx .read 0x60000C00 8)) (world takeEntry (cachedLane 16))
    s.sys.responses = [{ tag := 0, error := false, data := 0x0007000000000010 }] ∧ (s.lane 2).chain = [] ∧
      s.pool.freeList.head? = some 5 ∧ (s.lane 2).released = 1 := by decide

/-- A read smaller than a word gets its bytes in its own byte lanes. -/
theorem test_headInfoRead_lanes :
    (after (.headInfoRead (tx .read 0x60000806 1)) (world takeEntry (cachedLane 12))).sys.responses
      = [{ tag := 0, error := false, data := 0x0007000000000000 }] := by decide

/-- An unknown command is rejected: IN_PROGRESS, then REJECTED with UNKNOWN_COMMAND. -/
theorem test_unknownCommand :
    (after (.unknownCommand 9 (cw 0)) on).port.commandQ.map MemRequest.data
      = [0x0000090000011234, 0x0000090001031234] := by decide

/-- The tick counter wraps, and a held entry whose deadline is 0 becomes due. -/
theorem test_tick_wraps :
    let s := after .tick { heldTake with hold := { heldTake.hold with
      ticks := 0xFFFFFFFF, held := [{ heldBy .take .parcel with deadline := 0, due := false }] } }
    s.hold.ticks = 0 ∧ s.hold.held.map HeldEntry.due = [true] := by decide

/-- The check of the header of length 496, sequence 1, tag 0 is 0x5C4B (R171). -/
theorem test_headerCheck : headerCheck 496 1 0 0 = 0x5C4B ∧ headerCheck 12 0 2 0 = 0x5C66 := by decide

end Sys2Proof.Tests
end

namespace Sys2Proof.Machine

/-! ## Reset -/

/-- Every lane is in its empty form after reset (R1). -/
theorem State.reset_lane (n : LaneNo) : State.reset.lane n = .empty := by
  simp [State.lane, State.reset]

/-- No lane holds a segment after reset. -/
theorem State.reset_chains : State.reset.chains = [] := by
  have h : ∀ c ∈ State.reset.lanes.toList.map Lane.chain, c = [] := by
    intro c hc
    obtain ⟨l, hl, rfl⟩ := List.mem_map.mp hc
    have : l = .empty := by simpa [State.reset] using hl
    rw [this]; rfl
  exact List.flatten_eq_nil_iff.mpr h

theorem State.reset_lawful : State.reset.Lawful where
  notice := ⟨by decide, by decide, (fun _ h => by cases h), by decide, by decide⟩
  hold := ⟨by decide, by decide⟩
  port := by decide
  lanes n := by rw [State.reset_lane]; exact Lane.empty_law
  command :=
    { idle := fun _ => ⟨rfl, rfl⟩
      auto := fun h => absurd rfl h
      loading := fun _ h => by cases h
      reading := fun _ h => h.elim
      inReset := fun _ n => by rw [State.reset_lane]; rfl }
  pool :=
    { places := by rw [State.reset_chains]; exact List.Perm.nil
      minFree := Nat.le_refl 0
      armed := fun h => absurd rfl h }

/-- Settles O58. -/
theorem resetIsLawful : Obligations.ResetIsLawful := State.reset_lawful

/-- Settles O4: the reset state is written down with these values. -/
theorem resetValues : Obligations.ResetValues := by
  unfold Obligations.ResetValues
  refine ⟨State.reset_lane, rfl, rfl, fun i => ?_, ?_, ⟨fun k => ?_, rfl, rfl⟩, rfl, rfl, rfl, rfl, rfl, rfl, rfl, rfl⟩
  · simp [State.reset, Decoder.init, LossRun.clear]
  · exact ⟨rfl, rfl, rfl, rfl, rfl, rfl⟩
  · simp [State.reset, SystemPort.init]

/-! ## Steps -/

variable {s t : State}

/-- The queue of commands is outside the laws. -/
theorem State.Lawful.setPending (h : s.Lawful) (q : List Instr) : State.Lawful { s with pending := q } :=
  State.LawfulWith.congr h rfl rfl rfl rfl rfl rfl rfl

theorem present_keeps_laws {x : Transaction} (hs : s.Lawful) (h : present x s = .next t) : t.Lawful :=
  hs.event (body := fun u => u.offer x) (fun _ _ hu => State.LawfulWith.congr hu rfl rfl rfl rfl rfl rfl rfl) h

/-- Whatever request a response ends, the laws stay. -/
theorem response_keeps_laws {m : MemResponse} (hs : s.Lawful)
    (h : event (fun s => s.memoryResponse m) s = .next t) : t.Lawful :=
  hs.event (fun _ hr hu => State.LawfulWith.memoryResponse hu m hr) h

theorem execHardReset_keeps_laws (h : execHardReset s = .next t) : t.Lawful := by
  cases h
  exact State.LawfulWith.congr State.reset_lawful rfl rfl rfl rfl rfl rfl rfl

theorem execResetRelease_keeps_laws {cfgb : BitVec 8} {autold : Bool} (hs : s.Lawful)
    (h : execResetRelease cfgb autold s = .next t) : t.Lawful := by
  unfold execResetRelease at h
  split at h
  · rename_i hr
    cases h
    exact ((State.LawfulWith.begin hs).releaseReset cfgb autold hr).finish
  · cases h
    exact State.LawfulWith.begin hs

theorem exec_keeps_laws (c : Instr) (hs : s.Lawful) (h : exec c s = .next t) : t.Lawful := by
  cases c with
  | hardReset => exact execHardReset_keeps_laws h
  | resetRelease cfgb autold => exact execResetRelease_keeps_laws hs h
  | tick => exact hs.event (fun _ _ hu => State.LawfulWith.tick hu) h
  | holdExpiry n line => exact hs.event (fun _ _ hu => State.LawfulWith.takeExpiry hu n line) h
  | commandWaiterExpiry => exact hs.event (fun _ _ hu => State.LawfulWith.waiterExpiry hu) h
  | memoryRequestAbandon place => exact hs.event (fun _ _ hu => State.LawfulWith.abandon hu place.val) h
  | statusIntervalExpiry => exact hs.event (fun _ _ hu => State.LawfulWith.takeIntervalExpiry hu) h
  | commandWaiterHandover => exact hs.event (fun _ _ hu => State.LawfulWith.handover hu) h
  | memoryRequestIssue => exact hs.event (fun _ _ hu => State.LawfulWith.issueRequest hu) h
  | putTakeWaitEnd n => exact hs.event (fun _ _ hu => State.LawfulWith.waitEnd hu n) h
  | heldEntryWake n line => exact hs.event (fun _ _ hu => State.LawfulWith.wakeEntry hu n line) h
  | parcelCut n => exact hs.event (fun _ _ hu => State.LawfulWith.cutTest hu n) h
  | drainCompletion n => exact hs.event (fun _ _ hu => State.LawfulWith.drainTest hu n) h
  | laneDiscard n => exact hs.event (fun _ _ hu => State.LawfulWith.discardTest hu n) h
  | apertureReplacement => exact hs.event (fun _ _ hu => State.LawfulWith.replaceTest hu) h
  | noticeWrite => exact hs.event (fun _ _ hu => State.LawfulWith.chooseNotice hu) h
  | statusWriteBack => exact hs.event (fun _ _ hu => State.LawfulWith.dueWriteBack hu) h
  | generationEnd => exact hs.event (fun _ _ hu => State.LawfulWith.generationTest hu) h
  | passThroughEnd | bodyWriteEnd | headerWriteEnd | captureWriteEnd | scanReadEnd | headFetchEnd | takeReadEnd
  | imageReadEnd | responseWriteEnd | noticeWriteEnd | statusWriteEnd | lateResponse =>
    exact response_keeps_laws hs h
  | systemPortTransaction | bodyPut | finalPut | putStatusRead | dataRead | headInfoRead | release | tappedAccess
  | noticeConsumerIndex | loadSetup | loadApertures | openLane | closeLane | flushLane | resetLane | writeStatus
  | unknownCommand =>
    exact present_keeps_laws hs h

/-- A CLK cycle with no command waiting keeps the laws: it counts, or it is a tick. -/
theorem idleCycle_keeps_laws (hs : s.Lawful) (h : idleCycle s = .next t) : t.Lawful := by
  unfold idleCycle at h
  split at h
  · cases h; exact hs
  · split at h
    · exact hs.event (fun _ _ hu => State.LawfulWith.tick hu) h
    · cases h
      exact State.LawfulWith.congr hs rfl rfl rfl rfl rfl rfl rfl

/-- Settles O59: each operation keeps the laws (Sys2Proof/Laws), and a step is one event of such operations. -/
theorem stepKeepsLaws : Obligations.StepKeepsLaws := by
  intro s t hs h
  unfold step at h
  split at h
  · exact idleCycle_keeps_laws hs h
  · exact exec_keeps_laws _ (hs.setPending _) h

/-! ## What the laws say -/

/-- The put sequence in the spec's words (R14). -/
theorem Lane.Law.putSeq_eq {l : Lane} (h : l.Law) :
    l.putSeq = l.takeSeq + BitVec.ofNat 16 l.ready + (if l.openParcel.isSome then 1 else 0) := by
  rw [h.sequences, BitVec.ofNat_add, ← BitVec.add_assoc]
  unfold Lane.openCount
  split <;> rfl

/-- A lane holds a segment exactly when it holds a parcel (R16). -/
theorem Lane.Law.chain_ne_nil {l : Lane} (h : l.Law) :
    l.chain ≠ [] ↔ l.ready ≠ 0 ∨ l.openParcel.isSome = true := by
  rw [Ne, h.segments]
  unfold Lane.openCount
  split <;> simp_all

/-- A CLOSED lane holds nothing (R17). -/
theorem Lane.Law.closed_empty {l : Lane} (h : l.Law) (hc : l.state = .closed) :
    l.chain = [] ∧ l.putLine = [] ∧ l.takeLine = [] := by
  obtain ⟨hr, hp, ht⟩ := h.closed hc
  exact ⟨h.segments.mpr hr, hp, ht⟩

/-- Every segment of the pool lies in the free list or in a chain, once (R36, R37). -/
theorem State.Lawful.segments_perm (h : s.Lawful) :
    (s.pool.freeList ++ s.chains).Perm (List.range s.pool.count) := by
  simpa using h.pool.places

/-- Settles O60. -/
theorem lawsSay : Obligations.LawsSay := by
  intro s h
  refine ⟨?_, ?_, fun n => (h.lanes n).putSeq_eq, fun n => (h.lanes n).chain_ne_nil, fun n => (h.lanes n).quota,
    fun n => (h.lanes n).closed_empty, h.hold.size, h.hold.lines, h.notice.bound, ?_⟩
  · have := h.segments_perm.length_eq
    simpa [State.chains, List.length_flatten, Function.comp_def] using this
  · exact h.segments_perm.nodup_iff.mpr List.nodup_range
  · rw [h.notice.intN]
    simp
end Sys2Proof.Machine

namespace Sys2Proof.Machine

variable {s t u : State}

/-! ## The parts of an event -/

/-- From `s`, the first `k` parts that an event does are those of `ts` and what they note, and they end in `t`. -/
def State.Does (s : State) (k : Nat) (ts : List Task) (t : State) : Prop :=
  ∀ fuel rest, runTasks (fuel + k) (ts ++ rest) s = runTasks fuel rest t

theorem State.Does.nil (s : State) : s.Does 0 [] s := fun _ _ => rfl

/-- A part is done, then what it notes, then the parts noted before it. -/
theorem State.Does.cons {x : Task} {ts new : List Task} {k : Nat} (hd : s.doTask x = u.schedule new)
    (hu : u.todo = []) (h : u.Does k (new ++ ts) t) : s.Does (k + 1) (x :: ts) t := by
  intro fuel rest
  show runTasks (fuel + k + 1) (x :: (ts ++ rest)) s = _
  rw [runTasks_cons, hd, State.schedule_todo, hu, List.nil_append, ← List.append_assoc]
  exact (congrArg _ (State.todo_nil (s := u) hu)).trans (h fuel rest)

/-- A part that notes nothing is done. -/
theorem State.Does.step {x : Task} {ts : List Task} {k : Nat} (hd : s.doTask x = u) (hu : u.todo = [])
    (h : u.Does k ts t) : s.Does (k + 1) (x :: ts) t :=
  State.Does.cons (new := []) (by rw [hd, State.schedule_nil]) hu h

/-- Parts that have nothing to do are done. -/
theorem State.Does.noops (hs : s.todo = []) {ts : List Task} (h : ∀ x ∈ ts, s.doTask x = s) :
    s.Does ts.length ts s := fun fuel rest => runTasks_noops hs rest ts fuel h

/-- An event that is known part by part. -/
theorem event_does {body : State → State} {ts : List Task} {k : Nat} (hr : s.rst = false)
    (hb : body s.begin = u.schedule ts) (hu : u.todo = []) (hd : u.Does k ts t) (hk : k ≤ 4096) (hc : t.Calm) :
    event body s = .next t := by
  refine event_runs hr hb ?_ hc
  have h := hd (4096 - k) []
  rw [List.append_nil, Nat.sub_add_cancel hk, runTasks_nil] at h
  unfold State.settle
  rw [State.schedule_todo, hu, List.nil_append]
  exact (congrArg (runTasks 4096 _) (State.todo_nil (s := u) hu)).trans h

/-- A presented transaction whose path is known part by part. -/
theorem present_does {x : Transaction} {ts : List Task} {k : Nat} (h : s.Calm) (hf : s.tagFree x.tag = true)
    (hb : s.begin.take x = u.schedule ts) (hu : u.todo = []) (hd : u.Does k ts t) (hk : k ≤ 4095)
    (ht : t.todo = []) (hc : t.Calm) : present x s = .next t := by
  have h1 := hd (4095 - k) [.takePresented]
  rw [Nat.sub_add_cancel hk] at h1
  have h2 : ({ u.schedule ts with todo := [] } : State) = u := State.todo_nil (s := u) hu
  rw [present_takes h hf, hb, State.schedule_todo, hu, List.nil_append, h2, h1, State.takePresented_last _ hc ht]

/-! ## Transactions that an entry of the table decides -/

/-- A row that is a transaction presents it. -/
theorem exec_of_presents {c : Instr} {x : Transaction} (h : s.presents c = some x) : exec c s = present x s := by
  cases c with
  | systemPortTransaction | bodyPut | finalPut | putStatusRead | dataRead | headInfoRead | release | tappedAccess
  | noticeConsumerIndex | loadSetup | loadApertures | openLane | closeLane | flushLane | resetLane | writeStatus
  | unknownCommand => exact congrArg (present · s) (Option.some.inj h)
  | _ => cases h

/-- The path of a transaction that an entry of the table decides. -/
theorem State.Routes.take {x : Transaction} {i : Fin 23} {a : Aperture} (h : s.Routes x i a) :
    s.begin.take x = (s.begin.occupy x).byEntry x i a := by
  have hc : (s.begin.occupy x).inControl x.address = false := h.outside
  have hg : (s.begin.occupy x).dec.guarded x.address = false := h.allowed
  have hf : (s.begin.occupy x).dec.firstMatch x = some (i, a) := h.first
  have hz : (s.begin.occupy x).sys.freeze = false := h.decodes.thawed
  unfold State.take State.decode
  simp only [h.decodes.aligned, hz, hc, hg, hf, Bool.not_true, Bool.false_eq_true, if_false]

theorem State.Routes.calm {x : Transaction} {i : Fin 23} {a : Aperture} (h : s.Routes x i a) : s.Calm := h.decodes.calm

theorem State.Routes.free {x : Transaction} {i : Fin 23} {a : Aperture} (h : s.Routes x i a) :
    s.tagFree x.tag = true := h.decodes.free

/-! ## Refusals at arrival -/

/-- The refusal of a put or a take that arrives, by the busy mark first and the state second (R2). -/
theorem Lane.refusal_cases (l : Lane) :
    (l.busy ≠ .clear → l.refusal true = some 0x18 ∧ l.refusal false = some 0x18) ∧
    (l.busy = .clear →
      (l.state = .opened → l.refusal true = none ∧ l.refusal false = none) ∧
      (l.state = .draining → l.refusal true = some 0x16 ∧ l.refusal false = none) ∧
      (l.state = .closed → l.refusal true = some 0x16 ∧ l.refusal false = some 0x16) ∧
      (l.state = .faulted → l.refusal true = some 0x17 ∧ l.refusal false = some 0x17)) := by
  refine ⟨fun hb => ?_, fun hb => ⟨fun h => ?_, fun h => ?_, fun h => ?_, fun h => ?_⟩⟩ <;>
    simp [Lane.refusal, reasonLaneBusy, reasonLaneNotOpen, reasonLaneFaulted, *]

/-- A transaction that its lane refuses. -/
theorem present_refused {x : Transaction} {i : Fin 23} {a : Aperture} {n : LaneNo} {reason : Byte}
    (hr : s.Routes x i a) (hb : (s.begin.occupy x).byEntry x i a = (s.begin.occupy x).laneRefuse n i x reason) :
    present x s = .next ((s.begin.occupy x).laneRefuse n i x reason) := by
  have ht : ((s.begin.occupy x).laneRefuse n i x reason).todo = [] := by simp [State.laneRefuse]
  have hc : ((s.begin.occupy x).laneRefuse n i x reason).Calm :=
    hr.calm.congr (by simp [State.laneRefuse]) (by simp [State.laneRefuse]) (by simp [State.laneRefuse])
  have hk : s.begin.take x = (s.begin.occupy x).laneRefuse n i x reason := hr.take.trans hb
  have := present_done hr.calm hr.free (by rw [hk]; exact hc) (by rw [hk]; exact ht)
  rwa [hk] at this

/-- Settles O23. -/
theorem laneRefusesByState : Obligations.LaneRefusesByState := by
  refine ⟨Lane.refusal_cases, fun c s x i base exponent n reason isPut hx hr hput htake => ?_⟩
  rw [exec_of_presents hx]
  cases isPut with
  | true =>
    obtain ⟨hroute, hdir⟩ := hput rfl
    refine present_refused hroute ?_
    unfold State.byEntry State.arrivePut
    simp only [hdir, State.occupy_lane, State.begin_lane, hr]
  | false =>
    obtain ⟨hroute, hdir⟩ := htake rfl
    refine present_refused hroute ?_
    unfold State.byEntry State.arriveTake
    simp only [hdir, State.occupy_lane, State.begin_lane, hr]

end Sys2Proof.Machine

namespace Sys2Proof.Machine

variable (s : State) (n : LaneNo) (l : Lane)

/-! ## A change of a lane does not meet the other operations -/

theorem State.updLane_eq (f : Lane → Lane) : s.updLane n f = s.setLane n (f (s.lane n)) := rfl

theorem State.updLane_setLane (f : Lane → Lane) : (s.setLane n l).updLane n f = s.setLane n (f l) := by
  rw [State.updLane_eq, State.lane_setLane_same, State.setLane_setLane]

theorem State.schedule_setLane (ts : List Task) : (s.setLane n l).schedule ts = (s.schedule ts).setLane n l := rfl

/-- Parts that are noted behind others. -/
theorem State.schedule_schedule (ts new : List Task) : (s.schedule ts).schedule new = s.schedule (ts ++ new) := by
  unfold State.schedule
  simp only [List.append_assoc]

theorem State.requestAll_setLane (rs : List MemRequest) :
    (s.setLane n l).requestAll rs = (s.requestAll rs).setLane n l := rfl

theorem State.unhold_setLane (m : LaneNo) (line : Line) :
    (s.setLane n l).unhold m line = (s.unhold m line).setLane n l := rfl

theorem State.pushSegments_setLane (segs : List Nat) :
    (s.setLane n l).pushSegments segs = (s.pushSegments segs).setLane n l := rfl

theorem State.answerError_setLane (x : Transaction) :
    (s.setLane n l).answerError x = (s.answerError x).setLane n l := rfl

theorem State.answerOk_setLane (x : Transaction) (d : Word) :
    (s.setLane n l).answerOk x d = (s.answerOk x d).setLane n l := by
  unfold State.answerOk
  cases x.direction <;> rfl

theorem State.answerOutcome_setLane (x : Transaction) (o : MemOutcome) :
    (s.setLane n l).answerOutcome x o = (s.answerOutcome x o).setLane n l := by
  cases o with
  | ok d => exact s.answerOk_setLane n l x d
  | error => rfl
  | timeout => rfl

theorem State.captureLost_setLane (m : LaneNo) (e : PutEntry) :
    (s.setLane n l).captureLost m e = (s.captureLost m e).setLane n l := by
  unfold State.captureLost
  dsimp only
  rw [State.setLane_dec]
  split
  · rfl
  · exact State.produce_setLane { s with dec := _ } n l _

theorem State.capturePlaced_setLane (m : LaneNo) (e : PutEntry) :
    (s.setLane n l).capturePlaced m e = (s.capturePlaced m e).setLane n l := by
  unfold State.capturePlaced
  dsimp only
  rw [State.setLane_dec]
  split
  · exact State.produce_setLane { s with dec := _ } n l _
  · rfl

theorem State.discardCapture_setLane (m : LaneNo) (e : PutEntry) (o : MemOutcome) :
    (s.setLane n l).discardCapture m e o = (s.discardCapture m e o).setLane n l := by
  unfold State.discardCapture
  rw [State.captureLost_setLane, State.answerOutcome_setLane]

theorem State.answerByChange_setLane (m : LaneNo) (e : PutEntry) :
    (s.setLane n l).answerByChange m e = (s.answerByChange m e).setLane n l := by
  unfold State.answerByChange
  cases e.kind with
  | capture hold o => exact s.discardCapture_setLane n l m e o
  | body => rfl
  | final tag => rfl

/-- Answers, one after the other, that do not meet a change of a lane. -/
theorem State.foldl_setLane {α : Type} {f : State → α → State}
    (hf : ∀ (u : State) x, f (u.setLane n l) x = (f u x).setLane n l) (xs : List α) :
    xs.foldl f (s.setLane n l) = (xs.foldl f s).setLane n l := by
  induction xs generalizing s with
  | nil => rfl
  | cons x xs ih => exact (congrArg (xs.foldl f) (hf s x)).trans (ih (f s x))

theorem State.answerPuts_setLane (m : LaneNo) (es : List PutEntry) :
    es.foldl (fun u e => u.answerByChange m e) (s.setLane n l)
      = (es.foldl (fun u e => u.answerByChange m e) s).setLane n l :=
  s.foldl_setLane n l (fun u e => u.answerByChange_setLane n l m e) es

theorem State.answerTakes_setLane (es : List TakeEntry) :
    es.foldl (fun u e => u.answerError e.tx) (s.setLane n l)
      = (es.foldl (fun u e => u.answerError e.tx) s).setLane n l :=
  s.foldl_setLane n l (fun u e => u.answerError_setLane n l e.tx) es

/-! ## Notices -/

/-- What the notice writer makes of a notice that it takes (R138, R140): itself afterwards, and the requests of the
write that it chooses. -/
def NoticeWriter.accept (w : NoticeWriter) (x : Notice) : NoticeWriter × List MemRequest :=
  if !w.enables x.kind then (w, [])
  else if w.entries == 0 || Config.waitingNotices ≤ w.waiting.length then ({ w with loss := satInc w.loss }, [])
  else if w.write.isSome then ({ w with waiting := w.waiting ++ [x] }, [])
  else { w with waiting := w.waiting ++ [x] }.choose (w.waiting ++ [x])

/-- A notice is a matter of the notice writer and its requests alone. -/
theorem State.produce_eq (x : Notice) : s.produce x = { s with
    notice := (s.notice.accept x).1
    port := { s.port with noticeQ := s.port.noticeQ ++ (s.notice.accept x).2 } } := by
  unfold State.produce NoticeWriter.accept
  split
  · rw [List.append_nil]
  · split
    · rw [List.append_nil]
    · unfold State.chooseNotice
      dsimp only
      split
      · rw [List.append_nil]
      · rfl

/-- The end of a command is a matter of the command unit, its response word and the notice writer (R127). -/
theorem State.completeCommand_eq (outcome reason detail : Byte) :
    s.completeCommand outcome reason detail =
      let accepted := if s.cmd.current.notify then s.notice.accept (s.commandDoneNotice outcome reason detail)
        else (s.notice, [])
      { s with
        cmd := { s.cmd with running := false, current := .none, work := .none }
        notice := accepted.1
        port := { s.port with
          noticeQ := s.port.noticeQ ++ accepted.2
          commandQ := (s.respond s.cmd.current.ticket outcome reason detail s.cmd.current.code).port.commandQ }
        todo := s.todo ++ [.handover] } := by
  unfold State.completeCommand
  dsimp only
  cases s.cmd.current.notify with
  | true => rw [if_pos rfl, if_pos rfl, State.produce_eq]; rfl
  | false =>
    simp only [Bool.false_eq_true, if_false, List.append_nil]
    rfl

/-- An answer and the end of a command do not meet. -/
theorem State.completeCommand_answer (tag : Tag) (error : Bool) (d : Word) (outcome reason detail : Byte) :
    (s.answer tag error d).completeCommand outcome reason detail
      = (s.completeCommand outcome reason detail).answer tag error d := by
  rw [State.completeCommand_eq, State.completeCommand_eq]; rfl

/-- The held table and the end of a command do not meet. -/
theorem State.completeCommand_unhold (m : LaneNo) (line : Line) (outcome reason detail : Byte) :
    (s.unhold m line).completeCommand outcome reason detail
      = (s.completeCommand outcome reason detail).unhold m line := by
  rw [State.completeCommand_eq, State.completeCommand_eq]; rfl

/-- The pool and the end of a command do not meet. -/
theorem State.completeCommand_pushSegments (segs : List Nat) (outcome reason detail : Byte) :
    (s.pushSegments segs).completeCommand outcome reason detail
      = (s.completeCommand outcome reason detail).pushSegments segs := by
  rw [State.completeCommand_eq, State.completeCommand_eq]; rfl

theorem State.produce_unhold (m : LaneNo) (line : Line) (x : Notice) :
    (s.unhold m line).produce x = (s.produce x).unhold m line := by
  simp only [State.produce_eq]; rfl

theorem State.produce_answer (tag : Tag) (error : Bool) (d : Word) (x : Notice) :
    (s.answer tag error d).produce x = (s.produce x).answer tag error d := by
  simp only [State.produce_eq]; rfl

/-- Who leaves a line's place in the held table does not enter another. -/
theorem State.heldOf_unhold_none {m : LaneNo} {a b : Line} {k : LaneNo} (h : s.heldOf m a = none) :
    (s.unhold k b).heldOf m a = none := by
  unfold State.heldOf State.unhold at *
  rw [List.find?_eq_none] at *
  exact fun x hx => h x (List.mem_filter.mp hx).1

/-! ## What answers leave alone -/

/-- What the answers given by a change of a lane's state leave alone. -/
structure State.SameWork (s t : State) : Prop where
  pending   : t.pending = s.pending
  rst       : t.rst = s.rst
  presented : t.sys.presented = s.sys.presented
  lanes     : t.lanes = s.lanes
  pool      : t.pool = s.pool
  hold      : t.hold = s.hold
  cmd       : t.cmd = s.cmd
  todo      : t.todo = s.todo

theorem State.SameWork.refl : s.SameWork s := ⟨rfl, rfl, rfl, rfl, rfl, rfl, rfl, rfl⟩

theorem State.SameWork.trans {s t u : State} (h : s.SameWork t) (k : t.SameWork u) : s.SameWork u :=
  ⟨k.pending.trans h.pending, k.rst.trans h.rst, k.presented.trans h.presented, k.lanes.trans h.lanes,
    k.pool.trans h.pool, k.hold.trans h.hold, k.cmd.trans h.cmd, k.todo.trans h.todo⟩

theorem State.SameWork.lane {s t : State} (h : s.SameWork t) (m : LaneNo) : t.lane m = s.lane m :=
  State.lane_congr h.lanes m

theorem State.SameWork.heldOf {s t : State} (h : s.SameWork t) (m : LaneNo) (line : Line) :
    t.heldOf m line = s.heldOf m line := by
  unfold State.heldOf; rw [h.hold]

theorem State.SameWork.calm {s t : State} (h : s.SameWork t) (k : s.Calm) : t.Calm :=
  k.congr h.rst h.presented (congrArg _ h.cmd)

theorem State.sameWork_produce (x : Notice) : s.SameWork (s.produce x) := by
  constructor <;> simp

theorem State.sameWork_answerByChange (e : PutEntry) : s.SameWork (s.answerByChange n e) := by
  unfold State.answerByChange
  cases e.kind <;> constructor <;> simp

theorem State.sameWork_foldl {α : Type} {f : State → α → State} (hf : ∀ (u : State) x, u.SameWork (f u x)) (xs : List α) :
    s.SameWork (xs.foldl f s) := by
  induction xs generalizing s with
  | nil => exact .refl s
  | cons x xs ih => exact (hf s x).trans (ih (f s x))

theorem State.sameWork_answerPuts (es : List PutEntry) :
    s.SameWork (es.foldl (fun u e => u.answerByChange n e) s) :=
  s.sameWork_foldl (fun u e => u.sameWork_answerByChange n e) es

theorem State.sameWork_answerTakes (es : List TakeEntry) :
    s.SameWork (es.foldl (fun u e => u.answerError e.tx) s) :=
  s.sameWork_foldl (f := fun u e => u.answerError e.tx) (fun _ _ => ⟨rfl, rfl, rfl, rfl, rfl, rfl, rfl, rfl⟩) es

end Sys2Proof.Machine

namespace Sys2Proof.Machine

variable {s t : State} {n : LaneNo}

/-! ## Entries that leave the held table -/

/-- Whoever is held for a line leaves the held table without waking another pool waiter: it is no pool waiter, or the
only one (R34). -/
def State.LeavesQuietly (s : State) (n : LaneNo) (line : Line) : Prop :=
  ∀ h, s.heldOf n line = some h → h.kind = .pool → ∀ x ∈ s.hold.held, x.kind = .pool → x.lane = n ∧ x.line = line

theorem State.LeavesQuietly.congr {line : Line} (h : s.LeavesQuietly n line) (ht : t.hold = s.hold) :
    t.LeavesQuietly n line := by
  unfold State.LeavesQuietly State.heldOf
  rw [ht]
  exact h

theorem State.leavesQuietly_of_none {line : Line} (h : s.heldOf n line = none) : s.LeavesQuietly n line :=
  fun x hx => by rw [h] at hx; cases hx

theorem State.leavesQuietly_of_parcel {line : Line} (h : ∀ x, s.heldOf n line = some x → x.kind = .parcel) :
    s.LeavesQuietly n line :=
  fun x hx hp => by rw [h x hx] at hp; cases hp

theorem State.leavesQuietly_of_only {line : Line}
    (h : ∀ x ∈ s.hold.held, x.kind = .pool → x.lane = n ∧ x.line = line) : s.LeavesQuietly n line :=
  fun _ _ _ => h

/-- When the only pool waiter was the lane's put, its take leaves quietly behind it. -/
theorem State.takeLeavesQuietly_of_only (h : ∀ x ∈ s.hold.held, x.kind = .pool → x.lane = n ∧ x.line = .put) :
    (s.unhold n .put).LeavesQuietly n .take := by
  refine State.leavesQuietly_of_only fun x hx hp => ?_
  obtain ⟨hm, hk⟩ := List.mem_filter.mp hx
  obtain ⟨h1, h2⟩ := h x hm hp
  simp [h1, h2] at hk

theorem State.takeLeavesQuietly_of_parcel (hn : s.heldOf n .put = none)
    (h : ∀ x, s.heldOf n .take = some x → x.kind = .parcel) : (s.unhold n .put).LeavesQuietly n .take := by
  rw [State.unhold_none hn]
  exact State.leavesQuietly_of_parcel h

/-- An entry that leaves the held table quietly changes nothing else. -/
theorem State.LeavesQuietly.dropHeld {line : Line} (h : s.LeavesQuietly n line) :
    s.dropHeld n line = s.unhold n line := by
  unfold State.dropHeld
  split
  · rename_i hn
    exact (State.unhold_none hn).symm
  · rename_i e he
    split
    · rename_i hk
      refine State.wake_none fun x hx => ?_
      obtain ⟨hm, hout⟩ := List.mem_filter.mp hx
      by_contra hx'
      obtain ⟨hp, -⟩ : x.kind = .pool ∧ _ := by simpa using hx'
      obtain ⟨h1, h2⟩ := h e he (by simpa using hk) x hm hp
      simp [h1, h2] at hout
    · rfl

/-! ## Changes of a lane's state (R86) -/

/-- The put-line entries `ps` and then the take-line entries `ts` are answered by a change of the lane's state. -/
def State.answerGone (s : State) (n : LaneNo) (ps : List PutEntry) (ts : List TakeEntry) : State :=
  ts.foldl (fun u e => u.answerError e.tx) (ps.foldl (fun u e => u.answerByChange n e) s)

theorem State.sameWork_answerGone (s : State) (n : LaneNo) (ps : List PutEntry) (ts : List TakeEntry) :
    s.SameWork (s.answerGone n ps ts) :=
  (s.sameWork_answerPuts n ps).trans (State.sameWork_answerTakes _ ts)

theorem State.answerGone_setLane (s : State) (n : LaneNo) (l : Lane) (m : LaneNo) (ps : List PutEntry)
    (ts : List TakeEntry) : (s.setLane n l).answerGone m ps ts = (s.answerGone m ps ts).setLane n l := by
  unfold State.answerGone
  rw [State.answerPuts_setLane, State.answerTakes_setLane]

theorem State.answerGone_nil (s : State) (n : LaneNo) : s.answerGone n [] [] = s := rfl

/-- The held table and the answers of takes do not meet. -/
theorem State.answerTakes_unhold (m : LaneNo) (line : Line) (ts : List TakeEntry) : ∀ s : State,
    ts.foldl (fun u e => u.answerError e.tx) (s.unhold m line)
      = (ts.foldl (fun u e => u.answerError e.tx) s).unhold m line := by
  induction ts with
  | nil => exact fun _ => rfl
  | cons e ts ih => exact fun s => ih (s.answerError e.tx)

/-- A change of the put line's side of a lane's state. -/
theorem State.changePuts_eq (h : s.LeavesQuietly n .put) (f : Lane → Lane) (gone : PutEntry → Bool) :
    s.changePuts n f gone = (((s.answerGone n ((s.lane n).putLine.filter gone) []).unhold n .put).setLane n
      { f (s.lane n) with putLine := (s.lane n).putLine.filter fun e => !gone e }) := by
  unfold State.changePuts State.answerGonePuts
  dsimp only
  have hw := s.sameWork_answerPuts n ((s.lane n).putLine.filter gone)
  rw [State.answerPuts_setLane, State.LeavesQuietly.dropHeld (h.congr ?_), State.unhold_setLane]
  · rfl
  · exact hw.hold

/-- A change of the take line's side of a lane's state. -/
theorem State.changeTakes_eq (h : s.LeavesQuietly n .take) (f : Lane → Lane) :
    s.changeTakes n f = (((s.answerGone n [] ((s.lane n).takeLine.filter fun e => !e.inFlight)).unhold n .take).setLane n
      { f (s.lane n) with takeLine := (s.lane n).takeLine.filter TakeEntry.inFlight }) := by
  unfold State.changeTakes State.answerGoneTakes
  dsimp only
  have hw := s.sameWork_answerTakes ((s.lane n).takeLine.filter fun e => !e.inFlight)
  rw [State.answerTakes_setLane, State.LeavesQuietly.dropHeld (h.congr ?_), State.unhold_setLane]
  · rfl
  · exact hw.hold

/-- A change of a lane's state. -/
theorem State.changeBoth_eq (hp : s.LeavesQuietly n .put) (ht : (s.unhold n .put).LeavesQuietly n .take)
    (f : Lane → Lane) (gone : PutEntry → Bool) :
    s.changeBoth n f gone =
      ((((s.answerGone n ((s.lane n).putLine.filter gone) ((s.lane n).takeLine.filter fun e => !e.inFlight)).unhold n
        .put).unhold n .take).setLane n
        { f (s.lane n) with
          putLine := (s.lane n).putLine.filter fun e => !gone e
          takeLine := (s.lane n).takeLine.filter TakeEntry.inFlight }) := by
  unfold State.changeBoth State.answerGonePuts State.answerGoneTakes
  dsimp only
  have hw := s.sameWork_answerPuts n ((s.lane n).putLine.filter gone)
  have hw' := s.sameWork_answerGone n ((s.lane n).putLine.filter gone) ((s.lane n).takeLine.filter fun e => !e.inFlight)
  rw [State.answerPuts_setLane, State.LeavesQuietly.dropHeld (hp.congr ?_), State.unhold_setLane,
    State.answerTakes_setLane, State.answerTakes_unhold, State.LeavesQuietly.dropHeld (ht.congr ?_), State.unhold_setLane]
  · rfl
  · show (State.unhold _ n .put).hold = _
    unfold State.unhold
    exact congrArg (fun h : HoldUnit => { h with held := h.held.filter fun e => !(e.lane == n && e.line == Line.put) }) hw'.hold
  · exact hw.hold

/-! ## Lines -/

theorem PutEntry.notInFlight_of_waiting {e : PutEntry} (h : e.stage = .waiting) : e.notInFlight = true := by
  simp [PutEntry.notInFlight, PutEntry.inFlight, h]

theorem PutEntry.inFlight_iff {e : PutEntry} : e.inFlight = true ↔ e.stage ≠ .waiting := by
  simp [PutEntry.inFlight]

theorem TakeEntry.inFlight_iff {e : TakeEntry} : e.inFlight = true ↔ e.stage ≠ .waiting := by
  simp [TakeEntry.inFlight]

/-- The entries of a put line in which only the first is in flight. -/
theorem filter_puts_behind {e : PutEntry} {es : List PutEntry} (he : e.stage ≠ .waiting)
    (hes : ∀ x ∈ es, x.stage = .waiting) :
    (e :: es).filter PutEntry.notInFlight = es ∧ (e :: es).filter (fun x => !x.notInFlight) = [e] := by
  have h : ∀ x ∈ es, x.notInFlight = true := fun x hx => PutEntry.notInFlight_of_waiting (hes x hx)
  have he' : e.notInFlight = false := by simp [PutEntry.notInFlight, PutEntry.inFlight_iff.mpr he]
  refine ⟨?_, ?_⟩
  · rw [List.filter_cons_of_neg (by simp [he'])]
    exact List.filter_eq_self.mpr h
  · rw [List.filter_cons_of_pos (by simp [he'])]
    exact congrArg _ (List.filter_eq_nil_iff.mpr fun x hx => by simp [h x hx])

/-- The entries of a take line in which only the first is in flight. -/
theorem filter_takes_behind {e : TakeEntry} {es : List TakeEntry} (he : e.stage ≠ .waiting)
    (hes : ∀ x ∈ es, x.stage = .waiting) :
    (e :: es).filter (fun x => !x.inFlight) = es ∧ (e :: es).filter TakeEntry.inFlight = [e] := by
  have h : ∀ x ∈ es, x.inFlight = false := fun x hx => by simp [TakeEntry.inFlight, hes x hx]
  have he' : e.inFlight = true := TakeEntry.inFlight_iff.mpr he
  refine ⟨?_, ?_⟩
  · rw [List.filter_cons_of_neg (by simp [he'])]
    exact List.filter_eq_self.mpr fun x hx => by simp [h x hx]
  · rw [List.filter_cons_of_pos he']
    exact congrArg _ (List.filter_eq_nil_iff.mpr fun x hx => by simp [h x hx])

/-- The entries of a put line in which all wait. -/
theorem filter_puts_waiting {es : List PutEntry} (hes : ∀ x ∈ es, x.stage = .waiting) :
    es.filter PutEntry.notInFlight = es ∧ es.filter (fun x => !x.notInFlight) = [] := by
  have h : ∀ x ∈ es, x.notInFlight = true := fun x hx => PutEntry.notInFlight_of_waiting (hes x hx)
  exact ⟨List.filter_eq_self.mpr h, List.filter_eq_nil_iff.mpr fun x hx => by simp [h x hx]⟩

/-- The entries of a take line in which all wait. -/
theorem filter_takes_waiting {es : List TakeEntry} (hes : ∀ x ∈ es, x.stage = .waiting) :
    es.filter (fun x => !x.inFlight) = es ∧ es.filter TakeEntry.inFlight = [] := by
  have h : ∀ x ∈ es, x.inFlight = false := fun x hx => by simp [TakeEntry.inFlight, hes x hx]
  exact ⟨List.filter_eq_self.mpr fun x hx => by simp [h x hx], List.filter_eq_nil_iff.mpr fun x hx => by simp [h x hx]⟩

/-! ## Faults and the consecutive error count -/

/-- A lane in OPEN or DRAINING enters FAULTED: the notice, then the answers of what waits in its lines (R155). -/
theorem State.faultLane_setLane {l : Lane} (hs : l.serving = true) (hp : s.LeavesQuietly n .put)
    (ht : (s.unhold n .put).LeavesQuietly n .take) (cause : FaultCause) (r : MemRequest) :
    (s.setLane n l).faultLane n cause r =
      ((((((s.produce (laneFaultedNotice n cause r l.errors)).answerGone n (l.putLine.filter PutEntry.notInFlight)
        (l.takeLine.filter fun e => !e.inFlight)).unhold n .put).unhold n .take).setLane n
        { l with
          state := .faulted
          cause := cause
          putLine := l.putLine.filter fun e => !e.notInFlight
          takeLine := l.takeLine.filter TakeEntry.inFlight }).schedule [.laneTests n]) := by
  unfold State.faultLane
  rw [State.lane_setLane_same, if_pos hs, State.produce_setLane, State.changeBoth_eq, State.lane_setLane_same,
    State.answerGone_setLane, State.unhold_setLane, State.unhold_setLane, State.setLane_setLane]
  · exact hp.congr (by simp)
  · exact ht.congr (by simp [State.unhold])

/-- A request of an OPEN or DRAINING lane that ends in success. -/
theorem State.laneSuccess_serving (h : (s.lane n).serving = true) :
    s.laneSuccess n = s.setLane n { s.lane n with errors := 0 } := by
  unfold State.laneSuccess; rw [State.updLane_eq, if_pos h]

/-- A request of a lane that is not serving ends in success: its count stands. -/
theorem State.laneSuccess_faulted (h : (s.lane n).serving = false) : s.laneSuccess n = s := by
  unfold State.laneSuccess; rw [State.updLane_eq, if_neg (by simp [h]), State.setLane_self _ rfl]

/-- A request of a lane that is not serving ends in failure: its count stands. -/
theorem State.laneFailure_faulted {r : MemRequest} {rest : List Outstanding} (h : (s.lane n).serving = false) :
    ((s.ended rest).countFailure .error).laneFailure n r .error
      = s.endedFailed r rest (laneByte n) (BitVec.ofNat 16 (s.lane n).errors) := by
  have hl : ((s.ended rest).countFailure .error).lane n = s.lane n := rfl
  unfold State.laneFailure
  dsimp only
  rw [hl, State.updLane_eq, hl]
  simp only [h, Bool.false_eq_true, if_false, Bool.not_false, if_true]
  rw [State.setLane_self _ hl.symm]
  rfl

/-- A request of an OPEN or DRAINING lane that ends in failure: the count and the notice, then the fault if it is due. -/
theorem State.laneFailure_serving {r : MemRequest} {rest : List Outstanding} (h : (s.lane n).serving = true) :
    ((s.ended rest).countFailure .error).laneFailure n r .error =
      let failed := (s.endedFailed r rest (laneByte n) (BitVec.ofNat 16 ((s.lane n).errors + 1))).setLane n
        { s.lane n with errors := (s.lane n).errors + 1 }
      if r.owner = .headerWrite n then failed.faultLane n .headerWrite r
      else if (s.lane n).errors + 1 = (s.lane n).desc.faultThreshold then failed.faultLane n .memoryErrors r
      else failed := by
  have hl : ((s.ended rest).countFailure .error).lane n = s.lane n := rfl
  unfold State.laneFailure
  dsimp only
  rw [hl, State.updLane_eq, hl]
  simp only [h, if_true, Bool.not_true, Bool.false_eq_true, if_false, State.lane_setLane_same, State.produce_setLane,
    beq_iff_eq]
  rfl

theorem Lane.serving_of_opened {l : Lane} (h : l.state = .opened) : l.serving = true := by simp [Lane.serving, h]

theorem Lane.serving_of_draining {l : Lane} (h : l.state = .draining) : l.serving = true := by simp [Lane.serving, h]

theorem Lane.serving_of_faulted {l : Lane} (h : l.state = .faulted) : l.serving = false := by simp [Lane.serving, h]

/-! ## Parts that have nothing to do -/

theorem State.cutTest_of_work (h : s.cmd.work ≠ .closing n) : s.cutTest n = s := by
  unfold State.cutTest State.closing; simp [h]

theorem State.closeTest_of_work (h : s.cmd.work ≠ .closing n) : s.closeTest n = s := by
  unfold State.closeTest State.closing; simp [h]

theorem State.cutTest_of_state (h : (s.lane n).state ≠ .draining) : s.cutTest n = s := by
  unfold State.cutTest; simp [h]

theorem State.cutTest_of_none (h : (s.lane n).openParcel = none) : s.cutTest n = s := by
  unfold State.cutTest; simp [h]

theorem State.drainTest_of_state (h : (s.lane n).state ≠ .draining) : s.drainTest n = s := by
  unfold State.drainTest Lane.drained; simp [h]

theorem State.drainTest_of_ready (h : (s.lane n).ready ≠ 0) : s.drainTest n = s := by
  unfold State.drainTest Lane.drained; simp [h]

theorem State.drainTest_of_open (h : (s.lane n).openParcel ≠ none) : s.drainTest n = s := by
  unfold State.drainTest Lane.drained; simp [h]

/-- No test applies to a lane that no command works on and that is not DRAINING. -/
theorem State.laneTests_quiet (hb : (s.lane n).busy = .clear) (hs : (s.lane n).state ≠ .draining)
    (hc : s.cmd.work ≠ .closing n) : s.laneTests n = s := by
  unfold State.laneTests
  rw [if_neg (by simp [hb]), State.cutTest_of_work hc, State.drainTest_of_state hs, State.closeTest_of_work hc]

/-- A put line whose first entry is in flight, and waits for no take, has nothing to evaluate. -/
theorem State.evalPut_inFlight {e : PutEntry} {es : List PutEntry} (hl : (s.lane n).putLine = e :: es)
    (h1 : e.stage ≠ .waiting) (h2 : e.stage ≠ .waitTake) : s.evalPut n = s := by
  unfold State.evalPut; simp [hl, h1, h2]

/-- A take line whose first entry is in flight has nothing to evaluate. -/
theorem State.evalTake_inFlight {e : TakeEntry} {es : List TakeEntry} (hl : (s.lane n).takeLine = e :: es)
    (h : e.stage ≠ .waiting) : s.evalTake n = s := by
  unfold State.evalTake; simp [hl, h]

end Sys2Proof.Machine

namespace Sys2Proof.Machine

variable {s t : State} {n : LaneNo}

/-! ## A put starts (R51) -/

/-- An access to bytes touches a word exactly when there is a byte. -/
theorem wordPieces_ne_nil {pos : Nat} {bs : List Byte} (h : bs ≠ []) : wordPieces pos bs ≠ [] := by
  unfold wordPieces
  have : bs.isEmpty = false := by simpa using h
  simp only [this, Bool.false_eq_true, if_false]
  split <;> simp

/-- The start of a put that keeps a byte, the only entry of its line: its bytes are placed and its writes created. -/
theorem State.startPut_writes {e : PutEntry} (hl : (s.lane n).putLine = [e]) (hk : (s.lane n).keptBytes e.tx ≠ [])
    (segment : Option Nat) :
    let l := s.lane n
    let bodyAt := l.tailPosition + (if l.openParcel.isNone then 8 else 0)
    let placed := l.placePut e.tx segment
    let writes := ((s.unhold n .put).setLane n placed).chainWrites n (.bodyWrite n) (masterByte e.tx) bodyAt
      (l.keptBytes e.tx)
    s.startPut n e segment = ((s.unhold n .put).setLane n
      { placed with putLine := [{ e with stage := .writingBody writes.length false }] }).requestAll writes := by
  have hw : (((s.unhold n .put).setLane n ((s.lane n).placePut e.tx segment)).chainWrites n (.bodyWrite n)
      (masterByte e.tx) ((s.lane n).tailPosition + (if (s.lane n).openParcel.isNone then 8 else 0))
      ((s.lane n).keptBytes e.tx)).isEmpty = false := by
    simpa [State.chainWrites] using wordPieces_ne_nil hk
  have hp : ((s.lane n).placePut e.tx segment).putLine = [e] := hl
  dsimp only
  unfold State.startPut
  dsimp only
  rw [State.unhold_lane, if_neg (by rw [hw]; simp), State.setPutStage_setLane hp]

/-- The requests of a put's writes, behind a new segment or none. -/
theorem State.chainWrites_setLane {l : Lane} (owner : Owner) (master : Byte) (pos : Nat) (bs : List Byte) :
    (s.setLane n l).chainWrites n owner master pos bs = (wordPieces pos bs).map fun (p, piece) =>
      { owner := owner, master := master, address := s.poolAddress (placeAt l.chain (p)) (p % 512), write := true,
        enables := laneMask (p % 8) piece.length, data := placeBytes (p % 8) piece } := by
  unfold State.chainWrites State.placeAddress
  rw [State.lane_setLane_same]
  rfl

/-! ## Claims (R27) -/

/-- A claim is a matter of the pool and, for POOL_LOW, of the notice writer. -/
theorem State.claim_eq (s : State) (claims : Bool) (master : Byte) :
    ∃ p w q, (s.claim claims master).2 = { s with pool := p, notice := w, port := { s.port with noticeQ := q } } ∧
      p.freeList = (if claims then s.pool.freeList.tail else s.pool.freeList) ∧ p.base = s.pool.base ∧
      (claims = false → p = s.pool ∧ w = s.notice) := by
  cases claims with
  | false => exact ⟨s.pool, s.notice, s.port.noticeQ, rfl, rfl, rfl, fun _ => ⟨rfl, rfl⟩⟩
  | true =>
    refine ⟨(s.popSegment master).pool, (s.popSegment master).notice, (s.popSegment master).port.noticeQ, ?_, ?_, ?_,
      fun h => by cases h⟩ <;>
    simp only [State.claim, if_true, State.popSegment] <;>
    split <;> simp only [State.produce_eq]

/-- The segment that a claim gives. -/
theorem State.claim_segment (s : State) (claims : Bool) (master : Byte) :
    (s.claim claims master).1.toList = if claims then s.pool.freeList.head?.toList else [] := by
  unfold State.claim State.topSegment
  cases claims <;> rfl

/-! ## A put arrives (R39, R41) -/

/-- The line entry of a put that arrives. -/
def arrivedPut (x : Transaction) (i : Fin 23) : PutEntry :=
  { tx := x, entry := i, kind := if x.address.toNat % 4096 < 0x800 then .body else .final (finalTag x),
    stage := .waiting, linked := false }

theorem arrivedPut_kind (x : Transaction) (i : Fin 23) (hold : Bool) (o : MemOutcome) :
    (arrivedPut x i).kind ≠ .capture hold o := by
  unfold arrivedPut
  dsimp only
  split <;> simp

theorem Lane.refusal_open {l : Lane} (ho : l.state = .opened) (hb : l.busy = .clear) (isPut : Bool) :
    l.refusal isPut = none := by
  have h := (l.refusal_cases.2 hb).1 ho
  cases isPut
  · exact h.2
  · exact h.1

/-- A put that arrives at a lane whose put side has nothing to do joins the line and is evaluated. -/
theorem State.Routes.take_put {x : Transaction} {i : Fin 23} {base : Addr} {exponent : Nat}
    (hr : s.Routes x i (.put base exponent n)) (hd : x.direction = .write) (hq : s.PutQuiet n) :
    s.begin.take x = ((s.begin.occupy x).setLane n { s.lane n with putLine := [arrivedPut x i] }).schedule [.evalPut n] := by
  rw [hr.take]
  unfold State.byEntry State.arrivePut
  simp only [hd, State.occupy_lane, State.begin_lane, Lane.refusal_open hq.opened hq.clear]
  unfold State.joinPutLine
  simp only [State.occupy_lane, State.begin_lane, hq.putLine, List.isEmpty_nil, if_true]
  rw [State.updLane_eq]
  simp only [State.occupy_lane, State.begin_lane, hq.putLine, List.nil_append]
  rfl

/-- A put that the space check lets start. -/
theorem State.evaluatePut_starts {e : PutEntry} {claims : Bool} (hk : (s.lane n).keptBytes e.tx ≠ [])
    (hs : s.spaceCheck n (s.lane n).openParcel.isNone ((s.lane n).putNeed e.tx) = .starts claims) :
    s.evaluatePut n e = (s.claim claims (masterByte e.tx)).2.startPut n e (s.claim claims (masterByte e.tx)).1 := by
  unfold State.evaluatePut
  dsimp only
  rw [if_neg (by simp [hk]), hs]

/-- The space check looks at the lane's chain, parcels and limits, the pool and who is held. -/
theorem State.spaceCheck_congr {l : Lane} (hp : t.pool = s.pool) (hh : t.hold = s.hold) (hl : t.lane n = l)
    (hr : l.ready = (s.lane n).ready) (hc : l.chain = (s.lane n).chain) (ht : l.tailOffset = (s.lane n).tailOffset)
    (hd : l.desc = (s.lane n).desc) (opens : Bool) (need : Nat) :
    t.spaceCheck n opens need = s.spaceCheck n opens need := by
  have hg : t.claimGranted n = s.claimGranted n := by
    have ha : t.aheadAtPool n = s.aheadAtPool n := by
      unfold State.aheadAtPool State.heldOf State.poolWaiters State.ranksBefore State.age
      rw [hh]
    unfold State.claimGranted
    rw [ha, hp]
  unfold State.spaceCheck Lane.room
  dsimp only
  rw [hl, hr, hc, ht, hd, hg]

/-- Settles O25. -/
theorem putStarts : Obligations.PutStarts := by
  intro c s x i base exponent n claims hx hr hd hq hk hs
  dsimp only
  rw [exec_of_presents hx]
  let l : Lane := { s.lane n with putLine := [arrivedPut x i] }
  let u := (s.begin.occupy x).setLane n l
  have hul : u.lane n = l := State.lane_setLane_same _ _ _
  have hcheck : u.spaceCheck n (u.lane n).openParcel.isNone ((u.lane n).putNeed x) = .starts claims := by
    rw [State.spaceCheck_congr (s := s) (t := u) rfl rfl hul rfl rfl rfl rfl, hul]
    exact hs
  obtain ⟨p, w, q, hclaim, hfree, hbase, hnone⟩ := u.claim_eq claims (masterByte x)
  have hseg : (u.claim claims (masterByte x)).1.toList = if claims then s.pool.freeList.head?.toList else [] :=
    u.claim_segment claims (masterByte x)
  have heval : u.evalPut n = (u.claim claims (masterByte x)).2.startPut n (arrivedPut x i)
      (u.claim claims (masterByte x)).1 := by
    rw [State.evalPut_put (e := arrivedPut x i) (by rw [hul]) rfl (arrivedPut_kind x i)]
    exact State.evaluatePut_starts (by rw [hul]; exact hk) hcheck
  generalize (u.claim claims (masterByte x)).1 = segment at hseg heval
  generalize (u.claim claims (masterByte x)).2 = v at hclaim heval
  have hvl : v.lane n = l := by rw [hclaim]; exact hul
  have hvh : v.heldOf n .put = none := by rw [hclaim]; exact hq.putHeld
  rw [State.startPut_writes (by rw [hvl]) (by rw [hvl]; exact hk), State.unhold_none hvh,
    State.chainWrites_setLane, hvl] at heval
  refine ⟨u.evalPut n, ?_, ?_⟩
  · have htodo : (u.evalPut n).todo = [] := by rw [heval, hclaim]; rfl
    have hcalm : (u.evalPut n).Calm := by rw [heval, hclaim]; exact hr.calm.congr rfl rfl rfl
    exact present_does hr.calm hr.free (hr.take_put hd hq) rfl (State.Does.step rfl htodo (.nil _)) (by decide)
      htodo hcalm
  · rw [heval]
    refine ⟨?_, fun m hm => ?_, ?_, ?_, ?_, ?_⟩
    · rw [State.requestAll_lane, State.lane_setLane_same, List.length_map, ← hseg]
      unfold Lane.placePut Lane.putNeed
      simp only [← Nat.add_assoc]
      rfl
    · rw [State.requestAll_lane, State.lane_setLane_ne _ _ hm, hclaim]
      exact State.lane_setLane_ne _ _ hm
    · rw [State.requestAll_systemQ, hclaim, ← hseg]
      unfold State.poolAddress
      dsimp only
      rw [hbase]
      rfl
    · rw [hclaim]; exact hfree
    · intro hc
      rw [hclaim]
      exact hnone hc
    · rw [hclaim]
      exact ⟨rfl, rfl, rfl, rfl, rfl, rfl, rfl, hr.calm.running⟩
end Sys2Proof.Machine

namespace Sys2Proof.Machine

variable {s t u : State} {n : LaneNo}

/-! ## Sorted entries (R33, R82) -/

theorem insertEntry_perm (before : HeldEntry → HeldEntry → Bool) (e : HeldEntry) (xs : List HeldEntry) :
    (insertEntry before e xs).Perm (e :: xs) := by
  induction xs with
  | nil => exact .refl _
  | cons x xs ih =>
    unfold insertEntry
    split
    · exact .refl _
    · exact (ih.cons x).trans (.swap e x xs)

theorem sortEntries_perm (before : HeldEntry → HeldEntry → Bool) (xs : List HeldEntry) :
    (sortEntries before xs).Perm xs := by
  induction xs with
  | nil => exact .refl _
  | cons x xs ih => exact (insertEntry_perm before x _).trans (ih.cons x)

section Sorted

variable {before : HeldEntry → HeldEntry → Bool} {R : HeldEntry → HeldEntry → Prop}
  (trans : ∀ a b c, R a b → R b c → R a c) (yes : ∀ a b, before a b = true → R a b)
  (no : ∀ a b, before a b = false → R b a)

include trans yes no

theorem insertEntry_pairwise (e : HeldEntry) {xs : List HeldEntry} (h : xs.Pairwise R) :
    (insertEntry before e xs).Pairwise R := by
  induction xs with
  | nil => exact List.pairwise_singleton R e
  | cons x xs ih =>
    obtain ⟨hx, hxs⟩ := List.pairwise_cons.mp h
    unfold insertEntry
    split
    · rename_i hb
      refine List.pairwise_cons.mpr ⟨fun y hy => ?_, h⟩
      rcases List.mem_cons.mp hy with rfl | hy
      · exact yes _ _ hb
      · exact trans _ _ _ (yes _ _ hb) (hx y hy)
    · rename_i hb
      refine List.pairwise_cons.mpr ⟨fun y hy => ?_, ih hxs⟩
      rcases List.mem_cons.mp ((insertEntry_perm before e xs).mem_iff.mp hy) with rfl | hy
      · exact no _ _ (by simpa using hb)
      · exact hx y hy

/-- Entries sorted by a test stand in the order that the test decides. -/
theorem sortEntries_pairwise (xs : List HeldEntry) : (sortEntries before xs).Pairwise R := by
  induction xs with
  | nil => exact .nil
  | cons x xs ih => exact insertEntry_pairwise trans yes no x ih

end Sorted

/-- Entries of one age have one hold start. -/
theorem State.age_eq_iff (s : State) (a b : HeldEntry) : s.age a = s.age b ↔ a.start = b.start := by
  unfold State.age
  rw [BitVec.toNat_inj]
  exact sub_right_inj

/-- Woken entries are evaluated by hold start, the earliest first (R82). -/
theorem State.sorted_wakesBefore (s : State) (xs : List HeldEntry) :
    (sortEntries s.wakesBefore xs).Pairwise fun a b => s.age b ≤ s.age a := by
  refine sortEntries_pairwise (fun a b c h1 h2 => h2.trans h1) (fun a b h => ?_) (fun a b h => ?_) xs
  · unfold State.wakesBefore at h
    simp only [Bool.or_eq_true, Bool.and_eq_true, decide_eq_true_eq, beq_iff_eq] at h
    omega
  · unfold State.wakesBefore at h
    simp only [Bool.or_eq_false_iff, decide_eq_false_iff_not] at h
    omega

/-- Pool waiters rank by hold start, then by lane (R33). -/
theorem State.poolWaiters_sorted (s : State) :
    s.poolWaiters.Pairwise fun a b => s.age b < s.age a ∨ (a.start = b.start ∧ a.lane ≤ b.lane) := by
  simp only [← s.age_eq_iff]
  refine sortEntries_pairwise (fun a b c h1 h2 => ?_) (fun a b h => ?_) (fun a b h => ?_) _
  · simp only [Fin.le_def] at *
    omega
  · unfold State.ranksBefore at h
    simp only [Bool.or_eq_true, Bool.and_eq_true, decide_eq_true_eq, beq_iff_eq] at h
    simp only [Fin.le_def]
    omega
  · unfold State.ranksBefore at h
    simp only [Bool.or_eq_false_iff, Bool.and_eq_false_iff, decide_eq_false_iff_not, beq_eq_false_iff_ne] at h
    simp only [Fin.le_def]
    omega

/-! ## The end of a command (R127) -/

theorem State.handover_none (h : s.hold.waiter = none) : s.handover = s := by
  unfold State.handover; rw [h]

/-- With no command waiting a hand-over has nothing to do. -/
theorem State.handover_does (ht : u.todo = []) (hw : u.hold.waiter = none) : u.Does 1 [.handover] u :=
  State.Does.step (State.handover_none hw) ht (.nil _)

/-- A command that ends notes the hand-over to the next. -/
theorem State.completeCommand_schedule (ht : u.todo = []) (outcome reason detail : Byte) :
    u.completeCommand outcome reason detail
      = ({ u.completeCommand outcome reason detail with todo := [] } : State).schedule [.handover] := by
  rw [State.completeCommand_eq]
  dsimp only
  rw [ht]
  rfl

theorem State.completeCommand_waiter (outcome reason detail : Byte) :
    (u.completeCommand outcome reason detail).hold.waiter = u.hold.waiter := by
  rw [State.completeCommand_eq]

theorem State.completeCommand_calm (h : s.Calm) (hr : u.rst = s.rst) (hp : u.sys.presented = s.sys.presented)
    (outcome reason detail : Byte) : State.Calm { u.completeCommand outcome reason detail with todo := [] } := by
  rw [State.completeCommand_eq]
  exact ⟨hr.trans h.running, hp.trans h.presented, fun _ hx => by cases hx⟩

/-- An event that ends a command, with no command waiting. -/
theorem event_completes {body : State → State} {outcome reason detail : Byte} (h : s.Calm)
    (hb : body s.begin = u.completeCommand outcome reason detail) (ht : u.todo = []) (hw : u.hold.waiter = none)
    (hr : u.rst = s.rst) (hp : u.sys.presented = s.sys.presented) :
    event body s = .next { u.completeCommand outcome reason detail with todo := [] } := by
  refine event_does h.running (hb.trans (State.completeCommand_schedule ht outcome reason detail)) rfl
    (State.handover_does rfl ?_) (by decide) (State.completeCommand_calm h hr hp _ _ _)
  exact (State.completeCommand_waiter _ _ _).trans hw

/-! ## The discard of a lane (R8) -/

/-- What the discard of FLUSH LANE and RESET LANE leaves of a lane, but for its state, gap mark, errors and cause. -/
def Lane.emptied (l : Lane) : Lane :=
  { l with
    busy := .clear, chain := [], headOffset := 0, tailOffset := 0, ready := 0, openParcel := none, cache := none,
    takeSeq := l.putSeq, armed := true }

theorem Lane.discard_reset {l : Lane} (h : l.busy = .reset) :
    l.discard = { l.emptied with state := .closed, gap := false, errors := 0, cause := .none } := by
  simp [Lane.discard, Lane.emptied, h]

theorem Lane.discard_flush {l : Lane} (h : l.busy = .flush) :
    l.discard = { l.emptied with
      state := if l.state = .draining then .closed else l.state
      gap := l.gap || l.ready != 0 || l.openParcel.isSome } := by
  cases hs : l.state <;> simp [Lane.discard, Lane.emptied, h, hs]

section Discard

variable (hb : (s.lane n).busy ≠ .clear) (hi : (s.lane n).idle = true) (hw : s.cmd.work = .emptying n)
  (hh : s.hold.held = [])

include hb hi hw hh

/-- The discard of a lane that FLUSH LANE or RESET LANE works on, with nobody held: the contents go and the command ends
(R8, R136). -/
theorem State.discardTest_quiet (hd : ¬ ((s.lane n).busy = .flush ∧ (s.lane n).state = .draining)) :
    s.discardTest n =
      ((s.setLane n (s.lane n).discard).pushSegments (s.lane n).chain).completeCommand outcomeDone 0 0 := by
  unfold State.discardTest
  rw [if_pos ⟨hb, hi⟩]
  unfold State.discardLane
  dsimp only
  rw [State.returnSegments_none (by exact hh), if_neg hd]
  exact if_pos (by simp [State.emptying, hw])

/-- The discard of a DRAINING lane that FLUSH LANE works on notices LANE_CLOSED besides (R8). -/
theorem State.discardTest_closes (hd : (s.lane n).busy = .flush ∧ (s.lane n).state = .draining) :
    s.discardTest n =
      (((s.setLane n (s.lane n).discard).pushSegments (s.lane n).chain).produce (laneClosedNotice n)).completeCommand
        outcomeDone 0 0 := by
  unfold State.discardTest
  rw [if_pos ⟨hb, hi⟩]
  unfold State.discardLane
  dsimp only
  rw [State.returnSegments_none (by exact hh), if_pos hd]
  exact if_pos (by simp [State.emptying, hw])

end Discard

theorem Lane.idle_of_nil {l : Lane} (hp : l.putLine = []) (ht : l.takeLine = []) (hc : l.cutting = false) :
    l.idle = true := by
  simp [Lane.idle, Lane.putInFlight, Lane.takeInFlight, hp, ht, hc]

end Sys2Proof.Machine

namespace Sys2Proof.Machine

variable {s t u : State} {n : LaneNo}

/-! ## Puts that are evaluated again -/

/-- The only put of a line starts, and notes nothing more to do. -/
theorem State.startPut_frame {e : PutEntry} (hl : (s.lane n).putLine = [e]) (hk : (s.lane n).keptBytes e.tx ≠ [])
    (segment : Option Nat) : (s.startPut n e segment).todo = s.todo ∧ (s.startPut n e segment).rst = s.rst ∧
      (s.startPut n e segment).sys = s.sys ∧ (s.startPut n e segment).cmd = s.cmd := by
  rw [State.startPut_writes hl hk]
  exact ⟨rfl, rfl, rfl, rfl⟩

/-- A put that needs no claim starts in its event (R51). -/
theorem event_startPut {body : State → State} {e : PutEntry} (h : s.Calm) (hl : (s.lane n).putLine = [e])
    (hk : (s.lane n).keptBytes e.tx ≠ []) (hb : body s.begin = s.begin.evaluatePut n e)
    (hc : s.spaceCheck n (s.lane n).openParcel.isNone ((s.lane n).putNeed e.tx) = .starts false) :
    event body s = .next (s.begin.startPut n e none) := by
  obtain ⟨htodo, hrst, hsys, hcmd⟩ := State.startPut_frame (s := s.begin) hl hk none
  refine event_eq h.running ?_ (h.begin.congr hrst (by rw [hsys]) (by rw [hcmd])) htodo
  rw [hb]
  exact State.evaluatePut_starts (s := s.begin) (claims := false) hk hc

/-- The put that waited for a take is evaluated when no take is in flight (R49). -/
theorem State.waitEnd_put {e : PutEntry} (hl : (s.lane n).putLine = [e]) (hs : e.stage = .waitTake)
    (ht : (s.lane n).takeLine = []) (hf : (s.lane n).state ≠ .faulted) (hk : ∀ hold o, e.kind ≠ .capture hold o) :
    s.waitEnd n = s.evaluatePut n e := by
  have hi : (s.lane n).takeInFlight = false := by simp [Lane.takeInFlight, ht]
  unfold State.waitEnd State.evalPut
  simp only [hl, hs, hi]
  cases hkind : e.kind with
  | capture hold o => exact absurd hkind (hk hold o)
  | body => simp [hs, hf]
  | final tag => simp [hs, hf]

/-- The put that waited for a take is answered ERROR on a lane that is FAULTED (R49). -/
theorem State.waitEnd_faulted {e : PutEntry} (hl : (s.lane n).putLine = [e]) (hs : e.stage = .waitTake)
    (ht : (s.lane n).takeLine = []) (hf : (s.lane n).state = .faulted) (hh : s.heldOf n .put = none) :
    s.waitEnd n = ((s.setLane n { s.lane n with putLine := [] }).answer e.tx.tag true 0).schedule
      [.laneTests n, .evalTake n, .evalPut n] := by
  have hi : (s.lane n).takeInFlight = false := by simp [Lane.takeInFlight, ht]
  have h1 : s.waitEnd n = s.faultPut n e := by
    unfold State.waitEnd State.evalPut
    simp [hl, hs, hi, hf]
  rw [h1]
  unfold State.faultPut State.leavePut State.leaveScan
  rw [if_neg (by simp [hs]), State.dropHeld_none (by exact hh), State.updLane_eq]
  simp only [State.answerError_lane, hl]
  rfl

theorem State.wakeEntry_put (h : s.heldOf n .put ≠ none) : s.wakeEntry n .put = s.evalPut n := by
  unfold State.wakeEntry; rw [if_pos (Option.isSome_iff_ne_none.mpr h)]

theorem State.wakeEntry_take (h : s.heldOf n .take ≠ none) : s.wakeEntry n .take = s.evalTake n := by
  unfold State.wakeEntry; rw [if_pos (Option.isSome_iff_ne_none.mpr h)]

theorem State.wakeEntry_none {line : Line} (h : s.heldOf n line = none) : s.wakeEntry n line = s := by
  unfold State.wakeEntry; rw [h]; rfl

/-- A held put that finds the lane full stays held, with the wait kind found now (R45, R82). -/
theorem State.evaluatePut_holds {e : PutEntry} {kind : WaitKind} (hk : (s.lane n).keptBytes e.tx ≠ [])
    (hs : s.spaceCheck n (s.lane n).openParcel.isNone ((s.lane n).putNeed e.tx) = .full kind)
    (ha : (s.lane n).desc.fullAction = .hold) (hh : s.heldOf n .put ≠ none) :
    s.evaluatePut n e = s.setWaitKind n .put kind := by
  unfold State.evaluatePut
  dsimp only
  rw [if_neg (by simp [hk]), hs]
  unfold State.fullPut State.holdPut
  rw [ha]
  exact if_pos (Option.isSome_iff_ne_none.mpr hh)

/-- A take on a lane with a ready parcel and no head cache fetches its header (R59). -/
theorem State.evalTake_fetches {e : TakeEntry} {es : List TakeEntry} (hl : (s.lane n).takeLine = e :: es)
    (hs : e.stage = .waiting) (hp : (s.lane n).putLine = []) (hr : (s.lane n).ready ≠ 0)
    (hc : (s.lane n).cache = none) : s.evalTake n = (s.unhold n .take).fetchHead n e := by
  unfold State.evalTake
  simp [hl, hs, Lane.scanning_nil hp, hr, hc]

/-- A held take that still finds no parcel stays held (R71, R82). -/
theorem State.evalTake_holds {e : TakeEntry} {es : List TakeEntry} (hl : (s.lane n).takeLine = e :: es)
    (hs : e.stage = .waiting) (hp : (s.lane n).putLine = []) (hr : (s.lane n).ready = 0)
    (ha : (s.lane n).desc.emptyAction = .hold) (hk : e.kind ≠ .release) (hh : s.heldOf n .take ≠ none) :
    s.evalTake n = s := by
  have hold : s.holdTake n e = s := by
    unfold State.holdTake; exact if_pos (Option.isSome_iff_ne_none.mpr hh)
  unfold State.evalTake State.takeEmpty State.emptyTake
  simp only [hl, hs, Lane.scanning_nil hp, hr, ha, hold]
  cases hkind : e.kind with
  | release => exact absurd hkind hk
  | info => simp
  | data => simp

/-! ## Drain completion (R5) -/

theorem Lane.drained_of {l : Lane} (hs : l.state = .draining) (hb : l.busy = .clear) (hr : l.ready = 0)
    (ho : l.openParcel = none) (hi : l.idle = true) : l.drained = true := by
  simp [Lane.drained, hs, hb, hr, ho, hi]

/-- A drained lane goes to CLOSED: its takes, which all wait, are answered ERROR, and LANE_CLOSED is noticed. -/
theorem State.drainTest_done (hs : (s.lane n).state = .draining) (hb : (s.lane n).busy = .clear)
    (hr : (s.lane n).ready = 0) (ho : (s.lane n).openParcel = none) (hp : (s.lane n).putLine = [])
    (hc : (s.lane n).cutting = false) (hw : ∀ x ∈ (s.lane n).takeLine, x.stage = .waiting)
    (hq : s.LeavesQuietly n .take) :
    s.drainTest n = (((s.answerGone n [] (s.lane n).takeLine).unhold n .take).setLane n
      { s.lane n with state := .closed, takeLine := [] }).produce (laneClosedNotice n) := by
  have hi : (s.lane n).idle = true := by
    have : ∀ x ∈ (s.lane n).takeLine, x.inFlight = false := fun x hx => by simp [TakeEntry.inFlight, hw x hx]
    simpa [Lane.idle, Lane.putInFlight, Lane.takeInFlight, hp, hc] using this
  obtain ⟨h1, h2⟩ := filter_takes_waiting hw
  unfold State.drainTest
  rw [if_pos (Lane.drained_of hs hb hr ho hi), State.changeTakes_eq hq]
  dsimp only
  rw [h1, h2]

/-! ## The steps of a lane -/

/-- Settles O55. -/
theorem laneStepsComplete : Obligations.LaneStepsComplete := by
  refine ⟨fun s n hcalm => ?_, fun s picks => ?_, fun s => ?_⟩
  · dsimp only
    refine ⟨fun e hl hk hkept hcheck => ⟨fun hstage htake hst => ?_, fun hstage hheld => ?_⟩,
      fun e hl hstage htake hst hb hwork hheld => ?_, fun e kind hl hk hstage hkept hcheck hfull hheld => ?_,
      fun e hl hstage hp hr hc hheld => ?_, fun e hl hstage hp hr hempty hkind hheld => ?_,
      fun p hwork hst hopen hp hcut => ?_, fun hst hb hr ho hp hcut => ⟨fun ht hheld => ?_, fun e h hl hstage hh hpar => ?_⟩,
      fun hwork hwaiter hheld hp ht hcut => ?_⟩
    · exact event_startPut hcalm hl hkept (State.waitEnd_put (s := s.begin) hl hstage htake hst hk) hcheck
    · refine event_startPut hcalm hl hkept ?_ hcheck
      exact (State.wakeEntry_put (s := s.begin) hheld).trans (State.evalPut_put (s := s.begin) hl hstage hk)
    · refine event_noops hcalm.running (State.waitEnd_faulted (s := s.begin) hl hstage htake hst hheld) rfl ?_
        (by simp) (hcalm.congr rfl rfl rfl)
      intro x hx
      have hlane : ((s.begin.setLane n { s.lane n with putLine := [] }).answer e.tx.tag true 0).lane n
          = { s.lane n with putLine := [] } := by simp
      simp only [List.mem_cons, List.not_mem_nil, or_false] at hx
      rcases hx with rfl | rfl | rfl
      · exact State.laneTests_quiet (by rw [hlane]; exact hb) (by rw [hlane]; simp [hst]) hwork
      · exact State.evalTake_nil (by rw [hlane]; exact htake)
      · exact State.evalPut_nil (by rw [hlane])
    · refine event_eq hcalm.running ?_ (hcalm.congr rfl rfl rfl) rfl
      refine (State.wakeEntry_put (s := s.begin) hheld).trans ((State.evalPut_put (s := s.begin) hl hstage hk).trans
        ((State.evaluatePut_holds (s := s.begin) hkept hcheck hfull hheld).trans ?_))
      simp [State.setWaitKind]
    · refine event_eq hcalm.running ?_ (hcalm.congr rfl rfl rfl) rfl
      exact (State.wakeEntry_take (s := s.begin) hheld).trans (State.evalTake_fetches (s := s.begin) hl hstage hp hr hc)
    · refine event_eq hcalm.running ?_ hcalm.begin rfl
      exact (State.wakeEntry_take (s := s.begin) hheld).trans
        (State.evalTake_holds (s := s.begin) hl hstage hp hr hempty hkind hheld)
    · refine event_eq hcalm.running ?_ (hcalm.congr rfl rfl rfl) rfl
      exact State.cutTest_due (s := s.begin) (by simp [State.closing, hwork]) hst hopen
        (by simp [Lane.putInFlight, hp]) hcut
    · refine event_eq hcalm.running ?_ (hcalm.congr ?_ ?_ ?_) ?_
      · refine (State.drainTest_done (s := s.begin) hst hb hr ho hp hcut (by simp [ht])
          (State.leavesQuietly_of_none hheld)).trans ?_
        rw [State.begin_lane, ht, State.answerGone_nil, State.unhold_none (by exact hheld)]
      all_goals simp
    · refine event_eq hcalm.running ?_ (hcalm.congr ?_ ?_ ?_) ?_
      · refine (State.drainTest_done (s := s.begin) hst hb hr ho hp hcut (by simpa [hl] using hstage)
          (State.leavesQuietly_of_parcel fun x hx => ?_)).trans ?_
        · cases hh.symm.trans hx
          exact hpar
        · rw [State.begin_lane, hl]
          rfl
      all_goals simp
    · have hidle : (s.lane n).idle = true := Lane.idle_of_nil hp ht hcut
      refine ⟨fun hb => ?_, fun hb hst => ?_, fun hb hst => ?_⟩
      · refine event_completes hcalm ((State.discardTest_quiet (s := s.begin) (by simp [hb]) hidle hwork hheld
          (by simp [hb])).trans ?_) rfl hwaiter rfl rfl
        rw [State.begin_lane, Lane.discard_reset hb]
        rfl
      · refine event_completes hcalm ((State.discardTest_closes (s := s.begin) (by simp [hb]) hidle hwork hheld
          ⟨hb, hst⟩).trans ?_) ?_ ?_ ?_ ?_
        · rw [State.begin_lane, Lane.discard_flush hb, if_pos hst]
          rfl
        all_goals simp
        exact hwaiter
      · refine event_completes hcalm ((State.discardTest_quiet (s := s.begin) (by simp [hb]) hidle hwork hheld
          (by simp [hst])).trans ?_) rfl hwaiter rfl rfl
        rw [State.begin_lane, Lane.discard_flush hb, if_neg hst]
        rfl
  · refine ⟨sortEntries s.wakesBefore (s.hold.held.filter picks), sortEntries_perm _ _, s.sorted_wakesBefore _, ?_⟩
    unfold State.wake
    simp only [List.isEmpty_iff]
    rfl
  · refine ⟨sortEntries_perm _ _, s.poolWaiters_sorted, fun segs also => ?_, rfl,
      fun n line h => State.wakeEntry_none h, fun n h => State.wakeEntry_put h, fun n h => State.wakeEntry_take h,
      fun n h => rfl, fun n master p hp ha => ?_⟩
    · unfold State.returnSegments
      cases segs <;> rfl
    · unfold State.parcelReady Lane.makeReady
      simp [hp, ha]
end Sys2Proof.Machine

namespace Sys2Proof.Machine

variable {s t u v : State} {n : LaneNo} {l : Lane} {e : PutEntry} {r : MemRequest} {rest : List Outstanding}

/-! ## Requests that end -/

theorem State.Ends.sameWork (h : s.Ends r rest) : s.begin.SameWork (s.ended rest) := by
  obtain ⟨x, hx, -⟩ := h.oldest
  exact ⟨rfl, rfl, rfl, rfl, rfl, rfl, rfl, rfl⟩

theorem State.Ends.sameWork_failed (h : s.Ends r rest) (source : Byte) (value16 : Half) :
    s.begin.SameWork (s.endedFailed r rest source value16) := by
  obtain ⟨x, hx, -⟩ := h.oldest
  constructor <;> simp [State.endedFailed]

/-- A response ends the oldest request, and its owner receives the outcome. -/
theorem event_response {m : MemResponse} (h : s.Ends r rest)
    (hb : (s.ended rest).requestEnded r (outcomeOf m) = u) (hu : t.todo = []) {ts : List Task} {k : Nat}
    (ht : u = t.schedule ts) (hd : t.Does k ts v) (hk : k ≤ 4096) (hc : v.Calm) :
    event (fun s => s.memoryResponse m) s = .next v :=
  event_does h.calm.running ((State.begin_memoryResponse h m).trans (hb.trans ht)) hu hd hk hc

/-- A response whose request notes parts that have nothing to do. -/
theorem event_response_noops {m : MemResponse} {ts : List Task} (h : s.Ends r rest)
    (hb : (s.ended rest).requestEnded r (outcomeOf m) = v.schedule ts) (hv : v.todo = [])
    (hn : ∀ x ∈ ts, v.doTask x = v) (hl : ts.length ≤ 4096) (hc : v.Calm) :
    event (fun s => s.memoryResponse m) s = .next v :=
  event_response h hb hv rfl (State.Does.noops hv hn) hl hc

/-- A response whose request notes nothing more to do. -/
theorem event_response_done {m : MemResponse} (h : s.Ends r rest)
    (hb : (s.ended rest).requestEnded r (outcomeOf m) = v) (hv : s.begin.SameWork u ∧ v.todo = u.todo ∧ v.rst = u.rst ∧
      v.sys.presented = u.sys.presented ∧ v.cmd = u.cmd) : event (fun s => s.memoryResponse m) s = .next v := by
  obtain ⟨hu, htodo, hrst, hpres, hcmd⟩ := hv
  exact event_response h hb (htodo.trans hu.todo) (State.schedule_nil v).symm (.nil v) (by decide)
    ((hu.calm h.calm.begin).congr hrst hpres (congrArg _ hcmd))

/-! ## The lane's tests under a command -/

/-- CLOSE LANE cuts the open parcel of the lane that it drains (R4). -/
theorem State.laneTests_cuts {p : OpenParcel} (hb : (s.lane n).busy = .clear) (hs : (s.lane n).state = .draining)
    (hw : s.cmd.work = .closing n) (hp : (s.lane n).openParcel = some p) (hf : (s.lane n).putInFlight = false)
    (hc : (s.lane n).cutting = false) :
    s.laneTests n = (s.setLane n
        { s.lane n with tailOffset := roundUp8 (s.lane n).tailOffset, cutting := true }).request
      (wordRequest (.headerWrite n) 0xFF (s.poolAddress p.segment p.offset) true
        (closingHeader (BitVec.ofNat 16 p.length) p.sequence 0xFF (p.flags ||| flagCut)).word) := by
  unfold State.laneTests
  rw [if_neg (by simp [hb]), State.cutTest_due (by simp [State.closing, hw]) hs hp hf hc,
    State.drainTest_of_open (by simp [hp])]
  unfold State.closeTest
  exact if_neg (by simp)

/-- CLOSE LANE ends when neither a put nor a cut is in flight (R135). -/
theorem State.laneTests_completes (hb : (s.lane n).busy = .clear) (hw : s.cmd.work = .closing n)
    (hcut : s.cutTest n = s) (hdrain : s.drainTest n = s) (hf : (s.lane n).putInFlight = false)
    (hc : (s.lane n).cutting = false) : s.laneTests n = s.completeCommand outcomeDone 0 0 := by
  unfold State.laneTests
  rw [if_neg (by simp [hb]), hcut, hdrain]
  unfold State.closeTest
  exact if_pos (by simp [State.closing, hw, hf, hc])

/-- A part that ends a command, with no command waiting, before parts that then have nothing to do. -/
theorem State.Does.completes {x : Task} {ts : List Task} {outcome reason detail : Byte}
    (hd : s.doTask x = u.completeCommand outcome reason detail) (hu : u.todo = []) (hw : u.hold.waiter = none)
    (hts : ∀ y ∈ ts, State.doTask { u.completeCommand outcome reason detail with todo := [] } y
      = { u.completeCommand outcome reason detail with todo := [] }) :
    s.Does (ts.length + 2) (x :: ts) { u.completeCommand outcome reason detail with todo := [] } :=
  State.Does.cons (hd.trans (State.completeCommand_schedule hu outcome reason detail)) rfl
    (State.Does.step (State.handover_none ((State.completeCommand_waiter _ _ _).trans hw)) rfl
      (State.Does.noops rfl hts))

/-- A response whose request notes a part that ends a command, with no command waiting. -/
theorem event_response_completes {m : MemResponse} {x : Task} {ts : List Task} {outcome reason detail : Byte}
    (h : s.Ends r rest) (hb : (s.ended rest).requestEnded r (outcomeOf m) = u.schedule (x :: ts))
    (hd : u.doTask x = t.completeCommand outcome reason detail) (hu : u.todo = []) (ht : t.todo = [])
    (hw : t.hold.waiter = none) (hr : t.rst = s.rst) (hp : t.sys.presented = s.sys.presented)
    (hts : ∀ y ∈ ts, State.doTask { t.completeCommand outcome reason detail with todo := [] } y
      = { t.completeCommand outcome reason detail with todo := [] }) (hl : ts.length ≤ 4094) :
    event (fun s => s.memoryResponse m) s = .next { t.completeCommand outcome reason detail with todo := [] } :=
  event_response h hb hu rfl (State.Does.completes hd ht hw hts) (by omega)
    (State.completeCommand_calm h.calm hr hp _ _ _)

theorem State.completeCommand_lane (outcome reason detail : Byte) (m : LaneNo) :
    (u.completeCommand outcome reason detail).lane m = u.lane m := by
  rw [State.completeCommand_eq]; rfl

theorem State.completeCommand_work (outcome reason detail : Byte) :
    (u.completeCommand outcome reason detail).cmd.work = .none := by
  rw [State.completeCommand_eq]

theorem State.completeCommand_rst (outcome reason detail : Byte) :
    (u.completeCommand outcome reason detail).rst = u.rst := by
  rw [State.completeCommand_eq]

theorem State.completeCommand_sys (outcome reason detail : Byte) :
    (u.completeCommand outcome reason detail).sys = u.sys := by
  rw [State.completeCommand_eq]

/-- What follows the end of a command on a lane whose put line is empty and that is not DRAINING: nothing. -/
theorem State.leavePut_noops_completed (hb : (u.lane n).busy = .clear) (hs : (u.lane n).state ≠ .draining)
    (hp : (u.lane n).putLine = []) (outcome reason detail : Byte) :
    ∀ y ∈ [Task.laneTests n, .evalPut n], State.doTask { u.completeCommand outcome reason detail with todo := [] } y
      = { u.completeCommand outcome reason detail with todo := [] } := by
  have hl : State.lane { u.completeCommand outcome reason detail with todo := [] } n = u.lane n :=
    State.completeCommand_lane outcome reason detail n
  intro y hy
  simp only [List.mem_cons, List.not_mem_nil, or_false] at hy
  rcases hy with rfl | rfl
  · refine State.laneTests_quiet (by rw [hl]; exact hb) (by rw [hl]; exact hs) ?_
    show (u.completeCommand outcome reason detail).cmd.work ≠ _
    rw [State.completeCommand_work]
    simp
  · exact State.evalPut_nil (by rw [hl]; exact hp)

/-! ## The first put of a line -/

theorem State.poolAddress_congr (h : t.pool = s.pool) (segment offset : Nat) :
    t.poolAddress segment offset = s.poolAddress segment offset := by
  unfold State.poolAddress; rw [h]

/-- The first put of a line goes to another stage. -/
theorem State.setPutStage_cons {es : List PutEntry} (hl : l.putLine = e :: es) (stage : PutStage) :
    (s.setLane n l).setPutStage n stage = s.setLane n { l with putLine := { e with stage := stage } :: es } := by
  unfold State.setPutStage
  rw [State.updLane_setLane, hl]

/-- The only put of a line closes its parcel. -/
theorem State.closePut_setLane {p : OpenParcel} (hp : l.openParcel = some p) (hl : l.putLine = [e]) (tag : Byte)
    (failed : Bool) : (s.setLane n l).closePut n e tag failed =
      (s.setLane n { l with
        tailOffset := roundUp8 l.tailOffset, putLine := [{ e with stage := .writingHeader failed }] }).request
      { owner := .headerWrite n, master := masterByte e.tx, address := s.poolAddress p.segment p.offset,
        write := true, enables := 0xFF,
        data := (closingHeader (BitVec.ofNat 16 p.length) p.sequence tag p.flags).word } := by
  unfold State.closePut
  rw [State.closeParcel_setLane hp, State.request_setLane, State.setPutStage_setLane (e := e) (by exact hl),
    show p.flags ||| 0 = p.flags from BitVec.or_zero]
  rfl

theorem Lane.damage_some {p : OpenParcel} (h : l.openParcel = some p) :
    l.damage = { l with openParcel := some { p with flags := p.flags ||| flagDamaged } } := by
  unfold Lane.damage; rw [h]; rfl

/-- The lane whose open parcel a failed body write has damaged. -/
def Lane.damagedBy (l : Lane) (failed : Bool) : Lane := if failed then l.damage else l

theorem Lane.damagedBy_putLine (l : Lane) (failed : Bool) : (l.damagedBy failed).putLine = l.putLine := by
  cases failed <;> rfl

section BodyWrite

variable {es : List PutEntry} {left : Nat} {failed : Bool} {o : MemOutcome}

/-- A body write ends, others of its put are left. -/
theorem State.bodyWriteEnded_left (h : s.laneEnded n r o = u.setLane n l) (hl : l.putLine = e :: es)
    (hs : e.stage = .writingBody left failed) (h1 : 1 < left) :
    s.bodyWriteEnded n r o = u.setLane n { l.damagedBy o.failed with
      putLine := { e with stage := .writingBody (left - 1) (failed || o.failed) } :: es } := by
  have hd : (if o.failed then (u.setLane n l).updLane n Lane.damage else u.setLane n l)
      = u.setLane n (l.damagedBy o.failed) := by
    cases o.failed
    · rfl
    · exact State.updLane_setLane _ _ _ _
  have hp : (l.damagedBy o.failed).putLine = e :: es := (l.damagedBy_putLine _).trans hl
  unfold State.bodyWriteEnded
  dsimp only
  rw [h, hd, State.lane_setLane_same, hp]
  dsimp only
  rw [hs]
  dsimp only
  rw [if_neg (by omega), State.setPutStage_cons hp]

/-- The last body write of a put ends. -/
theorem State.bodyWriteEnded_last (h : s.laneEnded n r o = u.setLane n l) (hl : l.putLine = e :: es)
    (hs : e.stage = .writingBody 1 failed) :
    s.bodyWriteEnded n r o = (u.setLane n (l.damagedBy o.failed)).bodyDone n e (failed || o.failed) := by
  have hd : (if o.failed then (u.setLane n l).updLane n Lane.damage else u.setLane n l)
      = u.setLane n (l.damagedBy o.failed) := by
    cases o.failed
    · rfl
    · exact State.updLane_setLane _ _ _ _
  have hp : (l.damagedBy o.failed).putLine = e :: es := (l.damagedBy_putLine _).trans hl
  unfold State.bodyWriteEnded
  dsimp only
  rw [h, hd, State.lane_setLane_same, hp]
  dsimp only
  rw [hs]
  exact if_pos (Nat.le_refl 1)

variable {d : Word}

theorem State.bodyWriteEnded_left_ok (h : s.laneEnded n r (.ok d) = u.setLane n l) (hl : l.putLine = e :: es)
    (hs : e.stage = .writingBody left failed) (h1 : 1 < left) : s.bodyWriteEnded n r (.ok d)
      = u.setLane n { l with putLine := { e with stage := .writingBody (left - 1) failed } :: es } := by
  rw [State.bodyWriteEnded_left h hl hs h1, show (failed || (MemOutcome.ok d).failed) = failed from Bool.or_false _]
  rfl

theorem State.bodyWriteEnded_left_error (h : s.laneEnded n r .error = u.setLane n l) (hl : l.putLine = e :: es)
    (hs : e.stage = .writingBody left failed) (h1 : 1 < left) : s.bodyWriteEnded n r .error
      = u.setLane n { l.damage with putLine := { e with stage := .writingBody (left - 1) true } :: es } := by
  rw [State.bodyWriteEnded_left h hl hs h1, show (failed || MemOutcome.error.failed) = true from Bool.or_true _]
  rfl

theorem State.bodyWriteEnded_last_ok (h : s.laneEnded n r (.ok d) = u.setLane n l) (hl : l.putLine = e :: es)
    (hs : e.stage = .writingBody 1 failed) :
    s.bodyWriteEnded n r (.ok d) = (u.setLane n l).bodyDone n e failed := by
  rw [State.bodyWriteEnded_last h hl hs, show (failed || (MemOutcome.ok d).failed) = failed from Bool.or_false _]
  rfl

theorem State.bodyWriteEnded_last_error (h : s.laneEnded n r .error = u.setLane n l) (hl : l.putLine = e :: es)
    (hs : e.stage = .writingBody 1 failed) :
    s.bodyWriteEnded n r .error = (u.setLane n l.damage).bodyDone n e true := by
  rw [State.bodyWriteEnded_last h hl hs, show (failed || MemOutcome.error.failed) = true from Bool.or_true _]
  rfl

end BodyWrite

/-- The last write of the only put of a line answers a body put. -/
theorem State.bodyDone_body (hk : e.kind = .body) (hh : s.heldOf n .put = none) (hl : l.putLine = [e])
    (hd : e.tx.direction = .write) (failed : Bool) : (s.setLane n l).bodyDone n e failed
      = ((s.setLane n { l with putLine := [] }).answer e.tx.tag failed 0).schedule [.laneTests n, .evalPut n] := by
  unfold State.bodyDone
  rw [hk]
  dsimp only
  rw [State.answerPut_setLane hh hl hd, Bool.not_not]

/-- The last body write of a body put, the only put of its line, ends in failure. -/
theorem State.bodyWriteEnded_body_error {failed : Bool} (h : s.laneEnded n r .error = u.setLane n l)
    (hl : l.putLine = [e]) (hs : e.stage = .writingBody 1 failed) (hk : e.kind = .body) (hh : u.heldOf n .put = none)
    (hd : e.tx.direction = .write) : s.bodyWriteEnded n r .error =
      ((u.setLane n { l.damage with putLine := [] }).answer e.tx.tag true 0).schedule [.laneTests n, .evalPut n] :=
  (State.bodyWriteEnded_last_error h hl hs).trans (State.bodyDone_body hk hh (by exact hl) hd _)

/-- The last write of the only put of a line closes the parcel of a final put. -/
theorem State.bodyDone_final {tag : Byte} {p : OpenParcel} (hk : e.kind = .final tag) (hs : l.state ≠ .faulted)
    (hp : l.openParcel = some p) (hl : l.putLine = [e]) (failed : Bool) : (s.setLane n l).bodyDone n e failed =
      (s.setLane n { l with
        tailOffset := roundUp8 l.tailOffset, putLine := [{ e with stage := .writingHeader failed }] }).request
      { owner := .headerWrite n, master := masterByte e.tx, address := s.poolAddress p.segment p.offset,
        write := true, enables := 0xFF,
        data := (closingHeader (BitVec.ofNat 16 p.length) p.sequence tag p.flags).word } := by
  have hc : (s.setLane n l).bodyDone n e failed = (s.setLane n l).closePut n e tag failed := by
    unfold State.bodyDone
    rw [hk]
    dsimp only
    rw [State.lane_setLane_same, if_neg hs]
  rw [hc, State.closePut_setLane hp hl]

/-- On a FAULTED lane a final put is answered ERROR, with no header write (R54). -/
theorem State.bodyDone_faulted {tag : Byte} (hk : e.kind = .final tag) (hs : l.state = .faulted)
    (hh : s.heldOf n .put = none) (hl : l.putLine = [e]) (hd : e.tx.direction = .write) (failed : Bool) :
    (s.setLane n l).bodyDone n e failed
      = ((s.setLane n { l with putLine := [] }).answer e.tx.tag true 0).schedule [.laneTests n, .evalPut n] := by
  unfold State.bodyDone
  rw [hk]
  dsimp only
  rw [State.lane_setLane_same, if_pos hs, State.answerPut_setLane hh hl hd]
  rfl

end Sys2Proof.Machine

namespace Sys2Proof.Machine

variable {s t u v V : State} {n : LaneNo} {l : Lane} {e : PutEntry} {r : MemRequest} {rest : List Outstanding}

/-! ## A request of a lane ends (R154, R155) -/

theorem State.requestEnded_bodyWrite (h : r.owner = .bodyWrite n) (o : MemOutcome) :
    s.requestEnded r o = (s.countFailure o).bodyWriteEnded n r o := by
  unfold State.requestEnded; rw [h]

/-- The block as the failure of its oldest request, of lane `n`, that faults the lane leaves it before the answers. -/
def State.endedFaulting (s : State) (r : MemRequest) (rest : List Outstanding) (n : LaneNo) (cause : FaultCause) :
    State :=
  (s.endedFailed r rest (laneByte n) (BitVec.ofNat 16 ((s.lane n).errors + 1))).produce
    (laneFaultedNotice n cause r ((s.lane n).errors + 1))

theorem State.Ends.sameWork_faulting (h : s.Ends r rest) (n : LaneNo) (cause : FaultCause) :
    s.begin.SameWork (s.endedFaulting r rest n cause) :=
  (h.sameWork_failed _ _).trans (State.sameWork_produce _ _)

/-- Success on a lane that is OPEN or DRAINING. -/
theorem State.laneEnded_ok (h : (s.lane n).serving = true) (d : Word) :
    ((s.ended rest).countFailure (.ok d)).laneEnded n r (.ok d) = (s.ended rest).setLane n { s.lane n with errors := 0 } :=
  State.laneSuccess_serving (s := s.ended rest) h

/-- Success on a lane that is FAULTED. -/
theorem State.laneEnded_ok_faulted (h : (s.lane n).serving = false) (d : Word) :
    ((s.ended rest).countFailure (.ok d)).laneEnded n r (.ok d) = (s.ended rest).setLane n (s.lane n) :=
  (State.laneSuccess_faulted (s := s.ended rest) h).trans (State.setLane_self _ rfl).symm

/-- Failure below the fault threshold. -/
theorem State.laneEnded_error (h : (s.lane n).serving = true) (hr : r.owner ≠ .headerWrite n)
    (ht : (s.lane n).errors + 1 ≠ (s.lane n).desc.faultThreshold) :
    ((s.ended rest).countFailure .error).laneEnded n r .error
      = (s.endedFailed r rest (laneByte n) (BitVec.ofNat 16 ((s.lane n).errors + 1))).setLane n
        { s.lane n with errors := (s.lane n).errors + 1 } := by
  refine (State.laneFailure_serving h).trans ?_
  dsimp only
  rw [if_neg hr, if_neg ht]

/-- Failure on a lane that is FAULTED. -/
theorem State.laneEnded_error_faulted (h : s.Ends r rest) (hs : (s.lane n).serving = false) :
    ((s.ended rest).countFailure .error).laneEnded n r .error
      = (s.endedFailed r rest (laneByte n) (BitVec.ofNat 16 (s.lane n).errors)).setLane n (s.lane n) := by
  refine (State.laneFailure_faulted hs).trans (State.setLane_self _ ?_).symm
  exact ((h.sameWork_failed _ _).lane n).symm

/-- Failure that faults the lane: what waits in its lines is answered, what is in flight stays. -/
theorem State.laneEnded_faults {cause : FaultCause} (h : s.Ends r rest) (hs : (s.lane n).serving = true)
    (hc : r.owner = .headerWrite n ∧ cause = .headerWrite ∨ r.owner ≠ .headerWrite n ∧
      (s.lane n).errors + 1 = (s.lane n).desc.faultThreshold ∧ cause = .memoryErrors)
    (hp : s.LeavesQuietly n .put) (ht : (s.unhold n .put).LeavesQuietly n .take) :
    ((s.ended rest).countFailure .error).laneEnded n r .error =
      (((((s.endedFaulting r rest n cause).answerGone n ((s.lane n).putLine.filter PutEntry.notInFlight)
        ((s.lane n).takeLine.filter fun e => !e.inFlight)).unhold n .put).unhold n .take).schedule [.laneTests n]).setLane n
        { s.lane n with
          errors := (s.lane n).errors + 1
          state := .faulted
          cause := cause
          putLine := (s.lane n).putLine.filter fun e => !e.notInFlight
          takeLine := (s.lane n).takeLine.filter TakeEntry.inFlight } := by
  have hw := h.sameWork_failed (laneByte n) (BitVec.ofNat 16 ((s.lane n).errors + 1))
  have hf := State.faultLane_setLane (n := n) (l := { s.lane n with errors := (s.lane n).errors + 1 })
    hs (hp.congr hw.hold) (ht.congr (by unfold State.unhold; rw [hw.hold]; rfl)) cause r
  refine (State.laneFailure_serving hs).trans ?_
  dsimp only
  rcases hc with ⟨ho, rfl⟩ | ⟨ho, he, rfl⟩
  · rw [if_pos ho]
    exact hf
  · rw [if_neg ho, if_pos he]
    exact hf

/-- The take-line entries that wait. -/
theorem TakeEntry.filter_waiting (ts : List TakeEntry) :
    (ts.filter fun e => !e.inFlight) = ts.filter fun e => e.stage == .waiting :=
  List.filter_congr fun e _ => by simp [TakeEntry.inFlight, bne]

/-! ## Events of a lane's request -/

/-- The request's end leaves the lane's line with nothing to evaluate. -/
theorem event_response_lane {m : MemResponse} (h : s.Ends r rest) (hV : s.begin.SameWork V)
    (hb : (s.ended rest).requestEnded r (outcomeOf m) = V.setLane n l) :
    event (fun s => s.memoryResponse m) s = .next (V.setLane n l) :=
  event_response_done h hb ⟨hV, rfl, rfl, rfl, rfl⟩

/-- The request's end creates another. -/
theorem event_response_request {m : MemResponse} {q : MemRequest} (h : s.Ends r rest) (hV : s.begin.SameWork V)
    (hb : (s.ended rest).requestEnded r (outcomeOf m) = (V.setLane n l).request q) :
    event (fun s => s.memoryResponse m) s = .next ((V.setLane n l).request q) :=
  event_response_done h hb ⟨hV, rfl, rfl, rfl, rfl⟩

/-- The request's end answers the only put of a lane that no test applies to. -/
theorem event_response_put {m : MemResponse} {tag : Tag} {error : Bool} {d : Word} (h : s.Ends r rest)
    (hV : s.begin.SameWork V) (hb : (s.ended rest).requestEnded r (outcomeOf m)
      = ((V.setLane n l).answer tag error d).schedule [.laneTests n, .evalPut n])
    (hp : l.putLine = []) (hbusy : l.busy = .clear) (hs : l.state ≠ .draining) (hw : s.cmd.work ≠ .closing n) :
    event (fun s => s.memoryResponse m) s = .next ((V.setLane n l).answer tag error d) := by
  have hl : ((V.setLane n l).answer tag error d).lane n = l := State.lane_setLane_same V n l
  have ht : ((V.setLane n l).answer tag error d).todo = [] := hV.todo
  refine event_response_noops h hb ht ?_ (by simp) ((hV.calm h.calm.begin).congr rfl rfl rfl)
  intro x hx
  simp only [List.mem_cons, List.not_mem_nil, or_false] at hx
  rcases hx with rfl | rfl
  · refine State.laneTests_quiet (by rw [hl]; exact hbusy) (by rw [hl]; exact hs) ?_
    show V.cmd.work ≠ _
    rw [hV.cmd]
    exact hw
  · exact State.evalPut_nil (by rw [hl]; exact hp)

/-! ## The end of a body write -/

section BodyWriteEnd

variable {left : Nat} {failed : Bool}

/-- A body write of an OPEN lane ends in success. -/
theorem bodyWriteEnd_ok (h : s.Ends r rest) (hr : r.owner = .bodyWrite n) (hp : s.Puts n e)
    (hs : e.stage = .writingBody left failed) (hd : e.tx.direction = .write) (d : Word) :
    let l := s.lane n
    (1 < left → exec (.bodyWriteEnd (.ok d)) s = .next ((s.ended rest).setLane n
      { l with errors := 0, putLine := [{ e with stage := .writingBody (left - 1) failed }] })) ∧
    (left = 1 → e.kind = .body → exec (.bodyWriteEnd (.ok d)) s = .next (((s.ended rest).setLane n
      { l with errors := 0, putLine := [] }).answer e.tx.tag failed 0)) ∧
    (∀ tag p, left = 1 → e.kind = .final tag → l.openParcel = some p →
      exec (.bodyWriteEnd (.ok d)) s = .next (((s.ended rest).setLane n
        { l with
          errors := 0
          tailOffset := roundUp8 l.tailOffset
          putLine := [{ e with stage := .writingHeader failed }] }).request
        { owner := .headerWrite n, master := masterByte e.tx, address := s.poolAddress p.segment p.offset,
          write := true, enables := 0xFF,
          data := (closingHeader (BitVec.ofNat 16 p.length) p.sequence tag p.flags).word })) := by
  have hw := h.sameWork
  have hend := State.laneEnded_ok (r := r) (rest := rest) (Lane.serving_of_opened hp.opened) d
  have howner := State.requestEnded_bodyWrite (s := s.ended rest) hr (.ok d)
  have hheld : (s.ended rest).heldOf n .put = none := hp.putHeld
  refine ⟨fun hleft => ?_, fun hleft hk => ?_, fun tag p hleft hk hopen => ?_⟩
  · exact event_response_lane h hw (howner.trans (State.bodyWriteEnded_left_ok hend (by exact hp.line) hs hleft))
  · subst hleft
    refine event_response_put h hw (howner.trans ?_) rfl hp.clear (by simp [hp.opened]) hp.closing
    exact (State.bodyWriteEnded_last_ok hend (by exact hp.line) hs).trans (State.bodyDone_body hk hheld (by exact hp.line) hd _)
  · subst hleft
    refine event_response_request h hw (howner.trans ?_)
    exact (State.bodyWriteEnded_last_ok hend (by exact hp.line) hs).trans
      (State.bodyDone_final hk (by simp [hp.opened]) (by exact hopen) (by exact hp.line) _)

/-- A body write of an OPEN lane ends in failure below the fault threshold. -/
theorem bodyWriteEnd_error (h : s.Ends r rest) (hr : r.owner = .bodyWrite n) (hp : s.Puts n e)
    (hs : e.stage = .writingBody left failed) (hd : e.tx.direction = .write)
    (ht : (s.lane n).errors + 1 ≠ (s.lane n).desc.faultThreshold) :
    let l := s.lane n
    let u := s.endedFailed r rest (laneByte n) (BitVec.ofNat 16 (l.errors + 1))
    (left = 1 → e.kind = .body → exec (.bodyWriteEnd .error) s = .next ((u.setLane n
      { l with
        errors := l.errors + 1
        openParcel := l.openParcel.map fun p => { p with flags := p.flags ||| flagDamaged }
        putLine := [] }).answer e.tx.tag true 0)) ∧
    (1 < left → exec (.bodyWriteEnd .error) s = .next (u.setLane n
      { l with
        errors := l.errors + 1
        openParcel := l.openParcel.map fun p => { p with flags := p.flags ||| flagDamaged }
        putLine := [{ e with stage := .writingBody (left - 1) true }] })) ∧
    (∀ tag p, left = 1 → e.kind = .final tag → l.openParcel = some p →
      exec (.bodyWriteEnd .error) s = .next ((u.setLane n
        { l with
          errors := l.errors + 1
          tailOffset := roundUp8 l.tailOffset
          openParcel := some { p with flags := p.flags ||| flagDamaged }
          putLine := [{ e with stage := .writingHeader true }] }).request
        { owner := .headerWrite n, master := masterByte e.tx, address := s.poolAddress p.segment p.offset,
          write := true, enables := 0xFF,
          data := (closingHeader (BitVec.ofNat 16 p.length) p.sequence tag (p.flags ||| flagDamaged)).word })) := by
  have hw := h.sameWork_failed (laneByte n) (BitVec.ofNat 16 ((s.lane n).errors + 1))
  have hend := State.laneEnded_error (r := r) (rest := rest) (Lane.serving_of_opened hp.opened) (by simp [hr]) ht
  have howner := State.requestEnded_bodyWrite (s := s.ended rest) hr .error
  have hheld := (hw.heldOf n .put).trans hp.putHeld
  refine ⟨fun hleft hk => ?_, fun hleft => ?_, fun tag p hleft hk hopen => ?_⟩
  · subst hleft
    refine event_response_put h hw (howner.trans ?_) rfl hp.clear (by simp [hp.opened]) hp.closing
    exact (State.bodyWriteEnded_last_error hend (by exact hp.line) hs).trans (State.bodyDone_body hk hheld (by exact hp.line) hd _)
  · exact event_response_lane h hw (howner.trans (State.bodyWriteEnded_left_error hend (by exact hp.line) hs hleft))
  · subst hleft
    refine event_response_request h hw (howner.trans ?_)
    refine (State.bodyWriteEnded_last_error hend (by exact hp.line) hs).trans ?_
    rw [Lane.damage_some (p := p), State.bodyDone_final hk (by simp [hp.opened]) rfl (by exact hp.line),
      State.poolAddress_congr hw.pool]
    · rfl
    · exact hopen

/-- A body write of an OPEN lane ends in failure at the fault threshold, and others of its put are left. -/
theorem bodyWriteEnd_faults {es : List PutEntry} (h : s.Ends r rest) (hr : r.owner = .bodyWrite n)
    (ho : (s.lane n).state = .opened) (hb : (s.lane n).busy = .clear) (hc : s.cmd.work ≠ .closing n)
    (hl : (s.lane n).putLine = e :: es) (hs : e.stage = .writingBody left failed) (hleft : 1 < left)
    (hes : ∀ x ∈ es, x.stage = .waiting) (hput : s.heldOf n .put = none)
    (htake : ∀ h, s.heldOf n .take = some h → h.kind = .parcel)
    (ht : (s.lane n).errors + 1 = (s.lane n).desc.faultThreshold) :
    exec (.bodyWriteEnd .error) s =
      .next ((((s.endedFaulting r rest n .memoryErrors).answerGone n es
        ((s.lane n).takeLine.filter fun x => x.stage == .waiting)).unhold n .take).setLane n
        { s.lane n with
          errors := (s.lane n).errors + 1
          state := .faulted
          cause := .memoryErrors
          openParcel := (s.lane n).openParcel.map fun p => { p with flags := p.flags ||| flagDamaged }
          putLine := [{ e with stage := .writingBody (left - 1) true }]
          takeLine := (s.lane n).takeLine.filter fun x => x.stage != .waiting }) := by
  obtain ⟨hwait, hstay⟩ := filter_puts_behind (e := e) (by simp [hs]) hes
  have hend := State.laneEnded_faults h (Lane.serving_of_opened ho) (.inr ⟨by simp [hr], ht, rfl⟩)
    (State.leavesQuietly_of_none hput) (State.takeLeavesQuietly_of_parcel hput htake)
  have hw := (h.sameWork_faulting n .memoryErrors).trans (State.sameWork_answerGone _ n es
    ((s.lane n).takeLine.filter fun x => x.stage == .waiting))
  rw [hl, hwait, hstay, TakeEntry.filter_waiting, State.unhold_none ((hw.heldOf n .put).trans hput)] at hend
  have howner := State.requestEnded_bodyWrite (s := s.ended rest) hr .error
  refine event_response_noops (ts := [.laneTests n]) h
    (howner.trans (State.bodyWriteEnded_left_error hend rfl hs hleft)) hw.todo ?_ (by simp)
    ((hw.calm h.calm.begin).congr rfl rfl rfl)
  simp only [List.mem_singleton, forall_eq]
  refine State.laneTests_quiet ?_ ?_ ?_
  · rw [State.lane_setLane_same]; exact hb
  · rw [State.lane_setLane_same]; simp
  · exact fun hx => hc ((congrArg CommandUnit.work hw.cmd).symm.trans hx)

end BodyWriteEnd

end Sys2Proof.Machine

namespace Sys2Proof.Machine

variable {s t u v V : State} {n : LaneNo} {l : Lane} {e : PutEntry} {r : MemRequest} {rest : List Outstanding}

/-! ## The end of a body write on a FAULTED lane -/

/-- The last body write of a put of a FAULTED lane ends (R54). -/
theorem bodyWriteEnd_onFaulted {failed : Bool} (h : s.Ends r rest) (hr : r.owner = .bodyWrite n)
    (hst : (s.lane n).state = .faulted) (hb : (s.lane n).busy = .clear) (hc : s.cmd.work ≠ .closing n)
    (hl : (s.lane n).putLine = [e]) (hput : s.heldOf n .put = none) (hs : e.stage = .writingBody 1 failed)
    (hd : e.tx.direction = .write) :
    let l := s.lane n
    (∀ d, e.kind = .body → exec (.bodyWriteEnd (.ok d)) s =
      .next (((s.ended rest).setLane n { l with putLine := [] }).answer e.tx.tag failed 0)) ∧
    (∀ d tag, e.kind = .final tag → exec (.bodyWriteEnd (.ok d)) s =
      .next (((s.ended rest).setLane n { l with putLine := [] }).answer e.tx.tag true 0)) ∧
    ((∀ hold o, e.kind ≠ .capture hold o) → exec (.bodyWriteEnd .error) s =
      .next (((s.endedFailed r rest (laneByte n) (BitVec.ofNat 16 l.errors)).setLane n
        { l with
          openParcel := l.openParcel.map fun p => { p with flags := p.flags ||| flagDamaged }
          putLine := [] }).answer e.tx.tag true 0)) := by
  have hserving : (s.lane n).serving = false := Lane.serving_of_faulted hst
  have hnd : (s.lane n).state ≠ .draining := by simp [hst]
  have hok : ∀ d, _ := fun d => State.laneEnded_ok_faulted (r := r) (rest := rest) hserving d
  have howner := State.requestEnded_bodyWrite (s := s.ended rest) hr
  have hheld : (s.ended rest).heldOf n .put = none := hput
  refine ⟨fun d hk => ?_, fun d tag hk => ?_, fun hk => ?_⟩
  · refine event_response_put h h.sameWork ((howner _).trans ?_) rfl hb hnd hc
    exact (State.bodyWriteEnded_last_ok (hok d) hl hs).trans (State.bodyDone_body hk hheld hl hd _)
  · refine event_response_put h h.sameWork ((howner _).trans ?_) rfl hb hnd hc
    exact (State.bodyWriteEnded_last_ok (hok d) hl hs).trans (State.bodyDone_faulted hk hst hheld hl hd _)
  · have hw := h.sameWork_failed (laneByte n) (BitVec.ofNat 16 (s.lane n).errors)
    have hheld' := (hw.heldOf n .put).trans hput
    refine event_response_put h hw ((howner _).trans ?_) rfl hb hnd hc
    refine (State.bodyWriteEnded_last_error (State.laneEnded_error_faulted h hserving) hl hs).trans ?_
    cases hkind : e.kind with
    | capture hold o => exact absurd hkind (hk hold o)
    | body => exact State.bodyDone_body hkind hheld' (by exact hl) hd _
    | final tag => exact State.bodyDone_faulted hkind (by exact hst) hheld' (by exact hl) hd _

/-! ## The end of a body write under CLOSE LANE -/

/-- A body put ends on a lane that CLOSE LANE drains: the open parcel is cut in the same event (R4). -/
theorem event_response_cut {m : MemResponse} {tag : Tag} {error : Bool} {p : OpenParcel} (h : s.Ends r rest)
    (hV : s.begin.SameWork V) (hb : (s.ended rest).requestEnded r (outcomeOf m)
      = ((V.setLane n l).answer tag error 0).schedule [.laneTests n, .evalPut n])
    (hl : l.putLine = []) (hbusy : l.busy = .clear) (hs : l.state = .draining) (hw : s.cmd.work = .closing n)
    (hp : l.openParcel = some p) (hc : l.cutting = false) :
    event (fun s => s.memoryResponse m) s = .next (((V.setLane n { l with
        tailOffset := roundUp8 l.tailOffset, cutting := true }).request
      (wordRequest (.headerWrite n) 0xFF (s.poolAddress p.segment p.offset) true
        (closingHeader (BitVec.ofNat 16 p.length) p.sequence 0xFF (p.flags ||| flagCut)).word)).answer tag error 0) := by
  have hlane : ((V.setLane n l).answer tag error 0).lane n = l := State.lane_setLane_same V n l
  have ht : ((V.setLane n l).answer tag error 0).todo = [] := hV.todo
  have hwork : ((V.setLane n l).answer tag error 0).cmd.work = .closing n := by
    show V.cmd.work = _
    rw [hV.cmd]
    exact hw
  have hcut := State.laneTests_cuts (p := p) (by rw [hlane]; exact hbusy) (by rw [hlane]; exact hs) hwork
    (by rw [hlane]; exact hp) (by rw [hlane]; simp [Lane.putInFlight, hl]) (by rw [hlane]; exact hc)
  rw [hlane, ← State.answer_setLane, State.setLane_setLane, State.poolAddress_congr (s := s) (t := (V.setLane n l).answer tag error 0) hV.pool] at hcut
  refine event_response h hb ht rfl (State.Does.step hcut ?_ (State.Does.noops ?_ ?_)) (by simp) ?_
  · exact ht
  · exact ht
  · intro x hx
    simp only [List.mem_singleton] at hx
    subst hx
    refine State.evalPut_nil ?_
    show ((V.setLane n _).lane n).putLine = []
    rw [State.lane_setLane_same]
    exact hl
  · exact (hV.calm h.calm.begin).congr rfl rfl rfl

/-- The last body write of a body put ends on a lane that CLOSE LANE drains. -/
theorem bodyWriteEnd_onClosing {failed : Bool} {p : OpenParcel} (h : s.Ends r rest) (hr : r.owner = .bodyWrite n)
    (hst : (s.lane n).state = .draining) (hb : (s.lane n).busy = .clear) (hc : s.cmd.work = .closing n)
    (hcut : (s.lane n).cutting = false) (hl : (s.lane n).putLine = [e]) (hput : s.heldOf n .put = none)
    (hs : e.stage = .writingBody 1 failed) (hk : e.kind = .body) (hd : e.tx.direction = .write)
    (hp : (s.lane n).openParcel = some p) :
    let l := s.lane n
    let cut (flags : Byte) (u : State) (errors : Nat) : State :=
      (u.setLane n { l with
        errors := errors, putLine := [], openParcel := some { p with flags := flags }
        tailOffset := roundUp8 l.tailOffset, cutting := true }).request
      (wordRequest (.headerWrite n) 0xFF (s.poolAddress p.segment p.offset) true
        (closingHeader (BitVec.ofNat 16 p.length) p.sequence 0xFF (flags ||| flagCut)).word)
    (∀ d, exec (.bodyWriteEnd (.ok d)) s = .next ((cut p.flags (s.ended rest) 0).answer e.tx.tag failed 0)) ∧
    (l.errors + 1 ≠ l.desc.faultThreshold → exec (.bodyWriteEnd .error) s =
      .next ((cut (p.flags ||| flagDamaged) (s.endedFailed r rest (laneByte n) (BitVec.ofNat 16 (l.errors + 1)))
        (l.errors + 1)).answer e.tx.tag true 0)) ∧
    (l.errors + 1 = l.desc.faultThreshold → s.cmd.autoload = none → s.hold.waiter = none →
      (∀ h, s.heldOf n .take = some h → h.kind = .parcel) →
      exec (.bodyWriteEnd .error) s =
        .next { (((((s.endedFaulting r rest n .memoryErrors).answerGone n []
          (l.takeLine.filter fun x => x.stage == .waiting)).unhold n .take).setLane n
            { l with
              errors := l.errors + 1
              state := .faulted
              cause := .memoryErrors
              openParcel := l.openParcel.map fun p => { p with flags := p.flags ||| flagDamaged }
              putLine := []
              takeLine := l.takeLine.filter fun x => x.stage != .waiting }).answer e.tx.tag true 0).completeCommand
                2 0 0 with todo := [] }) := by
  have hserving : (s.lane n).serving = true := Lane.serving_of_draining hst
  have howner := State.requestEnded_bodyWrite (s := s.ended rest) hr
  have hheld : (s.ended rest).heldOf n .put = none := hput
  refine ⟨fun d => ?_, fun ht => ?_, fun ht hauto hwaiter htake => ?_⟩
  · have hself : ({ s.lane n with errors := 0 } : Lane) = { s.lane n with errors := 0, openParcel := some p } := by
      rw [← hp]
    have hend := State.laneEnded_ok (r := r) (rest := rest) hserving d
    rw [hself] at hend
    refine event_response_cut (p := p) (l := { s.lane n with errors := 0, putLine := [], openParcel := some p })
      h h.sameWork ((howner _).trans ?_) rfl hb hst hc rfl hcut
    exact (State.bodyWriteEnded_last_ok hend hl hs).trans (State.bodyDone_body hk hheld (by exact hl) hd _)
  · have hw := h.sameWork_failed (laneByte n) (BitVec.ofNat 16 ((s.lane n).errors + 1))
    refine event_response_cut (p := { p with flags := p.flags ||| flagDamaged })
      (l := { s.lane n with
        errors := (s.lane n).errors + 1, putLine := []
        openParcel := some { p with flags := p.flags ||| flagDamaged } }) h hw ((howner _).trans ?_)
      rfl hb hst hc rfl hcut
    refine (State.bodyWriteEnded_last_error (State.laneEnded_error hserving (by simp [hr]) ht) hl hs).trans ?_
    rw [Lane.damage_some (p := p)]
    · exact State.bodyDone_body hk ((hw.heldOf n .put).trans hput) (by exact hl) hd _
    · exact hp
  · obtain ⟨hwait, hstay⟩ := filter_puts_behind (e := e) (es := []) (by simp [hs]) (by simp)
    have hw := (h.sameWork_faulting n .memoryErrors).trans (State.sameWork_answerGone _ n []
      ((s.lane n).takeLine.filter fun x => x.stage == .waiting))
    have hheld' := (hw.heldOf n .put).trans hput
    have hend := State.laneEnded_faults h hserving (.inr ⟨by simp [hr], ht, rfl⟩)
      (State.leavesQuietly_of_none hput) (State.takeLeavesQuietly_of_parcel hput htake)
    rw [hl, hwait, hstay, TakeEntry.filter_waiting, State.unhold_none hheld'] at hend
    let T : State := (((((s.endedFaulting r rest n .memoryErrors).answerGone n []
      ((s.lane n).takeLine.filter fun x => x.stage == .waiting)).unhold n .take).setLane n
        { s.lane n with
          errors := (s.lane n).errors + 1
          state := .faulted
          cause := .memoryErrors
          openParcel := (s.lane n).openParcel.map fun p => { p with flags := p.flags ||| flagDamaged }
          putLine := []
          takeLine := (s.lane n).takeLine.filter TakeEntry.inFlight }).answer e.tx.tag true 0)
    have hT : T.lane n = _ := State.lane_setLane_same _ n _
    have hbody := (State.bodyWriteEnded_body_error hend rfl hs hk (State.heldOf_unhold_none _ hheld') hd).trans
      (State.schedule_schedule T [.laneTests n] [.laneTests n, .evalPut n])
    refine event_response_completes (t := T) (outcome := outcomeDone) h ((howner _).trans hbody) ?_ hw.todo hw.todo
      ((congrArg HoldUnit.waiter hw.hold).trans hwaiter) hw.rst hw.presented
      (State.leavePut_noops_completed ?_ ?_ ?_ _ _ _) (by simp)
    · exact State.laneTests_completes (by rw [hT]; exact hb) ((congrArg CommandUnit.work hw.cmd).trans hc)
        (State.cutTest_of_state (by rw [hT]; simp)) (State.drainTest_of_state (by rw [hT]; simp))
        (by rw [hT]; rfl) (by rw [hT]; exact hcut)
    all_goals rw [hT]
    · exact hb
    · simp

end Sys2Proof.Machine

namespace Sys2Proof.Machine

variable {s t u v V : State} {n : LaneNo} {l : Lane} {e : PutEntry} {r : MemRequest} {rest : List Outstanding}

/-! ## The end of a body write under FLUSH LANE and RESET LANE -/

/-- No discard leaves a lane DRAINING (R8). -/
theorem Lane.discard_not_draining (l : Lane) : l.discard.state ≠ .draining := by
  unfold Lane.discard
  dsimp only
  split <;> simp_all

theorem State.laneTests_busy (h : (s.lane n).busy ≠ .clear) : s.laneTests n = s.discardTest n := by
  unfold State.laneTests; exact if_pos h

/-- The lane's context after the discard of FLUSH LANE or RESET LANE, with its segments back in the pool. -/
def State.discarded (s : State) (n : LaneNo) (l : Lane) : State := (s.setLane n l.discard).pushSegments l.chain

section Discards

variable {m : MemResponse} {tag : Tag} {error : Bool} {ts : List Task}
  (h : s.Ends r rest) (hV : s.begin.SameWork V)
  (hb : (s.ended rest).requestEnded r (outcomeOf m)
    = ((V.setLane n l).answer tag error 0).schedule (.laneTests n :: ts))
  (hts : ∀ y ∈ ts, y = .laneTests n ∨ y = .evalPut n) (hlen : ts.length ≤ 4094)
  (hp : l.putLine = []) (ht : l.takeLine = []) (hc : l.cutting = false) (hbusy : l.busy ≠ .clear)
  (hw : s.cmd.work = .emptying n) (hheld : s.hold.held = []) (hwaiter : s.hold.waiter = none)

include h hV hb hts hlen hp ht hc hbusy hw hheld hwaiter

/-- The put in flight ends: the lane's contents are discarded behind its answer, and the command ends (R136). -/
theorem event_response_discards (hd : ¬ (l.busy = .flush ∧ l.state = .draining)) :
    event (fun s => s.memoryResponse m) s =
      .next { ((V.answer tag error 0).discarded n l).completeCommand outcomeDone 0 0 with todo := [] } := by
  have hl : ((V.setLane n l).answer tag error 0).lane n = l := State.lane_setLane_same V n l
  have hdone := State.discardTest_quiet (s := (V.setLane n l).answer tag error 0) (n := n) (by rw [hl]; exact hbusy)
    (by rw [hl]; exact Lane.idle_of_nil hp ht hc) ((congrArg CommandUnit.work hV.cmd).trans hw)
    ((congrArg HoldUnit.held hV.hold).trans hheld) (by rw [hl]; exact hd)
  rw [hl, State.answer_setLane, State.setLane_setLane] at hdone
  have hlane : ((V.answer tag error 0).discarded n l).lane n = l.discard := State.lane_setLane_same _ n _
  refine event_response_completes h hb ((State.laneTests_busy (by rw [hl]; exact hbusy)).trans hdone) hV.todo hV.todo
    ((congrArg HoldUnit.waiter hV.hold).trans hwaiter) hV.rst hV.presented (fun y hy => ?_) hlen
  refine State.leavePut_noops_completed (n := n) ?_ ?_ ?_ _ _ _ y (by simpa using hts y hy)
  · exact (congrArg Lane.busy hlane).trans rfl
  · exact fun hx => l.discard_not_draining ((congrArg Lane.state hlane).symm.trans hx)
  · exact (congrArg Lane.putLine hlane).trans hp

/-- So it is on a DRAINING lane that FLUSH LANE empties, with LANE_CLOSED (R8). -/
theorem event_response_discards_closes (hd : l.busy = .flush ∧ l.state = .draining) :
    event (fun s => s.memoryResponse m) s =
      .next { (((V.answer tag error 0).discarded n l).produce (laneClosedNotice n)).completeCommand outcomeDone 0 0 with
        todo := [] } := by
  have hl : ((V.setLane n l).answer tag error 0).lane n = l := State.lane_setLane_same V n l
  have hdone := State.discardTest_closes (s := (V.setLane n l).answer tag error 0) (n := n) (by rw [hl]; exact hbusy)
    (by rw [hl]; exact Lane.idle_of_nil hp ht hc) ((congrArg CommandUnit.work hV.cmd).trans hw)
    ((congrArg HoldUnit.held hV.hold).trans hheld) (by rw [hl]; exact hd)
  rw [hl, State.answer_setLane, State.setLane_setLane] at hdone
  have hlane : (((V.answer tag error 0).discarded n l).produce (laneClosedNotice n)).lane n = l.discard :=
    (State.produce_lane _ _ n).trans (State.lane_setLane_same _ n _)
  have hsame := State.sameWork_produce ((V.answer tag error 0).discarded n l) (laneClosedNotice n)
  refine event_response_completes h hb ((State.laneTests_busy (by rw [hl]; exact hbusy)).trans hdone) hV.todo
    (hsame.todo.trans hV.todo) ((congrArg HoldUnit.waiter (hsame.hold.trans hV.hold)).trans hwaiter)
    (hsame.rst.trans hV.rst) (hsame.presented.trans hV.presented) (fun y hy => ?_) hlen
  refine State.leavePut_noops_completed (n := n) ?_ ?_ ?_ _ _ _ y (by simpa using hts y hy)
  · exact (congrArg Lane.busy hlane).trans rfl
  · exact fun hx => l.discard_not_draining ((congrArg Lane.state hlane).symm.trans hx)
  · exact (congrArg Lane.putLine hlane).trans hp

end Discards

/-- The last body write of a body put ends on a lane that FLUSH LANE or RESET LANE empties. -/
theorem bodyWriteEnd_onEmptying {failed : Bool} (h : s.Ends r rest) (hr : r.owner = .bodyWrite n)
    (hst : (s.lane n).state = .opened ∨ (s.lane n).state = .draining) (hw : s.cmd.work = .emptying n)
    (hwaiter : s.hold.waiter = none) (hheld : s.hold.held = []) (hc : (s.lane n).cutting = false)
    (hl : (s.lane n).putLine = [e]) (ht : (s.lane n).takeLine = []) (hs : e.stage = .writingBody 1 failed)
    (hk : e.kind = .body) (hd : e.tx.direction = .write) :
    let l := s.lane n
    let emptied : Lane := { l with
      busy := .clear, chain := [], headOffset := 0, tailOffset := 0, ready := 0, openParcel := none, cache := none,
      takeSeq := l.putSeq, armed := true, putLine := [] }
    let gap := l.gap || l.ready != 0 || l.openParcel.isSome
    let done (u : State) (lane : Lane) : State := (u.setLane n lane).pushSegments l.chain
    (∀ d,
      let u := (s.ended rest).answer e.tx.tag failed 0
      (l.busy = .reset → exec (.bodyWriteEnd (.ok d)) s = .next { (done u
        { emptied with state := .closed, gap := false, errors := 0, cause := .none }).completeCommand 2 0 0 with
          todo := [] }) ∧
      (l.busy = .flush → l.state = .opened → exec (.bodyWriteEnd (.ok d)) s = .next { (done u
        { emptied with gap := gap, errors := 0 }).completeCommand 2 0 0 with todo := [] }) ∧
      (l.busy = .flush → l.state = .draining → exec (.bodyWriteEnd (.ok d)) s = .next { ((done u
        { emptied with state := .closed, gap := gap, errors := 0 }).produce (laneClosedNotice n)).completeCommand
          2 0 0 with todo := [] })) ∧
    (l.busy = .flush → l.errors + 1 = l.desc.faultThreshold → exec (.bodyWriteEnd .error) s =
      .next { (done ((s.endedFaulting r rest n .memoryErrors).answer e.tx.tag true 0)
        { emptied with state := .faulted, cause := .memoryErrors, gap := gap, errors := l.errors + 1 }).completeCommand
          2 0 0 with todo := [] }) := by
  have hserving : (s.lane n).serving = true := by
    rcases hst with h | h
    · exact Lane.serving_of_opened h
    · exact Lane.serving_of_draining h
  have howner := State.requestEnded_bodyWrite (s := s.ended rest) hr
  have hnone : ∀ line, s.heldOf n line = none := fun line => by simp [State.heldOf, hheld]
  refine ⟨fun d => ?_, fun hb hthreshold => ?_⟩
  · have hput : (s.ended rest).heldOf n .put = none := hnone .put
    have hbody := (howner _).trans ((State.bodyWriteEnded_last_ok (State.laneEnded_ok hserving d) hl hs).trans
      (State.bodyDone_body hk hput (by exact hl) hd _))
    let ended : Lane := { s.lane n with errors := 0, putLine := [] }
    have hts : ∀ y ∈ [Task.evalPut n], y = .laneTests n ∨ y = .evalPut n := by simp
    refine ⟨fun hb => ?_, fun hb hopen => ?_, fun hb hdr => ?_⟩
    · refine (event_response_discards (m := .ok d) (l := ended) h h.sameWork hbody hts (by simp) rfl ht hc
        (by simp [ended, hb]) hw hheld hwaiter (by simp [ended, hb])).trans ?_
      unfold State.discarded
      rw [Lane.discard_reset (by exact hb)]
      rfl
    · refine (event_response_discards (m := .ok d) (l := ended) h h.sameWork hbody hts (by simp) rfl ht hc
        (by simp [ended, hb]) hw hheld hwaiter (by simp [ended, hopen])).trans ?_
      unfold State.discarded
      rw [Lane.discard_flush (by exact hb), if_neg (by simp [ended, hopen])]
      rfl
    · refine (event_response_discards_closes (m := .ok d) (l := ended) h h.sameWork hbody hts (by simp) rfl ht hc
        (by simp [ended, hb]) hw hheld hwaiter ⟨hb, hdr⟩).trans ?_
      unfold State.discarded
      rw [Lane.discard_flush (by exact hb), if_pos (by exact hdr)]
      rfl
  · obtain ⟨hwait, hstay⟩ := filter_puts_behind (e := e) (es := []) (by simp [hs]) (by simp)
    have hV := h.sameWork_faulting n .memoryErrors
    have hend := State.laneEnded_faults h hserving (.inr ⟨by simp [hr], hthreshold, rfl⟩)
      (State.leavesQuietly_of_none (hnone _)) (State.takeLeavesQuietly_of_parcel (hnone _) (by simp [hnone]))
    rw [hl, hwait, hstay, ht, List.filter_nil, List.filter_nil, State.answerGone_nil,
      State.unhold_none ((hV.heldOf n .put).trans (hnone _)),
      State.unhold_none ((hV.heldOf n .take).trans (hnone _))] at hend
    let faulted : Lane := { s.lane n with
      errors := (s.lane n).errors + 1, state := .faulted, cause := .memoryErrors, putLine := [], takeLine := []
      openParcel := (s.lane n).openParcel.map fun p => { p with flags := p.flags ||| flagDamaged } }
    let T : State := ((s.endedFaulting r rest n .memoryErrors).setLane n faulted).answer e.tx.tag true 0
    have hbody := (howner _).trans ((State.bodyWriteEnded_body_error hend rfl hs hk
      ((hV.heldOf n .put).trans (hnone _)) hd).trans
        (State.schedule_schedule T [.laneTests n] [.laneTests n, .evalPut n]))
    refine (event_response_discards (m := .error) (l := faulted) (tag := e.tx.tag) (error := true)
      (ts := [.laneTests n, .evalPut n]) h hV hbody (by simp) (by simp) rfl rfl hc (by simp [faulted, hb]) hw hheld
      hwaiter (by simp [faulted])).trans ?_
    unfold State.discarded
    rw [Lane.discard_flush (by exact hb), if_neg (by simp)]
    simp only [faulted, Lane.emptied, Option.isSome_map, ht]
    rfl

/-- Settles O48. -/
theorem bodyWriteEndCompletes : Obligations.BodyWriteEndCompletes := by
  refine ⟨fun s r rest n e left failed h hr hp hs hd => ?_,
    fun s r rest n e es left failed h hr ho hb hc hl hs hleft hes hput htake ht => ?_,
    fun s r rest n e failed h hr hst hb hc hl hput hs hd => bodyWriteEnd_onFaulted h hr hst hb hc hl hput hs hd,
    fun s r rest n e failed p h hr hst hb hc hcut hl hput hs hk hd hp => ?_,
    fun s r rest n e failed h hr hst hw ha hwaiter hheld hc hl ht hs hk hd => ?_⟩
  · have hok := bodyWriteEnd_ok h hr hp hs hd
    have herror := bodyWriteEnd_error h hr hp hs hd
    exact ⟨fun d => (hok d).1, fun d => (hok d).2.1, fun d => (hok d).2.2, fun h1 hk ht => (herror ht).1 h1 hk,
      fun h1 ht => (herror ht).2.1 h1, fun tag p h1 hk hp ht => (herror ht).2.2 tag p h1 hk hp⟩
  · refine (bodyWriteEnd_faults h hr ho hb hc hl hs hleft hes hput htake ht).trans ?_
    unfold State.endedFaulting laneFaultedNotice
    rw [hr]
    rfl
  · obtain ⟨hok, hbelow, hfault⟩ := bodyWriteEnd_onClosing h hr hst hb hc hcut hl hput hs hk hd hp
    refine ⟨hok, hbelow, fun ht ha hw htake => (hfault ht ha hw htake).trans ?_⟩
    unfold State.endedFaulting laneFaultedNotice
    rw [hr, hp]
    rfl
  · obtain ⟨hok, hfault⟩ := bodyWriteEnd_onEmptying h hr hst hw hwaiter hheld hc hl ht hs hk hd
    refine ⟨hok, fun hb ht => (hfault hb ht).trans ?_⟩
    unfold State.endedFaulting laneFaultedNotice
    rw [hr]
    rfl

end Sys2Proof.Machine

namespace Sys2Proof.Machine

variable {s t u v V : State} {n : LaneNo} {l : Lane} {e : PutEntry} {r : MemRequest} {rest : List Outstanding}

/-! ## A parcel becomes ready (R13, R56) -/

theorem State.requestEnded_headerWrite (h : r.owner = .headerWrite n) (o : MemOutcome) :
    s.requestEnded r o = (s.countFailure o).headerWriteEnded n r o := by
  unfold State.requestEnded; rw [h]

theorem State.requestEnded_captureWrite (h : r.owner = .captureWrite n) (o : MemOutcome) :
    s.requestEnded r o = (s.countFailure o).captureWriteEnded n r o := by
  unfold State.requestEnded; rw [h]

/-- The block with PARCEL_READY noticed, if it is due, for the open parcel `p` of a lane `l`. -/
def State.readyNoticed (s : State) (n : LaneNo) (l : Lane) (p : OpenParcel) (master : Byte) : State :=
  if l.makeReady.2 then
    s.produce (parcelReadyNotice n master l.makeReady.1.ready p.sequence (s.poolAddress p.segment p.offset))
  else s

theorem State.sameWork_readyNoticed (s : State) (n : LaneNo) (l : Lane) (p : OpenParcel) (master : Byte) :
    s.SameWork (s.readyNoticed n l p master) := by
  unfold State.readyNoticed
  split
  · exact s.sameWork_produce _
  · exact .refl s

/-- The open parcel of a lane with no held take becomes ready. -/
theorem State.parcelReady_setLane {p : OpenParcel} (hp : l.openParcel = some p) (ht : s.heldOf n .take = none)
    (master : Byte) :
    (s.setLane n l).parcelReady n master = (s.readyNoticed n l p master).setLane n l.makeReady.1 := by
  have hslot : (s.setLane n l).openSlot n = s.poolAddress p.segment p.offset := by
    unfold State.openSlot; rw [State.lane_setLane_same, hp]; rfl
  have hwake : ∀ u : State, u.hold = s.hold → u.wake (fun x => x.lane == n && x.line == .take) = u := by
    intro u hu
    refine State.wake_none fun x hx => ?_
    unfold State.heldOf at ht
    rw [List.find?_eq_none] at ht
    simpa using ht x (hu ▸ hx)
  unfold State.parcelReady
  rw [State.lane_setLane_same, hp]
  dsimp only
  rw [hslot, State.setLane_setLane]
  unfold State.readyNoticed
  split
  · rw [State.produce_setLane]
    exact hwake _ (by simp)
  · exact hwake _ rfl

/-! ## A put leaves its line -/

/-- The only entry of a put line leaves a lane that no test applies to. -/
theorem event_response_leaves {m : MemResponse} {ts : List Task} (h : s.Ends r rest) (hV : s.begin.SameWork V)
    (hb : (s.ended rest).requestEnded r (outcomeOf m) = (V.setLane n l).schedule ts)
    (hts : ∀ y ∈ ts, y = .laneTests n ∨ y = .evalPut n) (hlen : ts.length ≤ 4096)
    (hp : l.putLine = []) (hbusy : l.busy = .clear) (hs : l.state ≠ .draining) (hw : s.cmd.work ≠ .closing n) :
    event (fun s => s.memoryResponse m) s = .next (V.setLane n l) := by
  have hl : (V.setLane n l).lane n = l := State.lane_setLane_same V n l
  refine event_response_noops h hb hV.todo ?_ hlen ((hV.calm h.calm.begin).congr rfl rfl rfl)
  intro y hy
  rcases hts y hy with rfl | rfl
  · refine State.laneTests_quiet (by rw [hl]; exact hbusy) (by rw [hl]; exact hs) ?_
    show V.cmd.work ≠ _
    rw [hV.cmd]
    exact hw
  · exact State.evalPut_nil (by rw [hl]; exact hp)

theorem State.sameWork_answer (s : State) (tag : Tag) (error : Bool) (d : Word) : s.SameWork (s.answer tag error d) :=
  ⟨rfl, rfl, rfl, rfl, rfl, rfl, rfl, rfl⟩

theorem State.sameWork_capturePlaced (s : State) (n : LaneNo) (e : PutEntry) : s.SameWork (s.capturePlaced n e) := by
  constructor <;> simp

theorem State.sameWork_answerOutcome (s : State) (x : Transaction) (o : MemOutcome) :
    s.SameWork (s.answerOutcome x o) := by
  constructor <;> simp

theorem State.sameWork_discardCapture (s : State) (n : LaneNo) (e : PutEntry) (o : MemOutcome) :
    s.SameWork (s.discardCapture n e o) := by
  constructor <;> simp

/-! ## Captures that are withdrawn (R114) -/

theorem State.produce_schedule (x : Notice) (ts : List Task) : (s.schedule ts).produce x = (s.produce x).schedule ts := by
  simp only [State.produce_eq]; rfl

theorem State.discardCapture_schedule (m : LaneNo) (o : MemOutcome) (ts : List Task) :
    (s.schedule ts).discardCapture m e o = (s.discardCapture m e o).schedule ts := by
  have hlost : (s.schedule ts).captureLost m e = (s.captureLost m e).schedule ts := by
    unfold State.captureLost
    dsimp only
    rw [State.schedule_dec]
    split
    · rfl
    · exact State.produce_schedule (s := { s with dec := _ }) _ ts
  unfold State.discardCapture
  rw [hlost]
  cases o with
  | ok d =>
    unfold State.answerOutcome State.answerOk
    cases e.tx.direction <;> rfl
  | error => rfl
  | timeout => rfl

theorem State.pushSegments_nil (s : State) : s.pushSegments [] = s := by
  simp [State.pushSegments]

theorem Lane.withdraw_putLine (l : Lane) (linked : Bool) : (l.withdraw linked).1.putLine = l.putLine := by
  unfold Lane.withdraw
  split
  · rfl
  · dsimp only
    split
    · rfl
    · split <;> rfl

theorem Lane.withdraw_busy (l : Lane) (linked : Bool) : (l.withdraw linked).1.busy = l.busy := by
  unfold Lane.withdraw
  split
  · rfl
  · dsimp only
    split
    · rfl
    · split <;> rfl

/-- With no ready parcel the whole chain goes back. -/
theorem Lane.withdraw_unready {p : OpenParcel} (hp : l.openParcel = some p) (hr : l.ready = 0) (linked : Bool) :
    l.withdraw linked = ({ l with
      openParcel := none, putSeq := l.putSeq - 1, chain := [], headOffset := 0, tailOffset := 0 }, l.chain) := by
  unfold Lane.withdraw
  rw [hp]
  exact if_pos hr

/-- The segment linked for the capture goes back. -/
theorem Lane.withdraw_linked {p : OpenParcel} {front : List Nat} {x : Nat} (hp : l.openParcel = some p)
    (hr : l.ready ≠ 0) (hc : l.chain = front ++ [x]) (hf : front ≠ []) :
    l.withdraw true = ({ l with
      openParcel := none, putSeq := l.putSeq - 1, chain := front
      tailOffset := if p.segment = x then 512 else p.offset }, [x]) := by
  have hlen : 1 < l.chain.length := by
    have := List.length_pos_iff.mpr hf
    simp only [hc, List.length_append, List.length_singleton]
    omega
  unfold Lane.withdraw
  rw [hp]
  dsimp only
  rw [if_neg hr, if_pos (by simpa using hlen), hc, List.length_append, List.length_singleton,
    Nat.add_sub_cancel, List.take_left, List.drop_left]
  simp only [beq_iff_eq, List.cons.injEq, and_true, eq_comm (a := x)]

/-- No segment goes back. -/
theorem Lane.withdraw_unlinked {p : OpenParcel} (hp : l.openParcel = some p) (hr : l.ready ≠ 0) :
    l.withdraw false = ({ l with openParcel := none, putSeq := l.putSeq - 1, tailOffset := p.offset }, []) := by
  unfold Lane.withdraw
  rw [hp]
  dsimp only
  rw [if_neg hr, if_neg (by simp)]

/-- The block after the only capture of the line of lane `l`, with nobody held, has been withdrawn and lost. -/
def State.withdrawn (s : State) (n : LaneNo) (l : Lane) (segments : List Nat) (e : PutEntry) (o : MemOutcome) : State :=
  ((s.setLane n { l with putLine := [] }).pushSegments segments).discardCapture n e o

theorem State.withdrawn_eq (s : State) (n : LaneNo) (l : Lane) (segments : List Nat) (e : PutEntry) (o : MemOutcome) :
    s.withdrawn n l segments e o = ((s.pushSegments segments).discardCapture n e o).setLane n { l with putLine := [] } := by
  unfold State.withdrawn
  rw [State.pushSegments_setLane, State.discardCapture_setLane]

/-- The only capture of a line is withdrawn, with nobody held. -/
theorem State.withdrawCapture_setLane (hh : s.hold.held = []) (hl : l.putLine = [e]) (o : MemOutcome) :
    (s.setLane n l).withdrawCapture n e o
      = (s.withdrawn n (l.withdraw e.linked).1 (l.withdraw e.linked).2 e o).schedule [.laneTests n, .evalPut n] := by
  have hnone : ((s.pushSegments (l.withdraw e.linked).2).discardCapture n e o).heldOf n .put = none := by
    rw [(State.sameWork_discardCapture _ n e o).heldOf]
    unfold State.heldOf
    rw [show (s.pushSegments (l.withdraw e.linked).2).hold.held = [] from hh]
    rfl
  unfold State.withdrawCapture
  dsimp only
  rw [State.lane_setLane_same, State.setLane_setLane, State.returnSegments_none (by exact hh),
    State.pushSegments_setLane, State.discardCapture_setLane,
    State.leavePut_setLane hnone ((l.withdraw_putLine _).trans hl), State.withdrawn_eq]

/-- The end of a capture's write withdraws it from a lane that no test applies to. -/
theorem event_response_withdraws {m : MemResponse} {o : MemOutcome} {ts : List Task} (h : s.Ends r rest)
    (hV : s.begin.SameWork V)
    (hb : (s.ended rest).requestEnded r (outcomeOf m) = ((V.schedule ts).setLane n l).withdrawCapture n e o)
    (hts : ∀ y ∈ ts, y = .laneTests n) (hlen : ts.length ≤ 4094) (hheld : s.hold.held = [])
    (hp : l.putLine = [e]) (hbusy : l.busy = .clear) (hs : l.state ≠ .draining) (hw : s.cmd.work ≠ .closing n) :
    event (fun s => s.memoryResponse m) s =
      .next (V.withdrawn n (l.withdraw e.linked).1 (l.withdraw e.linked).2 e o) := by
  have hVh : V.hold.held = [] := (congrArg HoldUnit.held hV.hold).trans hheld
  have hsame := State.sameWork_discardCapture (V.pushSegments (l.withdraw e.linked).2) n e o
  let W := (V.pushSegments (l.withdraw e.linked).2).discardCapture n e o
  let lane : Lane := { (l.withdraw e.linked).1 with putLine := [] }
  have hW : V.withdrawn n (l.withdraw e.linked).1 (l.withdraw e.linked).2 e o = W.setLane n lane :=
    State.withdrawn_eq _ _ _ _ _ _
  have hsched : ((V.schedule ts).withdrawn n (l.withdraw e.linked).1 (l.withdraw e.linked).2 e o).schedule
      [.laneTests n, .evalPut n] = (W.setLane n lane).schedule (ts ++ [.laneTests n, .evalPut n]) := by
    rw [← State.schedule_schedule, State.withdrawn_eq, show (V.schedule ts).pushSegments (l.withdraw e.linked).2
      = (V.pushSegments (l.withdraw e.linked).2).schedule ts from rfl, State.discardCapture_schedule]
    rfl
  rw [State.withdrawCapture_setLane (by exact hVh) hp, hsched] at hb
  rw [hW]
  have hwork : W.cmd = s.cmd := hsame.cmd.trans hV.cmd
  refine event_response_noops h hb (hsame.todo.trans hV.todo) ?_ (by simp; omega)
    (h.calm.congr (hsame.rst.trans hV.rst) (hsame.presented.trans hV.presented) (congrArg _ hwork))
  have hl : (W.setLane n lane).lane n = lane := State.lane_setLane_same _ _ _
  have hnoop : ∀ y, y = Task.laneTests n ∨ y = .evalPut n → (W.setLane n lane).doTask y = W.setLane n lane := by
    rintro y (rfl | rfl)
    · refine State.laneTests_quiet (by rw [hl]; exact (l.withdraw_busy _).trans hbusy)
        (by rw [hl]; exact fun hx => hs ((l.withdraw_state _).symm.trans hx)) ?_
      show W.cmd.work ≠ _
      rw [hwork]
      exact hw
    · exact State.evalPut_nil (by rw [hl])
  intro y hy
  rcases List.mem_append.mp hy with hy | hy
  · exact hnoop y (.inl (hts y hy))
  · exact hnoop y (by simpa using hy)

end Sys2Proof.Machine

namespace Sys2Proof.Machine

variable {s t u v V : State} {n : LaneNo} {l : Lane} {e : PutEntry} {r : MemRequest} {rest : List Outstanding}

/-! ## The end of a header write -/

section HeaderWrite

variable {failed : Bool} {tag : Byte} {p : OpenParcel} {o : MemOutcome} {d : Word}

/-- The header write of a cut ended in success. -/
theorem State.headerWriteEnded_cut_ok (hc : (s.lane n).cutting = true) (hend : s.laneEnded n r (.ok d) = V.setLane n l)
    (hp : l.openParcel = some p) (ht : V.heldOf n .take = none) :
    s.headerWriteEnded n r (.ok d) = ((V.readyNoticed n { l with cutting := false } p 0xFF).setLane n
      { l with cutting := false }.makeReady.1).schedule [.laneTests n] := by
  unfold State.headerWriteEnded
  dsimp only
  rw [hc, if_pos rfl, hend]
  unfold State.cutEnded
  dsimp only
  rw [State.updLane_setLane, if_neg (by simp [MemOutcome.failed]), State.parcelReady_setLane (by exact hp) ht]

/-- The header write of a cut ended in failure. -/
theorem State.headerWriteEnded_cut_error (hc : (s.lane n).cutting = true)
    (hend : s.laneEnded n r .error = V.setLane n l) :
    s.headerWriteEnded n r .error = (V.setLane n { l with cutting := false }).schedule [.laneTests n] := by
  unfold State.headerWriteEnded
  dsimp only
  rw [hc, if_pos rfl, hend]
  unfold State.cutEnded
  dsimp only
  rw [State.updLane_setLane, if_pos (show MemOutcome.error.failed = true from rfl)]

variable (hc : (s.lane n).cutting = false) (hl : l.putLine = [e]) (hs : e.stage = .writingHeader failed)

include hc hl hs

/-- The header write of a final put ended in success. -/
theorem State.headerWriteEnded_final_ok (hend : s.laneEnded n r (.ok d) = V.setLane n l) (hk : e.kind = .final tag)
    (hd : e.tx.direction = .write) (hp : l.openParcel = some p) (hput : V.heldOf n .put = none)
    (ht : V.heldOf n .take = none) :
    s.headerWriteEnded n r (.ok d) =
      (((V.readyNoticed n l p (masterByte e.tx)).setLane n { l.makeReady.1 with putLine := [] }).answer e.tx.tag
        failed 0).schedule [.laneTests n, .evalPut n] := by
  have hheld := ((V.sameWork_readyNoticed n l p (masterByte e.tx)).heldOf n .put).trans hput
  unfold State.headerWriteEnded
  dsimp only
  rw [hc, if_neg (by simp), hend, State.lane_setLane_same, hl]
  dsimp only
  rw [hs, hk]
  dsimp only
  rw [if_neg (by simp [MemOutcome.failed]), State.parcelReady_setLane hp ht, State.answerPut_setLane hheld (by exact hl) hd,
    Bool.not_not]

/-- The header write of a final put ended in failure. -/
theorem State.headerWriteEnded_final_error (hend : s.laneEnded n r .error = V.setLane n l) (hk : e.kind = .final tag)
    (hd : e.tx.direction = .write) (hput : V.heldOf n .put = none) :
    s.headerWriteEnded n r .error =
      ((V.setLane n { l with putLine := [] }).answer e.tx.tag true 0).schedule [.laneTests n, .evalPut n] := by
  unfold State.headerWriteEnded
  dsimp only
  rw [hc, if_neg (by simp), hend, State.lane_setLane_same, hl]
  dsimp only
  rw [hs, hk]
  dsimp only
  rw [if_pos (show MemOutcome.error.failed = true from rfl), State.answerPut_setLane hput hl hd]
  rfl

variable {hold : Bool} {outcome : MemOutcome} (hk : e.kind = .capture hold outcome)

include hk

/-- The header write of a capture ended in success: the capture is placed. -/
theorem State.headerWriteEnded_capture_ok (hend : s.laneEnded n r (.ok d) = V.setLane n l)
    (hp : l.openParcel = some p) (hput : V.heldOf n .put = none) (ht : V.heldOf n .take = none) :
    s.headerWriteEnded n r (.ok d) =
      ((((V.readyNoticed n l p (masterByte e.tx)).capturePlaced n e).answerOutcome e.tx outcome).setLane n
        { l.makeReady.1 with putLine := [] }).schedule [.laneTests n, .evalPut n] := by
  have hsame := ((V.sameWork_readyNoticed n l p (masterByte e.tx)).trans (State.sameWork_capturePlaced _ n e)).trans
    (State.sameWork_answerOutcome _ e.tx outcome)
  unfold State.headerWriteEnded
  dsimp only
  rw [hc, if_neg (by simp), hend, State.lane_setLane_same, hl]
  dsimp only
  rw [hs, hk]
  dsimp only
  rw [if_neg (by simp [MemOutcome.failed]), State.parcelReady_setLane hp ht, State.capturePlaced_setLane,
    State.answerOutcome_setLane, State.leavePut_setLane ((hsame.heldOf n .put).trans hput) (by exact hl)]

/-- The header write of a capture ended in failure: the capture is withdrawn. -/
theorem State.headerWriteEnded_capture_error (hend : s.laneEnded n r .error = V.setLane n l) :
    s.headerWriteEnded n r .error = (V.setLane n l).withdrawCapture n e outcome := by
  unfold State.headerWriteEnded
  dsimp only
  rw [hc, if_neg (by simp), hend, State.lane_setLane_same, hl]
  dsimp only
  rw [hs, hk]
  dsimp only
  exact if_pos rfl

end HeaderWrite

/-- A header write of an OPEN lane that no command works on ends a final put. -/
theorem headerWriteEnd_onOpen {tag : Byte} {failed : Bool} {p : OpenParcel} (h : s.Ends r rest)
    (hr : r.owner = .headerWrite n) (hp : s.Puts n e) (hs : e.stage = .writingHeader failed) (hk : e.kind = .final tag)
    (hd : e.tx.direction = .write) (hopen : (s.lane n).openParcel = some p) (hcut : (s.lane n).cutting = false)
    (htake : s.heldOf n .take = none) :
    let l := s.lane n
    let ended : Lane := { l with errors := 0 }
    (∀ d, exec (.headerWriteEnd (.ok d)) s =
      .next ((((s.ended rest).readyNoticed n ended p (masterByte e.tx)).setLane n
        { ended.makeReady.1 with putLine := [] }).answer e.tx.tag failed 0)) ∧
    (l.takeLine = [] → exec (.headerWriteEnd .error) s =
      .next (((s.endedFaulting r rest n .headerWrite).setLane n
        { l with errors := l.errors + 1, state := .faulted, cause := .headerWrite, putLine := [] }).answer e.tx.tag
          true 0)) := by
  have howner := State.requestEnded_headerWrite (s := s.ended rest) hr
  have hserving := Lane.serving_of_opened hp.opened
  refine ⟨fun d => ?_, fun htl => ?_⟩
  · have hbody := (howner (.ok d)).trans (State.headerWriteEnded_final_ok (s := (s.ended rest).countFailure (.ok d))
      (by exact hcut) (by exact hp.line) hs
      (State.laneEnded_ok hserving d) hk hd (by exact hopen) (by exact hp.putHeld) (by exact htake))
    exact event_response_put h (h.sameWork.trans (State.sameWork_readyNoticed _ _ _ _ _)) hbody rfl hp.clear
      (by simp [Lane.makeReady, hp.opened]) hp.closing
  · obtain ⟨hwait, hstay⟩ := filter_puts_behind (e := e) (es := []) (by simp [hs]) (by simp)
    have hV := h.sameWork_faulting n .headerWrite
    have hend := State.laneEnded_faults h hserving (.inl ⟨hr, rfl⟩)
      (State.leavesQuietly_of_none hp.putHeld) (State.takeLeavesQuietly_of_parcel hp.putHeld (by simp [htake]))
    rw [hp.line, hwait, hstay, htl, List.filter_nil, List.filter_nil, State.answerGone_nil,
      State.unhold_none ((hV.heldOf n .put).trans hp.putHeld),
      State.unhold_none ((hV.heldOf n .take).trans htake)] at hend
    have hbody := (howner .error).trans (State.headerWriteEnded_final_error
      (s := (s.ended rest).countFailure .error) (by exact hcut) rfl hs hend hk hd
      ((hV.heldOf n .put).trans hp.putHeld))
    let faulted : Lane := { s.lane n with
      errors := (s.lane n).errors + 1, state := .faulted, cause := .headerWrite, putLine := [], takeLine := [] }
    let T : State := ((s.endedFaulting r rest n .headerWrite).setLane n faulted).answer e.tx.tag true 0
    have hself : ({ s.lane n with
        errors := (s.lane n).errors + 1, state := .faulted, cause := .headerWrite, putLine := [] } : Lane) = faulted := by
      simp only [faulted, ← htl]
    rw [hself]
    refine event_response_leaves (V := (s.endedFaulting r rest n .headerWrite).answer e.tx.tag true 0) (l := faulted)
      (ts := [.laneTests n, .laneTests n, .evalPut n]) h
      (hV.trans (State.sameWork_answer _ _ _ _)) (hbody.trans (State.schedule_schedule T [.laneTests n] [.laneTests n, .evalPut n])) (by simp) (by simp) rfl
      hp.clear (by simp [faulted]) hp.closing

end Sys2Proof.Machine

namespace Sys2Proof.Machine

variable {s t u v V : State} {n : LaneNo} {l : Lane} {e : PutEntry} {r : MemRequest} {rest : List Outstanding}

/-! ## The end of a header write under CLOSE LANE -/

/-- Neither the cut nor drain completion is due: the lane is not DRAINING, or it has a ready parcel and none open. -/
def Lane.Undrained (l : Lane) : Prop := l.state ≠ .draining ∨ l.openParcel = none ∧ l.ready ≠ 0

theorem State.cutTest_undrained (h : (s.lane n).Undrained) : s.cutTest n = s := by
  rcases h with h | ⟨h, -⟩
  · exact State.cutTest_of_state h
  · exact State.cutTest_of_none h

theorem State.drainTest_undrained (h : (s.lane n).Undrained) : s.drainTest n = s := by
  rcases h with h | ⟨-, h⟩
  · exact State.drainTest_of_state h
  · exact State.drainTest_of_ready h

theorem State.laneTests_undrained (hb : (s.lane n).busy = .clear) (h : (s.lane n).Undrained)
    (hw : s.cmd.work ≠ .closing n) : s.laneTests n = s := by
  unfold State.laneTests
  rw [if_neg (by simp [hb]), State.cutTest_undrained h, State.drainTest_undrained h, State.closeTest_of_work hw]

/-- The request's end leaves the lane that CLOSE LANE works on with nothing in its put line: the command ends (R135). -/
theorem event_response_closed {m : MemResponse} {ts : List Task} (h : s.Ends r rest) (hV : s.begin.SameWork V)
    (hb : (s.ended rest).requestEnded r (outcomeOf m) = (V.setLane n l).schedule (.laneTests n :: ts))
    (hts : ∀ y ∈ ts, y = .laneTests n ∨ y = .evalPut n) (hlen : ts.length ≤ 4094) (hp : l.putLine = [])
    (hbusy : l.busy = .clear) (hcut : l.cutting = false) (hun : l.Undrained) (hw : s.cmd.work = .closing n)
    (hwaiter : s.hold.waiter = none) :
    event (fun s => s.memoryResponse m) s = .next { (V.setLane n l).completeCommand 2 0 0 with todo := [] } := by
  have hl : (V.setLane n l).lane n = l := State.lane_setLane_same V n l
  have hdone : (V.setLane n l).laneTests n = (V.setLane n l).completeCommand outcomeDone 0 0 :=
    State.laneTests_completes (by rw [hl]; exact hbusy) ((congrArg CommandUnit.work hV.cmd).trans hw)
      (State.cutTest_undrained (by rw [hl]; exact hun)) (State.drainTest_undrained (by rw [hl]; exact hun))
      (by rw [hl]; simp [Lane.putInFlight, hp]) (by rw [hl]; exact hcut)
  refine event_response_completes (t := V.setLane n l) (outcome := outcomeDone) h hb hdone hV.todo hV.todo
    ((congrArg HoldUnit.waiter hV.hold).trans hwaiter) hV.rst hV.presented (fun y hy => ?_) hlen
  have hlane : State.lane { (V.setLane n l).completeCommand outcomeDone 0 0 with todo := [] } n = l :=
    (State.completeCommand_lane outcomeDone 0 0 n).trans hl
  rcases hts y hy with rfl | rfl
  · refine State.laneTests_undrained (by rw [hlane]; exact hbusy) (by rw [hlane]; exact hun) ?_
    show ((V.setLane n l).completeCommand outcomeDone 0 0).cmd.work ≠ _
    rw [State.completeCommand_work]
    simp
  · exact State.evalPut_nil (by rw [hlane]; exact hp)

/-- A header write ends on a lane that CLOSE LANE drains. -/
theorem headerWriteEnd_onClosing {p : OpenParcel} (h : s.Ends r rest) (hr : r.owner = .headerWrite n)
    (hst : (s.lane n).state = .draining) (hb : (s.lane n).busy = .clear) (hw : s.cmd.work = .closing n)
    (hwaiter : s.hold.waiter = none) (hopen : (s.lane n).openParcel = some p) :
    let l := s.lane n
    let ended : Lane := { l with errors := 0 }
    (∀ d, l.cutting = true → l.putLine = [] → s.heldOf n .take = none →
      exec (.headerWriteEnd (.ok d)) s = .next
        { (((s.ended rest).readyNoticed n { ended with cutting := false } p 0xFF).setLane n
          { ended with cutting := false }.makeReady.1).completeCommand 2 0 0 with todo := [] }) ∧
    (∀ d e tag failed, l.cutting = false → l.putLine = [e] → s.heldOf n .put = none → s.heldOf n .take = none →
      e.stage = .writingHeader failed → e.kind = .final tag → e.tx.direction = .write →
      exec (.headerWriteEnd (.ok d)) s = .next
        { ((((s.ended rest).readyNoticed n ended p (masterByte e.tx)).setLane n
          { ended.makeReady.1 with putLine := [] }).answer e.tx.tag failed 0).completeCommand 2 0 0 with todo := [] }) ∧
    (l.cutting = true → l.putLine = [] → s.heldOf n .put = none →
      (∀ h, s.heldOf n .take = some h → h.kind = .parcel) →
      exec (.headerWriteEnd .error) s = .next
        { ((((s.endedFaulting r rest n .headerWrite).answerGone n []
          (l.takeLine.filter fun x => x.stage == .waiting)).unhold n .take).setLane n
            { l with
              errors := l.errors + 1, state := .faulted, cause := .headerWrite, cutting := false, putLine := []
              takeLine := l.takeLine.filter fun x => x.stage != .waiting }).completeCommand 2 0 0 with todo := [] }) := by
  have howner := State.requestEnded_headerWrite (s := s.ended rest) hr
  have hserving := Lane.serving_of_draining hst
  have hready : ∀ l : Lane, l.makeReady.1.Undrained := fun l => .inr ⟨rfl, Nat.succ_ne_zero _⟩
  refine ⟨fun d hcut hl htake => ?_, fun d e tag failed hcut hl hput htake hs hk hd => ?_,
    fun hcut hl hput htake => ?_⟩
  · have hbody := (howner (.ok d)).trans (State.headerWriteEnded_cut_ok (s := (s.ended rest).countFailure (.ok d))
      (p := p) hcut (State.laneEnded_ok hserving d) hopen htake)
    exact event_response_closed h (h.sameWork.trans (State.sameWork_readyNoticed _ _ _ _ _)) hbody (by simp) (by simp)
      (by exact hl) (by exact hb) rfl (hready _) hw hwaiter
  · have hbody := (howner (.ok d)).trans (State.headerWriteEnded_final_ok (s := (s.ended rest).countFailure (.ok d))
      (by exact hcut) (by exact hl) hs (State.laneEnded_ok hserving d) hk hd (by exact hopen) (by exact hput)
      (by exact htake))
    exact event_response_closed (V := ((s.ended rest).readyNoticed n { s.lane n with errors := 0 } p
      (masterByte e.tx)).answer e.tx.tag failed 0) h
      ((h.sameWork.trans (State.sameWork_readyNoticed _ _ _ _ _)).trans (State.sameWork_answer _ _ _ _)) hbody
      (by simp) (by simp) rfl (by exact hb) (by exact hcut) (.inr ⟨rfl, Nat.succ_ne_zero _⟩) hw hwaiter
  · have hV := (h.sameWork_faulting n .headerWrite).trans (State.sameWork_answerGone _ n []
      ((s.lane n).takeLine.filter fun x => x.stage == .waiting))
    have hend := State.laneEnded_faults h hserving (.inl ⟨hr, rfl⟩)
      (State.leavesQuietly_of_none hput) (State.takeLeavesQuietly_of_parcel hput htake)
    rw [hl, List.filter_nil, List.filter_nil, TakeEntry.filter_waiting,
      State.unhold_none ((hV.heldOf n .put).trans hput)] at hend
    let faulted : Lane := { s.lane n with
      errors := (s.lane n).errors + 1, state := .faulted, cause := .headerWrite, cutting := false, putLine := []
      takeLine := (s.lane n).takeLine.filter TakeEntry.inFlight }
    let W : State := ((s.endedFaulting r rest n .headerWrite).answerGone n []
          ((s.lane n).takeLine.filter fun x => x.stage == .waiting)).unhold n .take
    have hbody := ((howner .error).trans (State.headerWriteEnded_cut_error
      (s := (s.ended rest).countFailure .error) hcut hend)).trans
        (State.schedule_schedule (W.setLane n faulted) [.laneTests n] [.laneTests n])
    have hl' : (W.setLane n faulted).lane n = faulted := State.lane_setLane_same W n faulted
    have hquiet : ∀ y ∈ [Task.laneTests n], State.doTask
        { (W.setLane n faulted).completeCommand outcomeDone 0 0 with todo := [] } y
          = { (W.setLane n faulted).completeCommand outcomeDone 0 0 with todo := [] } := fun y hy =>
      State.leavePut_noops_completed (by rw [hl']; exact hb) (by rw [hl']; simp [faulted]) (by rw [hl']) _ _ _ y
        (List.mem_cons.mpr (.inl (List.mem_singleton.mp hy)))
    refine event_response_completes (t := W.setLane n faulted) (outcome := outcomeDone) h hbody ?_ hV.todo hV.todo
      ((congrArg HoldUnit.waiter hV.hold).trans hwaiter) hV.rst hV.presented hquiet (by simp)
    exact State.laneTests_completes (by rw [hl']; exact hb) ((congrArg CommandUnit.work hV.cmd).trans hw)
      (State.cutTest_of_state (by rw [hl']; simp [faulted])) (State.drainTest_of_state (by rw [hl']; simp [faulted]))
      (by rw [hl']; rfl) (by rw [hl'])

/-! ## The end of a capture's header write in failure -/

/-- The failure of a capture's header write on an OPEN lane, with nobody held (R114, R155). -/
theorem headerWriteEnd_withdraws {es : List PutEntry} {hold failed : Bool} {outcome : MemOutcome} (h : s.Ends r rest)
    (hr : r.owner = .headerWrite n) (ho : (s.lane n).state = .opened)
    (hw : s.cmd.work ≠ .closing n) (hcut : (s.lane n).cutting = false) (hl : (s.lane n).putLine = e :: es)
    (hes : ∀ x ∈ es, x.stage = .waiting) (ht : (s.lane n).takeLine = []) (hheld : s.hold.held = [])
    (hk : e.kind = .capture hold outcome) (hs : e.stage = .writingHeader failed) (hb : (s.lane n).busy = .clear) :
    let faulted : Lane := { s.lane n with
      errors := (s.lane n).errors + 1, state := .faulted, cause := .headerWrite, putLine := [e], takeLine := [] }
    exec (.headerWriteEnd .error) s = .next (((s.endedFaulting r rest n .headerWrite).answerGone n es []).withdrawn n
      (faulted.withdraw e.linked).1 (faulted.withdraw e.linked).2 e outcome) := by
  have hnone : ∀ line, s.heldOf n line = none := fun line => by simp [State.heldOf, hheld]
  obtain ⟨hwait, hstay⟩ := filter_puts_behind (e := e) (by simp [hs]) hes
  have hV := (h.sameWork_faulting n .headerWrite).trans (State.sameWork_answerGone _ n es [])
  have hend := State.laneEnded_faults h (Lane.serving_of_opened ho) (.inl ⟨hr, rfl⟩)
    (State.leavesQuietly_of_none (hnone _)) (State.takeLeavesQuietly_of_parcel (hnone _) (by simp [hnone]))
  rw [hl, hwait, hstay, ht, List.filter_nil, List.filter_nil, State.unhold_none ((hV.heldOf n .put).trans (hnone _)),
    State.unhold_none ((hV.heldOf n .take).trans (hnone _))] at hend
  have hbody := (State.requestEnded_headerWrite (s := s.ended rest) hr .error).trans
    (State.headerWriteEnded_capture_error (s := (s.ended rest).countFailure .error) (by exact hcut) rfl hs hk hend)
  exact event_response_withdraws (m := .error) h hV hbody (by simp) (by simp) hheld rfl (by exact hb) (by simp) hw

end Sys2Proof.Machine

namespace Sys2Proof.Machine

variable {s t u v V : State} {n : LaneNo} {l : Lane} {e : PutEntry} {r : MemRequest} {rest : List Outstanding}

/-- The notice of a parcel that becomes ready stands behind the change of its lane. -/
theorem State.readyNoticed_setLane {p : OpenParcel} (m : Lane) (master : Byte) :
    (s.readyNoticed n l p master).setLane n m =
      if l.armed && l.ready + 1 == l.desc.readyThreshold then
        (s.setLane n m).produce (parcelReadyNotice n master (l.ready + 1) p.sequence (s.poolAddress p.segment p.offset))
      else s.setLane n m := by
  unfold State.readyNoticed Lane.makeReady
  dsimp only
  split
  · rw [State.produce_setLane]
  · rfl

/-- Settles O49. -/
theorem headerWriteEndCompletes : Obligations.HeaderWriteEndCompletes := by
  refine ⟨fun s r rest n e tag failed p h hr hp hs hk hd hopen hcut htake => ?_,
    fun s r rest n p h hr hst hb hw ha hwaiter hopen => ?_,
    fun s r rest n e es hold failed outcome p h hr ho hb hw hcut hl hes ht hheld hk hs hopen => ?_⟩
  · obtain ⟨hok, herror⟩ := headerWriteEnd_onOpen h hr hp hs hk hd hopen hcut htake
    refine ⟨fun d hn => (hok d).trans ?_, fun d hn => (hok d).trans ?_, fun ht => (herror ht).trans ?_⟩
    · rw [State.readyNoticed_setLane, if_neg (by simp only [hn]; simp)]
      rfl
    · rw [State.readyNoticed_setLane, if_pos (by exact hn)]
      rfl
    · unfold State.endedFaulting laneFaultedNotice
      rw [hr]
      rfl
  · obtain ⟨hcutOk, hfinalOk, herror⟩ := headerWriteEnd_onClosing h hr hst hb hw hwaiter hopen
    refine ⟨fun d h1 h2 h3 => (hcutOk d h1 h2 h3).trans ?_,
      fun d e tag failed h1 h2 h3 h4 h5 h6 h7 => (hfinalOk d e tag failed h1 h2 h3 h4 h5 h6 h7).trans ?_,
      fun h1 h2 h3 h4 => (herror h1 h2 h3 h4).trans ?_⟩
    · rw [State.readyNoticed_setLane, ← h2]
      rfl
    · rw [State.readyNoticed_setLane, ← h1]
      rfl
    · unfold State.endedFaulting laneFaultedNotice
      simp only [hr, h2]
      rfl
  · have hend := headerWriteEnd_withdraws h hr ho hw hcut hl hes ht hheld hk hs hb
    dsimp only at hend ⊢
    refine ⟨fun hready => hend.trans ?_, fun front x hready hlinked hc hf => hend.trans ?_,
      fun hready hlinked => hend.trans ?_⟩
    · rw [Lane.withdraw_unready (by exact hopen) (by exact hready)]
      unfold State.endedFaulting laneFaultedNotice
      simp only [hr, ht]
      rfl
    · rw [hlinked, Lane.withdraw_linked (by exact hopen) (by exact hready) (by exact hc) hf]
      unfold State.endedFaulting laneFaultedNotice
      simp only [hr, ht]
      rfl
    · rw [hlinked, Lane.withdraw_unlinked (by exact hopen) (by exact hready)]
      unfold State.endedFaulting laneFaultedNotice
      simp only [hr, ht]
      rfl

end Sys2Proof.Machine

namespace Sys2Proof.Machine

variable {s t u v V : State} {n : LaneNo} {l : Lane} {e : PutEntry} {r : MemRequest} {rest : List Outstanding}

/-! ## The end of a capture's write -/

section CaptureWrite

variable {hold failed : Bool} {outcome o : MemOutcome} {left : Nat} {p : OpenParcel} {d : Word}
  (hend : s.laneEnded n r o = V.setLane n l) (hl : l.putLine = [e]) (hk : e.kind = .capture hold outcome)
  (hs : e.stage = .writingBody left failed)

include hend hl hk hs

/-- A write of a capture ends, the other is left. -/
theorem State.captureWriteEnded_left (h1 : 1 < left) : s.captureWriteEnded n r o
    = V.setLane n { l with putLine := [{ e with stage := .writingBody (left - 1) (failed || o.failed) }] } := by
  unfold State.captureWriteEnded
  dsimp only
  rw [hend, State.lane_setLane_same, hl]
  dsimp only
  rw [hs, hk]
  dsimp only
  rw [if_pos h1, State.setPutStage_setLane hl, hk]

/-- The last write of a capture ends, both in success: the parcel is closed. -/
theorem State.captureWriteEnded_closes (h1 : left = 1) (hf : (failed || o.failed) = false) (hst : l.state ≠ .faulted)
    (hp : l.openParcel = some p) : s.captureWriteEnded n r o = (V.setLane n { l with
        tailOffset := roundUp8 l.tailOffset, putLine := [{ e with stage := .writingHeader false }] }).request
      (wordRequest (.headerWrite n) (masterByte e.tx) (V.poolAddress p.segment p.offset) true
        (closingHeader (BitVec.ofNat 16 p.length) p.sequence (entryByte e.entry) (p.flags ||| 0)).word) := by
  unfold State.captureWriteEnded
  dsimp only
  rw [hend, State.lane_setLane_same, hl]
  dsimp only
  rw [hs, hk]
  dsimp only
  rw [if_neg (by omega), if_neg (by simp [hf, hst]), State.closeParcel_setLane hp, State.request_setLane,
    State.setPutStage_setLane (e := e) (by exact hl), hk]
  rfl

/-- The last write of a capture ends, one of them in failure: the capture is withdrawn. -/
theorem State.captureWriteEnded_withdraws (h1 : left = 1) (hf : (failed || o.failed) = true) :
    s.captureWriteEnded n r o = (V.setLane n l).withdrawCapture n e outcome := by
  unfold State.captureWriteEnded
  dsimp only
  rw [hend, State.lane_setLane_same, hl]
  dsimp only
  rw [hs, hk]
  dsimp only
  rw [if_neg (by omega), if_pos (by simp [hf])]

end CaptureWrite

/-- A write of a capture ends on an OPEN lane, and the capture is not withdrawn. -/
theorem captureWriteEnd_proceeds {hold failed : Bool} {outcome : MemOutcome} {p : OpenParcel} (h : s.Ends r rest)
    (hp : s.Puts n e) (hk : e.kind = .capture hold outcome) (hopen : (s.lane n).openParcel = some p)
    (hr : r.owner = .captureWrite n) :
    let l := s.lane n
    (∀ d, e.stage = .writingBody 2 failed → exec (.captureWriteEnd (.ok d)) s = .next ((s.ended rest).setLane n
      { l with errors := 0, putLine := [{ e with stage := .writingBody 1 failed }] })) ∧
    (e.stage = .writingBody 2 failed → l.errors + 1 ≠ l.desc.faultThreshold →
      exec (.captureWriteEnd .error) s =
        .next ((s.endedFailed r rest (laneByte n) (BitVec.ofNat 16 (l.errors + 1))).setLane n
          { l with errors := l.errors + 1, putLine := [{ e with stage := .writingBody 1 true }] })) ∧
    (∀ d, e.stage = .writingBody 1 false →
      exec (.captureWriteEnd (.ok d)) s = .next (((s.ended rest).setLane n
        { l with
          errors := 0
          tailOffset := roundUp8 l.tailOffset
          putLine := [{ e with stage := .writingHeader false }] }).request
        (wordRequest (.headerWrite n) (masterByte e.tx) (s.poolAddress p.segment p.offset) true
          (closingHeader (BitVec.ofNat 16 p.length) p.sequence (entryByte e.entry) (p.flags ||| 0)).word))) := by
  have howner := State.requestEnded_captureWrite (s := s.ended rest) hr
  have hserving := Lane.serving_of_opened hp.opened
  have hok := fun d => State.laneEnded_ok (s := s) (r := r) (rest := rest) hserving d
  refine ⟨fun d hs => ?_, fun hs ht => ?_, fun d hs => ?_⟩
  · refine event_response_lane h h.sameWork ((howner (.ok d)).trans
      ((State.captureWriteEnded_left (hok d) (by exact hp.line) hk hs (by simp)).trans ?_))
    rw [show (failed || (MemOutcome.ok d).failed) = failed from Bool.or_false _]
  · have hend := State.laneEnded_error (s := s) (r := r) (rest := rest) hserving (by simp [hr]) ht
    refine event_response_lane h (h.sameWork_failed _ _) ((howner .error).trans
      ((State.captureWriteEnded_left hend (by exact hp.line) hk hs (by simp)).trans ?_))
    rw [show (failed || MemOutcome.error.failed) = true from Bool.or_true _]
  · exact event_response_request h h.sameWork ((howner (.ok d)).trans
      (State.captureWriteEnded_closes (hok d) (by exact hp.line) hk hs rfl rfl (by simp [hp.opened]) (by exact hopen)))

/-- The last write of a capture ends on an OPEN lane, with nobody held, and the capture is withdrawn (R114). -/
theorem captureWriteEnd_withdraws {hold failed : Bool} {outcome : MemOutcome} (h : s.Ends r rest)
    (hp : s.Puts n e) (hk : e.kind = .capture hold outcome) (hr : r.owner = .captureWrite n)
    (hs : e.stage = .writingBody 1 failed) (hheld : s.hold.held = []) :
    let l := s.lane n
    let withdrawn (u : State) (errors : Nat) : State :=
      let w := ({ l with errors := errors } : Lane).withdraw e.linked
      u.withdrawn n w.1 w.2 e outcome
    (l.errors + 1 ≠ l.desc.faultThreshold → exec (.captureWriteEnd .error) s =
      .next (withdrawn (s.endedFailed r rest (laneByte n) (BitVec.ofNat 16 (l.errors + 1))) (l.errors + 1))) ∧
    (failed = true → ∀ d, exec (.captureWriteEnd (.ok d)) s = .next (withdrawn (s.ended rest) 0)) := by
  have howner := State.requestEnded_captureWrite (s := s.ended rest) hr
  have hserving := Lane.serving_of_opened hp.opened
  refine ⟨fun ht => ?_, fun hf d => ?_⟩
  · have hend := State.laneEnded_error (s := s) (r := r) (rest := rest) hserving (by simp [hr]) ht
    have hbody := (howner .error).trans (State.captureWriteEnded_withdraws hend (by exact hp.line) hk hs rfl (by
      exact Bool.or_true _))
    exact event_response_withdraws (m := .error) (ts := [])
      (V := s.endedFailed r rest (laneByte n) (BitVec.ofNat 16 ((s.lane n).errors + 1))) h (h.sameWork_failed _ _)
      (by rw [State.schedule_nil]; exact hbody) (by simp) (by simp) hheld (by exact hp.line) hp.clear
      (by simp [hp.opened]) hp.closing
  · have hend := State.laneEnded_ok (s := s) (r := r) (rest := rest) hserving d
    have hbody := (howner (.ok d)).trans (State.captureWriteEnded_withdraws hend (by exact hp.line) hk hs rfl (by
      rw [hf]; rfl))
    exact event_response_withdraws (m := .ok d) (ts := []) (V := s.ended rest) h h.sameWork
      (by rw [State.schedule_nil]; exact hbody) (by simp) (by simp) hheld (by exact hp.line) hp.clear
      (by simp [hp.opened]) hp.closing

/-- The header write of a capture ends in success on an OPEN lane: the capture is placed (R114, R115). -/
theorem headerWriteEnd_places {hold failed : Bool} {outcome : MemOutcome} {p : OpenParcel} (h : s.Ends r rest)
    (hp : s.Puts n e) (hk : e.kind = .capture hold outcome) (hopen : (s.lane n).openParcel = some p)
    (hr : r.owner = .headerWrite n) (hs : e.stage = .writingHeader failed) (hcut : (s.lane n).cutting = false)
    (htake : s.heldOf n .take = none) (d : Word) :
    let ended : Lane := { s.lane n with errors := 0 }
    exec (.headerWriteEnd (.ok d)) s =
      .next (((((s.ended rest).readyNoticed n ended p (masterByte e.tx)).setLane n
        { ended.makeReady.1 with putLine := [] }).capturePlaced n e).answerOutcome e.tx outcome) := by
  have hbody := (State.requestEnded_headerWrite (s := s.ended rest) hr (.ok d)).trans
    (State.headerWriteEnded_capture_ok (s := (s.ended rest).countFailure (.ok d)) (by exact hcut) (by exact hp.line) hs
      hk (State.laneEnded_ok (Lane.serving_of_opened hp.opened) d) (by exact hopen) (by exact hp.putHeld)
      (by exact htake))
  dsimp only
  rw [State.capturePlaced_setLane, State.answerOutcome_setLane]
  exact event_response_leaves h (((h.sameWork.trans (State.sameWork_readyNoticed _ _ _ _ _)).trans
      (State.sameWork_capturePlaced _ n e)).trans (State.sameWork_answerOutcome _ e.tx outcome)) hbody (by simp)
    (by simp) rfl (by exact hp.clear) (by simp [Lane.makeReady, hp.opened]) hp.closing

/-- The three forms of a withdrawal: the whole chain goes back, the segment linked for the capture, or none. -/
theorem State.withdrawn_forms {m : Instr} {errors : Nat} {p : OpenParcel} {outcome : MemOutcome}
    (hp : l.openParcel = some p) (hend : exec m s = .next (u.withdrawn n
      (({ l with errors := errors } : Lane).withdraw e.linked).1 (({ l with errors := errors } : Lane).withdraw e.linked).2
      e outcome)) :
    let lane : Lane := { l with errors := errors, openParcel := none, putSeq := l.putSeq - 1, putLine := [] }
    (l.ready = 0 → exec m s =
      .next ((((u.setLane n { lane with chain := [], headOffset := 0, tailOffset := 0 }).pushSegments
        l.chain).captureLost n e).answerOutcome e.tx outcome)) ∧
    (∀ front x, l.ready ≠ 0 → e.linked = true → l.chain = front ++ [x] → front ≠ [] →
      exec m s =
        .next ((((u.setLane n { lane with
          chain := front, tailOffset := if p.segment = x then 512 else p.offset }).pushSegments [x]).captureLost
            n e).answerOutcome e.tx outcome)) ∧
    (l.ready ≠ 0 → e.linked = false → exec m s =
      .next (((u.setLane n { lane with tailOffset := p.offset }).captureLost n e).answerOutcome e.tx outcome)) := by
  refine ⟨fun hready => hend.trans ?_, fun front x hready hlinked hc hf => hend.trans ?_,
    fun hready hlinked => hend.trans ?_⟩
  · rw [Lane.withdraw_unready (by exact hp) (by exact hready)]
    rfl
  · rw [hlinked, Lane.withdraw_linked (by exact hp) (by exact hready) (by exact hc) hf]
    rfl
  · rw [hlinked, Lane.withdraw_unlinked (by exact hp) (by exact hready)]
    unfold State.withdrawn
    rw [State.pushSegments_nil]
    rfl

/-- Settles O50. -/
theorem captureWriteEndCompletes : Obligations.CaptureWriteEndCompletes := by
  refine ⟨fun s r rest n e hold failed outcome p d h hp hk hopen => ?_,
    fun s r rest n e hold failed outcome p h hp hk hopen hr hs hheld => ?_⟩
  · have hproceeds := captureWriteEnd_proceeds (failed := failed) h hp hk hopen
    have hplaces := fun hr hs hcut htake => headerWriteEnd_places (failed := false) h hp hk hopen hr hs hcut htake d
    refine ⟨fun hr hs => (hproceeds hr).1 d hs, fun hr hs ht => (hproceeds hr).2.1 hs ht,
      fun hr hs => ((hproceeds hr).2.2 d hs).trans ?_, fun hr hs hcut htake ha => (hplaces hr hs hcut htake).trans ?_,
      fun hr hs hcut htake ha => (hplaces hr hs hcut htake).trans ?_⟩
    · rw [show p.flags ||| 0 = p.flags from BitVec.or_zero]
      rfl
    · rw [State.readyNoticed_setLane, if_neg (by simp [ha])]
      simp only [Lane.makeReady, ha, Bool.false_and]
    · rw [State.readyNoticed_setLane]
      simp only [Lane.makeReady, ha, Bool.true_and]
      rfl
  · obtain ⟨herror, hok⟩ := captureWriteEnd_withdraws h hp hk hr hs hheld
    exact ⟨fun ht => State.withdrawn_forms hopen (herror ht), fun hf d => State.withdrawn_forms hopen (hok hf d)⟩

end Sys2Proof.Machine

namespace Sys2Proof.Machine

variable {s t u v V : State} {n : LaneNo} {l : Lane} {e : PutEntry} {r : MemRequest} {rest : List Outstanding}

/-! ## The end of a forwarded request (R100, R110, R152) -/

theorem State.answerOk_eq (s : State) (x : Transaction) (d : Word) : s.answerOk x d
    = s.answer x.tag false (if x.direction = .read then maskWord (laneEnables x) d else 0) := by
  unfold State.answerOk
  cases x.direction <;> rfl

/-- The block after a forwarded request of access `x` has ended, its failure counted and noticed, before its owner. -/
def State.forwardBase (s : State) (r : MemRequest) (rest : List Outstanding) (x : Transaction) (source : Byte)
    (m : MemResponse) : State :=
  if m = .error then s.endedFailed r rest source (BitVec.ofNat 16 x.size) else s.ended rest

theorem State.Ends.sameWork_forward (h : s.Ends r rest) (x : Transaction) (source : Byte) (m : MemResponse) :
    s.begin.SameWork (s.forwardBase r rest x source m) := by
  unfold State.forwardBase
  split
  · exact h.sameWork_failed _ _
  · exact h.sameWork

/-- The end of a forwarded request answers its access. -/
theorem State.requestEnded_forward {x : Transaction} {source : Byte} (m : MemResponse)
    (h : r.owner = .forward x source none) : (s.ended rest).requestEnded r (outcomeOf m)
      = (s.forwardBase r rest x source m).answerOutcome x (outcomeOf m) := by
  unfold State.requestEnded
  rw [h]
  cases m <;> rfl

/-- The end of the forwarded request of a tapped access brings its capture. -/
theorem State.requestEnded_tapped {x : Transaction} {source : Byte} {q : TapRequest} (m : MemResponse)
    (h : r.owner = .forward x source (some q)) : (s.ended rest).requestEnded r (outcomeOf m)
      = (s.forwardBase r rest x source m).arriveCapture q x (outcomeOf m) := by
  unfold State.requestEnded
  rw [h]
  cases m <;> rfl

/-- The line entry of the capture of a tapped access whose request has ended. -/
def arrivedCapture (q : TapRequest) (x : Transaction) (o : MemOutcome) : PutEntry :=
  { tx := x, entry := q.entry, kind := .capture q.hold o, stage := .waiting, linked := false }

/-- A capture whose access's own outcome is `m` is lost, and the access answered with it. -/
theorem State.discardCapture_outcome (s : State) (n : LaneNo) (e : PutEntry) (m : MemResponse) :
    s.discardCapture n e (outcomeOf m) = match m with
      | .ok d => (s.captureLost n e).answer e.tx.tag false
          (if e.tx.direction = .read then maskWord (laneEnables e.tx) d else 0)
      | .error => (s.captureLost n e).answer e.tx.tag true 0 := by
  cases m with
  | ok d => exact State.answerOk_eq _ _ _
  | error => rfl

/-- A capture joins a put line that has an entry (R22). -/
theorem State.joinPutLine_behind (h : (s.lane n).putLine ≠ []) (e : PutEntry) :
    s.joinPutLine n e = s.setLane n { s.lane n with putLine := (s.lane n).putLine ++ [e] } := by
  unfold State.joinPutLine
  dsimp only
  rw [if_neg (by simp [h])]
  rfl

/-- An entry joins an empty put line, and is to be evaluated (R41). -/
theorem State.joinPutLine_first (h : (s.lane n).putLine = []) (e : PutEntry) :
    s.joinPutLine n e = (s.setLane n { s.lane n with putLine := [e] }).schedule [.evalPut n] := by
  unfold State.joinPutLine
  dsimp only
  rw [h]
  simp only [List.isEmpty_nil, if_true]
  rw [State.updLane_eq, h]
  rfl

/-! ## The evaluation of a capture (R112) -/

theorem State.evalPut_capture {es : List PutEntry} {hold : Bool} {o : MemOutcome} (hl : (s.lane n).putLine = e :: es)
    (hs : e.stage = .waiting) (hk : e.kind = .capture hold o) : s.evalPut n = s.evaluateCapture n e hold o := by
  unfold State.evalPut
  dsimp only
  rw [hl]
  simp [hs, hk]

/-- The only capture of a line is given up. -/
theorem State.dropCapture_setLane (hh : s.heldOf n .put = none) (hl : l.putLine = [e]) (o : MemOutcome) :
    (s.setLane n l).dropCapture n e o
      = ((s.discardCapture n e o).setLane n { l with putLine := [] }).schedule [.laneTests n, .evalPut n] := by
  unfold State.dropCapture
  rw [State.discardCapture_setLane,
    State.leavePut_setLane (((State.sameWork_discardCapture s n e o).heldOf n .put).trans hh) hl]

/-- A capture beside an open parcel is given up. -/
theorem State.evaluateCapture_open (h : (s.lane n).openParcel ≠ none) (hold : Bool) (o : MemOutcome) :
    s.evaluateCapture n e hold o = s.dropCapture n e o := by
  unfold State.evaluateCapture; exact if_pos (Option.isSome_iff_ne_none.mpr h)

theorem State.evaluateCapture_full {kind : WaitKind} (h : (s.lane n).openParcel = none)
    (hs : s.spaceCheck n true captureNeed = .full kind) (hold : Bool) (o : MemOutcome) :
    s.evaluateCapture n e hold o = s.fullCapture n e hold o := by
  unfold State.evaluateCapture
  rw [h, hs]
  rfl

theorem State.evaluateCapture_starts {claims : Bool} (h : (s.lane n).openParcel = none)
    (hs : s.spaceCheck n true captureNeed = .starts claims) (hold : Bool) (o : MemOutcome) :
    s.evaluateCapture n e hold o =
      (s.claim claims (masterByte e.tx)).2.startCapture n e o (s.claim claims (masterByte e.tx)).1 := by
  unfold State.evaluateCapture
  rw [h, hs]
  rfl

/-- A capture that finds the lane full and cannot be held is given up, TABLE_FULL included (R79, R80, R116). -/
theorem State.fullCapture_lost {hold : Bool} {o : MemOutcome} (hk : e.kind = .capture hold o)
    (hh : s.heldOf n .put = none)
    (h : hold = false ∨ (s.lane n).desc.holdLimit = 0 ∨ Config.heldEntries ≤ s.hold.held.length) :
    s.fullCapture n e hold o = s.dropCapture n e o := by
  unfold State.fullCapture
  rcases h with h | h | h
  · rw [h]; rfl
  · simp [hh, h]
  · have hheld : s.holdPut n e .capture = s.dropCapture n e o := by
      unfold State.holdPut State.expirePut
      rw [hh, hk]
      dsimp only
      rw [if_neg (by simp), if_neg (by omega), if_neg (by decide)]
      rfl
    rw [hheld]
    simp

/-- A capture that finds the lane full is held (R79, R112, R116). -/
theorem State.fullCapture_held (o : MemOutcome) (hh : s.heldOf n .put = none)
    (h : (s.lane n).desc.holdLimit ≠ 0) (hroom : s.hold.held.length < Config.heldEntries) :
    s.fullCapture n e true o = s.recordHeld n .put e.tx.tag .capture := by
  unfold State.fullCapture State.holdPut
  rw [if_neg (by simp), if_neg (by simpa using fun _ => h), hh, if_neg (by simp), if_pos hroom]

/-- The start of the only capture of a line (R113). -/
theorem State.startCapture_eq (hh : s.heldOf n .put = none) (hl : (s.lane n).putLine = [e]) (o : MemOutcome)
    (segment : Option Nat) :
    let l := s.lane n
    let word (pos : Nat) (w : Word) : MemRequest :=
      wordRequest (.captureWrite n) (masterByte e.tx)
        (s.poolAddress (placeAt (l.chain ++ segment.toList) pos) (pos % 512)) true w
    s.startCapture n e o segment = (s.setLane n { l.placeCapture segment with
      putLine := [{ e with stage := .writingBody 2 false, linked := segment.isSome }] }).requestAll
        [word (l.tailPosition + 8) (captureWord0 e.tx o), word (l.tailPosition + 16) (captureWord1 e.tx o e.entry)] := by
  have hp : ((s.lane n).placeCapture segment).putLine = [e] := hl
  unfold State.startCapture State.placeAddress
  dsimp only
  rw [State.unhold_none hh, State.updLane_eq s n fun l => l.placeCapture segment, State.updLane_setLane, hp]
  dsimp only
  rw [State.lane_setLane_same]
  rfl

/-- The space check grants a claim only when there is a segment to claim. -/
theorem State.claim_isSome {opens claims : Bool} {need : Nat} (h : s.spaceCheck n opens need = .starts claims)
    (master : Byte) : (s.claim claims master).1.isSome = claims := by
  cases claims with
  | false => rfl
  | true =>
    have hg : s.claimGranted n = true := by
      unfold State.spaceCheck at h
      dsimp only at h
      split at h
      · cases h
      · split at h
        · cases h
        · split at h
          · cases h
          · split at h
            · assumption
            · cases h
    exact Option.isSome_iff_ne_none.mpr (State.topSegment_of_granted hg)

/-! ## The arrival of a capture -/

section Arrives

variable {x : Transaction} {source : Byte} {q : TapRequest} {m : MemResponse} (h : s.Ends r rest)
  (hr : r.owner = .forward x source (some q)) (hq : s.PutQuiet q.lane)

include h hr hq

/-- The capture of a tapped access is evaluated as it joins an empty put line. -/
theorem event_response_arrives {ts : List Task}
    (hd : ((s.forwardBase r rest x source m).setLane q.lane
        { s.lane q.lane with putLine := [arrivedCapture q x (outcomeOf m)] }).evalPut q.lane = v.schedule ts)
    (hv : v.todo = []) (hn : ∀ y ∈ ts, v.doTask y = v) (hlen : ts.length ≤ 4095) (hc : v.Calm) :
    event (fun s => s.memoryResponse m) s = .next v := by
  have hV := h.sameWork_forward x source m
  have hbody : (s.ended rest).requestEnded r (outcomeOf m) = ((s.forwardBase r rest x source m).setLane q.lane
      { s.lane q.lane with putLine := [arrivedCapture q x (outcomeOf m)] }).schedule [.evalPut q.lane] := by
    refine (State.requestEnded_tapped m hr).trans ?_
    unfold State.arriveCapture
    dsimp only
    rw [hV.lane, if_pos (by exact ⟨hq.opened, hq.clear⟩), State.joinPutLine_first (by rw [hV.lane]; exact hq.putLine),
      hV.lane]
    rfl
  let T : State := (s.forwardBase r rest x source m).setLane q.lane
    { s.lane q.lane with putLine := [arrivedCapture q x (outcomeOf m)] }
  have htask : T.doTask (.evalPut q.lane) = v.schedule ts := hd
  have hnext : v.Does ts.length (ts ++ []) v := by
    rw [List.append_nil]
    exact State.Does.noops hv hn
  exact event_response (t := T) h hbody hV.todo rfl (State.Does.cons htask hv hnext) (by omega) hc

/-- The capture is given up at its evaluation. -/
theorem event_response_drops
    (hd : ((s.forwardBase r rest x source m).setLane q.lane
        { s.lane q.lane with putLine := [arrivedCapture q x (outcomeOf m)] }).evalPut q.lane
      = ((s.forwardBase r rest x source m).setLane q.lane
        { s.lane q.lane with putLine := [arrivedCapture q x (outcomeOf m)] }).dropCapture q.lane
          (arrivedCapture q x (outcomeOf m)) (outcomeOf m)) :
    event (fun s => s.memoryResponse m) s =
      .next ((s.forwardBase r rest x source m).discardCapture q.lane (arrivedCapture q x (outcomeOf m)) (outcomeOf m)) := by
  have hV := h.sameWork_forward x source m
  have hsame := hV.trans (State.sameWork_discardCapture (s.forwardBase r rest x source m) q.lane
    (arrivedCapture q x (outcomeOf m)) (outcomeOf m))
  have hself : ({ s.lane q.lane with putLine := [] } : Lane) = s.lane q.lane := by
    rw [← hq.putLine]
  rw [State.dropCapture_setLane ((hV.heldOf _ _).trans hq.putHeld) rfl] at hd
  dsimp only at hd
  rw [hself, State.setLane_self _ (l := s.lane q.lane) (hsame.lane q.lane).symm] at hd
  refine event_response_arrives h hr hq hd hsame.todo ?_ (by simp) (hsame.calm h.calm.begin)
  have hl : ∀ k, _ = s.lane k := hsame.lane
  refine State.leavePut_noops ?_ ?_ ?_ ?_
  · rw [hl]; exact hq.putLine
  · rw [hl]; exact hq.opened
  · rw [hl]; exact hq.clear
  · rw [hsame.cmd]; exact hq.closing

end Arrives

end Sys2Proof.Machine

namespace Sys2Proof.Machine

variable {s t u v V : State} {n : LaneNo} {l : Lane} {e : PutEntry} {r : MemRequest} {rest : List Outstanding}

/-! ## The end of a tapped access whose capture starts (R113) -/

/-- What the end of a forwarded request leaves of the block besides its work. -/
theorem State.forwardBase_frame (s : State) (r : MemRequest) (rest : List Outstanding) (x : Transaction) (source : Byte)
    (m : MemResponse) :
    (s.forwardBase r rest x source m).port.systemQ = s.port.systemQ ∧
    (s.forwardBase r rest x source m).port.outstanding = rest ∧
    (s.forwardBase r rest x source m).sys = s.begin.sys ∧ (s.forwardBase r rest x source m).dec = s.dec ∧
    (s.forwardBase r rest x source m).status = s.status := by
  unfold State.forwardBase
  split
  · refine ⟨?_, ?_, ?_, ?_, ?_⟩ <;> simp [State.endedFailed]
  · exact ⟨rfl, rfl, rfl, rfl, rfl⟩

/-- A capture that starts is a matter of its lane, the claim and its two requests. -/
theorem State.evaluateCapture_eq {claims : Bool} (hl : (s.lane n).putLine = [e]) (hh : s.heldOf n .put = none)
    (hopen : (s.lane n).openParcel = none) (hs : s.spaceCheck n true captureNeed = .starts claims) (hold : Bool)
    (o : MemOutcome) :
    let l := s.lane n
    let chain := l.chain ++ if claims then s.pool.freeList.head?.toList else []
    let word (pos : Nat) (w : Word) : MemRequest :=
      wordRequest (.captureWrite n) (masterByte e.tx) (s.poolAddress (placeAt chain pos) (pos % 512)) true w
    ∃ p w q, p.freeList = (if claims then s.pool.freeList.tail else s.pool.freeList) ∧
      s.evaluateCapture n e hold o =
        (({ s with pool := p, notice := w, port := { s.port with noticeQ := q } } : State).setLane n { l with
          chain := chain
          tailOffset := l.tailPosition + captureNeed - (chain.length - 1) * 512
          openParcel := some
            { segment := placeAt chain l.tailPosition, offset := l.tailPosition % 512, length := 16, flags := flagCapture,
              sequence := l.putSeq }
          putSeq := l.putSeq + 1
          putLine := [{ e with stage := .writingBody 2 false, linked := claims }] }).requestAll
        [word (l.tailPosition + 8) (captureWord0 e.tx o), word (l.tailPosition + 16) (captureWord1 e.tx o e.entry)] := by
  obtain ⟨p, w, q, hclaim, hfree, hbase, -⟩ := s.claim_eq claims (masterByte e.tx)
  have hlinked := State.claim_isSome hs (masterByte e.tx)
  have hseg := s.claim_segment claims (masterByte e.tx)
  have heval := State.evaluateCapture_starts (e := e) hopen hs hold o
  generalize (s.claim claims (masterByte e.tx)).1 = segment at heval hlinked hseg
  generalize (s.claim claims (masterByte e.tx)).2 = c at heval hclaim
  subst hclaim
  rw [State.startCapture_eq (by exact hh) (by exact hl)] at heval
  refine ⟨p, w, q, hfree, heval.trans ?_⟩
  unfold Lane.placeCapture State.poolAddress
  dsimp only
  rw [hbase, hlinked, hseg]
  rfl

section Starts

variable {x : Transaction} {source : Byte} {q : TapRequest} {m : MemResponse} {claims : Bool}

/-- The capture starts in the event that ends its access's request. -/
theorem event_response_captures (h : s.Ends r rest) (hr : r.owner = .forward x source (some q)) (hq : s.PutQuiet q.lane)
    (hopen : (s.lane q.lane).openParcel = none) (hs : s.spaceCheck q.lane true captureNeed = .starts claims) :
    let l := s.lane q.lane
    let chain := l.chain ++ if claims then s.pool.freeList.head?.toList else []
    let word (pos : Nat) (w : Word) : MemRequest :=
      wordRequest (.captureWrite q.lane) (masterByte x) (s.poolAddress (placeAt chain pos) (pos % 512)) true w
    ∃ u, event (fun s => s.memoryResponse m) s = .next u ∧
      u.lane q.lane = { l with
        chain := chain
        tailOffset := l.tailPosition + captureNeed - (chain.length - 1) * 512
        openParcel := some
          { segment := placeAt chain l.tailPosition, offset := l.tailPosition % 512, length := 16, flags := flagCapture,
            sequence := l.putSeq }
        putSeq := l.putSeq + 1
        putLine := [{ arrivedCapture q x (outcomeOf m) with stage := .writingBody 2 false, linked := claims }] } ∧
      (∀ k, k ≠ q.lane → u.lane k = s.lane k) ∧
      u.port.systemQ = s.port.systemQ ++
        [word (l.tailPosition + 8) (captureWord0 x (outcomeOf m)),
          word (l.tailPosition + 16) (captureWord1 x (outcomeOf m) q.entry)] ∧
      u.port.outstanding = rest ∧ u.port.errors = (s.forwardBase r rest x source m).port.errors ∧
      u.pool.freeList = (if claims then s.pool.freeList.tail else s.pool.freeList) ∧
      u.sys = s.begin.sys ∧ u.hold = s.hold ∧ u.dec = s.dec ∧ u.cmd = s.cmd ∧ u.status = s.status := by
  have hV := h.sameWork_forward x source m
  obtain ⟨hqueue, hout, hsys, hdec, hstatus⟩ := s.forwardBase_frame r rest x source m
  let e := arrivedCapture q x (outcomeOf m)
  let l : Lane := { s.lane q.lane with putLine := [e] }
  let T : State := (s.forwardBase r rest x source m).setLane q.lane l
  have hTl : T.lane q.lane = l := State.lane_setLane_same _ _ _
  have hTp : T.pool = s.pool := hV.pool
  have hcheck : T.spaceCheck q.lane true captureNeed = .starts claims :=
    (State.spaceCheck_congr (t := T) (l := l) hTp hV.hold hTl rfl rfl rfl rfl _ _).trans hs
  obtain ⟨p, w, Q, hfree, heval⟩ := State.evaluateCapture_eq (s := T) (e := e) (by rw [hTl])
    ((hV.heldOf _ _).trans hq.putHeld) (by rw [hTl]; exact hopen) hcheck q.hold (outcomeOf m)
  dsimp only at heval
  rw [hTl] at heval
  simp only [hTp, State.poolAddress_congr hTp] at heval hfree
  have hput : T.evalPut q.lane = T.evaluateCapture q.lane e q.hold (outcomeOf m) :=
    State.evalPut_capture (by rw [hTl]) rfl rfl
  refine ⟨_, event_response_arrives (ts := []) h hr hq ((hput.trans heval).trans (State.schedule_nil _).symm) hV.todo
    (by simp) (by simp) ((hV.calm h.calm.begin).congr rfl rfl rfl), ?_, fun k hk => ?_, congrArg (· ++ _) hqueue, hout,
    rfl, hfree, hsys, hV.hold, hdec, hV.cmd, hstatus⟩
  · exact State.lane_setLane_same _ _ _
  · exact ((State.lane_setLane_ne _ _ hk).trans (State.lane_setLane_ne _ _ hk)).trans (hV.lane k)

end Starts

/-- Settles O46. -/
theorem passThroughEndCompletes : Obligations.PassThroughEndCompletes := by
  refine ⟨fun s r rest x source h => ⟨fun hr => ?_, fun q m hr => ?_⟩, fun s r rest x source q m h hr hq => ?_⟩
  · have hV := h.sameWork_forward x source
    have hdone : ∀ m, event (fun s => s.memoryResponse m) s =
        .next ((s.forwardBase r rest x source m).answerOutcome x (outcomeOf m)) := fun m =>
      have hsame := State.sameWork_answerOutcome (s.forwardBase r rest x source m) x (outcomeOf m)
      event_response_done h (State.requestEnded_forward m hr)
        ⟨(hV m).trans hsame, rfl, rfl, rfl, rfl⟩
    exact ⟨fun d => (hdone (.ok d)).trans (congrArg _ (State.answerOk_eq _ _ _)), hdone .error⟩
  · have hV := h.sameWork_forward x source m
    have hbody := State.requestEnded_tapped (rest := rest) (s := s) m hr
    unfold State.arriveCapture at hbody
    dsimp only at hbody ⊢
    refine ⟨fun hnot => ?_, fun ho hb hp => ?_⟩
    · rw [hV.lane, if_neg (by exact fun hx => hnot.elim (fun h => h hx.1) fun h => h hx.2)] at hbody
      have hsame := State.sameWork_discardCapture (s.forwardBase r rest x source m) q.lane
        (arrivedCapture q x (outcomeOf m)) (outcomeOf m)
      exact (event_response_done h hbody ⟨hV.trans hsame, rfl, rfl, rfl, rfl⟩).trans
        (congrArg _ (State.discardCapture_outcome _ _ _ m))
    · rw [hV.lane, if_pos (by exact ⟨ho, hb⟩), State.joinPutLine_behind (by rw [hV.lane]; exact hp), hV.lane] at hbody
      exact event_response_lane h hV hbody
  · have hV := h.sameWork_forward x source m
    let e := arrivedCapture q x (outcomeOf m)
    let l : Lane := { s.lane q.lane with putLine := [e] }
    let T : State := (s.forwardBase r rest x source m).setLane q.lane l
    have hTl : T.lane q.lane = l := State.lane_setLane_same _ _ _
    have heval : T.evalPut q.lane = T.evaluateCapture q.lane e q.hold (outcomeOf m) :=
      State.evalPut_capture (by rw [hTl]) rfl rfl
    have hcheck : T.spaceCheck q.lane true captureNeed = s.spaceCheck q.lane true captureNeed :=
      State.spaceCheck_congr (t := T) (l := l) hV.pool hV.hold hTl rfl rfl rfl rfl _ _
    have hheld : T.heldOf q.lane .put = none := (hV.heldOf _ _).trans hq.putHeld
    have hlost : T.evalPut q.lane = T.dropCapture q.lane e (outcomeOf m) → exec (.passThroughEnd m) s = .next _ :=
      fun hd => (event_response_drops h hr hq hd).trans (congrArg _ (State.discardCapture_outcome _ _ _ m))
    refine ⟨fun claims hopen hs => event_response_captures h hr hq hopen hs, fun hopen => hlost ?_,
      fun kind hopen hs => ⟨fun hno => hlost ?_, fun hhold hlimit hroom => ?_⟩⟩
    · exact heval.trans (State.evaluateCapture_open (by rw [hTl]; exact hopen) _ _)
    · refine heval.trans ((State.evaluateCapture_full (by rw [hTl]; exact hopen) (hcheck.trans hs) _ _).trans
        (State.fullCapture_lost rfl hheld ?_))
      rw [hTl, show T.hold = s.hold from hV.hold]
      exact hno.imp_right (Or.imp_right fun h6 => h6.ge)
    · have hfull := heval.trans (State.evaluateCapture_full (by rw [hTl]; exact hopen) (hcheck.trans hs) _ _)
      rw [hhold, State.fullCapture_held _ hheld (by rw [hTl]; exact hlimit)
        (by rw [show T.hold = s.hold from hV.hold]; exact hroom)] at hfull
      unfold State.recordHeld at hfull
      rw [hTl, show T.hold = s.hold from hV.hold] at hfull
      refine (event_response_arrives (ts := []) h hr hq (hfull.trans (State.schedule_nil _).symm) hV.todo (by simp)
        (by simp) ((hV.calm h.calm.begin).congr rfl rfl rfl)).trans ?_
      simp only [List.length_append, List.length_singleton]
      rfl

end Sys2Proof.Machine

namespace Sys2Proof.Machine

variable {s t u v V : State} {n : LaneNo} {l : Lane} {e : PutEntry} {r : MemRequest} {rest : List Outstanding}

/-! ## Lanes that have come to rest -/

/-- A lane that no test applies to and whose lines are empty has nothing to do. -/
structure Lane.AtRest (l : Lane) : Prop where
  clear    : l.busy = .clear
  state    : l.state ≠ .draining
  putLine  : l.putLine = []
  takeLine : l.takeLine = []

/-- The parts that follow when an entry leaves a line. -/
def laneTasks (n : LaneNo) : List Task := [.laneTests n, .waitEnd n, .evalTake n, .evalPut n]

theorem State.atRest_noops (h : (s.lane n).AtRest) (hw : s.cmd.work ≠ .closing n) :
    ∀ y ∈ laneTasks n, s.doTask y = s := by
  intro y hy
  simp only [laneTasks, List.mem_cons, List.not_mem_nil, or_false] at hy
  rcases hy with rfl | rfl | rfl | rfl
  · exact State.laneTests_quiet h.clear h.state hw
  · exact State.waitEnd_none (by simp [h.putLine])
  · exact State.evalTake_nil h.takeLine
  · exact State.evalPut_nil h.putLine

/-- What a change of lanes, the pool and answers leave alone. -/
structure State.SameRun (s t : State) : Prop where
  rst       : t.rst = s.rst
  presented : t.sys.presented = s.sys.presented
  cmd       : t.cmd = s.cmd
  todo      : t.todo = s.todo

theorem State.SameWork.run (h : s.SameWork t) : s.SameRun t := ⟨h.rst, h.presented, h.cmd, h.todo⟩

theorem State.SameRun.trans (h : s.SameRun t) (k : t.SameRun u) : s.SameRun u :=
  ⟨k.rst.trans h.rst, k.presented.trans h.presented, k.cmd.trans h.cmd, k.todo.trans h.todo⟩

theorem State.sameRun_pushSegments (s : State) (segments : List Nat) : s.SameRun (s.pushSegments segments) :=
  ⟨rfl, rfl, rfl, rfl⟩

/-- The request's end leaves its lane at rest, with segments back in the pool or not. -/
theorem event_response_rests_run {m : MemResponse} {ts : List Task} (h : s.Ends r rest) (hV : s.begin.SameRun V)
    (hb : (s.ended rest).requestEnded r (outcomeOf m) = (V.setLane n l).schedule ts)
    (hts : ∀ y ∈ ts, y ∈ laneTasks n) (hlen : ts.length ≤ 4096) (hl : l.AtRest) (hw : s.cmd.work ≠ .closing n) :
    event (fun s => s.memoryResponse m) s = .next (V.setLane n l) := by
  refine event_response_noops h hb hV.todo (fun y hy => ?_) hlen
    (h.calm.congr hV.rst hV.presented (congrArg CommandUnit.work hV.cmd))
  refine State.atRest_noops (n := n) (by rw [State.lane_setLane_same]; exact hl) ?_ y (hts y hy)
  show V.cmd.work ≠ _
  rw [hV.cmd]
  exact hw

/-- The request's end leaves its lane at rest. -/
theorem event_response_rests {m : MemResponse} {ts : List Task} (h : s.Ends r rest) (hV : s.begin.SameWork V)
    (hb : (s.ended rest).requestEnded r (outcomeOf m) = (V.setLane n l).schedule ts)
    (hts : ∀ y ∈ ts, y ∈ laneTasks n) (hlen : ts.length ≤ 4096) (hl : l.AtRest) (hw : s.cmd.work ≠ .closing n) :
    event (fun s => s.memoryResponse m) s = .next (V.setLane n l) :=
  event_response_rests_run h hV.run hb hts hlen hl hw

/-! ## A scan ends with an answer -/

/-- The only put of a line, which scanned or waited for a take, leaves it. -/
theorem State.leaveScan_setLane (hh : s.heldOf n .put = none) (hl : l.putLine = [e]) :
    (s.setLane n l).leaveScan n
      = (s.setLane n { l with putLine := [] }).schedule [.laneTests n, .evalTake n, .evalPut n] := by
  unfold State.leaveScan
  rw [State.dropHeld_none (by exact hh), State.putLine_tail (e := e) (by simpa using hl), State.updLane_setLane]

theorem State.leavePut_scan (hs : e.stage ≠ .waiting) : s.leavePut n e = s.leaveScan n := by
  unfold State.leavePut; exact if_neg (by simpa using hs)

/-- The only put of a line, which scanned or waited for a take, is answered ERROR (R49, R50). -/
theorem State.faultPut_setLane (hs : e.stage ≠ .waiting) (hh : s.heldOf n .put = none) (hl : l.putLine = [e]) :
    (s.setLane n l).faultPut n e = ((s.answer e.tx.tag true 0).setLane n { l with putLine := [] }).schedule
      [.laneTests n, .evalTake n, .evalPut n] := by
  unfold State.faultPut State.answerError
  rw [State.leavePut_scan hs, State.answer_setLane, State.leaveScan_setLane (by exact hh) hl]

/-- The only put of a line, which scanned or waited for a take, is refused LANE_FULL (R46). -/
theorem State.refusePut_setLane (hs : e.stage ≠ .waiting) (hh : s.heldOf n .put = none) (hl : l.putLine = [e]) :
    (s.setLane n l).refusePut n e =
      (((s.answer e.tx.tag true 0).produce (refusalNotice e.tx (entryByte e.entry) reasonLaneFull)).setLane n
        { l with refusals := satInc l.refusals, putLine := [] }).schedule [.laneTests n, .evalTake n, .evalPut n] := by
  unfold State.refusePut State.laneRefuse State.answerError
  have hheld : ((s.answer e.tx.tag true 0).produce (refusalNotice e.tx (entryByte e.entry) reasonLaneFull)).heldOf n .put
      = none := ((State.sameWork_produce _ _).heldOf n .put).trans hh
  rw [State.leavePut_scan hs, State.answer_setLane, State.updLane_setLane, State.produce_setLane,
    State.leaveScan_setLane hheld (by exact hl)]

/-! ## The end of a scan read -/

theorem State.requestEnded_scanRead (h : r.owner = .scanRead n) (o : MemOutcome) :
    s.requestEnded r o = (s.countFailure o).scanReadEnded n r o := by
  unfold State.requestEnded; rw [h]

/-- A header that a scan read returned, in the scan list. -/
def Lane.scanned (l : Lane) (list : List Scanned) (w : Word) : Scanned :=
  { segment := segmentAt l.chain (l.scanPosition list), offset := l.scanPosition list % 512, header := Header.ofWord w }

section ScanRead

variable {es : List PutEntry} {list : List Scanned} {w : Word}

/-- A scan read returned a header that passes its check: the scan goes on (R50). -/
theorem State.scanReadEnded_passes (hend : s.laneEnded n r (.ok w) = V.setLane n l) (hl : l.putLine = e :: es)
    (hs : e.stage = .scanning list) (hst : l.state ≠ .faulted)
    (hp : (Header.ofWord w).passes (l.takeSeq + BitVec.ofNat 16 list.length) = true) :
    s.scanReadEnded n r (.ok w) = (V.setLane n l).scanStep n e (list ++ [l.scanned list w]) := by
  unfold State.scanReadEnded
  dsimp only
  rw [hend, State.lane_setLane_same, hl]
  dsimp only
  rw [hs]
  dsimp only
  rw [if_neg hst, if_pos hp]
  rfl

/-- A scan read returned a header that fails its check: the lane faults (R171). -/
theorem State.scanReadEnded_fails (hend : s.laneEnded n r (.ok w) = V.setLane n l) (hl : l.putLine = e :: es)
    (hs : e.stage = .scanning list) (hst : l.state ≠ .faulted)
    (hp : (Header.ofWord w).passes (l.takeSeq + BitVec.ofNat 16 list.length) = false) :
    s.scanReadEnded n r (.ok w) = ((V.setLane n l).faultLane n .headerCheck r).faultPut n e := by
  unfold State.scanReadEnded
  dsimp only
  rw [hend, State.lane_setLane_same, hl]
  dsimp only
  rw [hs]
  dsimp only
  rw [if_neg hst, if_neg (by simp [hp])]

/-- A scan read ended OK on a FAULTED lane: the put is answered ERROR (R54). -/
theorem State.scanReadEnded_faulted (hend : s.laneEnded n r (.ok w) = V.setLane n l) (hl : l.putLine = e :: es)
    (hs : e.stage = .scanning list) (hst : l.state = .faulted) :
    s.scanReadEnded n r (.ok w) = (V.setLane n l).faultPut n e := by
  unfold State.scanReadEnded
  dsimp only
  rw [hend, State.lane_setLane_same, hl]
  dsimp only
  rw [hs]
  exact if_pos hst

/-- A scan read failed: the put is refused (R50). -/
theorem State.scanReadEnded_error (hend : s.laneEnded n r .error = V.setLane n l) (hl : l.putLine = e :: es)
    (hs : e.stage = .scanning list) : s.scanReadEnded n r .error = (V.setLane n l).refusePut n e := by
  unfold State.scanReadEnded
  dsimp only
  rw [hend, State.lane_setLane_same, hl]
  dsimp only
  rw [hs]

end ScanRead

/-- The scan goes on with the next header slot (R50). -/
theorem State.scanStep_reads {list : List Scanned}
    (h : list = [] ∨ list.length < (s.lane n).ready ∧ s.evictionFits n e list = false) :
    s.scanStep n e list = (s.setPutStage n (.scanning list)).request
      (wordRequest (.scanRead n) (masterByte e.tx) (s.chainAddress n ((s.lane n).scanPosition list)) false 0) := by
  unfold State.scanStep
  dsimp only
  refine if_neg ?_
  rcases h with rfl | ⟨hlt, hfit⟩
  · simp
  · simp [hfit, Nat.not_le.mpr hlt]

/-- The scan ends in the start event (R50). -/
theorem State.scanStep_starts {list : List Scanned} (hne : list ≠ [])
    (h : (s.lane n).ready ≤ list.length ∨ s.evictionFits n e list = true) :
    s.scanStep n e list = s.evictStart n e list := by
  unfold State.scanStep
  dsimp only
  refine if_pos ?_
  rcases h with h | h <;> simp [hne, h]

theorem Lane.scanPosition_append (l : Lane) (list : List Scanned) (x : Scanned) :
    l.scanPosition (list ++ [x]) = l.scanPosition list + 8 + roundUp8 x.header.length.toNat := by
  unfold Lane.scanPosition
  rw [List.foldl_append]
  rfl

/-! ## A scan read of an OPEN lane ends -/

/-- An event is what its body does in the state where it begins. -/
theorem event_congr {body body' : State → State} (h : body s.begin = body' s.begin) : event body s = event body' s := by
  unfold event; rw [h]

/-- A scan read returned a header that passes its check, on an OPEN lane. -/
theorem scanReadEnd_passes {list : List Scanned} {w : Word} (h : s.Ends r rest) (hr : r.owner = .scanRead n)
    (hp : s.Puts n e) (hs : e.stage = .scanning list)
    (hpass : (Header.ofWord w).passes ((s.lane n).takeSeq + BitVec.ofNat 16 list.length) = true) :
    let l := s.lane n
    let list' := list ++ [l.scanned list w]
    let u : State := (s.ended rest).setLane n { l with errors := 0 }
    (list'.length < l.ready → u.evictionFits n e list' = false →
      exec (.scanReadEnd (.ok w)) s = .next (((s.ended rest).setLane n
          { l with errors := 0, putLine := [{ e with stage := .scanning list' }] }).request
        (wordRequest (.scanRead n) (masterByte e.tx)
          (s.chainAddress n (l.scanPosition list + 8 + roundUp8 (Header.ofWord w).length.toNat)) false 0))) ∧
    (l.ready ≤ list'.length ∨ u.evictionFits n e list' = true →
      exec (.scanReadEnd (.ok w)) s = event (fun v =>
        (({ v with port := { v.port with outstanding := rest } } : State).setLane n { l with errors := 0 }).evictStart
          n e list') s) := by
  have hend := State.laneEnded_ok (s := s) (r := r) (rest := rest) (Lane.serving_of_opened hp.opened) w
  let ended : Lane := { s.lane n with errors := 0 }
  have hbody : (s.ended rest).requestEnded r (.ok w)
      = ((s.ended rest).setLane n ended).scanStep n e (list ++ [(s.lane n).scanned list w]) :=
    (State.requestEnded_scanRead (s := s.ended rest) hr (.ok w)).trans
      (State.scanReadEnded_passes hend (by exact hp.line) hs (by simp [ended, hp.opened]) (by exact hpass))
  have hlane : ((s.ended rest).setLane n ended).lane n = ended := State.lane_setLane_same _ _ _
  refine ⟨fun hlt hfit => ?_, fun hend => ?_⟩
  · rw [State.scanStep_reads (.inr ⟨by rw [hlane]; exact hlt, hfit⟩), State.setPutStage_setLane (by exact hp.line),
      hlane] at hbody
    refine (event_response_request (m := .ok w) h h.sameWork hbody).trans ?_
    have hpos : ended.scanPosition (list ++ [(s.lane n).scanned list w])
        = (s.lane n).scanPosition list + 8 + roundUp8 (Header.ofWord w).length.toNat := Lane.scanPosition_append _ _ _
    rw [hpos]
    unfold State.chainAddress
    rw [hlane]
    rfl
  · rw [State.scanStep_starts (by simp) (by rw [hlane]; exact hend)] at hbody
    exact event_congr (body := fun s => s.memoryResponse (.ok w)) ((State.begin_memoryResponse h (.ok w)).trans hbody)

end Sys2Proof.Machine

namespace Sys2Proof.Machine

variable {s t u v V : State} {n : LaneNo} {l : Lane} {e : PutEntry} {r : MemRequest} {rest : List Outstanding}

/-! ## Faults of a request that ended in success -/

/-- The block as the success of its oldest request, of lane `n`, whose header fails its check leaves it before the
answers. -/
def State.endedChecking (s : State) (r : MemRequest) (rest : List Outstanding) (n : LaneNo) : State :=
  (s.ended rest).produce (laneFaultedNotice n .headerCheck r 0)

theorem State.Ends.sameWork_checking (h : s.Ends r rest) (n : LaneNo) : s.begin.SameWork (s.endedChecking r rest n) :=
  h.sameWork.trans (State.sameWork_produce _ _)

/-- A header that fails its check faults its lane (R171). -/
theorem State.faultLane_checks (h : s.Ends r rest) (hs : (s.lane n).serving = true) (hp : s.LeavesQuietly n .put)
    (ht : (s.unhold n .put).LeavesQuietly n .take) :
    ((s.ended rest).setLane n { s.lane n with errors := 0 }).faultLane n .headerCheck r =
      (((((s.endedChecking r rest n).answerGone n ((s.lane n).putLine.filter PutEntry.notInFlight)
        ((s.lane n).takeLine.filter fun e => !e.inFlight)).unhold n .put).unhold n .take).setLane n
        { s.lane n with
          errors := 0
          state := .faulted
          cause := .headerCheck
          putLine := (s.lane n).putLine.filter fun e => !e.notInFlight
          takeLine := (s.lane n).takeLine.filter TakeEntry.inFlight }).schedule [.laneTests n] :=
  State.faultLane_setLane (l := { s.lane n with errors := 0 }) hs (hp.congr h.sameWork.hold)
    (ht.congr (by unfold State.unhold; rw [h.sameWork.hold]; rfl)) .headerCheck r

/-! ## A scan read ends the scan with an answer -/

/-- A scan read of an OPEN lane ends in failure below the fault threshold (R50). -/
theorem scanReadEnd_refuses {list : List Scanned} (h : s.Ends r rest) (hr : r.owner = .scanRead n)
    (hp : s.Puts n e) (hs : e.stage = .scanning list) (ht : (s.lane n).takeLine = [])
    (hthreshold : (s.lane n).errors + 1 ≠ (s.lane n).desc.faultThreshold) :
    exec (.scanReadEnd .error) s =
      .next ((((s.endedFailed r rest (laneByte n) (BitVec.ofNat 16 ((s.lane n).errors + 1))).answer e.tx.tag true
        0).produce (refusalNotice e.tx (entryByte e.entry) reasonLaneFull)).setLane n
        { s.lane n with
          errors := (s.lane n).errors + 1, refusals := satInc (s.lane n).refusals, putLine := [] }) := by
  have hV := h.sameWork_failed (laneByte n) (BitVec.ofNat 16 ((s.lane n).errors + 1))
  have hend := State.laneEnded_error (s := s) (r := r) (rest := rest) (Lane.serving_of_opened hp.opened) (by simp [hr])
    hthreshold
  have hbody := (State.requestEnded_scanRead (s := s.ended rest) hr .error).trans
    ((State.scanReadEnded_error hend (by exact hp.line) hs).trans
      (State.refusePut_setLane (by simp [hs]) ((hV.heldOf n .put).trans hp.putHeld) (by exact hp.line)))
  exact event_response_rests (m := .error) h ((hV.trans (State.sameWork_answer _ _ _ _)).trans
    (State.sameWork_produce _ _)) hbody (by simp [laneTasks]) (by simp)
    ⟨hp.clear, by simp [hp.opened], rfl, ht⟩ hp.closing

section Faults

variable {es : List PutEntry} {list : List Scanned} (h : s.Ends r rest) (hr : r.owner = .scanRead n)
  (ho : (s.lane n).state = .opened) (hb : (s.lane n).busy = .clear) (hw : s.cmd.work ≠ .closing n)
  (hl : (s.lane n).putLine = e :: es) (hes : ∀ x ∈ es, x.stage = .waiting)
  (htakes : ∀ x ∈ (s.lane n).takeLine, x.stage = .waiting) (hput : s.heldOf n .put = none)
  (htake : s.heldOf n .take = none) (hs : e.stage = .scanning list)

include h hr ho hb hw hl hes htakes hput htake hs

/-- A scan read returned a header that fails its check (R171). -/
theorem scanReadEnd_checks {w : Word}
    (hpass : (Header.ofWord w).passes ((s.lane n).takeSeq + BitVec.ofNat 16 list.length) = false) :
    exec (.scanReadEnd (.ok w)) s = .next ((((s.endedChecking r rest n).answerGone n es (s.lane n).takeLine).answer
      e.tx.tag true 0).setLane n
        { s.lane n with errors := 0, state := .faulted, cause := .headerCheck, putLine := [], takeLine := [] }) := by
  obtain ⟨hwait, hstay⟩ := filter_puts_behind (e := e) (by simp [hs]) hes
  obtain ⟨htwait, htstay⟩ := filter_takes_waiting htakes
  have hV := (h.sameWork_checking n).trans (State.sameWork_answerGone _ n es (s.lane n).takeLine)
  have hfault := State.faultLane_checks h (Lane.serving_of_opened ho) (State.leavesQuietly_of_none hput)
    (State.takeLeavesQuietly_of_parcel hput (by simp [htake]))
  rw [hl, hwait, hstay, htwait, htstay, State.unhold_none ((hV.heldOf n .put).trans hput),
    State.unhold_none ((hV.heldOf n .take).trans htake)] at hfault
  have hend := State.laneEnded_ok (s := s) (r := r) (rest := rest) (Lane.serving_of_opened ho) w
  let W := (s.endedChecking r rest n).answerGone n es (s.lane n).takeLine
  let faulted : Lane := { s.lane n with errors := 0, state := .faulted, cause := .headerCheck, putLine := [e], takeLine := [] }
  have hbody : (s.ended rest).requestEnded r (.ok w) = ((W.answer e.tx.tag true 0).setLane n
      { faulted with putLine := [] }).schedule ([.laneTests n] ++ [.laneTests n, .evalTake n, .evalPut n]) := by
    refine (State.requestEnded_scanRead (s := s.ended rest) hr (.ok w)).trans
      ((State.scanReadEnded_fails hend (by exact hl) hs (by simp [ho]) (by exact hpass)).trans
        ((congrArg (fun u => State.faultPut u n e) hfault).trans ?_))
    rw [← State.schedule_schedule]
    exact State.faultPut_setLane (s := W.schedule [.laneTests n]) (l := faulted) (by simp [hs])
      ((hV.heldOf n .put).trans hput) rfl
  exact event_response_rests (m := .ok w) h (hV.trans (State.sameWork_answer _ _ _ _)) hbody (by simp [laneTasks])
    (by simp) ⟨hb, by simp, rfl, rfl⟩ hw

/-- A scan read fails at the fault threshold: its put is still refused (log 33). -/
theorem scanReadEnd_faults (hthreshold : (s.lane n).errors + 1 = (s.lane n).desc.faultThreshold) :
    exec (.scanReadEnd .error) s =
      .next (((((s.endedFaulting r rest n .memoryErrors).answerGone n es (s.lane n).takeLine).answer e.tx.tag true
        0).produce (refusalNotice e.tx (entryByte e.entry) reasonLaneFull)).setLane n
        { s.lane n with
          errors := (s.lane n).errors + 1, state := .faulted, cause := .memoryErrors,
          refusals := satInc (s.lane n).refusals, putLine := [], takeLine := [] }) := by
  obtain ⟨hwait, hstay⟩ := filter_puts_behind (e := e) (by simp [hs]) hes
  obtain ⟨htwait, htstay⟩ := filter_takes_waiting htakes
  have hV := (h.sameWork_faulting n .memoryErrors).trans (State.sameWork_answerGone _ n es (s.lane n).takeLine)
  have hend := State.laneEnded_faults h (Lane.serving_of_opened ho) (.inr ⟨by simp [hr], hthreshold, rfl⟩)
    (State.leavesQuietly_of_none hput) (State.takeLeavesQuietly_of_parcel hput (by simp [htake]))
  rw [hl, hwait, hstay, htwait, htstay, State.unhold_none ((hV.heldOf n .put).trans hput),
    State.unhold_none ((hV.heldOf n .take).trans htake)] at hend
  let W := (s.endedFaulting r rest n .memoryErrors).answerGone n es (s.lane n).takeLine
  let faulted : Lane := { s.lane n with
    errors := (s.lane n).errors + 1, state := .faulted, cause := .memoryErrors, putLine := [e], takeLine := [] }
  have hbody : (s.ended rest).requestEnded r .error =
      (((W.answer e.tx.tag true 0).produce (refusalNotice e.tx (entryByte e.entry) reasonLaneFull)).setLane n
        { faulted with refusals := satInc (s.lane n).refusals, putLine := [] }).schedule
          ([.laneTests n] ++ [.laneTests n, .evalTake n, .evalPut n]) := by
    refine (State.requestEnded_scanRead (s := s.ended rest) hr .error).trans
      ((State.scanReadEnded_error hend rfl hs).trans ?_)
    rw [← State.schedule_schedule]
    refine (State.refusePut_setLane (s := W.schedule [.laneTests n]) (l := faulted) (by simp [hs])
      ((hV.heldOf n .put).trans hput) rfl).trans ?_
    rw [show (W.schedule [.laneTests n]).answer e.tx.tag true 0 = (W.answer e.tx.tag true 0).schedule [.laneTests n]
      from rfl, State.produce_schedule]
    rfl
  exact event_response_rests (m := .error) h ((hV.trans (State.sameWork_answer _ _ _ _)).trans
    (State.sameWork_produce _ _)) hbody (by simp [laneTasks]) (by simp) ⟨hb, by simp, rfl, rfl⟩ hw

end Faults

/-- A scan read ends OK on a FAULTED lane (R54). -/
theorem scanReadEnd_onFaulted {list : List Scanned} {w : Word} (h : s.Ends r rest) (hr : r.owner = .scanRead n)
    (hst : (s.lane n).state = .faulted) (hb : (s.lane n).busy = .clear) (hw : s.cmd.work ≠ .closing n)
    (hl : (s.lane n).putLine = [e]) (ht : (s.lane n).takeLine = []) (hput : s.heldOf n .put = none)
    (hs : e.stage = .scanning list) : exec (.scanReadEnd (.ok w)) s =
      .next (((s.ended rest).answer e.tx.tag true 0).setLane n { s.lane n with putLine := [] }) := by
  have hend := State.laneEnded_ok_faulted (s := s) (r := r) (rest := rest) (Lane.serving_of_faulted hst) w
  have hbody := (State.requestEnded_scanRead (s := s.ended rest) hr (.ok w)).trans
    ((State.scanReadEnded_faulted hend hl hs hst).trans
      (State.faultPut_setLane (s := s.ended rest) (by simp [hs]) (by exact hput) hl))
  exact event_response_rests (m := .ok w) h (h.sameWork.trans (State.sameWork_answer _ _ _ _)) hbody
    (by simp [laneTasks]) (by simp) ⟨hb, by simp [hst], rfl, ht⟩ hw

end Sys2Proof.Machine

namespace Sys2Proof.Machine

variable {s t u v V : State} {n : LaneNo} {l : Lane} {e : PutEntry}

/-! ## The full action EVICT begins (R47, R49, R50) -/

/-- A put that keeps a byte, or opens a parcel, and finds the lane full. -/
theorem State.evaluatePut_full {kind : WaitKind}
    (hk : ¬ ((s.lane n).openParcel.isSome = true ∧ (s.lane n).keptBytes e.tx = []))
    (hs : s.spaceCheck n (s.lane n).openParcel.isNone ((s.lane n).putNeed e.tx) = .full kind) :
    s.evaluatePut n e = s.fullPut n e kind := by
  unfold State.evaluatePut
  dsimp only
  rw [if_neg (by simpa using hk), hs]

theorem State.fullPut_evict (ha : (s.lane n).desc.fullAction = .evict) (kind : WaitKind) :
    s.fullPut n e kind = s.evictPut n e := by
  unfold State.fullPut; rw [ha]

/-- With a take in flight the put waits for it (R49). -/
theorem State.evictPut_waits (hr : (s.lane n).ready ≠ 0) (ht : (s.lane n).takeInFlight = true) :
    s.evictPut n e = s.setPutStage n .waitTake := by
  unfold State.evictPut
  dsimp only
  rw [if_neg hr, if_pos ht]

/-- With no take in flight the scan begins (R50). -/
theorem State.evictPut_scans (hr : (s.lane n).ready ≠ 0) (ht : ∀ x ∈ (s.lane n).takeLine, x.stage = .waiting) :
    s.evictPut n e = s.scanStep n e (s.lane n).scanStart := by
  have hi : (s.lane n).takeInFlight = false := by
    simpa [Lane.takeInFlight, TakeEntry.inFlight] using ht
  unfold State.evictPut
  dsimp only
  rw [if_neg hr, hi]
  exact if_neg (by simp)

/-- What a put needs and keeps does not depend on the put line. -/
theorem Lane.putNeed_putLine (l : Lane) (es : List PutEntry) (x : Transaction) :
    ({ l with putLine := es } : Lane).putNeed x = l.putNeed x := rfl

theorem Lane.keptBytes_putLine (l : Lane) (es : List PutEntry) (x : Transaction) :
    ({ l with putLine := es } : Lane).keptBytes x = l.keptBytes x := rfl

section Evicts

variable {x : Transaction} {i : Fin 23} {base : Addr} {exponent : Nat} {kind : WaitKind}
  (hr : s.Routes x i (.put base exponent n)) (hd : x.direction = .write) (hq : s.PutQuiet n)
  (hk : ¬ ((s.lane n).openParcel.isSome = true ∧ (s.lane n).keptBytes x = []))
  (hs : s.spaceCheck n (s.lane n).openParcel.isNone ((s.lane n).putNeed x) = .full kind)
  (ha : (s.lane n).desc.fullAction = .evict)

/-- The block with a put that has joined the empty put line of lane `n`. -/
def State.enteredPut (s : State) (x : Transaction) (i : Fin 23) (n : LaneNo) : State :=
  (s.begin.occupy x).setLane n { s.lane n with putLine := [arrivedPut x i] }

theorem State.enteredPut_lane (s : State) (x : Transaction) (i : Fin 23) (n : LaneNo) :
    (s.enteredPut x i n).lane n = { s.lane n with putLine := [arrivedPut x i] } := State.lane_setLane_same _ _ _

include hr hd hq hk hs ha

/-- A put that finds the lane full under EVICT, in the event that presents it. -/
theorem present_evicts (hv : (s.enteredPut x i n).evictPut n (arrivedPut x i) = v) (htodo : v.todo = [])
    (hc : v.Calm) : present x s = .next v := by
  have hl := s.enteredPut_lane x i n
  have hpool : (s.enteredPut x i n).pool = s.pool := rfl
  have hhold : (s.enteredPut x i n).hold = s.hold := rfl
  have hfull : (s.enteredPut x i n).spaceCheck n ((s.enteredPut x i n).lane n).openParcel.isNone
      (((s.enteredPut x i n).lane n).putNeed x) = .full kind := by
    rw [State.spaceCheck_congr (s := s) hpool hhold hl rfl rfl rfl rfl, hl, Lane.putNeed_putLine]
    exact hs
  have heval : (s.enteredPut x i n).evalPut n = v := by
    rw [State.evalPut_put (e := arrivedPut x i) (by rw [hl]) rfl (arrivedPut_kind x i),
      State.evaluatePut_full (e := arrivedPut x i) (by rw [hl, Lane.keptBytes_putLine]; exact hk) hfull,
      State.fullPut_evict (by rw [hl]; exact ha)]
    exact hv
  exact present_does hr.calm hr.free (hr.take_put hd hq) rfl
    (State.Does.step (s := s.enteredPut x i n) heval htodo (.nil _)) (by decide) htodo hc

/-- The put waits for the take in flight. -/
theorem present_waitsForTake {y : TakeEntry} {more : List TakeEntry} (hready : (s.lane n).ready ≠ 0)
    (ht : (s.lane n).takeLine = y :: more) (hy : y.stage ≠ .waiting) :
    present x s = .next ((s.begin.occupy x).setLane n
      { s.lane n with putLine := [{ arrivedPut x i with stage := .waitTake }] }) := by
  have hl := s.enteredPut_lane x i n
  refine present_evicts hr hd hq hk hs ha ?_ rfl (hr.calm.congr rfl rfl rfl)
  rw [State.evictPut_waits (by rw [hl]; exact hready)
    (by rw [hl]; simp [Lane.takeInFlight, ht, TakeEntry.inFlight_iff.mpr hy])]
  exact State.setPutStage_setLane rfl _

/-- The scan reads the header slot behind those the put knows already. -/
theorem present_scans {list : List Scanned} (hready : (s.lane n).ready ≠ 0)
    (ht : ∀ y ∈ (s.lane n).takeLine, y.stage = .waiting) (hstart : (s.lane n).scanStart = list)
    (hgo : list = [] ∨ list.length < (s.lane n).ready ∧
      (s.enteredPut x i n).evictionFits n (arrivedPut x i) list = false) :
    present x s = .next (((s.begin.occupy x).setLane n
      { s.lane n with putLine := [{ arrivedPut x i with stage := .scanning list }] }).request
        (wordRequest (.scanRead n) (masterByte x) (s.chainAddress n ((s.lane n).scanPosition list)) false 0)) := by
  have hl := s.enteredPut_lane x i n
  have hlist : ((s.enteredPut x i n).lane n).scanStart = list := by rw [hl]; exact hstart
  refine present_evicts hr hd hq hk hs ha ?_ rfl (hr.calm.congr rfl rfl rfl)
  rw [State.evictPut_scans (by rw [hl]; exact hready) (by rw [hl]; exact ht), hlist,
    State.scanStep_reads (by rw [hl]; exact hgo), hl]
  unfold State.chainAddress
  rw [hl]
  exact congrArg (State.request · _) (State.setPutStage_setLane rfl _)

end Evicts

/-! ## Evictions (R48) -/

theorem Lane.evictAll_append (l : Lane) (list : List Scanned) (h : Scanned) :
    l.evictAll (list ++ [h]) = evictOne (l.evictAll list) h := List.foldl_append

/-- The head parcel is the only ready one, and no parcel is open: the chain goes. -/
theorem Lane.dropHead_last (hr : l.ready = 1) (ho : l.openParcel = none) (length : Nat) :
    l.dropHead length = ({ l with
      ready := 0, takeSeq := l.takeSeq + 1, cache := none, armed := l.armed || decide (0 < l.desc.readyThreshold)
      chain := [], headOffset := 0, tailOffset := 0 }, l.chain) := by
  unfold Lane.dropHead Lane.rearm
  rw [hr, ho]

/-- The head parcel is the only ready one beside an open parcel: the head moves to the open parcel's header slot. -/
theorem Lane.dropHead_open {p : OpenParcel} (hr : l.ready = 1) (ho : l.openParcel = some p) (hp : p.offset < 512)
    (length : Nat) :
    l.dropHead length = ({ l with
      ready := 0, takeSeq := l.takeSeq + 1, cache := none, armed := l.armed || decide (0 < l.desc.readyThreshold)
      chain := l.chain.drop l.headLimit, headOffset := p.offset }, l.chain.take l.headLimit) := by
  have hpos : l.openPosition p / 512 = l.chain.findIdx (· == p.segment) := by unfold Lane.openPosition; omega
  have hoff : l.openPosition p % 512 = p.offset := by unfold Lane.openPosition; omega
  have hlimit : min (l.chain.findIdx (· == p.segment)) l.headLimit = l.headLimit := by
    unfold Lane.headLimit; rw [ho]; simp
  unfold Lane.dropHead Lane.rearm Lane.moveHead
  rw [hr, ho]
  dsimp only
  rw [hpos, hoff]
  have : ∀ l' : Lane, l'.chain = l.chain → l'.openParcel = l.openParcel → l'.headLimit = l.headLimit := by
    intro l' h1 h2; unfold Lane.headLimit; rw [h1, h2]
  rw [this, hlimit] <;> simp [ho]

/-- Other ready parcels are behind the head parcel: the head moves to the next one's header slot. -/
theorem Lane.dropHead_next (hr : 1 < l.ready) (length : Nat) :
    let next := l.headOffset + 8 + roundUp8 length
    let k := min (next / 512) l.headLimit
    l.dropHead length = ({ l with
      ready := l.ready - 1, takeSeq := l.takeSeq + 1, cache := none
      armed := l.armed || decide (l.ready - 1 < l.desc.readyThreshold)
      chain := l.chain.drop k, headOffset := next % 512 }, l.chain.take k) := by
  obtain ⟨m, hm⟩ : ∃ m, l.ready = m + 2 := ⟨l.ready - 2, by omega⟩
  unfold Lane.dropHead Lane.rearm Lane.moveHead Lane.headLimit
  rw [hm]

end Sys2Proof.Machine

namespace Sys2Proof.Machine

variable {s t u v V : State} {n : LaneNo} {l : Lane} {e : PutEntry}

/-! ## The start event of an evicting put (R29, R30, R48) -/

/-- The value32 of a PARCEL_EVICTED notice. -/
theorem flags_append_length (flags : Byte) (length : Half) :
    ((0 : Byte) ++ flags ++ length : BitVec 32) = BitVec.ofNat 32 (length.toNat + 65536 * flags.toNat) := by
  have hf := flags.isLt
  have hl := length.isLt
  refine BitVec.eq_of_toNat_eq ?_
  rw [BitVec.toNat_append, BitVec.toNat_append, BitVec.toNat_ofNat,
    ← Nat.shiftLeft_add_eq_or_of_lt length.isLt, ← Nat.shiftLeft_add_eq_or_of_lt flags.isLt]
  simp only [Nat.shiftLeft_eq]
  have : (0 : Byte).toNat = 0 := rfl
  omega

theorem State.evictedNotice_eq (s : State) (n : LaneNo) (master : Byte) (h : Scanned) :
    s.evictedNotice n master h =
      { kind := .parcelEvicted, source := laneByte n, reason := 0, master := master, value16 := h.header.sequence,
        address := s.poolAddress h.segment h.offset,
        value32 := BitVec.ofNat 32 (h.header.length.toNat + 65536 * h.header.flags.toNat) } := by
  unfold State.evictedNotice
  rw [flags_append_length]

/-- The block with the evictions of `list` made, which leave lane `n` as `l`, and noticed. -/
def State.evicted (s : State) (n : LaneNo) (l : Lane) (master : Byte) (list : List Scanned) : State :=
  list.foldl (fun u h => u.produce (s.evictedNotice n master h)) (s.setLane n l)

theorem State.evicted_eq (s : State) (n : LaneNo) (l : Lane) (master : Byte) (list : List Scanned) :
    s.evicted n l master list = list.foldl (fun u h => u.produce
      { kind := .parcelEvicted, source := laneByte n, reason := 0, master := master, value16 := h.header.sequence,
        address := s.poolAddress h.segment h.offset,
        value32 := BitVec.ofNat 32 (h.header.length.toNat + 65536 * h.header.flags.toNat) }) (s.setLane n l) := by
  unfold State.evicted
  simp only [State.evictedNotice_eq]

/-- The notices of the evictions all name slots of the same pool. -/
theorem State.foldl_evictedNotice (s : State) (n : LaneNo) (master : Byte) (list : List Scanned) :
    ∀ u : State, u.pool = s.pool → list.foldl (fun u h => u.produce (u.evictedNotice n master h)) u
      = list.foldl (fun u h => u.produce (s.evictedNotice n master h)) u := by
  induction list with
  | nil => exact fun _ _ => rfl
  | cons h list ih =>
    intro u hu
    have hn : u.evictedNotice n master h = s.evictedNotice n master h := by
      unfold State.evictedNotice State.poolAddress; rw [hu]
    rw [List.foldl_cons, List.foldl_cons, hn]
    exact ih _ (by simpa using hu)

/-- The put fits after evicting the list: no parcel limit, and room, a freed segment or a claim (R50). -/
theorem State.evictionFits_iff (list : List Scanned) :
    s.evictionFits n e list = true ↔
      ¬ (((s.lane n).evictAll list).1.openParcel = none ∧ Config.parcelLimit ≤ ((s.lane n).evictAll list).1.ready) ∧
      (((s.lane n).evictAll list).1.putNeed e.tx ≤ ((s.lane n).evictAll list).1.room ∨
        ((s.lane n).evictAll list).2 ≠ [] ∨
        (((s.lane n).evictAll list).1.chain.length < ((s.lane n).evictAll list).1.desc.quota ∧
          s.aheadAtPool n < s.pool.freeCount)) := by
  unfold State.evictionFits State.claimGranted
  simp only [Bool.and_eq_true, Bool.or_eq_true, Bool.not_eq_true', Bool.and_eq_false_iff, decide_eq_true_eq,
    decide_eq_false_iff_not, Option.isNone_eq_false_iff, List.isEmpty_eq_false_iff, or_assoc,
    not_and_or, Option.isSome_iff_ne_none]

section EvictStart

variable (list : List Scanned)

/-- The start event: the evictions, then the put's own part. -/
theorem State.evictStart_eq :
    s.evictStart n e list =
      let r := (s.lane n).evictAll list
      let master := masterByte e.tx
      let u := s.evicted n r.1 master list
      if !s.evictionFits n e list then (u.refusePut n e).returnSegments r.2 fun _ => false
      else (if r.1.putNeed e.tx ≤ r.1.room then (u.startPut n e none).returnSegments r.2 fun _ => false
        else match r.2 with
          | f :: surplus => (u.startPut n e (some f)).returnSegments surplus fun _ => false
          | [] => (u.claim true master).2.startPut n e (u.claim true master).1).schedule [.evalTake n] := by
  unfold State.evictStart State.evicted
  dsimp only
  rw [State.foldl_evictedNotice s n (masterByte e.tx) list (s.setLane n ((s.lane n).evictAll list).1) rfl]
    <;> rfl

variable {list}

theorem State.evictStart_refuses (hf : s.evictionFits n e list = false) :
    s.evictStart n e list = ((s.evicted n ((s.lane n).evictAll list).1 (masterByte e.tx) list).refusePut n
      e).returnSegments ((s.lane n).evictAll list).2 fun _ => false := by
  rw [State.evictStart_eq]
  exact if_pos (by simp [hf])

variable (hf : s.evictionFits n e list = true)

include hf

theorem State.evictStart_room
    (hr : ((s.lane n).evictAll list).1.putNeed e.tx ≤ ((s.lane n).evictAll list).1.room) :
    s.evictStart n e list = (((s.evicted n ((s.lane n).evictAll list).1 (masterByte e.tx) list).startPut n e
      none).returnSegments ((s.lane n).evictAll list).2 fun _ => false).schedule [.evalTake n] := by
  rw [State.evictStart_eq]
  dsimp only
  rw [if_neg (by simp [hf]), if_pos hr]

variable (hr : ((s.lane n).evictAll list).1.room < ((s.lane n).evictAll list).1.putNeed e.tx)

include hr

theorem State.evictStart_freed {f : Nat} {surplus : List Nat} (hl : ((s.lane n).evictAll list).2 = f :: surplus) :
    s.evictStart n e list = (((s.evicted n ((s.lane n).evictAll list).1 (masterByte e.tx) list).startPut n e
      (some f)).returnSegments surplus fun _ => false).schedule [.evalTake n] := by
  rw [State.evictStart_eq]
  dsimp only
  rw [if_neg (by simp [hf]), if_neg (by omega), hl]

theorem State.evictStart_claims (hl : ((s.lane n).evictAll list).2 = []) :
    s.evictStart n e list =
      let u := s.evicted n ((s.lane n).evictAll list).1 (masterByte e.tx) list
      ((u.claim true (masterByte e.tx)).2.startPut n e (u.claim true (masterByte e.tx)).1).schedule [.evalTake n] := by
  rw [State.evictStart_eq]
  dsimp only
  rw [if_neg (by simp [hf]), if_neg (by omega), hl]

end EvictStart

/-- A put that scanned leaves its line with its refusal, whoever else is in the line. -/
theorem State.refusePut_scan (hh : s.heldOf n .put = none) (hs : e.stage ≠ .waiting) :
    s.refusePut n e = (((s.laneRefuse n e.entry e.tx reasonLaneFull).updLane n fun l =>
      { l with putLine := l.putLine.tail }).schedule [.laneTests n, .evalTake n, .evalPut n]) := by
  have hheld : (s.laneRefuse n e.entry e.tx reasonLaneFull).heldOf n .put = none := by
    unfold State.laneRefuse
    exact ((State.sameWork_produce _ _).heldOf n .put).trans hh
  unfold State.refusePut
  rw [State.leavePut_scan hs]
  unfold State.leaveScan
  rw [State.dropHeld_none hheld]

theorem Lane.room_eq (l : Lane) : l.room = if l.chain = [] then 0 else 512 - l.tailOffset := by
  unfold Lane.room
  simp only [List.isEmpty_iff]
  rfl

end Sys2Proof.Machine

namespace Sys2Proof.Machine

/-- The eviction of one parcel, by the parcels that are left and the chain (R48). -/
theorem evictOne_forms (l : Lane) (gone : List Nat) (h : Scanned) :
    let left : Lane := { l with
      ready := l.ready - 1, takeSeq := l.takeSeq + 1, cache := none, evicted := satInc l.evicted, gap := true,
      armed := l.armed || decide (l.ready - 1 < l.desc.readyThreshold) }
    (l.ready = 1 → l.openParcel = none →
      evictOne (l, gone) h = ({ left with chain := [], headOffset := 0, tailOffset := 0 }, gone ++ l.chain)) ∧
    (∀ p, l.ready = 1 → l.openParcel = some p → p.offset < 512 →
      evictOne (l, gone) h = ({ left with chain := l.chain.drop l.headLimit, headOffset := p.offset },
        gone ++ l.chain.take l.headLimit)) ∧
    (1 < l.ready →
      let next := l.headOffset + 8 + roundUp8 h.header.length.toNat
      let k := min (next / 512) l.headLimit
      evictOne (l, gone) h =
        ({ left with chain := l.chain.drop k, headOffset := next % 512 }, gone ++ l.chain.take k)) := by
  refine ⟨fun hr ho => ?_, fun p hr ho hp => ?_, fun hr => ?_⟩
  · unfold evictOne
    dsimp only
    rw [Lane.dropHead_last hr ho, hr]
  · unfold evictOne
    dsimp only
    rw [Lane.dropHead_open hr ho hp, hr]
  · unfold evictOne
    dsimp only
    rw [Lane.dropHead_next hr]

/-- Settles O51. -/
theorem scanReadEndCompletes : Obligations.ScanReadEndCompletes := by
  refine ⟨fun s r rest n e list h hr hp hs ht => ⟨fun w hpass => ?_, fun hthreshold => ?_⟩,
    fun s r rest n e es list w h hr ho hb hw hl hes htakes hput htake hs => ⟨fun hpass => ?_, fun hthreshold => ?_⟩,
    fun s r rest n e list w h hr hst hb hw hl ht hput hs => ?_,
    fun c s x i base exponent n kind hx hr hd hq hk hs ha hready => ?_,
    fun l gone h => ?_, fun s n e list => ?_⟩
  · exact scanReadEnd_passes h hr hp hs hpass
  · refine (scanReadEnd_refuses h hr hp hs ht hthreshold).trans ?_
    rw [← State.produce_setLane]
    rfl
  · refine (scanReadEnd_checks h hr ho hb hw hl hes htakes hput htake hs hpass).trans ?_
    rw [← State.answer_setLane]
    unfold State.endedChecking laneFaultedNotice
    rw [hr]
    rfl
  · refine (scanReadEnd_faults h hr ho hb hw hl hes htakes hput htake hs hthreshold).trans ?_
    rw [← State.produce_setLane, ← State.answer_setLane]
    unfold State.endedFaulting laneFaultedNotice
    rw [hr]
    rfl
  · exact scanReadEnd_onFaulted h hr hst hb hw hl ht hput hs
  · dsimp only
    rw [exec_of_presents hx]
    refine ⟨fun y more htl hy => present_waitsForTake hr hd hq hk hs ha hready htl hy, fun htl hc => ?_,
      fun hcache htl hc hmore hfit => ?_⟩
    · exact present_scans hr hd hq hk hs ha hready htl (by unfold Lane.scanStart; rw [hc]) (.inl rfl)
    · exact present_scans hr hd hq hk hs ha hready htl (by unfold Lane.scanStart; rw [hc]) (.inr ⟨hmore, hfit⟩)
  · obtain ⟨hlast, hopen, hnext⟩ := evictOne_forms l gone h
    refine ⟨fun h1 h2 => hlast h1 h2, fun p h1 h2 h3 => ?_, fun h1 => hnext h1, rfl, fun list => l.evictAll_append list h⟩
    have := hopen p h1 h2 h3
    unfold Lane.headLimit at this
    rw [h2] at this ⊢
    exact this
  · dsimp only
    have hevicted := s.evicted_eq n ((s.lane n).evictAll list).1 (masterByte e.tx) list
    rw [← ((s.lane n).evictAll list).1.room_eq, ← hevicted]
    exact ⟨State.evictionFits_iff list, fun hf hr => State.evictStart_room hf hr,
      fun f surplus hf hr hl => State.evictStart_freed hf hr hl, fun hf hr hl => State.evictStart_claims hf hr hl,
      State.evictStart_refuses, State.refusePut_scan⟩

end Sys2Proof.Machine

namespace Sys2Proof.Machine

variable {s t u v V : State} {n : LaneNo} {l : Lane} {e : TakeEntry} {es : List TakeEntry} {r : MemRequest}
  {rest : List Outstanding}

/-! ## The first take of a line leaves it -/

/-- The first take of a line that nobody is held for leaves it. -/
theorem State.leaveTake_cons (hh : s.heldOf n .take = none) (hl : l.takeLine = e :: es) :
    (s.setLane n l).leaveTakeLine n
      = (s.setLane n { l with takeLine := es }).schedule [.laneTests n, .waitEnd n, .evalTake n] := by
  unfold State.leaveTakeLine
  rw [State.dropHeld_none (by exact hh), State.updLane_setLane, hl]
  rfl

/-- The first take of a line is answered OK. -/
theorem State.answerTake_cons (hh : s.heldOf n .take = none) (hl : l.takeLine = e :: es) (hd : e.tx.direction = .read)
    (d : Word) : (s.setLane n l).answerTake n e d =
      ((s.answer e.tx.tag false (maskWord (laneEnables e.tx) d)).setLane n { l with takeLine := es }).schedule
        [.laneTests n, .waitEnd n, .evalTake n] := by
  unfold State.answerTake State.answerOk
  rw [hd]
  dsimp only
  rw [State.answer_setLane, State.leaveTake_cons (by exact hh) hl]

/-- The first take of a line is answered ERROR. -/
theorem State.failTake_cons (hh : s.heldOf n .take = none) (hl : l.takeLine = e :: es) :
    (s.setLane n l).failTake n e = ((s.answer e.tx.tag true 0).setLane n { l with takeLine := es }).schedule
      [.laneTests n, .waitEnd n, .evalTake n] := by
  unfold State.failTake State.answerError
  rw [State.answer_setLane, State.leaveTake_cons (by exact hh) hl]

/-- The first take of a line goes to another stage. -/
theorem State.setTakeStage_cons (hl : l.takeLine = e :: es) (stage : TakeStage) :
    (s.setLane n l).setTakeStage n stage = s.setLane n { l with takeLine := { e with stage := stage } :: es } := by
  unfold State.setTakeStage
  rw [State.updLane_setLane, hl]

/-! ## Releases (R67, R69) -/

/-- The lane after the release of its head parcel. -/
def Lane.afterRelease (l : Lane) (length : Nat) : Lane :=
  { (l.dropHead length).1 with released := l.released + 1, gap := false }

theorem Lane.dropHead_released (l : Lane) (length : Nat) : (l.dropHead length).1.released = l.released := by
  unfold Lane.dropHead
  dsimp only
  split <;> simp [Lane.rearm, Lane.moveHead]

/-- With nobody held a release is a matter of its lane and the pool. -/
theorem State.releaseHead_setLane (hh : s.hold.held = []) (h : Header) :
    (s.setLane n l).releaseHead n h
      = (s.pushSegments (l.dropHead h.length.toNat).2).setLane n (l.afterRelease h.length.toNat) := by
  unfold State.releaseHead Lane.afterRelease
  dsimp only
  rw [State.lane_setLane_same, State.setLane_setLane, State.returnSegments_none (by exact hh), State.pushSegments_setLane,
    Lane.dropHead_released]

/-- The head cache does not matter to what a release leaves of a lane with a ready parcel. -/
theorem Lane.dropHead_cache (hr : l.ready ≠ 0) (c : Option HeadCache) (length : Nat) :
    ({ l with cache := c } : Lane).dropHead length = l.dropHead length := by
  unfold Lane.dropHead
  dsimp only
  split
  · contradiction
  all_goals rfl

theorem Lane.afterRelease_takeLine (l : Lane) (length : Nat) : (l.afterRelease length).takeLine = l.takeLine := by
  obtain ⟨-, -, -, -, -, -, h⟩ := l.dropHead_frame length
  exact h

theorem Lane.afterRelease_putLine (l : Lane) (length : Nat) : (l.afterRelease length).putLine = l.putLine := by
  obtain ⟨-, -, -, -, -, h, -⟩ := l.dropHead_frame length
  exact h

theorem Lane.afterRelease_state (l : Lane) (length : Nat) : (l.afterRelease length).state = l.state := by
  obtain ⟨h, -⟩ := l.dropHead_frame length
  exact h

theorem Lane.afterRelease_busy (l : Lane) (length : Nat) : (l.afterRelease length).busy = l.busy := by
  obtain ⟨-, h, -⟩ := l.dropHead_frame length
  exact h

/-! ## The work of a take whose header is in the head cache (R62, R65, R66) -/

section Proceed

variable (hh : s.heldOf n .take = none) (hl : l.takeLine = e :: es) (hd : e.tx.direction = .read) (c : HeadCache)

include hl hd

/-- A head info read is answered with the head info word. -/
theorem State.answerHeadInfo_cons (hh : s.heldOf n .take = none) :
    (s.setLane n l).answerHeadInfo n e c =
      ((s.answer e.tx.tag false (maskWord (laneEnables e.tx) (headInfoWord c l.gap))).setLane n
        { l with takeLine := es }).schedule [.laneTests n, .waitEnd n, .evalTake n] := by
  unfold State.answerHeadInfo
  rw [State.lane_setLane_same, State.answerTake_cons hh hl hd]

/-- A release is carried out, with nobody held. -/
theorem State.carryRelease_cons (hheld : s.hold.held = []) :
    (s.setLane n l).carryRelease n e c =
      (((s.pushSegments (l.dropHead c.header.length.toNat).2).answer e.tx.tag false
        (maskWord (laneEnables e.tx) (releaseWord c.header (l.ready - 1) l.gap))).setLane n
          { l.afterRelease c.header.length.toNat with takeLine := es }).schedule
            [.laneTests n, .waitEnd n, .evalTake n] := by
  have hnone : (s.pushSegments (l.dropHead c.header.length.toNat).2).heldOf n .take = none := by
    unfold State.heldOf
    rw [show (s.pushSegments (l.dropHead c.header.length.toNat).2).hold.held = [] from hheld]
    rfl
  unfold State.carryRelease
  dsimp only
  rw [State.lane_setLane_same, State.releaseHead_setLane hheld,
    State.answerTake_cons hnone ((l.afterRelease_takeLine _).trans hl) hd]

end Proceed

/-- A data read that takes a byte issues its body reads (R62). -/
theorem State.startDataRead_cons (hl : l.takeLine = e :: es) (c : HeadCache) (hk : takeCount c e.tx ≠ 0) :
    let k := takeCount c e.tx
    let pieces := wordPieces (l.headOffset + 8 + c.consumed) (List.replicate k 0)
    (s.setLane n l).startDataRead n e c = (s.setLane n
      { l with takeLine := { e with stage := .reading k pieces.length false [] } :: es }).requestAll
      (pieces.map fun (p, piece) =>
        { owner := .takeRead n, master := masterByte e.tx, address := s.poolAddress (segmentAt l.chain p) (p % 512),
          write := false, enables := laneMask (p % 8) piece.length, data := 0 }) := by
  unfold State.startDataRead
  dsimp only
  rw [if_neg hk, State.setTakeStage_cons hl, State.lane_setLane_same]
  unfold State.chainReads State.chainAddress
  rw [State.lane_setLane_same, List.length_map]
  rfl

/-! ## The last body read of a data read (R63, R64, R69) -/

/-- The lane as the last body read of a data read leaves it before AUTO_RELEASE: the bytes it took are consumed, and one
that took fewer than it asked for is an overread. -/
def Lane.consume (l : Lane) (c : HeadCache) (k size : Nat) : Lane :=
  { l with
    cache := some { c with consumed := c.consumed + k }
    overreads := if k < size then satInc l.overreads else l.overreads }

section DataRead

variable {k : Nat} {got : List Byte} {c : HeadCache} (hc : l.cache = some c)

include hc

theorem State.dataReadDone_eq : (s.setLane n l).dataReadDone n e k got =
    (if l.desc.autoRelease ∧ c.consumed + k = c.header.length.toNat ∧ l.state ≠ .faulted then
      (s.setLane n (l.consume c k e.tx.size)).releaseHead n c.header
    else s.setLane n (l.consume c k e.tx.size)).answerTake n e (placeBytes (firstLane e.tx) got) := by
  unfold State.dataReadDone
  rw [State.lane_setLane_same, hc]
  dsimp only
  rw [State.updLane_setLane]
  have hlane : (if k < e.tx.size then (s.setLane n { l with cache := some { c with consumed := c.consumed + k } }).updLane n
        Lane.overread else s.setLane n { l with cache := some { c with consumed := c.consumed + k } })
      = s.setLane n (l.consume c k e.tx.size) := by
    unfold Lane.consume
    split
    · rw [State.updLane_setLane]
      rfl
    · rfl
  rw [hlane, State.lane_setLane_same]
  rfl

variable (hl : l.takeLine = e :: es) (hd : e.tx.direction = .read)

include hl hd

/-- The read is answered, and the head parcel stays. -/
theorem State.dataReadDone_keeps (hh : s.heldOf n .take = none)
    (hr : ¬ (l.desc.autoRelease ∧ c.consumed + k = c.header.length.toNat ∧ l.state ≠ .faulted)) :
    (s.setLane n l).dataReadDone n e k got =
      ((s.answer e.tx.tag false (maskWord (laneEnables e.tx) (placeBytes (firstLane e.tx) got))).setLane n
        { l.consume c k e.tx.size with takeLine := es }).schedule [.laneTests n, .waitEnd n, .evalTake n] := by
  rw [State.dataReadDone_eq hc, if_neg hr, State.answerTake_cons hh (by exact hl) hd]

/-- The read is answered, and AUTO_RELEASE releases the head parcel, with nobody held. -/
theorem State.dataReadDone_releases (hheld : s.hold.held = [])
    (hr : l.desc.autoRelease ∧ c.consumed + k = c.header.length.toNat ∧ l.state ≠ .faulted) :
    (s.setLane n l).dataReadDone n e k got =
      (((s.pushSegments ((l.consume c k e.tx.size).dropHead c.header.length.toNat).2).answer e.tx.tag false
        (maskWord (laneEnables e.tx) (placeBytes (firstLane e.tx) got))).setLane n
          { (l.consume c k e.tx.size).afterRelease c.header.length.toNat with takeLine := es }).schedule
            [.laneTests n, .waitEnd n, .evalTake n] := by
  have hnone : (s.pushSegments ((l.consume c k e.tx.size).dropHead c.header.length.toNat).2).heldOf n .take = none := by
    unfold State.heldOf
    rw [show (s.pushSegments ((l.consume c k e.tx.size).dropHead c.header.length.toNat).2).hold.held = [] from hheld]
    rfl
  have hline : ((l.consume c k e.tx.size).afterRelease c.header.length.toNat).takeLine = e :: es :=
    (Lane.afterRelease_takeLine _ _).trans hl
  rw [State.dataReadDone_eq hc, if_pos hr, State.releaseHead_setLane hheld,
    State.answerTake_cons hnone hline hd]

end DataRead

end Sys2Proof.Machine

namespace Sys2Proof.Machine

variable {s t u v V : State} {n : LaneNo} {l : Lane} {e : TakeEntry} {es : List TakeEntry} {r : MemRequest}
  {rest : List Outstanding} {o : MemOutcome} {w : Word}

/-! ## The end of a head fetch (R59, R60, R61, R73) -/

theorem State.requestEnded_headFetch (h : r.owner = .headFetch n) (o : MemOutcome) :
    s.requestEnded r o = (s.countFailure o).headFetchEnded n r o := by
  unfold State.requestEnded; rw [h]

theorem State.requestEnded_takeRead (h : r.owner = .takeRead n) (o : MemOutcome) :
    s.requestEnded r o = (s.countFailure o).takeReadEnded n r o := by
  unfold State.requestEnded; rw [h]

/-- The head cache as a head fetch that returned `w` fills it. -/
def fetchedCache (w : Word) : HeadCache := { header := Header.ofWord w, consumed := 0 }

def Lane.fetched (l : Lane) (w : Word) : Lane := { l with cache := some (fetchedCache w) }

section HeadFetch

variable (hl : l.takeLine = e :: es) (hs : e.stage = .fetching)

include hl hs

/-- The header passes its check: it is kept, and the take goes on. -/
theorem State.headFetchEnded_passes (hend : s.laneEnded n r (.ok w) = V.setLane n l)
    (hp : (Header.ofWord w).passes l.takeSeq = true) (hst : l.state ≠ .faulted) :
    s.headFetchEnded n r (.ok w)
      = (V.setLane n (l.fetched w)).proceedTake n e (fetchedCache w) := by
  unfold State.headFetchEnded
  dsimp only
  rw [hend, State.lane_setLane_same, hl]
  dsimp only
  rw [hs]
  dsimp only
  rw [if_pos hp]
  unfold State.headFetched
  dsimp only
  rw [State.updLane_setLane, State.lane_setLane_same, if_neg hst]
  rfl

/-- The header passes its check on a FAULTED lane: a head info read is answered with it, others ERROR. -/
theorem State.headFetchEnded_onFaulted (hend : s.laneEnded n r (.ok w) = V.setLane n l)
    (hp : (Header.ofWord w).passes l.takeSeq = true) (hst : l.state = .faulted) :
    s.headFetchEnded n r (.ok w) =
      if e.kind = .info then
        (V.setLane n (l.fetched w)).answerHeadInfo n e (fetchedCache w)
      else (V.setLane n (l.fetched w)).failTake n e := by
  unfold State.headFetchEnded
  dsimp only
  rw [hend, State.lane_setLane_same, hl]
  dsimp only
  rw [hs]
  dsimp only
  rw [if_pos hp]
  unfold State.headFetched
  dsimp only
  rw [State.updLane_setLane, State.lane_setLane_same, if_pos hst]
  cases e.kind <;> rfl

/-- The header fails its check: the lane faults, and the take is answered ERROR. -/
theorem State.headFetchEnded_fails (hend : s.laneEnded n r (.ok w) = V.setLane n l)
    (hp : (Header.ofWord w).passes l.takeSeq = false) (hst : l.state ≠ .faulted) :
    s.headFetchEnded n r (.ok w) = ((V.setLane n l).faultLane n .headerCheck r).failTake n e := by
  unfold State.headFetchEnded
  dsimp only
  rw [hend, State.lane_setLane_same, hl]
  dsimp only
  rw [hs]
  dsimp only
  rw [if_neg (by simp [hp]), if_neg hst]

/-- The header fails its check on a FAULTED lane: the take is answered ERROR. -/
theorem State.headFetchEnded_failsFaulted (hend : s.laneEnded n r (.ok w) = V.setLane n l)
    (hp : (Header.ofWord w).passes l.takeSeq = false) (hst : l.state = .faulted) :
    s.headFetchEnded n r (.ok w) = (V.setLane n l).failTake n e := by
  unfold State.headFetchEnded
  dsimp only
  rw [hend, State.lane_setLane_same, hl]
  dsimp only
  rw [hs]
  dsimp only
  rw [if_neg (by simp [hp]), if_pos hst]

/-- The head fetch failed: the take is answered ERROR. -/
theorem State.headFetchEnded_error (hend : s.laneEnded n r .error = V.setLane n l) :
    s.headFetchEnded n r .error = (V.setLane n l).failTake n e := by
  unfold State.headFetchEnded
  dsimp only
  rw [hend, State.lane_setLane_same, hl]
  dsimp only
  rw [hs]

end HeadFetch

/-! ## The end of a body read (R63) -/

section TakeRead

variable {k left : Nat} {failed : Bool} {got : List Byte} (hl : l.takeLine = e :: es)
  (hs : e.stage = .reading k left failed got)

include hl hs

/-- A body read ended in success, others of its data read are left. -/
theorem State.takeReadEnded_left_ok (hend : s.laneEnded n r (.ok w) = V.setLane n l) (h1 : 1 < left) :
    s.takeReadEnded n r (.ok w) = V.setLane n { l with
      takeLine := { e with stage := .reading k (left - 1) failed (got ++ enabledBytes r.enables w) } :: es } := by
  unfold State.takeReadEnded
  dsimp only
  rw [hend, State.lane_setLane_same, hl]
  dsimp only
  rw [hs]
  dsimp only
  rw [if_pos h1, State.setTakeStage_cons hl, show (failed || (MemOutcome.ok w).failed) = failed from Bool.or_false _]

/-- A body read failed, others of its data read are left. -/
theorem State.takeReadEnded_left_error (hend : s.laneEnded n r .error = V.setLane n l) (h1 : 1 < left) :
    s.takeReadEnded n r .error = V.setLane n { l with
      takeLine := { e with stage := .reading k (left - 1) true got } :: es } := by
  unfold State.takeReadEnded
  dsimp only
  rw [hend, State.lane_setLane_same, hl]
  dsimp only
  rw [hs]
  dsimp only
  rw [if_pos h1, State.setTakeStage_cons hl, show (failed || MemOutcome.error.failed) = true from Bool.or_true _]

/-- The last body read of a data read ended, one of them in failure. -/
theorem State.takeReadEnded_fails (hend : s.laneEnded n r o = V.setLane n l) (h1 : left = 1)
    (hf : (failed || o.failed) = true) : s.takeReadEnded n r o = (V.setLane n l).failTake n e := by
  unfold State.takeReadEnded
  dsimp only
  rw [hend, State.lane_setLane_same, hl]
  dsimp only
  rw [hs]
  dsimp only
  rw [if_neg (by omega), if_pos hf]

/-- The last body read of a data read ended, all in success. -/
theorem State.takeReadEnded_done (hend : s.laneEnded n r (.ok w) = V.setLane n l) (h1 : left = 1)
    (hf : failed = false) :
    s.takeReadEnded n r (.ok w) = (V.setLane n l).dataReadDone n e k (got ++ enabledBytes r.enables w) := by
  unfold State.takeReadEnded
  dsimp only
  rw [hend, State.lane_setLane_same, hl]
  dsimp only
  rw [hs]
  dsimp only
  rw [if_neg (by omega), if_neg (by simp [hf, MemOutcome.failed])]

end TakeRead

end Sys2Proof.Machine

namespace Sys2Proof.Machine

variable {s t u v V : State} {n : LaneNo} {l : Lane} {e : TakeEntry} {es : List TakeEntry} {r : MemRequest}
  {rest : List Outstanding} {w : Word}

theorem State.proceedTake_info (hk : e.kind = .info) (c : HeadCache) :
    s.proceedTake n e c = s.answerHeadInfo n e c := by unfold State.proceedTake; rw [hk]

theorem State.proceedTake_data (hk : e.kind = .data) (c : HeadCache) :
    s.proceedTake n e c = s.startDataRead n e c := by unfold State.proceedTake; rw [hk]

theorem State.proceedTake_release (hk : e.kind = .release) (c : HeadCache) :
    s.proceedTake n e c = s.carryRelease n e c := by unfold State.proceedTake; rw [hk]

/-- The parts that follow when a take leaves its line are parts of its lane. -/
theorem leaveTake_laneTasks (n : LaneNo) :
    ∀ y ∈ [Task.laneTests n, .waitEnd n, .evalTake n], y ∈ laneTasks n := by
  simp [laneTasks]

/-- A release leaves a lane whose only take it was at rest. -/
theorem Lane.afterRelease_atRest {length : Nat} (hb : l.busy = .clear) (hs : l.state ≠ .draining) (hp : l.putLine = []) :
    ({ l.afterRelease length with takeLine := [] } : Lane).AtRest :=
  ⟨(l.afterRelease_busy length).trans hb, fun hx => hs ((l.afterRelease_state length).symm.trans hx),
    (l.afterRelease_putLine length).trans hp, rfl⟩

/-! ## The end of a head fetch on an OPEN lane (R59, R60) -/

section HeadFetchOnOpen

variable (h : s.Ends r rest) (hp : s.Takes n e) (hd : e.tx.direction = .read) (hr : r.owner = .headFetch n)
  (hs : e.stage = .fetching)

include h hp hr hs

omit h in
/-- The header passes its check. -/
theorem requestEnded_headFetch_passes (hpass : (Header.ofWord w).passes (s.lane n).takeSeq = true) :
    (s.ended rest).requestEnded r (.ok w) =
      ((s.ended rest).setLane n (({ s.lane n with errors := 0 } : Lane).fetched w)).proceedTake n e (fetchedCache w) :=
  (State.requestEnded_headFetch (s := s.ended rest) hr (.ok w)).trans
    (State.headFetchEnded_passes (l := { s.lane n with errors := 0 }) (by exact hp.line) hs
      (State.laneEnded_ok (Lane.serving_of_opened hp.opened) w) hpass (by simp [hp.opened]))

/-- The head fetch of a head info read returned a header that passes its check. -/
theorem headFetchEnd_info (hpass : (Header.ofWord w).passes (s.lane n).takeSeq = true) (hk : e.kind = .info)
    (hd : e.tx.direction = .read) :
    exec (.headFetchEnd (.ok w)) s = .next (((s.ended rest).answer e.tx.tag false
        (maskWord (laneEnables e.tx) (headInfoWord (fetchedCache w) (s.lane n).gap))).setLane n
      { s.lane n with errors := 0, cache := some (fetchedCache w), takeLine := [] }) := by
  have hbody := (requestEnded_headFetch_passes (rest := rest) hp hr hs hpass).trans ((State.proceedTake_info hk _).trans
    (State.answerHeadInfo_cons (l := ({ s.lane n with errors := 0 } : Lane).fetched w) hp.line hd (fetchedCache w)
      (by exact hp.takeHeld)))
  exact event_response_rests (m := .ok w) h (h.sameWork.trans (State.sameWork_answer _ _ _ _)) hbody
    (leaveTake_laneTasks n) (by simp) ⟨hp.clear, by simp [hp.opened], hp.putLine, rfl⟩ hp.closing

/-- The header fails its check: the lane faults (R60, R171). -/
theorem headFetchEnd_checks (hpass : (Header.ofWord w).passes (s.lane n).takeSeq = false)
    (hput : s.heldOf n .put = none) :
    exec (.headFetchEnd (.ok w)) s = .next (((s.endedChecking r rest n).answer e.tx.tag true 0).setLane n
      { s.lane n with errors := 0, state := .faulted, cause := .headerCheck, takeLine := [] }) := by
  obtain ⟨hwait, hstay⟩ := filter_takes_behind (e := e) (es := []) (by simp [hs]) (by simp)
  have hV := h.sameWork_checking n
  have hfault := State.faultLane_checks h (Lane.serving_of_opened hp.opened) (State.leavesQuietly_of_none hput)
    (State.takeLeavesQuietly_of_parcel hput (by simp [hp.takeHeld]))
  rw [hp.line, hwait, hstay, hp.putLine, List.filter_nil, List.filter_nil, State.answerGone_nil,
    State.unhold_none ((hV.heldOf n .put).trans hput), State.unhold_none ((hV.heldOf n .take).trans hp.takeHeld)] at hfault
  let faulted : Lane := { s.lane n with
    errors := 0, state := .faulted, cause := .headerCheck, putLine := [], takeLine := [e] }
  have hbody : (s.ended rest).requestEnded r (.ok w) = (((s.endedChecking r rest n).answer e.tx.tag true 0).setLane n
      { faulted with takeLine := [] }).schedule ([.laneTests n] ++ [.laneTests n, .waitEnd n, .evalTake n]) := by
    refine (State.requestEnded_headFetch (s := s.ended rest) hr (.ok w)).trans
      ((State.headFetchEnded_fails (l := { s.lane n with errors := 0 }) (by exact hp.line) hs
        (State.laneEnded_ok (Lane.serving_of_opened hp.opened) w) hpass (by simp [hp.opened])).trans
          ((congrArg (fun u => State.failTake u n e) hfault).trans ?_))
    rw [← State.schedule_schedule]
    exact State.failTake_cons (s := (s.endedChecking r rest n).schedule [.laneTests n]) (l := faulted)
      ((hV.heldOf n .take).trans hp.takeHeld) rfl
  have hself : ({ s.lane n with errors := 0, state := .faulted, cause := .headerCheck, takeLine := [] } : Lane)
      = { faulted with takeLine := [] } := by
    simp only [faulted, ← hp.putLine]
  rw [hself]
  exact event_response_rests (m := .ok w) h (hV.trans (State.sameWork_answer _ _ _ _)) hbody
    (by simp [laneTasks]) (by simp) ⟨hp.clear, by simp, rfl, rfl⟩ hp.closing

/-- The head fetch fails below the fault threshold. -/
theorem headFetchEnd_error (ht : (s.lane n).errors + 1 ≠ (s.lane n).desc.faultThreshold) :
    exec (.headFetchEnd .error) s =
      .next (((s.endedFailed r rest (laneByte n) (BitVec.ofNat 16 ((s.lane n).errors + 1))).answer e.tx.tag true 0).setLane
        n { s.lane n with errors := (s.lane n).errors + 1, takeLine := [] }) := by
  have hV := h.sameWork_failed (laneByte n) (BitVec.ofNat 16 ((s.lane n).errors + 1))
  have hend := State.laneEnded_error (s := s) (r := r) (rest := rest) (Lane.serving_of_opened hp.opened) (by simp [hr]) ht
  have hbody := (State.requestEnded_headFetch (s := s.ended rest) hr .error).trans
    ((State.headFetchEnded_error (by exact hp.line) hs hend).trans
      (State.failTake_cons ((hV.heldOf n .take).trans hp.takeHeld) (by exact hp.line)))
  exact event_response_rests (m := .error) h (hV.trans (State.sameWork_answer _ _ _ _)) hbody (leaveTake_laneTasks n)
    (by simp) ⟨hp.clear, by simp [hp.opened], hp.putLine, rfl⟩ hp.closing

/-- The head fetch of a data read of at least one byte returned a header that passes its check (R62). -/
theorem headFetchEnd_data (hpass : (Header.ofWord w).passes (s.lane n).takeSeq = true) (hk : e.kind = .data)
    (hsize : e.tx.size ≠ 0) :
    let l := s.lane n
    let k := min e.tx.size (Header.ofWord w).length.toNat
    let pieces := wordPieces (l.headOffset + 8) (List.replicate k 0)
    exec (.headFetchEnd (.ok w)) s = .next (((s.ended rest).setLane n
      { l with
        errors := 0, cache := some (fetchedCache w),
        takeLine := [{ e with stage := .reading k pieces.length false [] }] }).requestAll
      (pieces.map fun (p, piece) =>
        { owner := .takeRead n, master := masterByte e.tx, address := s.chainAddress n p, write := false,
          enables := laneMask (p % 8) piece.length, data := 0 })) := by
  have hlength : (Header.ofWord w).length.toNat ≠ 0 := by
    simp only [Header.passes, Bool.and_eq_true, bne_iff_ne] at hpass
    intro hzero
    exact hpass.1.2 (BitVec.eq_of_toNat_eq hzero)
  have hcount : takeCount (fetchedCache w) e.tx = min e.tx.size (Header.ofWord w).length.toNat := rfl
  have hbody := (requestEnded_headFetch_passes (rest := rest) hp hr hs hpass).trans ((State.proceedTake_data hk _).trans
    (State.startDataRead_cons (l := ({ s.lane n with errors := 0 } : Lane).fetched w) hp.line (fetchedCache w)
      (by rw [hcount]; omega)))
  exact event_response_done h hbody ⟨h.sameWork, rfl, rfl, rfl, rfl⟩

/-- The head fetch of a release returned a header that passes its check, with nobody held (R66). -/
theorem headFetchEnd_release (hpass : (Header.ofWord w).passes (s.lane n).takeSeq = true) (hk : e.kind = .release)
    (hd : e.tx.direction = .read) (hheld : s.hold.held = []) (hready : (s.lane n).ready ≠ 0) :
    let ended : Lane := { s.lane n with errors := 0 }
    exec (.headFetchEnd (.ok w)) s = .next ((((s.ended rest).pushSegments
        (ended.dropHead (Header.ofWord w).length.toNat).2).answer e.tx.tag false (maskWord (laneEnables e.tx)
          (releaseWord (Header.ofWord w) ((s.lane n).ready - 1) (s.lane n).gap))).setLane n
      { ended.afterRelease (Header.ofWord w).length.toNat with takeLine := [] }) := by
  let ended : Lane := { s.lane n with errors := 0 }
  have hbody := (requestEnded_headFetch_passes (rest := rest) hp hr hs hpass).trans ((State.proceedTake_release hk _).trans
    (State.carryRelease_cons (s := s.ended rest) (l := ended.fetched w) hp.line hd (fetchedCache w) (by exact hheld)))
  have hdrop : (ended.fetched w).dropHead (Header.ofWord w).length.toNat
      = ended.dropHead (Header.ofWord w).length.toNat := Lane.dropHead_cache (l := ended) hready _ _
  have hafter : (ended.fetched w).afterRelease (Header.ofWord w).length.toNat
      = ended.afterRelease (Header.ofWord w).length.toNat := by
    unfold Lane.afterRelease; rw [hdrop]; rfl
  rw [show (fetchedCache w).header = Header.ofWord w from rfl, hdrop, hafter] at hbody
  exact event_response_rests_run (m := .ok w) h
    ((h.sameWork.run.trans (State.sameRun_pushSegments _ _)).trans (State.sameWork_answer _ _ _ _).run) hbody
    (leaveTake_laneTasks n) (by simp) (Lane.afterRelease_atRest hp.clear (by simp [hp.opened]) hp.putLine) hp.closing

end HeadFetchOnOpen

/-! ## The end of a body read on an OPEN lane (R63, R64, R69) -/

section TakeReadOnOpen

variable {k left : Nat} {failed : Bool} {got : List Byte} {c : HeadCache} (h : s.Ends r rest) (hp : s.Takes n e)
  (hr : r.owner = .takeRead n) (hs : e.stage = .reading k left failed got)

include h hp hr hs

/-- Others of the data read's reads are left. -/
theorem takeReadEnd_left_ok (h1 : 1 < left) : exec (.takeReadEnd (.ok w)) s = .next ((s.ended rest).setLane n
    { s.lane n with
      errors := 0
      takeLine := [{ e with stage := .reading k (left - 1) failed (got ++ enabledBytes r.enables w) }] }) :=
  event_response_lane (m := .ok w) h h.sameWork ((State.requestEnded_takeRead (s := s.ended rest) hr (.ok w)).trans
    (State.takeReadEnded_left_ok (l := { s.lane n with errors := 0 }) (by exact hp.line) hs
      (State.laneEnded_ok (Lane.serving_of_opened hp.opened) w) h1))

/-- The last read of a data read with a failure among its reads. -/
theorem takeReadEnd_fails_ok (h1 : left = 1) (hf : failed = true) :
    exec (.takeReadEnd (.ok w)) s = .next (((s.ended rest).answer e.tx.tag true 0).setLane n
      { s.lane n with errors := 0, takeLine := [] }) := by
  have hend := State.laneEnded_ok (s := s) (r := r) (rest := rest) (Lane.serving_of_opened hp.opened) w
  have hbody := (State.requestEnded_takeRead (s := s.ended rest) hr (.ok w)).trans
    ((State.takeReadEnded_fails (by exact hp.line) hs hend h1 (by rw [hf]; rfl)).trans
      (State.failTake_cons (by exact hp.takeHeld) (by exact hp.line)))
  exact event_response_rests (m := .ok w) h (h.sameWork.trans (State.sameWork_answer _ _ _ _)) hbody
    (leaveTake_laneTasks n) (by simp) ⟨hp.clear, by simp [hp.opened], hp.putLine, rfl⟩ hp.closing

section BelowThreshold

variable (ht : (s.lane n).errors + 1 ≠ (s.lane n).desc.faultThreshold)

include ht

/-- A body read fails, others are left. -/
theorem takeReadEnd_left_error (h1 : 1 < left) : exec (.takeReadEnd .error) s =
    .next ((s.endedFailed r rest (laneByte n) (BitVec.ofNat 16 ((s.lane n).errors + 1))).setLane n
      { s.lane n with
        errors := (s.lane n).errors + 1, takeLine := [{ e with stage := .reading k (left - 1) true got }] }) :=
  event_response_lane (m := .error) h (h.sameWork_failed _ _)
    ((State.requestEnded_takeRead (s := s.ended rest) hr .error).trans
      (State.takeReadEnded_left_error (l := { s.lane n with errors := (s.lane n).errors + 1 }) (by exact hp.line) hs
        (State.laneEnded_error (Lane.serving_of_opened hp.opened) (by simp [hr]) ht) h1))

/-- The last body read fails. -/
theorem takeReadEnd_last_error (h1 : left = 1) : exec (.takeReadEnd .error) s =
    .next (((s.endedFailed r rest (laneByte n) (BitVec.ofNat 16 ((s.lane n).errors + 1))).answer e.tx.tag true 0).setLane n
      { s.lane n with errors := (s.lane n).errors + 1, takeLine := [] }) := by
  have hV := h.sameWork_failed (laneByte n) (BitVec.ofNat 16 ((s.lane n).errors + 1))
  have hend := State.laneEnded_error (s := s) (r := r) (rest := rest) (Lane.serving_of_opened hp.opened) (by simp [hr]) ht
  have hbody := (State.requestEnded_takeRead (s := s.ended rest) hr .error).trans
    ((State.takeReadEnded_fails (by exact hp.line) hs hend h1 (Bool.or_true _)).trans
      (State.failTake_cons ((hV.heldOf n .take).trans hp.takeHeld) (by exact hp.line)))
  exact event_response_rests (m := .error) h (hV.trans (State.sameWork_answer _ _ _ _)) hbody (leaveTake_laneTasks n)
    (by simp) ⟨hp.clear, by simp [hp.opened], hp.putLine, rfl⟩ hp.closing

end BelowThreshold

variable (h1 : left = 1) (hf : failed = false) (hc : (s.lane n).cache = some c) (hd : e.tx.direction = .read)

include h1 hf hc hd

/-- The last body read, all in success, and the head parcel stays. -/
theorem takeReadEnd_keeps
    (hkeep : ¬ ((s.lane n).desc.autoRelease = true ∧ c.consumed + k = c.header.length.toNat)) :
    exec (.takeReadEnd (.ok w)) s = .next (((s.ended rest).answer e.tx.tag false (maskWord (laneEnables e.tx)
        (placeBytes (firstLane e.tx) (got ++ enabledBytes r.enables w)))).setLane n
      { ({ s.lane n with errors := 0 } : Lane).consume c k e.tx.size with takeLine := [] }) := by
  have hend := State.laneEnded_ok (s := s) (r := r) (rest := rest) (Lane.serving_of_opened hp.opened) w
  have hbody := (State.requestEnded_takeRead (s := s.ended rest) hr (.ok w)).trans
    ((State.takeReadEnded_done (by exact hp.line) hs hend h1 hf).trans
      (State.dataReadDone_keeps (by exact hc) (by exact hp.line) hd (by exact hp.takeHeld)
        fun hx => hkeep ⟨hx.1, hx.2.1⟩))
  exact event_response_rests (m := .ok w) h (h.sameWork.trans (State.sameWork_answer _ _ _ _)) hbody
    (leaveTake_laneTasks n) (by simp) ⟨hp.clear, by simp [Lane.consume, hp.opened], hp.putLine, rfl⟩ hp.closing

/-- The last body read, all in success, and AUTO_RELEASE releases the head parcel, with nobody held. -/
theorem takeReadEnd_releases (hauto : (s.lane n).desc.autoRelease = true)
    (hall : c.consumed + k = c.header.length.toNat) (hheld : s.hold.held = []) (hready : (s.lane n).ready ≠ 0) :
    let read : Lane := { s.lane n with
      errors := 0, overreads := if k < e.tx.size then satInc (s.lane n).overreads else (s.lane n).overreads }
    exec (.takeReadEnd (.ok w)) s = .next ((((s.ended rest).pushSegments
        (read.dropHead c.header.length.toNat).2).answer e.tx.tag false (maskWord (laneEnables e.tx)
          (placeBytes (firstLane e.tx) (got ++ enabledBytes r.enables w)))).setLane n
      { read.afterRelease c.header.length.toNat with takeLine := [] }) := by
  have hend := State.laneEnded_ok (s := s) (r := r) (rest := rest) (Lane.serving_of_opened hp.opened) w
  let ended : Lane := { s.lane n with errors := 0 }
  let read : Lane := { s.lane n with
    errors := 0, overreads := if k < e.tx.size then satInc (s.lane n).overreads else (s.lane n).overreads }
  have hbody := (State.requestEnded_takeRead (s := s.ended rest) hr (.ok w)).trans
    ((State.takeReadEnded_done (l := ended) (by exact hp.line) hs hend h1 hf).trans
      (State.dataReadDone_releases (l := ended) hc hp.line hd (by exact hheld)
        ⟨hauto, hall, by simp [ended, hp.opened]⟩))
  have hdrop : (ended.consume c k e.tx.size).dropHead c.header.length.toNat = read.dropHead c.header.length.toNat :=
    Lane.dropHead_cache (l := read) hready _ _
  have hafter : (ended.consume c k e.tx.size).afterRelease c.header.length.toNat
      = read.afterRelease c.header.length.toNat := by
    unfold Lane.afterRelease; rw [hdrop]; rfl
  rw [hdrop, hafter] at hbody
  exact event_response_rests_run (m := .ok w) h
    ((h.sameWork.run.trans (State.sameRun_pushSegments _ _)).trans (State.sameWork_answer _ _ _ _).run) hbody
    (leaveTake_laneTasks n) (by simp) (Lane.afterRelease_atRest hp.clear (by simp [hp.opened]) hp.putLine) hp.closing

end TakeReadOnOpen

end Sys2Proof.Machine

namespace Sys2Proof.Machine

variable {s t u v V : State} {n : LaneNo} {l : Lane} {e : TakeEntry} {es : List TakeEntry} {r : MemRequest}
  {rest : List Outstanding} {w : Word}

/-! ## A take's request fails at the fault threshold (R155) -/

section Faults

variable (h : s.Ends r rest) (ho : (s.lane n).state = .opened) (hb : (s.lane n).busy = .clear)
  (hw : s.cmd.work ≠ .closing n) (hl : (s.lane n).takeLine = e :: es) (hes : ∀ x ∈ es, x.stage = .waiting)
  (hputs : ∀ x ∈ (s.lane n).putLine, x.stage = .waiting)
  (hpool : ∀ x ∈ s.hold.held, x.kind = .pool → x.lane = n ∧ x.line = .put) (htake : s.heldOf n .take = none)
  (ht : (s.lane n).errors + 1 = (s.lane n).desc.faultThreshold)

/-- The block as a take's request that faults its lane leaves it, but for the lane: what waited in its lines is
answered, and its held put has left the held table. -/
def State.faultedBehind (s : State) (r : MemRequest) (rest : List Outstanding) (n : LaneNo) (es : List TakeEntry) :
    State :=
  ((s.endedFaulting r rest n .memoryErrors).answerGone n (s.lane n).putLine es).unhold n .put

/-- The lane that a take's request has faulted. -/
def Lane.faultedTaking (l : Lane) (line : List TakeEntry) : Lane :=
  { l with errors := l.errors + 1, state := .faulted, cause := .memoryErrors, putLine := [], takeLine := line }

include h in
theorem State.Ends.sameRun_faultedBehind : s.begin.SameRun (s.faultedBehind r rest n es) :=
  have hV := (h.sameWork_faulting n .memoryErrors).trans (State.sameWork_answerGone _ n (s.lane n).putLine es)
  ⟨hV.rst, hV.presented, hV.cmd, hV.todo⟩

include h htake in
theorem State.Ends.heldOf_faultedBehind : (s.faultedBehind r rest n es).heldOf n .take = none := by
  have hV := (h.sameWork_faulting n .memoryErrors).trans (State.sameWork_answerGone _ n (s.lane n).putLine es)
  exact State.heldOf_unhold_none _ ((hV.heldOf n .take).trans htake)

include h ho hl hes hputs hpool htake ht in
theorem State.laneEnded_faultsBehind (hs : e.stage ≠ .waiting) (hr : r.owner ≠ .headerWrite n) :
    ((s.ended rest).countFailure .error).laneEnded n r .error
      = ((s.faultedBehind r rest n es).schedule [.laneTests n]).setLane n ((s.lane n).faultedTaking [e]) := by
  obtain ⟨hwait, hstay⟩ := filter_takes_behind hs hes
  obtain ⟨hpwait, hpstay⟩ := filter_puts_waiting hputs
  have hend := State.laneEnded_faults h (Lane.serving_of_opened ho) (.inr ⟨hr, ht, rfl⟩)
    (State.leavesQuietly_of_only hpool) (State.takeLeavesQuietly_of_only hpool)
  have hheld := State.Ends.heldOf_faultedBehind (es := es) h htake
  unfold State.faultedBehind at hheld
  rw [hl, hwait, hstay, hpwait, hpstay, State.unhold_none hheld] at hend
  exact hend

include h hb hw htake in
/-- The take that faulted its lane is answered ERROR. -/
theorem event_response_faultsTake (hbody : (s.ended rest).requestEnded r .error =
      (((s.faultedBehind r rest n es).schedule [.laneTests n]).setLane n ((s.lane n).faultedTaking [e])).failTake n e) :
    event (fun s => s.memoryResponse .error) s =
      .next (((s.faultedBehind r rest n es).answer e.tx.tag true 0).setLane n ((s.lane n).faultedTaking [])) := by
  have hheld := State.Ends.heldOf_faultedBehind (es := es) h htake
  have hfail : (((s.faultedBehind r rest n es).schedule [.laneTests n]).setLane n
      ((s.lane n).faultedTaking [e])).failTake n e =
      (((s.faultedBehind r rest n es).answer e.tx.tag true 0).setLane n ((s.lane n).faultedTaking [])).schedule
        ([.laneTests n] ++ [.laneTests n, .waitEnd n, .evalTake n]) := by
    rw [← State.schedule_schedule]
    exact State.failTake_cons (s := (s.faultedBehind r rest n es).schedule [.laneTests n])
      (l := (s.lane n).faultedTaking [e]) hheld rfl
  exact event_response_rests_run (m := .error) h (h.sameRun_faultedBehind.trans (State.sameWork_answer _ _ _ _).run)
    (hbody.trans hfail) (by simp [laneTasks]) (by simp) ⟨hb, by simp [Lane.faultedTaking], rfl, rfl⟩ hw

include h ho hb hw hl hes hputs hpool htake ht

/-- The head fetch fails at the fault threshold. -/
theorem headFetchEnd_faults (hr : r.owner = .headFetch n) (hs : e.stage = .fetching) :
    exec (.headFetchEnd .error) s =
      .next (((s.faultedBehind r rest n es).answer e.tx.tag true 0).setLane n ((s.lane n).faultedTaking [])) :=
  event_response_faultsTake h hb hw htake ((State.requestEnded_headFetch (s := s.ended rest) hr .error).trans
    (State.headFetchEnded_error (l := (s.lane n).faultedTaking [e]) rfl hs
      (State.laneEnded_faultsBehind h ho hl hes hputs hpool htake ht (by simp [hs]) (by simp [hr]))))

variable {k left : Nat} {failed : Bool} {got : List Byte}

/-- The last body read fails at the fault threshold. -/
theorem takeReadEnd_faults_last (hr : r.owner = .takeRead n) (hs : e.stage = .reading k left failed got)
    (h1 : left = 1) : exec (.takeReadEnd .error) s =
      .next (((s.faultedBehind r rest n es).answer e.tx.tag true 0).setLane n ((s.lane n).faultedTaking [])) :=
  event_response_faultsTake h hb hw htake ((State.requestEnded_takeRead (s := s.ended rest) hr .error).trans
    (State.takeReadEnded_fails (l := (s.lane n).faultedTaking [e]) rfl hs
      (State.laneEnded_faultsBehind h ho hl hes hputs hpool htake ht (by simp [hs]) (by simp [hr])) h1 (Bool.or_true _)))

/-- A body read fails at the fault threshold, and others are left. -/
theorem takeReadEnd_faults_left (hr : r.owner = .takeRead n) (hs : e.stage = .reading k left failed got)
    (h1 : 1 < left) : exec (.takeReadEnd .error) s =
      .next ((s.faultedBehind r rest n es).setLane n
        ((s.lane n).faultedTaking [{ e with stage := .reading k (left - 1) true got }])) := by
  have hV := State.Ends.sameRun_faultedBehind (n := n) (es := es) h
  let T : State := (s.faultedBehind r rest n es).setLane n
    ((s.lane n).faultedTaking [{ e with stage := .reading k (left - 1) true got }])
  have hbody : (s.ended rest).requestEnded r .error = T.schedule [.laneTests n] :=
    (State.requestEnded_takeRead (s := s.ended rest) hr .error).trans
      (State.takeReadEnded_left_error (l := (s.lane n).faultedTaking [e]) rfl hs
        (State.laneEnded_faultsBehind h ho hl hes hputs hpool htake ht (by simp [hs]) (by simp [hr])) h1)
  have hT : T.lane n = _ := State.lane_setLane_same _ n _
  refine event_response_noops (m := .error) h hbody hV.todo ?_ (by simp)
    (h.calm.congr hV.rst hV.presented (congrArg CommandUnit.work hV.cmd))
  simp only [List.mem_singleton, forall_eq]
  refine State.laneTests_quiet (by rw [hT]; exact hb) (by rw [hT]; simp [Lane.faultedTaking]) ?_
  exact fun hx => hw ((congrArg CommandUnit.work hV.cmd).symm.trans hx)

end Faults

/-! ## The end of a take's request on a FAULTED lane (R73) -/

section OnFaulted

variable (h : s.Ends r rest) (hst : (s.lane n).state = .faulted) (hb : (s.lane n).busy = .clear)
  (hw : s.cmd.work ≠ .closing n) (hl : (s.lane n).takeLine = [e]) (htake : s.heldOf n .take = none)

include h hst hb hw hl htake

section Rests

variable (hp : (s.lane n).putLine = [])

include hp

/-- The header passes its check. -/
theorem headFetchEnd_onFaulted (hr : r.owner = .headFetch n) (hs : e.stage = .fetching) (hd : e.tx.direction = .read)
    (hpass : (Header.ofWord w).passes (s.lane n).takeSeq = true) :
    exec (.headFetchEnd (.ok w)) s = .next (if e.kind = .info then
      ((s.ended rest).answer e.tx.tag false (maskWord (laneEnables e.tx) (headInfoWord (fetchedCache w)
        (s.lane n).gap))).setLane n { (s.lane n).fetched w with takeLine := [] }
      else ((s.ended rest).answer e.tx.tag true 0).setLane n { (s.lane n).fetched w with takeLine := [] }) := by
  have hend := State.laneEnded_ok_faulted (s := s) (r := r) (rest := rest) (Lane.serving_of_faulted hst) w
  have hbody := (State.requestEnded_headFetch (s := s.ended rest) hr (.ok w)).trans
    (State.headFetchEnded_onFaulted hl hs hend hpass hst)
  have hrest : ({ (s.lane n).fetched w with takeLine := [] } : Lane).AtRest :=
    ⟨hb, by simp [Lane.fetched, hst], hp, rfl⟩
  have hheld : (s.ended rest).heldOf n .take = none := htake
  by_cases hk : e.kind = .info
  · rw [if_pos hk, State.answerHeadInfo_cons (l := (s.lane n).fetched w) hl hd _ hheld] at hbody
    rw [if_pos hk]
    exact event_response_rests (m := .ok w) h (h.sameWork.trans (State.sameWork_answer _ _ _ _)) hbody
      (leaveTake_laneTasks n) (by simp) hrest hw
  · rw [if_neg hk, State.failTake_cons (l := (s.lane n).fetched w) hheld hl] at hbody
    rw [if_neg hk]
    exact event_response_rests (m := .ok w) h (h.sameWork.trans (State.sameWork_answer _ _ _ _)) hbody
      (leaveTake_laneTasks n) (by simp) hrest hw

/-- The header fails its check: no second fault. -/
theorem headFetchEnd_failsOnFaulted (hr : r.owner = .headFetch n) (hs : e.stage = .fetching)
    (hpass : (Header.ofWord w).passes (s.lane n).takeSeq = false) :
    exec (.headFetchEnd (.ok w)) s =
      .next (((s.ended rest).answer e.tx.tag true 0).setLane n { s.lane n with takeLine := [] }) := by
  have hend := State.laneEnded_ok_faulted (s := s) (r := r) (rest := rest) (Lane.serving_of_faulted hst) w
  have hbody := (State.requestEnded_headFetch (s := s.ended rest) hr (.ok w)).trans
    ((State.headFetchEnded_failsFaulted hl hs hend hpass hst).trans
      (State.failTake_cons (s := s.ended rest) (by exact htake) hl))
  exact event_response_rests (m := .ok w) h (h.sameWork.trans (State.sameWork_answer _ _ _ _)) hbody
    (leaveTake_laneTasks n) (by simp) ⟨hb, by simp [hst], hp, rfl⟩ hw

/-- The last body read of a data read, all in success: no AUTO_RELEASE. -/
theorem takeReadEnd_onFaulted {k : Nat} {got : List Byte} {c : HeadCache} (hr : r.owner = .takeRead n)
    (hs : e.stage = .reading k 1 false got) (hd : e.tx.direction = .read) (hc : (s.lane n).cache = some c) :
    exec (.takeReadEnd (.ok w)) s = .next (((s.ended rest).answer e.tx.tag false (maskWord (laneEnables e.tx)
        (placeBytes (firstLane e.tx) (got ++ enabledBytes r.enables w)))).setLane n
      { (s.lane n).consume c k e.tx.size with takeLine := [] }) := by
  have hend := State.laneEnded_ok_faulted (s := s) (r := r) (rest := rest) (Lane.serving_of_faulted hst) w
  have hbody := (State.requestEnded_takeRead (s := s.ended rest) hr (.ok w)).trans
    ((State.takeReadEnded_done hl hs hend rfl rfl).trans
      (State.dataReadDone_keeps (s := s.ended rest) hc hl hd (by exact htake) fun hx => hx.2.2 hst))
  exact event_response_rests (m := .ok w) h (h.sameWork.trans (State.sameWork_answer _ _ _ _)) hbody
    (leaveTake_laneTasks n) (by simp) ⟨hb, by simp [Lane.consume, hst], hp, rfl⟩ hw

end Rests

/-- The last body read fails before a put that waited for the take: both are answered ERROR (R49, R73). -/
theorem takeReadEnd_endsWait {k : Nat} {failed : Bool} {got : List Byte} {p : PutEntry} (hr : r.owner = .takeRead n)
    (hs : e.stage = .reading k 1 failed got) (hp : (s.lane n).putLine = [p]) (hwait : p.stage = .waitTake)
    (hput : s.heldOf n .put = none) : exec (.takeReadEnd .error) s =
      .next ((((s.endedFailed r rest (laneByte n) (BitVec.ofNat 16 (s.lane n).errors)).answer e.tx.tag true 0).setLane n
        { s.lane n with takeLine := [], putLine := [] }).answer p.tx.tag true 0) := by
  have hV := (h.sameWork_failed (laneByte n) (BitVec.ofNat 16 (s.lane n).errors)).trans
    (State.sameWork_answer _ e.tx.tag true 0)
  let T : State := ((s.endedFailed r rest (laneByte n) (BitVec.ofNat 16 (s.lane n).errors)).answer e.tx.tag true 0).setLane n
    { s.lane n with takeLine := [] }
  let U : State := (T.setLane n { s.lane n with takeLine := [], putLine := [] }).answer p.tx.tag true 0
  have hT : T.lane n = _ := State.lane_setLane_same _ n _
  have hU : U.lane n = _ := State.lane_setLane_same _ n _
  have hwork : T.cmd.work ≠ .closing n := fun hx => hw ((congrArg CommandUnit.work hV.cmd).symm.trans hx)
  have hbody : (s.ended rest).requestEnded r .error = T.schedule [.laneTests n, .waitEnd n, .evalTake n] :=
    (State.requestEnded_takeRead (s := s.ended rest) hr .error).trans
      ((State.takeReadEnded_fails hl hs
        (State.laneEnded_error_faulted h (Lane.serving_of_faulted hst)) rfl (Bool.or_true _)).trans
          (State.failTake_cons (((h.sameWork_failed _ _).heldOf n .take).trans htake) hl))
  have htests : T.doTask (.laneTests n) = T :=
    State.laneTests_quiet (by rw [hT]; exact hb) (by rw [hT]; simp [hst]) hwork
  have hend : T.doTask (.waitEnd n) = U.schedule [.laneTests n, .evalTake n, .evalPut n] := by
    refine (State.waitEnd_faulted (s := T) (by rw [hT]; exact hp) hwait (by rw [hT]) (by rw [hT]; exact hst)
      ((hV.heldOf n .put).trans hput)).trans ?_
    rw [hT]
  have hquiet : ∀ y ∈ [Task.laneTests n, .evalTake n, .evalPut n] ++ [.evalTake n], U.doTask y = U := fun y hy =>
    State.atRest_noops (s := U) (n := n) (by rw [hU]; exact ⟨hb, by simp [hst], rfl, rfl⟩) hwork y (by
      simp only [List.cons_append, List.nil_append, List.mem_cons, List.not_mem_nil, or_false] at hy
      simp only [laneTasks, List.mem_cons, List.not_mem_nil, or_false]
      tauto)
  have hUtodo : U.todo = [] := hV.todo
  have hdoes : T.Does 6 [.laneTests n, .waitEnd n, .evalTake n] U :=
    State.Does.step htests hV.todo (State.Does.cons hend hUtodo (State.Does.noops hUtodo hquiet))
  refine (event_response (m := .error) (t := T) h hbody hV.todo rfl hdoes (by decide)
    ((hV.calm h.calm.begin).congr rfl rfl rfl)).trans ?_
  rw [show U = (((s.endedFailed r rest (laneByte n) (BitVec.ofNat 16 (s.lane n).errors)).answer e.tx.tag true 0).setLane n
    { s.lane n with takeLine := [], putLine := [] }).answer p.tx.tag true 0 from by
      simp only [U, T, State.setLane_setLane]]

end OnFaulted

end Sys2Proof.Machine

namespace Sys2Proof.Machine

variable {s : State} {n : LaneNo} {e : TakeEntry} {r : MemRequest} {rest : List Outstanding}

/-- The ends of a head fetch on an OPEN lane. -/
theorem headFetchEnd_onOpen (h : s.Ends r rest) (hp : s.Takes n e) (hd : e.tx.direction = .read)
    (hr : r.owner = .headFetch n) (hs : e.stage = .fetching) :
    let l := s.lane n
    (∀ w, (Header.ofWord w).passes l.takeSeq = true → e.kind = .info →
      exec (.headFetchEnd (.ok w)) s = .next (((s.ended rest).setLane n
        { l with errors := 0, cache := some { header := Header.ofWord w, consumed := 0 }, takeLine := [] }).answer
          e.tx.tag false
          (maskWord (laneEnables e.tx) (headInfoWord { header := Header.ofWord w, consumed := 0 } l.gap)))) ∧
    (∀ w, (Header.ofWord w).passes l.takeSeq = false → s.heldOf n .put = none →
      exec (.headFetchEnd (.ok w)) s = .next ((((s.ended rest).produce
          { kind := .laneFaulted, source := laneByte n, reason := 3, master := r.master, value16 := 0,
            address := r.address, value32 := 6 }).setLane n
        { l with errors := 0, state := .faulted, cause := .headerCheck, takeLine := [] }).answer e.tx.tag true 0)) ∧
    (l.errors + 1 ≠ l.desc.faultThreshold → exec (.headFetchEnd .error) s =
      .next (((s.endedFailed r rest (laneByte n) (BitVec.ofNat 16 (l.errors + 1))).setLane n
        { l with errors := l.errors + 1, takeLine := [] }).answer e.tx.tag true 0)) := by
  refine ⟨fun w hpass hk => headFetchEnd_info h hp hr hs hpass hk hd, fun w hpass hput => ?_,
    fun ht => headFetchEnd_error h hp hr hs ht⟩
  refine (headFetchEnd_checks h hp hr hs hpass hput).trans ?_
  unfold State.endedChecking laneFaultedNotice
  rw [hr]
  rfl

/-- A data read that has read all it asked for is no overread. -/
theorem Lane.consume_all (l : Lane) (c : HeadCache) {k size : Nat} (h : k = size) :
    l.consume c k size = { l with cache := some { c with consumed := c.consumed + k } } := by
  unfold Lane.consume; rw [if_neg (by omega)]

theorem Lane.consume_overread (l : Lane) (c : HeadCache) {k size : Nat} (h : k < size) :
    l.consume c k size =
      { l with cache := some { c with consumed := c.consumed + k }, overreads := satInc l.overreads } := by
  unfold Lane.consume; rw [if_pos h]

/-- Settles O52. -/
theorem takeReadsComplete : Obligations.TakeReadsComplete := by
  refine ⟨fun s r rest n e h hp hd => ⟨fun hr hs => headFetchEnd_onOpen h hp hd hr hs,
      fun k left failed got c hr hs hc => ⟨fun w h1 => takeReadEnd_left_ok h hp hr hs h1,
        fun w h1 hf hk ha => ?_, fun w h1 hf => takeReadEnd_fails_ok h hp hr hs h1 hf,
        fun ht => ⟨fun h1 => takeReadEnd_left_error h hp hr hs ht h1, fun h1 => takeReadEnd_last_error h hp hr hs ht h1⟩,
        fun w h1 hf hk hkeep => ?_, fun w h1 hf hk ha hall hheld hready => ?_,
        fun w h1 hf hk ha hall hheld hready => ?_⟩⟩,
    fun s r rest n e w h hp hd hr hs hpass => ⟨fun hk hsize => headFetchEnd_data h hp hr hs hpass hk hsize,
      fun hk hheld hready => ?_⟩,
    fun s r rest n e es h ho hb hw hl hes hputs hpool htake ht hd => ⟨fun hr hs => ?_,
      fun k left failed got hr hs => ⟨fun h1 => ?_, fun h1 => ?_⟩⟩,
    fun s r rest n e h hst hb hw hl htake hd => ⟨fun hp hr hs => ⟨fun w hpass => ?_,
        fun w hpass => headFetchEnd_failsOnFaulted h hst hb hw hl htake hp hr hs hpass⟩,
      fun k failed got c hr hs hc => ⟨fun w hp hf hk => ?_, fun p hp hwait hput hkind =>
        takeReadEnd_endsWait h hst hb hw hl htake hr hs hp hwait hput⟩⟩⟩
  · refine (takeReadEnd_keeps h hp hr hs h1 hf hc hd (by simp [ha])).trans ?_
    rw [Lane.consume_all _ _ hk]
    rfl
  · refine (takeReadEnd_keeps h hp hr hs h1 hf hc hd fun hx => ?_).trans ?_
    · exact hkeep.elim (fun ha => by simp [ha] at hx) fun hne => hne hx.2
    · rw [Lane.consume_overread _ _ hk]
      rfl
  · refine (takeReadEnd_releases h hp hr hs h1 hf hc hd ha hall hheld hready).trans ?_
    rw [if_neg (by omega)]
    rfl
  · refine (takeReadEnd_releases h hp hr hs h1 hf hc hd ha hall hheld hready).trans ?_
    rw [if_pos hk]
    rfl
  · exact headFetchEnd_release h hp hr hs hpass hk hd hheld hready
  · refine (headFetchEnd_faults h ho hb hw hl hes hputs hpool htake ht hr hs).trans ?_
    unfold State.faultedBehind State.endedFaulting laneFaultedNotice
    rw [hr]
    rfl
  · refine (takeReadEnd_faults_left h ho hb hw hl hes hputs hpool htake ht hr hs h1).trans ?_
    unfold State.faultedBehind State.endedFaulting laneFaultedNotice
    rw [hr]
    rfl
  · refine (takeReadEnd_faults_last h ho hb hw hl hes hputs hpool htake ht hr hs h1).trans ?_
    unfold State.faultedBehind State.endedFaulting laneFaultedNotice
    rw [hr]
    rfl
  · exact headFetchEnd_onFaulted h hst hb hw hl htake hp hr hs hd hpass
  · rw [hf] at hs
    refine (takeReadEnd_onFaulted h hst hb hw hl htake hp hr hs hd hc).trans ?_
    rw [Lane.consume_all _ _ hk]
    rfl

end Sys2Proof.Machine

namespace Sys2Proof.Machine

/-! ## Headers (R13, R60, 12.5) -/

/-- The header check, as a number (R171). -/
theorem headerCheck_toNat (length sequence : Half) (tag flags : Byte) :
    (headerCheck length sequence tag flags).toNat
      = (length.toNat + sequence.toNat + 256 * tag.toNat + flags.toNat + 0x5A5A) % 65536 := by
  have happ : (tag ++ flags : BitVec 16).toNat = 256 * tag.toNat + flags.toNat := by
    rw [BitVec.toNat_append, ← Nat.shiftLeft_add_eq_or_of_lt flags.isLt, Nat.shiftLeft_eq]
    omega
  unfold headerCheck
  have hk : (0x5A5A : Half).toNat = 0x5A5A := rfl
  simp only [BitVec.toNat_add, happ, hk]
  omega

/-- A header is read back as it lies in memory. -/
theorem Header.ofWord_word (h : Header) : Header.ofWord h.word = h := by
  obtain ⟨h0, h2, h4, h6⟩ := halfOf_packHalves h.length h.check h.sequence (packPair h.tag h.flags)
  obtain ⟨htag, hflags⟩ := extract_packPair h.tag h.flags
  have hbyte : ∀ (w : Word) (j : Nat), j ≤ 1 → byteOf w (6 + j) = (halfOf w 6).extractLsb' (8 * j) 8 := fun w j hj =>
    (extract_extract w (8 * 6) 16 (8 * j) 8 (by omega)).symm ▸ congrArg (fun i => w.extractLsb' i 8) (by omega)
  have h6' : byteOf h.word 6 = h.tag := (hbyte h.word 0 (by omega)).trans ((congrArg _ h6).trans htag)
  have h7' : byteOf h.word 7 = h.flags := (hbyte h.word 1 (by omega)).trans ((congrArg _ h6).trans hflags)
  unfold Header.ofWord
  rw [h6', h7']
  unfold Header.word
  rw [h0, h2, h4]

/-- The high bits of a byte are clear exactly when it is small. -/
theorem extract_high_eq_zero (flags : Byte) : flags.extractLsb' 4 4 = 0 ↔ flags.toNat < 16 := by
  have hlt := flags.isLt
  rw [← BitVec.toNat_inj, BitVec.extractLsb'_toNat, Nat.shiftRight_eq_div_pow]
  have : (0 : BitVec 4).toNat = 0 := rfl
  omega

/-- The four tests of R60, as numbers. -/
theorem Header.passes_iff (h : Header) (expected : Half) : h.passes expected = true ↔
    h.check.toNat = (h.length.toNat + h.sequence.toNat + 256 * h.tag.toNat + h.flags.toNat + 0x5A5A) % 65536 ∧
      h.sequence = expected ∧ 1 ≤ h.length.toNat ∧ h.flags.toNat < 16 := by
  have hlength : h.length ≠ 0 ↔ 1 ≤ h.length.toNat := by
    rw [ne_eq, ← BitVec.toNat_inj]
    have : (0 : Half).toNat = 0 := rfl
    omega
  unfold Header.passes
  rw [Bool.and_eq_true, Bool.and_eq_true, Bool.and_eq_true, beq_iff_eq, beq_iff_eq, beq_iff_eq, bne_iff_ne, hlength,
    extract_high_eq_zero, ← headerCheck_toNat, BitVec.toNat_inj, and_assoc, and_assoc]

/-! ## Response words and captures (12.3, R111) -/

/-- The bytes of a half of a word. -/
theorem byteOf_halfOf (w : Word) (k j : Nat) (hj : j ≤ 1) : byteOf w (k + j) = (halfOf w k).extractLsb' (8 * j) 8 := by
  unfold halfOf byteOf
  rw [extract_extract w (8 * k) 16 (8 * j) 8 (by omega), Nat.mul_add]

/-- The fields of a response word. -/
theorem responseWord_fields (ticket : Half) (outcome reason detail code : Byte) :
    let w := responseWord ticket outcome reason detail code
    halfOf w 0 = ticket ∧ byteOf w 2 = outcome ∧ byteOf w 3 = reason ∧ byteOf w 4 = detail ∧ byteOf w 5 = code ∧
      byteOf w 6 = 0 ∧ byteOf w 7 = 0 := by
  obtain ⟨h0, h2, h4, h6⟩ := halfOf_packHalves ticket (packPair outcome reason) (packPair detail code) 0
  obtain ⟨houtcome, hreason⟩ := extract_packPair outcome reason
  obtain ⟨hdetail, hcode⟩ := extract_packPair detail code
  have hbyte := fun k j hj => byteOf_halfOf (responseWord ticket outcome reason detail code) k j hj
  exact ⟨h0, (hbyte 2 0 (by omega)).trans ((congrArg _ h2).trans houtcome),
    (hbyte 2 1 (by omega)).trans ((congrArg _ h2).trans hreason),
    (hbyte 4 0 (by omega)).trans ((congrArg _ h4).trans hdetail),
    (hbyte 4 1 (by omega)).trans ((congrArg _ h4).trans hcode),
    (hbyte 6 0 (by omega)).trans ((congrArg _ h6).trans rfl), (hbyte 6 1 (by omega)).trans ((congrArg _ h6).trans rfl)⟩

/-- Byte lane `k` of a capture's data: that of the access, if it is one of the access's lanes. -/
def captureLane (t : Transaction) (o : MemOutcome) (k : Nat) : Byte :=
  if (laneEnables t).getLsbD k then
    match t.direction, o with
    | .write, _ => byteOf t.data k
    | .read, .ok d => byteOf d k
    | .read, _ => 0
  else 0

theorem byteOf_captureData (t : Transaction) (o : MemOutcome) {k : Nat} (hk : k < 8) :
    byteOf (captureData t o) k = captureLane t o k := by
  have hzero : byteOf 0 k = 0 := by simp [byteOf]
  unfold captureData captureLane
  cases t.direction with
  | write => exact byteOf_maskWord _ _ _ hk
  | read =>
    cases o with
    | ok d => exact byteOf_maskWord _ _ _ hk
    | error => exact hzero.trans (ite_self _).symm
    | timeout => exact hzero.trans (ite_self _).symm

/-- The bytes of a quad of a word. -/
theorem extract_quadOf (w : Word) (k j : Nat) (hj : j ≤ 3) : (quadOf w k).extractLsb' (8 * j) 8 = byteOf w (k + j) := by
  unfold quadOf byteOf
  rw [extract_extract w (8 * k) 32 (8 * j) 8 (by omega), Nat.mul_add]

/-- The fields of the first word of a capture body. -/
theorem captureWord0_fields (t : Transaction) (o : MemOutcome) : quadOf (captureWord0 t o) 0 = t.address ∧
    ∀ j ≤ 3, byteOf (captureWord0 t o) (4 + j) = captureLane t o j := by
  refine ⟨quadOf_packQuads_low _ _, fun j hj => ?_⟩
  unfold captureWord0
  rw [byteOf_packQuads_high _ _ _ (by omega), show 8 * (4 + j) - 32 = 8 * j by omega, extract_quadOf _ _ _ hj,
    Nat.zero_add, byteOf_captureData t o (by omega)]

/-- The data bytes of the second word of a capture body. -/
theorem captureWord1_data (t : Transaction) (o : MemOutcome) (i : Fin 23) :
    ∀ j ≤ 3, byteOf (captureWord1 t o i) j = captureLane t o (4 + j) := by
  intro j hj
  unfold captureWord1
  rw [byteOf_packQuads_low _ _ _ hj, extract_quadOf _ _ _ hj, byteOf_captureData t o (by omega)]

/-- The other fields of the second word of a capture body. -/
theorem captureWord1_fields (t : Transaction) (o : MemOutcome) (i : Fin 23) :
    byteOf (captureWord1 t o i) 4 = masterByte t ∧ byteOf (captureWord1 t o i) 5 = BitVec.ofNat 8 t.size ∧
      byteOf (captureWord1 t o i) 6 = captureCode t.direction o ∧ byteOf (captureWord1 t o i) 7 = entryByte i := by
  obtain ⟨hlow, hcode, hentry⟩ := extract_pairHalf (packPair (masterByte t) (BitVec.ofNat 8 t.size))
    (captureCode t.direction o) (entryByte i)
  obtain ⟨hmaster, hsize⟩ := extract_packPair (masterByte t) (BitVec.ofNat 8 t.size)
  have hbyte : ∀ k, 4 ≤ k → byteOf (captureWord1 t o i) k = _ := fun k hk => byteOf_packQuads_high _ _ k hk
  refine ⟨(hbyte 4 (by omega)).trans ?_, (hbyte 5 (by omega)).trans ?_, (hbyte 6 (by omega)).trans hcode,
    (hbyte 7 (by omega)).trans hentry⟩
  · exact (extract_extract _ 0 16 0 8 (by omega)).symm.trans ((congrArg (BitVec.extractLsb' 0 8) hlow).trans hmaster)
  · exact (extract_extract _ 0 16 8 8 (by omega)).symm.trans ((congrArg (BitVec.extractLsb' 8 8) hlow).trans hsize)

/-- Settles O57. -/
theorem headerCheckFormula : Obligations.HeaderCheckFormula := by
  refine ⟨fun length sequence tag flags => ⟨rfl, rfl, rfl, rfl, headerCheck_toNat _ _ _ _⟩, Header.ofWord_word,
    Header.passes_iff, by decide, by decide, responseWord_fields, fun t o i => ?_⟩
  obtain ⟨haddress, hlow⟩ := captureWord0_fields t o
  have hhigh := captureWord1_data t o i
  obtain ⟨hmaster, hsize, hcode, hentry⟩ := captureWord1_fields t o i
  refine ⟨haddress, hlow 0 (by omega), hlow 1 (by omega), hlow 2 (by omega), hlow 3 (by omega), hhigh 0 (by omega),
    hhigh 1 (by omega), hhigh 2 (by omega), hhigh 3 (by omega), hmaster, hsize, hcode.trans ?_, hentry⟩
  cases t.direction <;> cases o <;> simp [captureCode]

end Sys2Proof.Machine

namespace Sys2Proof.Machine

variable {s t u v V : State} {n : LaneNo} {l : Lane} {e : TakeEntry} {es : List TakeEntry} {r : MemRequest}
  {rest : List Outstanding}

/-! ## A take arrives (R57, R58) -/

/-- The line entry of a take that arrives. -/
def arrivedTake (x : Transaction) (i : Fin 23) : TakeEntry :=
  { tx := x, entry := i, kind := takeRegion x, stage := .waiting }

/-- The block with a take that has joined the empty take line of lane `n`. -/
def State.enteredTake (s : State) (x : Transaction) (i : Fin 23) (n : LaneNo) : State :=
  (s.begin.occupy x).setLane n { s.lane n with takeLine := [arrivedTake x i] }

theorem State.enteredTake_lane (s : State) (x : Transaction) (i : Fin 23) (n : LaneNo) :
    (s.enteredTake x i n).lane n = { s.lane n with takeLine := [arrivedTake x i] } := State.lane_setLane_same _ _ _

/-- A take that arrives at a lane whose take line is empty joins the line and is evaluated. -/
theorem State.Routes.take_take {x : Transaction} {i : Fin 23} {base : Addr} {exponent : Nat}
    (hr : s.Routes x i (.take base exponent n)) (hd : x.direction = .read) (hno : (s.lane n).refusal false = none)
    (hl : (s.lane n).takeLine = []) : s.begin.take x = (s.enteredTake x i n).schedule [.evalTake n] := by
  rw [hr.take]
  unfold State.byEntry State.arriveTake
  simp only [hd, State.occupy_lane, State.begin_lane, hno]
  unfold State.joinTakeLine
  simp only [State.occupy_lane, State.begin_lane, hl, List.isEmpty_nil, if_true]
  rw [State.updLane_eq]
  simp only [State.occupy_lane, State.begin_lane, hl, List.nil_append]
  rfl

/-- The first take of a line whose head parcel's header is at hand goes on. -/
theorem State.evalTake_proceeds {c : HeadCache} (hl : (s.lane n).takeLine = e :: es) (hs : e.stage = .waiting)
    (hp : (s.lane n).putLine = []) (hr : (s.lane n).ready ≠ 0) (hc : (s.lane n).cache = some c)
    (hh : s.heldOf n .take = none) : s.evalTake n = s.proceedTake n e c := by
  unfold State.evalTake
  simp [hl, hs, Lane.scanning_nil hp, hr, hc, State.unhold_none hh]

/-- The take line does not matter to a release. -/
theorem Lane.dropHead_setTakeLine (l : Lane) (ts : List TakeEntry) (length : Nat) :
    ({ l with takeLine := ts } : Lane).dropHead length
      = ({ (l.dropHead length).1 with takeLine := ts }, (l.dropHead length).2) := by
  unfold Lane.dropHead
  dsimp only
  split <;> rfl

theorem Lane.afterRelease_setTakeLine (l : Lane) (ts : List TakeEntry) (length : Nat) :
    ({ l with takeLine := ts } : Lane).afterRelease length = { l.afterRelease length with takeLine := ts } := by
  unfold Lane.afterRelease
  rw [Lane.dropHead_setTakeLine]

/-! ## A release that arrives with the header at hand (R66, R67) -/

section Arrives

variable {x : Transaction} {i : Fin 23} {base : Addr} {exponent : Nat} {c : HeadCache}
  (hr : s.Routes x i (.take base exponent n)) (hd : x.direction = .read) (hk : takeRegion x = .release)
  (hp : (s.lane n).putLine = []) (hready : (s.lane n).ready ≠ 0) (hc : (s.lane n).cache = some c)
  (hheld : s.hold.held = [])

/-- The block after a release that has arrived has been carried out, but for the lane. -/
def State.releasedBy (s : State) (x : Transaction) (n : LaneNo) (c : HeadCache) : State :=
  ((s.begin.occupy x).pushSegments ((s.lane n).dropHead c.header.length.toNat).2).answer x.tag false
    (maskWord (laneEnables x) (releaseWord c.header ((s.lane n).ready - 1) (s.lane n).gap))

include hd hk hp hready hc hheld

theorem State.evalTake_releases : (s.enteredTake x i n).evalTake n =
    ((s.releasedBy x n c).setLane n { (s.lane n).afterRelease c.header.length.toNat with takeLine := [] }).schedule
      [.laneTests n, .waitEnd n, .evalTake n] := by
  have hl := s.enteredTake_lane x i n
  have hnone : (s.enteredTake x i n).heldOf n .take = none := by
    show s.heldOf n .take = none
    simp [State.heldOf, hheld]
  have hproceeds : (s.enteredTake x i n).evalTake n = (s.enteredTake x i n).proceedTake n (arrivedTake x i) c :=
    State.evalTake_proceeds (es := []) (by rw [hl]) rfl (by rw [hl]; exact hp) (by rw [hl]; exact hready)
      (by rw [hl]; exact hc) hnone
  have hcarry := State.carryRelease_cons (s := s.begin.occupy x) (n := n)
    (l := { s.lane n with takeLine := [arrivedTake x i] }) (e := arrivedTake x i) rfl hd c hheld
  rw [Lane.afterRelease_setTakeLine, Lane.dropHead_setTakeLine] at hcarry
  exact hproceeds.trans ((State.proceedTake_release hk c).trans hcarry)

include hr

/-- A release that arrives at an OPEN lane with nothing to do is carried out in its event. -/
theorem present_releases (hq : s.TakeQuiet n) : present x s = .next ((s.releasedBy x n c).setLane n
    { (s.lane n).afterRelease c.header.length.toNat with takeLine := [] }) := by
  have htake := hr.take_take hd (Lane.refusal_open hq.opened hq.clear false) hq.takeLine
  refine present_task hr.calm hr.free htake rfl
    (State.evalTake_releases hd hk hp hready hc hheld) rfl (fun y hy => ?_) (by simp) (hr.calm.congr rfl rfl rfl)
  refine State.atRest_noops (n := n) (s := (s.releasedBy x n c).setLane n _) ?_ hq.closing y (leaveTake_laneTasks n y hy)
  rw [State.lane_setLane_same]
  exact Lane.afterRelease_atRest hq.clear (by simp [hq.opened]) hp

/-- What the block is after such a release, field by field. -/
theorem present_releases_fields (hq : s.TakeQuiet n) {lane : Lane} {gone : List Nat}
    (hlane : ({ (s.lane n).afterRelease c.header.length.toNat with takeLine := [] } : Lane) = lane)
    (hgone : ((s.lane n).dropHead c.header.length.toNat).2 = gone) :
    ∃ u, present x s = .next u ∧ u.lane n = lane ∧ (∀ m, m ≠ n → u.lane m = s.lane m) ∧
      u.pool.freeList = gone.reverse ++ s.pool.freeList ∧
      u.sys.responses = [⟨x.tag, false, maskWord (laneEnables x)
        (releaseWord c.header ((s.lane n).ready - 1) (s.lane n).gap)⟩] ∧
      u.sys.tags = s.sys.tags.set x.tag.val none ∧ u.hold = s.hold ∧ u.dec = s.dec ∧ u.cmd = s.cmd ∧
      u.notice = s.notice ∧ u.status = s.status ∧ u.port = s.port := by
  refine ⟨_, present_releases hr hd hk hp hready hc hheld hq, (State.lane_setLane_same _ _ _).trans hlane,
    fun m hm => State.lane_setLane_ne _ _ hm, ?_, rfl, ?_, rfl, rfl, rfl, rfl, rfl, rfl⟩
  · exact congrArg (fun g => g.reverse ++ s.pool.freeList) hgone
  · show (s.sys.tags.set x.tag.val _).set x.tag.val none = _
    simp

end Arrives

/-! ## The release of the last parcel of a DRAINING lane (R5, R74) -/

/-- A drained lane that no command works on goes to CLOSED, its takes answered and LANE_CLOSED noticed. -/
theorem State.laneTests_drains (hl : s.lane n = l) (hb : l.busy = .clear) (hs : l.state = .draining)
    (hr : l.ready = 0) (ho : l.openParcel = none) (hp : l.putLine = []) (hc : l.cutting = false)
    (hw : ∀ x ∈ l.takeLine, x.stage = .waiting) (hh : s.hold.held = []) (hwork : s.cmd.work ≠ .closing n) :
    s.laneTests n = ((s.answerGone n [] l.takeLine).produce (laneClosedNotice n)).setLane n
      { l with state := .closed, takeLine := [] } := by
  have hnone : s.heldOf n .take = none := by simp [State.heldOf, hh]
  subst hl
  have hsame := (s.sameWork_answerGone n [] (s.lane n).takeLine)
  have hdrain := State.drainTest_done hs hb hr ho hp hc hw (State.leavesQuietly_of_none hnone)
  rw [State.unhold_none ((hsame.heldOf n .take).trans hnone), State.produce_setLane] at hdrain
  unfold State.laneTests
  rw [if_neg (by simp [hb]), State.cutTest_of_work hwork, hdrain]
  exact State.closeTest_of_work fun hx => hwork
    ((congrArg CommandUnit.work (hsame.trans (State.sameWork_produce _ (laneClosedNotice n))).cmd).symm.trans hx)

/-- The block after the last parcel of a DRAINING lane `l` has left it, from `s` with the take answered. -/
def State.closedBehind (s : State) (n : LaneNo) (l : Lane) : State :=
  ((s.answerGone n [] l.takeLine).produce (laneClosedNotice n)).setLane n { l with state := .closed, takeLine := [] }

/-- The parts that follow when a take leaves a DRAINING lane with its last parcel. -/
theorem State.does_closes (hb : l.busy = .clear) (hs : l.state = .draining)
    (hr : l.ready = 0) (ho : l.openParcel = none) (hp : l.putLine = []) (hc : l.cutting = false)
    (hw : ∀ x ∈ l.takeLine, x.stage = .waiting) (hh : s.hold.held = []) (hwork : s.cmd.work ≠ .closing n)
    (ht : s.todo = []) :
    (s.setLane n l).Does 3 [.laneTests n, .waitEnd n, .evalTake n] (s.closedBehind n l) := by
  have htests : (s.setLane n l).doTask (.laneTests n) = s.closedBehind n l := by
    refine (State.laneTests_drains (State.lane_setLane_same s n l) hb hs hr ho hp hc hw hh hwork).trans ?_
    rw [State.answerGone_setLane, State.produce_setLane, State.setLane_setLane]
    rfl
  have hsame := (s.sameWork_answerGone n [] l.takeLine).trans (State.sameWork_produce _ (laneClosedNotice n))
  have htodo : (s.closedBehind n l).todo = [] := hsame.todo.trans ht
  refine State.Does.step htests htodo (State.Does.noops (ts := [.waitEnd n, .evalTake n]) htodo fun y hy => ?_)
  refine State.atRest_noops (s := s.closedBehind n l) (n := n) ?_ (fun hx => hwork ((congrArg CommandUnit.work hsame.cmd).symm.trans hx)) y ?_
  · unfold State.closedBehind
    rw [State.lane_setLane_same]
    exact ⟨hb, by simp, hp, rfl⟩
  · exact leaveTake_laneTasks n y (List.mem_cons_of_mem _ hy)

end Sys2Proof.Machine

namespace Sys2Proof.Machine

variable {s t u v V : State} {n : LaneNo} {l : Lane} {e : TakeEntry} {es : List TakeEntry} {r : MemRequest}
  {rest : List Outstanding}

/-! ## The release that closes a DRAINING lane, from each of its three events -/

/-- A DRAINING lane with nothing in flight but the take that releases its last parcel. -/
structure Lane.LastParcel (l : Lane) : Prop where
  draining : l.state = .draining
  clear    : l.busy = .clear
  cutting  : l.cutting = false
  putLine  : l.putLine = []
  ready    : l.ready = 1
  noOpen   : l.openParcel = none

/-- The lane that the release of its last parcel has closed. -/
def Lane.closedLast (l : Lane) : Lane :=
  { l with
    state := .closed, ready := 0, takeSeq := l.takeSeq + 1, cache := none, gap := false, released := l.released + 1,
    armed := l.armed || decide (0 < l.desc.readyThreshold), chain := [], headOffset := 0, tailOffset := 0,
    takeLine := [] }

/-- The block after the take of access `x` has released the last parcel of the DRAINING lane `l`, and the takes `behind`
it are answered. -/
def State.closedByRelease (s : State) (n : LaneNo) (l : Lane) (x : Transaction) (data : Word)
    (behind : List TakeEntry) : State :=
  (State.answerGone (((s.setLane n l.closedLast).pushSegments l.chain).answer x.tag false
    (maskWord (laneEnables x) data)) n [] behind).produce (laneClosedNotice n)

/-- What the release of the last parcel leaves alone. -/
theorem State.closedByRelease_run (s : State) (n : LaneNo) (l : Lane) (x : Transaction) (data : Word)
    (behind : List TakeEntry) : s.SameRun (s.closedByRelease n l x data behind) :=
  have h := (State.sameWork_answerGone (((s.setLane n l.closedLast).pushSegments l.chain).answer x.tag false
    (maskWord (laneEnables x) data)) n [] behind).trans (State.sameWork_produce _ (laneClosedNotice n))
  ⟨h.rst, h.presented, h.cmd, h.todo⟩

/-- The parts that follow when a take has released the last parcel of a DRAINING lane: the lane closes. -/
theorem State.does_closesByRelease (h : l.LastParcel) (hw : ∀ x ∈ es, x.stage = .waiting) (hh : s.hold.held = [])
    (hwork : s.cmd.work ≠ .closing n) (ht : s.todo = []) (x : Transaction) (data : Word) (length : Nat) :
    (((s.pushSegments (l.dropHead length).2).answer x.tag false (maskWord (laneEnables x) data)).setLane n
      { l.afterRelease length with takeLine := es }).Does 3 [.laneTests n, .waitEnd n, .evalTake n]
        (s.closedByRelease n l x data es) := by
  have hdrop := Lane.dropHead_last h.ready h.noOpen length
  unfold Lane.afterRelease
  rw [hdrop]
  have hdoes := State.does_closes (s := (s.pushSegments l.chain).answer x.tag false (maskWord (laneEnables x) data)) (n := n)
    (l := { l with
      ready := 0, takeSeq := l.takeSeq + 1, cache := none, armed := l.armed || decide (0 < l.desc.readyThreshold)
      chain := [], headOffset := 0, tailOffset := 0, released := l.released + 1, gap := false, takeLine := es })
    h.clear h.draining rfl h.noOpen h.putLine h.cutting hw hh hwork ht
  have hclosed : State.closedBehind ((s.pushSegments l.chain).answer x.tag false (maskWord (laneEnables x) data)) n
      { l with
        ready := 0, takeSeq := l.takeSeq + 1, cache := none, armed := l.armed || decide (0 < l.desc.readyThreshold)
        chain := [], headOffset := 0, tailOffset := 0, released := l.released + 1, gap := false, takeLine := es }
      = s.closedByRelease n l x data es := by
    unfold State.closedBehind State.closedByRelease
    rw [State.pushSegments_setLane, State.answer_setLane, State.answerGone_setLane, State.produce_setLane]
    rfl
  rwa [hclosed] at hdoes

theorem Lane.headLimit_open {p : OpenParcel} (ho : l.openParcel = some p) :
    l.headLimit = min (l.chain.findIdx (· == p.segment)) (l.chain.length - 1) := by
  unfold Lane.headLimit; rw [ho]

section Events

variable (hlast : (s.lane n).LastParcel) (hheld : s.hold.held = []) (hw : s.cmd.work ≠ .closing n)

include hlast hheld hw

/-- A release arrives at the lane with the header at hand. -/
theorem present_closes {x : Transaction} {i : Fin 23} {base : Addr} {exponent : Nat} {c : HeadCache}
    (hr : s.Routes x i (.take base exponent n)) (hd : x.direction = .read) (hk : takeRegion x = .release)
    (hl : (s.lane n).takeLine = []) (hc : (s.lane n).cache = some c) :
    present x s = .next ((s.begin.occupy x).closedByRelease n (s.lane n) x
      (releaseWord c.header ((s.lane n).ready - 1) (s.lane n).gap) []) := by
  have hno : (s.lane n).refusal false = none := (((s.lane n).refusal_cases.2 hlast.clear).2.1 hlast.draining).2
  have hrun := (s.begin.occupy x).closedByRelease_run n (s.lane n) x
    (releaseWord c.header ((s.lane n).ready - 1) (s.lane n).gap) []
  have heval := State.evalTake_releases (i := i) hd hk hlast.putLine (by simp [hlast.ready]) hc hheld
  have hdoes := State.does_closesByRelease (s := s.begin.occupy x) (es := []) hlast (by simp) hheld hw rfl x
    (releaseWord c.header ((s.lane n).ready - 1) (s.lane n).gap) c.header.length.toNat
  exact present_does hr.calm hr.free (hr.take_take hd hno hl) rfl (State.Does.cons heval rfl hdoes) (by decide)
    hrun.todo (hr.calm.congr hrun.rst hrun.presented (congrArg CommandUnit.work hrun.cmd))

variable (h : s.Ends r rest) (hl : (s.lane n).takeLine = e :: es) (hd : e.tx.direction = .read)
  (hes : ∀ x ∈ es, x.stage = .waiting)

include h hl hd hes

/-- A release's head fetch returned the header of the last parcel. -/
theorem headFetchEnd_closes {w : Word} (hr : r.owner = .headFetch n) (hs : e.stage = .fetching)
    (hk : e.kind = .release) (hpass : (Header.ofWord w).passes (s.lane n).takeSeq = true) :
    exec (.headFetchEnd (.ok w)) s = .next ((s.ended rest).closedByRelease n
      (({ s.lane n with errors := 0 } : Lane).fetched w) e.tx
      (releaseWord (Header.ofWord w) ((s.lane n).ready - 1) (s.lane n).gap) es) := by
  let ended : Lane := { s.lane n with errors := 0 }
  have hlast' : (ended.fetched w).LastParcel :=
    ⟨hlast.draining, hlast.clear, hlast.cutting, hlast.putLine, hlast.ready, hlast.noOpen⟩
  have hbody := ((State.requestEnded_headFetch (s := s.ended rest) hr (.ok w)).trans
    (State.headFetchEnded_passes (l := ended) hl hs (State.laneEnded_ok (Lane.serving_of_draining hlast.draining) w)
      hpass (by simp [ended, hlast.draining]))).trans ((State.proceedTake_release hk _).trans
        (State.carryRelease_cons (s := s.ended rest) (l := ended.fetched w) hl hd (fetchedCache w) (by exact hheld)))
  have hrun := (s.ended rest).closedByRelease_run n (ended.fetched w) e.tx
    (releaseWord (Header.ofWord w) ((s.lane n).ready - 1) (s.lane n).gap) es
  have hdoes := State.does_closesByRelease (s := s.ended rest) (es := es) hlast' hes hheld hw rfl e.tx
    (releaseWord (Header.ofWord w) ((s.lane n).ready - 1) (s.lane n).gap) (Header.ofWord w).length.toNat
  exact event_response (m := .ok w) h hbody rfl rfl hdoes (by decide)
    (h.calm.congr hrun.rst hrun.presented (congrArg CommandUnit.work hrun.cmd))

/-- The last body read of a data read ends, and AUTO_RELEASE releases the last parcel. -/
theorem takeReadEnd_closes {w : Word} {k : Nat} {got : List Byte} {c : HeadCache} (hr : r.owner = .takeRead n)
    (hs : e.stage = .reading k 1 false got) (hc : (s.lane n).cache = some c)
    (hauto : (s.lane n).desc.autoRelease = true) (hall : c.consumed + k = c.header.length.toNat) :
    exec (.takeReadEnd (.ok w)) s = .next ((s.ended rest).closedByRelease n
      (({ s.lane n with errors := 0 } : Lane).consume c k e.tx.size) e.tx
      (placeBytes (firstLane e.tx) (got ++ enabledBytes r.enables w)) es) := by
  let ended : Lane := { s.lane n with errors := 0 }
  have hlast' : (ended.consume c k e.tx.size).LastParcel :=
    ⟨hlast.draining, hlast.clear, hlast.cutting, hlast.putLine, hlast.ready, hlast.noOpen⟩
  have hbody := (State.requestEnded_takeRead (s := s.ended rest) hr (.ok w)).trans
    ((State.takeReadEnded_done (l := ended) hl hs (State.laneEnded_ok (Lane.serving_of_draining hlast.draining) w) rfl
      rfl).trans (State.dataReadDone_releases (s := s.ended rest) (l := ended) hc hl hd (by exact hheld)
        ⟨hauto, hall, by simp [ended, hlast.draining]⟩))
  have hrun := (s.ended rest).closedByRelease_run n (ended.consume c k e.tx.size) e.tx
    (placeBytes (firstLane e.tx) (got ++ enabledBytes r.enables w)) es
  have hdoes := State.does_closesByRelease (s := s.ended rest) (es := es) hlast' hes hheld hw rfl e.tx
    (placeBytes (firstLane e.tx) (got ++ enabledBytes r.enables w)) c.header.length.toNat
  exact event_response (m := .ok w) h hbody rfl rfl hdoes (by decide)
    (h.calm.congr hrun.rst hrun.presented (congrArg CommandUnit.work hrun.cmd))

end Events

/-- Settles O32. -/
theorem releaseCompletes : Obligations.ReleaseCompletes := by
  refine ⟨fun s x i base exponent n c hr hd hk hq hready hc hheld => ?_,
    fun s n h hst hb hcut hw hp hready hopen hheld => ?_⟩
  · have hafter := fun lane gone hlane hgone =>
      present_releases_fields (lane := lane) (gone := gone) hr hd hk hq.putLine hready hc hheld hq hlane hgone
    unfold Lane.afterRelease at hafter
    refine ⟨fun h1 ho => hafter _ _ ?_ ?_, fun p h1 ho hp => ?_, fun h1 => hafter _ _ ?_ ?_⟩
    · rw [Lane.dropHead_last h1 ho, h1, ← hq.takeLine]
    · rw [Lane.dropHead_last h1 ho]
    · have hlimit := Lane.headLimit_open ho
      refine hafter _ _ ?_ ?_
      · rw [Lane.dropHead_open h1 ho hp, h1, ← hq.takeLine, hlimit]
        simp only [ho]
      · rw [Lane.dropHead_open h1 ho hp, hlimit]
        simp only [ho]
    · rw [Lane.dropHead_next h1, ← hq.takeLine]
      rfl
    · rw [Lane.dropHead_next h1]
      rfl
  · have hlast : (s.lane n).LastParcel := ⟨hst, hb, hcut, hp, hready, hopen⟩
    refine ⟨fun x i base exponent consumed hr hd hk hl hc => ?_, fun r rest e es hends hr hl hs hk hd hes hpass => ?_,
      fun r rest e es k consumed got w hends hr hl hs hd hes hc hauto hall => ?_⟩
    · refine (present_closes hlast hheld hw hr hd hk hl hc).trans ?_
      rw [hready]
      rfl
    · refine (headFetchEnd_closes hlast hheld hw hends hl hd hes hr hs hk (by rw [h.ofWord_word]; exact hpass)).trans ?_
      rw [hready, h.ofWord_word]
      rfl
    · exact takeReadEnd_closes hlast hheld hw hends hl hd hes hr hs hc hauto hall

end Sys2Proof.Machine

namespace Sys2Proof.Machine

variable {s t u v V : State} {n : LaneNo} {l : Lane} {code : Byte} {w : CommandWrite} {work : CommandWork}

/-! ## Commands that are taken (R124, R127) -/

/-- A command that is taken and ends in the same event. -/
theorem State.commandTaken_completes (s : State) (code : Byte) (w : CommandWrite) (work : CommandWork)
    (outcome reason detail : Byte) :
    ({ (s.commandTaken code w work []).completeCommand outcome reason detail with todo := [] } : State)
      = s.commandEnded code w outcome reason detail := by
  rw [State.completeCommand_eq]
  unfold State.commandEnded Command.notify
  dsimp only
  have hflags : (s.commandTaken code w work []).cmd.current.flags = w.flags := rfl
  rw [hflags]
  cases w.flags.getLsbD 0 with
  | true =>
    rw [if_pos rfl, if_pos rfl, State.produce_eq]
    unfold State.commandTaken State.respond CommandUnit.master State.commandRequests
    simp only [List.append_assoc, List.cons_append, List.nil_append]
    rfl
  | false =>
    simp only [Bool.false_eq_true, if_false, List.append_nil]
    unfold State.commandTaken State.respond CommandUnit.master State.commandRequests
    simp only [List.append_assoc, List.cons_append, List.nil_append]
    rfl

theorem laneOf_eq (h : w.lane.toNat = n.val) : laneOf w.lane = some n := by
  unfold laneOf
  rw [dif_pos (by omega)]
  simp only [Option.some.injEq]
  exact Fin.ext h

/-- A lane command that the IDLE unit takes. -/
theorem State.take_laneCommand (h : s.Decodes (commandTransaction s code w)) (hr : s.cmd.running = false)
    (hn : s.cmd.autoload = none) (hc : isLaneCode code = true) (hl : w.lane.toNat = n.val) :
    s.begin.take (commandTransaction s code w) = (s.commandTaken code w s.cmd.work []).beginLaneCommand code n := by
  rw [State.take_command h hr, State.takeCommand_begin hn]
  have h1 : code ≠ codeLoadSetup := by rintro rfl; exact absurd hc (by decide)
  have h2 : code ≠ codeLoadApertures := by rintro rfl; exact absurd hc (by decide)
  have h3 : code ≠ codeWriteStatus := by rintro rfl; exact absurd hc (by decide)
  unfold State.beginCommand
  simp only [h1, h2, h3, if_false, hc, if_true, laneOf_eq hl]

/-- CLOSE LANE that the IDLE unit takes on an OPEN lane. -/
theorem State.take_close (h : s.Decodes (commandTransaction s 4 w)) (hr : s.cmd.running = false)
    (hn : s.cmd.autoload = none) (hl : w.lane.toNat = n.val) (hs : (s.lane n).state = .opened) :
    s.begin.take (commandTransaction s 4 w) = ((s.commandTaken 4 w (.closing n) []).changePuts n
      (fun l => { l with state := .draining }) PutEntry.notInFlight).schedule [.laneTests n] := by
  rw [State.take_laneCommand h hr hn (by decide) hl]
  exact if_pos hs

/-- FLUSH LANE that the IDLE unit takes on an OPEN or DRAINING lane. -/
theorem State.take_flush (h : s.Decodes (commandTransaction s 5 w)) (hr : s.cmd.running = false)
    (hn : s.cmd.autoload = none) (hl : w.lane.toNat = n.val)
    (hs : (s.lane n).state = .opened ∨ (s.lane n).state = .draining) :
    s.begin.take (commandTransaction s 5 w) = ((s.commandTaken 5 w (.emptying n) []).changeBoth n
      (fun l => { l with busy := .flush }) PutEntry.notInFlight).schedule [.laneTests n] := by
  rw [State.take_laneCommand h hr hn (by decide) hl]
  exact if_pos hs

/-- RESET LANE that the IDLE unit takes. -/
theorem State.take_reset (h : s.Decodes (commandTransaction s 6 w)) (hr : s.cmd.running = false)
    (hn : s.cmd.autoload = none) (hl : w.lane.toNat = n.val) :
    s.begin.take (commandTransaction s 6 w) = ((s.commandTaken 6 w (.emptying n) []).changeBoth n
      (fun l => { l with busy := .reset }) PutEntry.notInFlight).schedule [.laneTests n] :=
  State.take_laneCommand h hr hn (by decide) hl

/-! ## The end of a command and the hand-over to none -/

/-- The block after the running command has ended and no other was waiting. -/
def State.completed (s : State) (outcome reason detail : Byte) : State :=
  { s.completeCommand outcome reason detail with todo := [] }

section Completed

variable (outcome reason detail : Byte)

theorem State.completed_setLane (l : Lane) :
    (u.setLane n l).completed outcome reason detail = (u.completed outcome reason detail).setLane n l := by
  unfold State.completed; rw [State.completeCommand_setLane]; rfl

theorem State.completed_unhold (line : Line) :
    (u.unhold n line).completed outcome reason detail = (u.completed outcome reason detail).unhold n line := by
  unfold State.completed; rw [State.completeCommand_unhold]; rfl

theorem State.completed_pushSegments (segs : List Nat) :
    (u.pushSegments segs).completed outcome reason detail
      = (u.completed outcome reason detail).pushSegments segs := by
  unfold State.completed; rw [State.completeCommand_pushSegments]; rfl

theorem State.completed_answerError (x : Transaction) :
    (u.answerError x).completed outcome reason detail = (u.completed outcome reason detail).answerError x := by
  unfold State.completed State.answerError; rw [State.completeCommand_answer]; rfl

theorem State.completed_foldl {α : Type} {f : State → α → State} {xs : List α}
    (hf : ∀ u, ∀ x ∈ xs, (f u x).completed outcome reason detail = f (u.completed outcome reason detail) x) :
    (xs.foldl f u).completed outcome reason detail = xs.foldl f (u.completed outcome reason detail) := by
  induction xs generalizing u with
  | nil => rfl
  | cons x xs ih =>
    exact (ih fun u y hy => hf u y (List.mem_cons_of_mem _ hy)).trans
      (congrArg (xs.foldl f) (hf u x List.mem_cons_self))

/-- Entries that are no captures are answered alike before and after the end of a command. -/
theorem State.completed_answerGone {ps : List PutEntry} (ts : List TakeEntry)
    (h : ∀ e ∈ ps, ∀ hold o, e.kind ≠ .capture hold o) :
    (u.answerGone n ps ts).completed outcome reason detail
      = (u.completed outcome reason detail).answerGone n ps ts := by
  have hputs : ∀ v : State, ∀ e ∈ ps, (v.answerByChange n e).completed outcome reason detail
      = (v.completed outcome reason detail).answerByChange n e := fun v e he => by
    unfold State.answerByChange
    cases hk : e.kind with
    | capture hold o => exact absurd hk (h e he hold o)
    | body => exact State.completed_answerError _ _ _ e.tx
    | final tag => exact State.completed_answerError _ _ _ e.tx
  have htakes : ∀ v : State, ∀ e ∈ ts, (State.answerError v e.tx).completed outcome reason detail
      = (v.completed outcome reason detail).answerError e.tx := fun v e _ => State.completed_answerError _ _ _ e.tx
  exact (State.completed_foldl _ _ _ htakes).trans
    (congrArg (ts.foldl fun u e => u.answerError e.tx) (State.completed_foldl _ _ _ hputs))

/-- What the end of a command leaves alone. -/
theorem State.completed_fields (u : State) :
    (∀ m, (u.completed outcome reason detail).lane m = u.lane m) ∧
      (u.completed outcome reason detail).cmd.running = false ∧
      (u.completed outcome reason detail).pool = u.pool ∧ (u.completed outcome reason detail).hold = u.hold ∧
      (u.cmd.current.notify = false → (u.completed outcome reason detail).notice = u.notice) := by
  unfold State.completed
  rw [State.completeCommand_eq]
  exact ⟨fun _ => rfl, rfl, rfl, rfl, fun hf => by simp [hf]⟩

/-- The command requests at the end of a command. -/
theorem State.completed_commandQ (u : State) : (u.completed outcome reason detail).port.commandQ
    = (u.respond u.cmd.current.ticket outcome reason detail u.cmd.current.code).port.commandQ := by
  unfold State.completed
  rw [State.completeCommand_eq]

end Completed

/-- Answers that are those of a change of a lane's state, entry by entry. -/
theorem State.answerGone_of {f : State → PutEntry → State} (hf : ∀ u e, f u e = u.answerByChange n e)
    (ps : List PutEntry) (ts : List TakeEntry) :
    ts.foldl (fun u e => u.answer e.tx.tag true 0) (ps.foldl f s) = s.answerGone n ps ts := by
  have : f = fun u e => u.answerByChange n e := funext fun u => funext (hf u)
  rw [this]
  rfl

/-- The answers of put-line entries that are no captures. -/
theorem State.answerGone_noCaptures {ps : List PutEntry} (h : ∀ e ∈ ps, ∀ hold o, e.kind ≠ .capture hold o) :
    s.answerGone n ps [] = ps.foldl (fun u e => u.answer e.tx.tag true 0) s := by
  show ps.foldl (fun u e => u.answerByChange n e) s = _
  refine List.foldl_ext _ _ _ fun u e he => ?_
  unfold State.answerByChange
  cases hk : e.kind with
  | capture hold o => exact absurd hk (h e he hold o)
  | body => rfl
  | final tag => rfl

/-! ## Commands that end, or wait, with the tests of a lane -/

section Presents

variable {x : Transaction} (h : s.Decodes x) (hb : s.begin.take x = u.schedule [.laneTests n]) (hu : u.todo = [])

include h hb hu

/-- A command taken whose lane's tests note nothing more to do. -/
theorem present_tests (hd : u.laneTests n = v) (hv : v.todo = []) (hr : v.rst = s.rst)
    (hp : v.sys.presented = s.sys.presented) (hc : ∀ table, v.cmd.work ≠ .freezing table) : present x s = .next v :=
  present_does h.calm h.free hb hu (State.Does.step hd hv (.nil v)) (by decide) hv
    ⟨hr.trans h.calm.running, hp.trans h.calm.presented, hc⟩

/-- A command taken that ends with its lane's tests, with no command waiting. -/
theorem present_completes {outcome reason detail : Byte} (hd : u.laneTests n = v.completeCommand outcome reason detail)
    (hv : v.todo = []) (hw : v.hold.waiter = none) (hr : v.rst = s.rst) (hp : v.sys.presented = s.sys.presented) :
    present x s = .next (v.completed outcome reason detail) :=
  present_does h.calm h.free hb hu (State.Does.completes (ts := []) hd hv hw fun _ hy => absurd hy List.not_mem_nil)
    (by decide) rfl (State.completeCommand_calm h.calm hr hp _ _ _)

end Presents

end Sys2Proof.Machine

namespace Sys2Proof.Machine

variable {s t u v : State} {n : LaneNo} {l : Lane} {code : Byte} {w : CommandWrite}

/-! ## The tests of a lane that CLOSE LANE works on (R4, R5, R135) -/

theorem Lane.putInFlight_of_nil (h : l.putLine = []) : l.putInFlight = false := by simp [Lane.putInFlight, h]

/-- CLOSE LANE ends at once on a lane with ready parcels and nothing to cut. -/
theorem State.laneTests_closed_ready (hl : s.lane n = l) (hb : l.busy = .clear) (hw : s.cmd.work = .closing n)
    (ho : l.openParcel = none) (hr : l.ready ≠ 0) (hp : l.putLine = []) (hc : l.cutting = false) :
    s.laneTests n = s.completeCommand outcomeDone 0 0 := by
  subst hl
  exact State.laneTests_completes hb hw (State.cutTest_of_none ho) (State.drainTest_of_ready hr)
    (Lane.putInFlight_of_nil hp) hc

/-- CLOSE LANE ends at once on a lane with no parcel, which goes on to CLOSED. -/
theorem State.laneTests_closed_empty (hl : s.lane n = l) (hb : l.busy = .clear) (hw : s.cmd.work = .closing n)
    (hs : l.state = .draining) (ho : l.openParcel = none) (hr : l.ready = 0) (hp : l.putLine = [])
    (ht : l.takeLine = []) (hc : l.cutting = false) (hh : s.heldOf n .take = none) :
    s.laneTests n = ((s.setLane n { l with state := .closed }).produce (laneClosedNotice n)).completeCommand
      outcomeDone 0 0 := by
  subst hl
  have hdrain : s.drainTest n = (s.setLane n { s.lane n with state := .closed }).produce (laneClosedNotice n) := by
    have h := State.drainTest_done hs hb hr ho hp hc (by simp [ht]) (State.leavesQuietly_of_none hh)
    rw [ht, State.answerGone_nil, State.unhold_none hh] at h
    simp only [h, ← ht]
  unfold State.laneTests State.closeTest
  rw [if_neg (by simp [hb]), State.cutTest_of_none ho, hdrain]
  exact if_pos (by simp [State.closing, hw, hp, hc, Lane.putInFlight])

/-- A put in flight keeps CLOSE LANE at work. -/
theorem State.laneTests_putInFlight (hb : (s.lane n).busy = .clear) (hf : (s.lane n).putInFlight = true) :
    s.laneTests n = s := by
  unfold State.laneTests State.cutTest State.drainTest State.closeTest Lane.drained Lane.idle
  simp [hb, hf]

/-- The block after a lane went to CLOSED with the end of the command. -/
theorem State.completed_closes (s : State) (code : Byte) (w : CommandWrite) (work : CommandWork) (n : LaneNo)
    (l : Lane) : let u := (((s.commandTaken code w work []).setLane n l).produce (laneClosedNotice n)).completed 2 0 0
    u.lane n = l ∧ (∀ m, m ≠ n → u.lane m = s.lane m) ∧ u.cmd.running = false ∧ u.pool = s.pool ∧ u.hold = s.hold ∧
      u.port.commandQ = (s.commandEnded code w 2 0 0).port.commandQ ∧
      (w.flags.getLsbD 0 = false → u.notice = (s.produce (laneClosedNotice n)).notice) := by
  obtain ⟨hlane, hrun, hpool, hhold, hnotice⟩ := State.completed_fields 2 0 0
    (((s.commandTaken code w work []).setLane n l).produce (laneClosedNotice n))
  have hq := State.completed_commandQ 2 0 0
    (((s.commandTaken code w work []).setLane n l).produce (laneClosedNotice n))
  dsimp only
  refine ⟨(hlane n).trans ?_, fun m hm => (hlane m).trans ?_, hrun, hpool.trans ?_, hhold.trans ?_, hq.trans ?_, fun hf =>
    (hnotice ?_).trans ?_⟩
  · rw [State.produce_setLane, State.lane_setLane_same]
  · rw [State.produce_setLane, State.lane_setLane_ne _ _ hm, State.produce_lane]
    rfl
  · rw [State.produce_eq]; rfl
  · rw [State.produce_eq]; rfl
  · rw [← State.commandTaken_completes s code w work, State.produce_eq]
    exact (State.completed_commandQ 2 0 0 (s.commandTaken code w work [])).symm
  · rw [State.produce_eq]; exact hf
  · rw [State.produce_eq, State.produce_eq]; rfl

/-! ## CLOSE LANE (R4, R135) -/

section Close

variable (hr : s.cmd.running = false) (hn : s.cmd.autoload = none)
  (hd : s.Decodes (commandTransaction s 4 w)) (hl : w.lane.toNat = n.val)

/-- The block while CLOSE LANE works on lane `n`, whose context is `l`. -/
def State.closingLane (s : State) (w : CommandWrite) (n : LaneNo) (l : Lane) : State :=
  (s.commandTaken 4 w (.closing n) []).setLane n l

theorem State.closingLane_lane (s : State) (w : CommandWrite) (n : LaneNo) (l : Lane) :
    (s.closingLane w n l).lane n = l := State.lane_setLane_same _ _ _

include hr hn hd hl

section Quiet

variable (hq : s.PutQuiet n) (hc : (s.lane n).cutting = false)

include hq

/-- CLOSE LANE that finds an empty put line. -/
theorem State.take_close_quiet : s.begin.take (commandTransaction s 4 w)
    = (s.closingLane w n { s.lane n with state := .draining }).schedule [.laneTests n] := by
  rw [State.take_close hd hr hn hl hq.opened, State.changePuts_quiet (s := s.commandTaken 4 w (.closing n) []) hq.putLine hq.putHeld]
  have hlane : (s.commandTaken 4 w (.closing n) []).lane n = s.lane n := rfl
  unfold State.closingLane
  simp only [hlane, ← hq.putLine]

include hc

/-- The open parcel is cut. -/
theorem exec_close_cuts {p : OpenParcel} (hp : (s.lane n).openParcel = some p) : exec (.closeLane w) s =
    .next (((s.commandTaken 4 w (.closing n) []).setLane n { s.lane n with
        state := .draining, tailOffset := roundUp8 (s.lane n).tailOffset, cutting := true }).request
      (wordRequest (.headerWrite n) 0xFF (s.poolAddress p.segment p.offset) true
        (closingHeader (BitVec.ofNat 16 p.length) p.sequence 0xFF (p.flags ||| flagCut)).word)) := by
  have hlane := s.closingLane_lane w n { s.lane n with state := .draining }
  have hcuts := State.laneTests_cuts (s := s.closingLane w n { s.lane n with state := .draining }) (n := n) (p := p)
    (by rw [hlane]; exact hq.clear) (by rw [hlane]) rfl (by rw [hlane]; exact hp)
    (by rw [hlane]; exact Lane.putInFlight_of_nil hq.putLine) (by rw [hlane]; exact hc)
  rw [hlane] at hcuts
  unfold State.closingLane at hcuts
  rw [State.setLane_setLane] at hcuts
  exact (exec_of_presents rfl).trans (present_tests hd (State.take_close_quiet hr hn hd hl hq) rfl hcuts rfl rfl rfl
    fun _ hx => by cases hx)

variable (hw : s.hold.waiter = none) (ho : (s.lane n).openParcel = none)

include hw ho

/-- With ready parcels left, the command ends. -/
theorem exec_close_ready (hready : (s.lane n).ready ≠ 0) : exec (.closeLane w) s =
    .next ((s.commandEnded 4 w 2 0 0).setLane n { s.lane n with state := .draining }) := by
  have hdone := State.laneTests_closed_ready (s.closingLane_lane w n { s.lane n with state := .draining }) hq.clear rfl
    ho hready hq.putLine hc
  refine (exec_of_presents rfl).trans ((present_completes hd (State.take_close_quiet hr hn hd hl hq) rfl hdone rfl hw rfl
    rfl).trans ?_)
  exact congrArg Host.Outcome.next ((State.completed_setLane _ _ _ _).trans
    (congrArg (State.setLane · n _) (s.commandTaken_completes 4 w (.closing n) 2 0 0)))

/-- With no parcel at all, the lane goes on to CLOSED and the command ends. -/
theorem exec_close_empty (hready : (s.lane n).ready = 0) (ht : (s.lane n).takeLine = [])
    (hh : s.heldOf n .take = none) : exec (.closeLane w) s =
      .next (((s.closingLane w n { s.lane n with state := .closed }).produce (laneClosedNotice n)).completed 2 0 0) := by
  have hdone := State.laneTests_closed_empty (s.closingLane_lane w n { s.lane n with state := .draining }) hq.clear rfl
    rfl ho hready hq.putLine ht hc (by exact hh)
  have hsame := (s.closingLane w n { s.lane n with state := .closed }).sameWork_produce (laneClosedNotice n)
  unfold State.closingLane at hdone hsame
  rw [State.setLane_setLane] at hdone
  exact (exec_of_presents rfl).trans (present_completes hd (State.take_close_quiet hr hn hd hl hq) rfl hdone hsame.todo
    ((congrArg HoldUnit.waiter hsame.hold).trans hw) hsame.rst hsame.presented)

end Quiet

/-! ## CLOSE LANE that finds puts (R86) -/

section Waiting

variable {es : List PutEntry} (hst : (s.lane n).state = .opened) (hb : (s.lane n).busy = .clear)
  (hes : ∀ e ∈ es, e.stage = .waiting)

include hst hb hes

/-- Puts that wait are answered, and the command ends with the tests of the lane. -/
theorem exec_close_answers (hw : s.hold.waiter = none) (hp : (s.lane n).putLine = es)
    (hk : ∀ e ∈ es, ∀ hold o, e.kind ≠ .capture hold o)
    (hheld : ∀ x ∈ s.hold.held, x.kind = .pool → x.lane = n ∧ x.line = .put) (hc : (s.lane n).cutting = false)
    (ho : (s.lane n).openParcel = none) (hready : (s.lane n).ready ≠ 0) : exec (.closeLane w) s =
      .next ((((s.commandEnded 4 w 2 0 0).answerGone n es []).setLane n
        { s.lane n with state := .draining, putLine := [] }).unhold n .put) := by
  have hchange := State.changePuts_eq (s := s.commandTaken 4 w (.closing n) []) (n := n)
    (State.leavesQuietly_of_only hheld) (fun l => { l with state := .draining }) PutEntry.notInFlight
  have hline : ((s.commandTaken 4 w (.closing n) []).lane n).putLine = es := hp
  rw [hline, (filter_puts_waiting hes).1, (filter_puts_waiting hes).2] at hchange
  have htake := State.take_close hd hr hn hl hst
  rw [hchange] at htake
  have hsame := (s.commandTaken 4 w (.closing n) []).sameWork_answerGone n es []
  have hdone := State.laneTests_closed_ready (State.lane_setLane_same (((s.commandTaken 4 w (.closing n) []).answerGone n
    es []).unhold n .put) n { s.lane n with state := .draining, putLine := [] }) hb
    (congrArg CommandUnit.work hsame.cmd) ho hready rfl hc
  refine (exec_of_presents rfl).trans ((present_completes hd htake hsame.todo hdone hsame.todo
    ((congrArg HoldUnit.waiter hsame.hold).trans hw) hsame.rst hsame.presented).trans (congrArg Host.Outcome.next ?_))
  rw [State.completed_setLane, State.completed_unhold, State.completed_answerGone _ _ _ _ hk]
  unfold State.completed
  rw [s.commandTaken_completes]
  rfl

/-- Puts behind one in flight are answered, and the command waits for it. -/
theorem exec_close_waits {first : PutEntry} (hp : (s.lane n).putLine = first :: es) (hf : first.stage ≠ .waiting)
    (hh : s.heldOf n .put = none) : exec (.closeLane w) s =
      .next (((s.commandTaken 4 w (.closing n) []).answerGone n es []).setLane n
        { s.lane n with state := .draining, putLine := [first] }) := by
  have hchange := State.changePuts_eq (s := s.commandTaken 4 w (.closing n) []) (n := n)
    (State.leavesQuietly_of_none hh) (fun l => { l with state := .draining }) PutEntry.notInFlight
  have hline : ((s.commandTaken 4 w (.closing n) []).lane n).putLine = first :: es := hp
  have hsame := (s.commandTaken 4 w (.closing n) []).sameWork_answerGone n es []
  rw [hline, (filter_puts_behind hf hes).1, (filter_puts_behind hf hes).2,
    State.unhold_none ((hsame.heldOf n .put).trans hh)] at hchange
  have htake := State.take_close hd hr hn hl hst
  rw [hchange] at htake
  have hlane := State.lane_setLane_same ((s.commandTaken 4 w (.closing n) []).answerGone n es []) n
    { s.lane n with state := .draining, putLine := [first] }
  refine (exec_of_presents rfl).trans (present_tests hd htake hsame.todo
    (State.laneTests_putInFlight ((congrArg Lane.busy hlane).trans hb) ((congrArg Lane.putInFlight hlane).trans ?_))
    hsame.todo hsame.rst hsame.presented fun table hx => ?_)
  · simp [Lane.putInFlight, PutEntry.inFlight_iff.mpr hf]
  · cases (congrArg CommandUnit.work hsame.cmd).symm.trans hx

end Waiting

end Close

/-- Settles O41. -/
theorem closeLaneCompletes : Obligations.CloseLaneCompletes := by
  refine ⟨fun s w n hr hn hw hd hl hq hc => ⟨fun p hp => exec_close_cuts hr hn hd hl hq hc hp, fun ho hready =>
    exec_close_ready hr hn hd hl hq hc hw ho hready, fun ho hready ht hh => ?_⟩, fun s w n es hr hn hd hl hst hb hes =>
    ⟨fun hw hp hk hheld hc ho hready => ?_, fun first hp hf hh => ?_⟩⟩
  · refine ⟨_, exec_close_empty hr hn hd hl hq hc hw ho hready ht hh, ?_⟩
    exact s.completed_closes 4 w (.closing n) n _
  · rw [← State.answerGone_noCaptures (n := n) hk]
    exact exec_close_answers hr hn hd hl hst hb hes hw hp hk hheld hc ho hready
  · rw [exec_close_waits hr hn hd hl hst hb hes hp hf hh, ← State.answerGone_of (fun u e => ?_) es []]
    · rfl
    · obtain ⟨tx, entry, kind, stage, linked⟩ := e
      cases kind <;> rfl

end Sys2Proof.Machine

namespace Sys2Proof.Machine

variable {s t u v : State} {n : LaneNo} {l : Lane} {code : Byte} {w : CommandWrite} {mark : BusyMark}

/-! ## What FLUSH LANE and RESET LANE leave of the lines (R7, R86) -/

/-- The lane with busy mark `mark` and without the entries that wait. -/
def Lane.kept (l : Lane) (mark : BusyMark) : Lane :=
  { l with
    busy := mark
    putLine := l.putLine.filter fun e => e.stage != .waiting
    takeLine := l.takeLine.filter fun e => e.stage != .waiting }

/-- The entries of the lane's lines that wait are answered and leave the held table. -/
def State.answerWaiting (s : State) (n : LaneNo) (l : Lane) : State :=
  ((s.answerGone n (l.putLine.filter fun e => e.stage == .waiting) (l.takeLine.filter fun e => e.stage == .waiting)).unhold
    n .put).unhold n .take

theorem PutEntry.filter_waiting (ps : List PutEntry) :
    ps.filter PutEntry.notInFlight = ps.filter fun e => e.stage == .waiting :=
  List.filter_congr fun e _ => by simp [PutEntry.notInFlight, PutEntry.inFlight, bne]

theorem PutEntry.filter_inFlight (ps : List PutEntry) :
    (ps.filter fun e => !e.notInFlight) = ps.filter fun e => e.stage != .waiting :=
  List.filter_congr fun e _ => by simp [PutEntry.notInFlight, PutEntry.inFlight]

theorem State.changeBoth_mark (hl : s.lane n = l)
    (h : ∀ x ∈ s.hold.held, x.kind = .pool → x.lane = n ∧ x.line = .put) (mark : BusyMark) :
    s.changeBoth n (fun l => { l with busy := mark }) PutEntry.notInFlight
      = (s.answerWaiting n l).setLane n (l.kept mark) := by
  rw [State.changeBoth_eq (State.leavesQuietly_of_only h) (State.takeLeavesQuietly_of_only h), hl,
    PutEntry.filter_waiting, PutEntry.filter_inFlight, TakeEntry.filter_waiting]
  rfl

/-- Something of the lane is in flight. -/
theorem Lane.kept_busy (h : (∃ e ∈ l.putLine, e.stage ≠ .waiting) ∨ (∃ e ∈ l.takeLine, e.stage ≠ .waiting) ∨
    l.cutting = true) (mark : BusyMark) : (l.kept mark).idle = false := by
  unfold Lane.idle Lane.putInFlight Lane.takeInFlight Lane.kept PutEntry.inFlight TakeEntry.inFlight
  rcases h with ⟨e, he, hs⟩ | ⟨e, he, hs⟩ | hc
  · have : (l.putLine.filter fun e => e.stage != .waiting).any (fun e => e.stage != .waiting) = true :=
      List.any_eq_true.mpr ⟨e, List.mem_filter.mpr ⟨he, by simpa using hs⟩, by simpa using hs⟩
    simp [this]
  · have : (l.takeLine.filter fun e => e.stage != .waiting).any (fun e => e.stage != .waiting) = true :=
      List.any_eq_true.mpr ⟨e, List.mem_filter.mpr ⟨he, by simpa using hs⟩, by simpa using hs⟩
    simp [this]
  · simp [hc]

/-- Nothing of the lane is in flight. -/
theorem Lane.kept_waiting (hp : ∀ e ∈ l.putLine, e.stage = .waiting) (ht : ∀ e ∈ l.takeLine, e.stage = .waiting)
    (mark : BusyMark) : l.kept mark = { l with busy := mark, putLine := [], takeLine := [] } := by
  have hp' : (l.putLine.filter fun e => e.stage != .waiting) = [] :=
    List.filter_eq_nil_iff.mpr fun e he => by simp [hp e he]
  have ht' : (l.takeLine.filter fun e => e.stage != .waiting) = [] :=
    List.filter_eq_nil_iff.mpr fun e he => by simp [ht e he]
  unfold Lane.kept
  rw [hp', ht']

theorem Lane.kept_idle (hp : ∀ e ∈ l.putLine, e.stage = .waiting) (ht : ∀ e ∈ l.takeLine, e.stage = .waiting)
    (hc : l.cutting = false) (mark : BusyMark) : (l.kept mark).idle = true := by
  rw [Lane.kept_waiting hp ht]
  exact Lane.idle_of_nil rfl rfl hc

theorem Lane.kept_nil (hp : l.putLine = []) (ht : l.takeLine = []) (mark : BusyMark) :
    l.kept mark = { l with busy := mark } := by
  unfold Lane.kept
  simp only [hp, ht, List.filter_nil]

theorem State.answerWaiting_nil (hp : l.putLine = []) (ht : l.takeLine = []) (hh : s.hold.held = []) :
    s.answerWaiting n l = s := by
  unfold State.answerWaiting
  rw [hp, ht]
  have hput : s.heldOf n .put = none := by simp [State.heldOf, hh]
  have htake : s.heldOf n .take = none := by simp [State.heldOf, hh]
  show (s.unhold n .put).unhold n .take = s
  rw [State.unhold_none hput, State.unhold_none htake]

theorem State.answerWaiting_frame (s : State) (n : LaneNo) (l : Lane) :
    (s.answerWaiting n l).todo = s.todo ∧ (s.answerWaiting n l).rst = s.rst ∧
      (s.answerWaiting n l).sys.presented = s.sys.presented ∧ (s.answerWaiting n l).cmd = s.cmd ∧
      (s.answerWaiting n l).hold.waiter = s.hold.waiter := by
  have h := s.sameWork_answerGone n (l.putLine.filter fun e => e.stage == .waiting)
    (l.takeLine.filter fun e => e.stage == .waiting)
  exact ⟨h.todo, h.rst, h.presented, h.cmd, (congrArg HoldUnit.waiter h.hold :)⟩

/-- Nobody is held any more, if only entries of lane `n` were. -/
theorem State.answerWaiting_held (h : ∀ x ∈ s.hold.held, x.lane = n) : (s.answerWaiting n l).hold.held = [] := by
  have hsame := s.sameWork_answerGone n (l.putLine.filter fun e => e.stage == .waiting)
    (l.takeLine.filter fun e => e.stage == .waiting)
  unfold State.answerWaiting State.unhold
  dsimp only
  rw [hsame.hold, List.filter_filter]
  refine List.filter_eq_nil_iff.mpr fun x hx => ?_
  cases x.line <;> simp [h x hx]

theorem State.completed_answerWaiting (h : ∀ e ∈ l.putLine, ∀ hold o, e.kind ≠ .capture hold o)
    (outcome reason detail : Byte) : (u.answerWaiting n l).completed outcome reason detail
      = (u.completed outcome reason detail).answerWaiting n l := by
  unfold State.answerWaiting
  rw [State.completed_unhold, State.completed_unhold, State.completed_answerGone]
  exact fun e he => h e (List.mem_of_mem_filter he)

/-! ## FLUSH LANE and RESET LANE (R136) -/

section Empties

/-- The block while FLUSH LANE or RESET LANE works on lane `n`, with what waited there answered. -/
def State.emptyingLane (s : State) (code : Byte) (w : CommandWrite) (n : LaneNo) (mark : BusyMark) : State :=
  ((s.commandTaken code w (.emptying n) []).answerWaiting n (s.lane n)).setLane n ((s.lane n).kept mark)

theorem State.emptyingLane_lane (s : State) (code : Byte) (w : CommandWrite) (n : LaneNo) (mark : BusyMark) :
    (s.emptyingLane code w n mark).lane n = (s.lane n).kept mark := State.lane_setLane_same _ _ _

variable (hd : s.Decodes (commandTransaction s code w))
  (htake : s.begin.take (commandTransaction s code w) = ((s.commandTaken code w (.emptying n) []).changeBoth n
    (fun l => { l with busy := mark }) PutEntry.notInFlight).schedule [.laneTests n])
  (hheld : ∀ x ∈ s.hold.held, x.kind = .pool → x.lane = n ∧ x.line = .put) (hm : mark ≠ .clear)

include htake hheld

theorem State.take_emptying : s.begin.take (commandTransaction s code w)
    = (s.emptyingLane code w n mark).schedule [.laneTests n] := by
  rw [htake, State.changeBoth_mark (s := s.commandTaken code w (.emptying n) []) (l := s.lane n) rfl hheld]
  rfl

include hd hm

/-- With an operation in flight the busy mark stands and the command waits. -/
theorem present_emptying_waits (h : (∃ e ∈ (s.lane n).putLine, e.stage ≠ .waiting) ∨
    (∃ e ∈ (s.lane n).takeLine, e.stage ≠ .waiting) ∨ (s.lane n).cutting = true) :
    present (commandTransaction s code w) s = .next (s.emptyingLane code w n mark) := by
  have hlane := s.emptyingLane_lane code w n mark
  obtain ⟨htodo, hrst, hpres, hcmd, -⟩ := (s.commandTaken code w (.emptying n) []).answerWaiting_frame n (s.lane n)
  have hidle : ((s.emptyingLane code w n mark).lane n).idle = false := by rw [hlane, Lane.kept_busy h]
  refine present_tests hd (State.take_emptying htake hheld) htodo
    ((State.laneTests_busy (by rw [hlane]; exact hm)).trans ?_) htodo hrst hpres fun table hx => ?_
  · unfold State.discardTest
    rw [if_neg (by simp [hidle])]
  · cases (congrArg CommandUnit.work hcmd).symm.trans hx

/-- The tests of the lane discard its contents and end the command. -/
theorem present_discards (hdone : (s.emptyingLane code w n mark).discardTest n = v.completeCommand outcomeDone 0 0)
    (hv : (s.emptyingLane code w n mark).todo = v.todo ∧ (s.emptyingLane code w n mark).rst = v.rst ∧
      (s.emptyingLane code w n mark).sys.presented = v.sys.presented ∧
      (s.emptyingLane code w n mark).hold.waiter = v.hold.waiter) (hw : s.hold.waiter = none) :
    present (commandTransaction s code w) s = .next (v.completed 2 0 0) := by
  obtain ⟨htodo, hrst, hpres, -, hwaiter⟩ :=
    (s.commandTaken code w (.emptying n) []).answerWaiting_frame n (s.lane n)
  obtain ⟨hvtodo, hvrst, hvpres, hvwaiter⟩ := hv
  have hlane := s.emptyingLane_lane code w n mark
  exact present_completes hd (State.take_emptying htake hheld) htodo
    ((State.laneTests_busy (by rw [hlane]; exact hm)).trans hdone) (hvtodo.symm.trans htodo)
    (hvwaiter.symm.trans (hwaiter.trans hw)) (hvrst.symm.trans hrst) (hvpres.symm.trans hpres)

section Idle

variable (hall : ∀ x ∈ s.hold.held, x.lane = n) (hp : ∀ e ∈ (s.lane n).putLine, e.stage = .waiting)
  (ht : ∀ e ∈ (s.lane n).takeLine, e.stage = .waiting) (hc : (s.lane n).cutting = false) (hw : s.hold.waiter = none)

include hall hp ht hc hw

/-- With none in flight, the contents are discarded and the command ends. -/
theorem present_emptying (hdr : ¬ (mark = .flush ∧ (s.lane n).state = .draining)) :
    present (commandTransaction s code w) s = .next (((s.emptyingLane code w n mark).discarded n
      ((s.lane n).kept mark)).completed 2 0 0) := by
  have hlane := s.emptyingLane_lane code w n mark
  obtain ⟨-, -, -, hcmd, -⟩ := (s.commandTaken code w (.emptying n) []).answerWaiting_frame n (s.lane n)
  have hidle := Lane.kept_idle hp ht hc mark
  have hdone := State.discardTest_quiet (s := s.emptyingLane code w n mark) (n := n) (by rw [hlane]; exact hm)
    (by rw [hlane]; exact hidle) (congrArg CommandUnit.work hcmd) (State.answerWaiting_held hall)
    (by rw [hlane]; exact hdr)
  rw [hlane] at hdone
  exact present_discards hd htake hheld hm hdone ⟨rfl, rfl, rfl, rfl⟩ hw

/-- On a DRAINING lane that FLUSH LANE empties, LANE_CLOSED is noticed besides. -/
theorem present_emptying_closes (hdr : mark = .flush ∧ (s.lane n).state = .draining) :
    present (commandTransaction s code w) s = .next ((((s.emptyingLane code w n mark).discarded n
      ((s.lane n).kept mark)).produce (laneClosedNotice n)).completed 2 0 0) := by
  have hlane := s.emptyingLane_lane code w n mark
  obtain ⟨-, -, -, hcmd, -⟩ := (s.commandTaken code w (.emptying n) []).answerWaiting_frame n (s.lane n)
  have hidle := Lane.kept_idle hp ht hc mark
  have hdone := State.discardTest_closes (s := s.emptyingLane code w n mark) (n := n) (by rw [hlane]; exact hm)
    (by rw [hlane]; exact hidle) (congrArg CommandUnit.work hcmd) (State.answerWaiting_held hall)
    (by rw [hlane]; exact hdr)
  rw [hlane] at hdone
  have hsame := State.sameWork_produce ((s.emptyingLane code w n mark).discarded n ((s.lane n).kept mark))
    (laneClosedNotice n)
  exact present_discards hd htake hheld hm hdone
    ⟨hsame.todo.symm, hsame.rst.symm, hsame.presented.symm, (congrArg HoldUnit.waiter hsame.hold).symm⟩ hw

end Idle

end Empties

end Sys2Proof.Machine

namespace Sys2Proof.Machine

variable {s t u v : State} {n : LaneNo} {l : Lane} {code : Byte} {w : CommandWrite} {mark : BusyMark}

/-! ## The ends of FLUSH LANE and RESET LANE -/

/-- The block after FLUSH LANE or RESET LANE that lost no capture has ended. -/
theorem State.completed_emptying (h : ∀ e ∈ (s.lane n).putLine, ∀ hold o, e.kind ≠ .capture hold o) :
    ((s.emptyingLane code w n mark).discarded n ((s.lane n).kept mark)).completed 2 0 0
      = ((((s.commandEnded code w 2 0 0).answerWaiting n (s.lane n)).setLane n
        ((s.lane n).kept mark).discard).pushSegments (s.lane n).chain) := by
  unfold State.discarded State.emptyingLane
  rw [State.setLane_setLane, State.completed_pushSegments, State.completed_setLane, State.completed_answerWaiting h]
  unfold State.completed
  rw [s.commandTaken_completes]
  rfl

theorem State.produce_pushSegments (s : State) (segs : List Nat) (x : Notice) :
    (s.pushSegments segs).produce x = (s.produce x).pushSegments segs := by
  rw [State.produce_eq, State.produce_eq]; rfl

/-- The block after FLUSH LANE has emptied a DRAINING lane with empty lines. -/
theorem State.completed_emptying_closes (hp : (s.lane n).putLine = []) (ht : (s.lane n).takeLine = [])
    (hh : s.hold.held = []) {lane : Lane} (hlane : ((s.lane n).kept mark).discard = lane) :
    let u := (((s.emptyingLane code w n mark).discarded n ((s.lane n).kept mark)).produce (laneClosedNotice n)).completed
      2 0 0
    u.lane n = lane ∧ (∀ m, m ≠ n → u.lane m = s.lane m) ∧
      u.pool.freeList = (s.lane n).chain.reverse ++ s.pool.freeList ∧ u.cmd.running = false ∧
      u.port.commandQ = (s.commandEnded code w 2 0 0).port.commandQ ∧
      (w.flags.getLsbD 0 = false → u.notice = (s.produce (laneClosedNotice n)).notice) := by
  have heq : (((s.emptyingLane code w n mark).discarded n ((s.lane n).kept mark)).produce (laneClosedNotice n)).completed
      2 0 0 = ((((s.commandTaken code w (.emptying n) []).setLane n lane).produce (laneClosedNotice n)).completed
        2 0 0).pushSegments (s.lane n).chain := by
    unfold State.discarded State.emptyingLane
    rw [State.answerWaiting_nil hp ht (by exact hh), State.setLane_setLane, State.produce_pushSegments,
      State.completed_pushSegments, hlane]
    rfl
  obtain ⟨hn, hm, hrun, hpool, -, hq, hnotice⟩ := s.completed_closes code w (.emptying n) n lane
  dsimp only
  rw [heq]
  exact ⟨hn, hm, congrArg (fun p : Pool => (s.lane n).chain.reverse ++ p.freeList) hpool, hrun, hq, hnotice⟩

/-- Answers that are those of a change of a lane's state, and the held table that they leave. -/
theorem State.answerWaiting_of {f : State → PutEntry → State} (hf : ∀ u e, f u e = u.answerByChange n e) (u : State)
    (l : Lane) : (((l.takeLine.filter fun e => e.stage == .waiting).foldl (fun u e => u.answer e.tx.tag true 0)
      ((l.putLine.filter fun e => e.stage == .waiting).foldl f u)).unhold n .put).unhold n .take
        = u.answerWaiting n l := by
  rw [State.answerGone_of hf]
  rfl

section EmptyLines

variable (hr : s.cmd.running = false) (hn : s.cmd.autoload = none) (hw : s.hold.waiter = none) (hh : s.hold.held = [])
  (hl : w.lane.toNat = n.val) (hp : (s.lane n).putLine = []) (ht : (s.lane n).takeLine = [])
  (hc : (s.lane n).cutting = false)

include hw hh hp ht hc

/-- The command ends in its event on a lane with empty lines. -/
theorem present_emptying_nil (hd : s.Decodes (commandTransaction s code w))
    (htake : s.begin.take (commandTransaction s code w) = ((s.commandTaken code w (.emptying n) []).changeBoth n
      (fun l => { l with busy := mark }) PutEntry.notInFlight).schedule [.laneTests n]) (hm : mark ≠ .clear)
    (hdr : ¬ (mark = .flush ∧ (s.lane n).state = .draining)) :
    present (commandTransaction s code w) s = .next (((s.commandEnded code w 2 0 0).setLane n
      ((s.lane n).kept mark).discard).pushSegments (s.lane n).chain) := by
  have hheld : (s.commandEnded code w 2 0 0).hold.held = [] := by
    rw [← s.commandTaken_completes code w .none]
    obtain ⟨-, -, -, hhold, -⟩ := (s.commandTaken code w .none []).completed_fields 2 0 0
    exact (congrArg HoldUnit.held hhold).trans hh
  rw [present_emptying hd htake (by simp [hh]) hm (by simp [hh]) (by simp [hp]) (by simp [ht]) hc hw hdr,
    State.completed_emptying (by simp [hp]), State.answerWaiting_nil hp ht hheld]

include hr hn hl

theorem exec_reset_nil (hd : s.Decodes (commandTransaction s 6 w)) : exec (.resetLane w) s =
    .next (((s.commandEnded 6 w 2 0 0).setLane n
      { (s.lane n).emptied with state := .closed, gap := false, errors := 0, cause := .none }).pushSegments
        (s.lane n).chain) := by
  refine (exec_of_presents rfl).trans ((present_emptying_nil hw hh hp ht hc hd (State.take_reset hd hr hn hl) (by decide)
    (by simp)).trans ?_)
  rw [Lane.kept_nil hp ht, Lane.discard_reset rfl]
  rfl

theorem exec_flush_nil (hd : s.Decodes (commandTransaction s 5 w)) (hs : (s.lane n).state = .opened) :
    exec (.flushLane w) s = .next (((s.commandEnded 5 w 2 0 0).setLane n
      { (s.lane n).emptied with gap := (s.lane n).gap || (s.lane n).ready != 0 || (s.lane n).openParcel.isSome
        }).pushSegments (s.lane n).chain) := by
  refine (exec_of_presents rfl).trans ((present_emptying_nil hw hh hp ht hc hd
    (State.take_flush hd hr hn hl (.inl hs)) (by decide) (by simp [hs])).trans ?_)
  rw [Lane.kept_nil hp ht, Lane.discard_flush rfl, if_neg (by simp [hs])]
  rfl

end EmptyLines

/-- Settles O42. -/
theorem emptyingCommandsComplete : Obligations.EmptyingCommandsComplete := by
  refine ⟨fun s w n hr hn hw hh hl hp ht hc => ⟨fun hd => exec_reset_nil hr hn hw hh hl hp ht hc hd, fun hd hs =>
    exec_flush_nil hr hn hw hh hl hp ht hc hd hs, fun hd hs => ⟨_, (exec_of_presents rfl).trans
      (present_emptying_closes hd (State.take_flush hd hr hn hl (.inr hs)) (by simp [hh]) (by decide) (by simp [hh])
        (by simp [hp]) (by simp [ht]) hc hw ⟨rfl, hs⟩), ?_⟩⟩,
    fun s w n hr hn hl hheld => ?_⟩
  · refine State.completed_emptying_closes hp ht hh ?_
    rw [Lane.kept_nil hp ht, Lane.discard_flush rfl, if_pos hs]
    rfl
  · intro l answered kept
    have hanswered : ∀ u, answered u = u.answerWaiting n (s.lane n) := fun u => by
      refine State.answerWaiting_of (fun v e => ?_) u (s.lane n)
      obtain ⟨tx, entry, kind, stage, linked⟩ := e
      cases kind <;> rfl
    refine ⟨fun hbusy => ⟨fun hd hs => ?_, fun hd => ?_⟩, fun hd hw hall hputs htakes hc => ?_⟩
    · rw [hanswered]
      exact (exec_of_presents rfl).trans (present_emptying_waits hd (State.take_flush hd hr hn hl hs) hheld (by decide)
        hbusy)
    · rw [hanswered]
      exact (exec_of_presents rfl).trans (present_emptying_waits hd (State.take_reset hd hr hn hl) hheld (by decide)
        hbusy)
    · rw [hanswered]
      refine (exec_of_presents rfl).trans ((present_emptying hd (State.take_reset hd hr hn hl) hheld (by decide) hall
        (fun e he => (hputs e he).1) htakes hc hw (by simp)).trans ?_)
      rw [State.completed_emptying fun e he => (hputs e he).2, Lane.kept_waiting (fun e he => (hputs e he).1) htakes,
        Lane.discard_reset rfl]
      rfl

end Sys2Proof.Machine

namespace Sys2Proof.Machine

variable {s : State} {n : LaneNo}

/-! ## The space check (R43, R44) -/

/-- The chain bytes that a put needs are its header slot's, if it opens a parcel, and those it keeps (R43). -/
theorem Lane.putNeed_eq (l : Lane) (x : Transaction) : l.putNeed x =
    (if l.openParcel = none then 8 else 0) + min (writeBytes x).length (l.desc.maxLength - l.openLength) := by
  unfold Lane.putNeed Lane.keptBytes
  simp only [Option.isNone_iff_eq_none, List.length_take, Nat.min_comm]

/-- The lane-full conditions in their order (R44). -/
theorem State.spaceCheck_eq (s : State) (n : LaneNo) (opens : Bool) (need : Nat) : s.spaceCheck n opens need =
    if opens = true ∧ 65535 ≤ (s.lane n).ready then .full .space
    else if need ≤ (if (s.lane n).chain = [] then 0 else 512 - (s.lane n).tailOffset) then .starts false
    else if (s.lane n).desc.quota ≤ (s.lane n).chain.length then .full .space
    else if s.aheadAtPool n < s.pool.freeList.length then .starts true
    else .full .pool := by
  unfold State.spaceCheck State.claimGranted
  simp only [Lane.room_eq, Bool.and_eq_true, decide_eq_true_eq]
  rfl

/-! ## Claims and pushes (R26, R27, R31 to R33) -/

/-- Ranking counts the pool waiters; their order in the held table does not matter (R33). -/
theorem State.length_filter_poolWaiters (s : State) (p : HeldEntry → Bool) :
    (s.poolWaiters.filter p).length = ((s.hold.held.filter fun w => w.kind == .pool).filter p).length :=
  ((sortEntries_perm s.ranksBefore _).filter p).length_eq

/-- The rank of a pool waiter in the spec's words: by the distance of the hold starts behind the tick counter, then by
lane (R33). -/
theorem State.ranksBefore_eq (s : State) (w e : HeldEntry) : s.ranksBefore w e =
    (decide ((s.hold.ticks - e.start).toNat < (s.hold.ticks - w.start).toNat) ||
      (w.start == e.start && decide (w.lane < e.lane))) := by
  have hage : (s.age w == s.age e) = (w.start == e.start) := by
    rw [Bool.eq_iff_iff, beq_iff_eq, beq_iff_eq, s.age_eq_iff]
  unfold State.ranksBefore
  rw [hage]
  rfl

/-- A put held for POOL counts the waiters that rank before it (R27). -/
theorem State.aheadAtPool_pool {e : HeldEntry} (he : s.heldOf n .put = some e) (hk : e.kind = .pool) :
    s.aheadAtPool n = (s.poolWaiters.filter fun w => s.ranksBefore w e).length := by
  unfold State.aheadAtPool
  rw [he]
  exact if_pos (by simp [hk])

/-- Every other claimant counts all pool waiters (R27, R34, log 35). -/
theorem State.aheadAtPool_other (h : ∀ e, s.heldOf n .put = some e → e.kind ≠ .pool) :
    s.aheadAtPool n = s.poolWaiters.length := by
  unfold State.aheadAtPool
  split
  · rename_i e he
    exact if_neg (by simpa using h e he)
  · rfl

/-- A granted claim pops the top segment of the free list; min free follows, and POOL_LOW is decided (R26, R31, R32). -/
theorem State.claim_pops {x : Nat} {rest : List Nat} (hf : s.pool.freeList = x :: rest) (master : Byte) :
    let low := decide (s.pool.watermark ≤ rest.length + 1) && decide (rest.length < s.pool.watermark)
    let u : State := { s with pool := { s.pool with
      freeList := rest, minFree := min s.pool.minFree rest.length, armed := s.pool.armed && !low } }
    s.claim true master = (some x, if low && s.pool.armed then u.produce (u.poolLowNotice master) else u) := by
  unfold State.claim State.topSegment State.popSegment Pool.freeCount
  simp only [hf, if_true, List.head?_cons, List.tail_cons, List.length_cons]

/-- Segments that are pushed go on top of the free list, the first one lowest, and arm POOL_LOW at the watermark (R26,
R32). -/
theorem State.pushSegments_eq (s : State) (segs : List Nat) : s.pushSegments segs = { s with pool := { s.pool with
    freeList := segs.reverse ++ s.pool.freeList
    armed := s.pool.armed || (segs ≠ [] && s.pool.watermark ≤ segs.length + s.pool.freeList.length) } } := by
  have hempty : (!segs.isEmpty) = decide (segs ≠ []) := by cases segs <;> rfl
  unfold State.pushSegments
  simp only [hempty, List.length_append, List.length_reverse]

/-! ## A full lane refuses a put (R46, R47) -/

section Refuses

variable {x : Transaction} {i : Fin 23} {base : Addr} {exponent : Nat} {kind : WaitKind}

/-- The full action that refuses at once: REFUSE, or EVICT with no ready parcel (R46, R47). -/
theorem State.fullPut_refuses {e : PutEntry} (ha : (s.lane n).desc.fullAction = .refuse ∨
    ((s.lane n).desc.fullAction = .evict ∧ (s.lane n).ready = 0)) (kind : WaitKind) :
    s.fullPut n e kind = s.refusePut n e := by
  rcases ha with ha | ⟨ha, hready⟩
  · unfold State.fullPut
    rw [ha]
  · rw [State.fullPut_evict ha]
    exact if_pos hready

/-- The only put of a line, which has just been evaluated, is refused LANE_FULL and leaves it (R46). -/
theorem State.refusePut_waiting {l : Lane} {e : PutEntry} (hs : e.stage = .waiting) (hh : s.heldOf n .put = none)
    (hl : l.putLine = [e]) : (s.setLane n l).refusePut n e =
      (((s.answer e.tx.tag true 0).produce (refusalNotice e.tx (entryByte e.entry) reasonLaneFull)).setLane n
        { l with refusals := satInc l.refusals, putLine := [] }).schedule [.laneTests n, .evalPut n] := by
  have hheld : ((s.answer e.tx.tag true 0).produce (refusalNotice e.tx (entryByte e.entry) reasonLaneFull)).heldOf n .put
      = none := ((State.sameWork_produce _ _).heldOf n .put).trans hh
  unfold State.refusePut State.leavePut State.laneRefuse State.answerError
  rw [if_pos (by simp [hs]), State.answer_setLane, State.updLane_setLane, State.produce_setLane,
    State.leavePut_setLane hheld (by exact hl)]

/-- A put that finds the lane full, in the event that presents it: what its full action leaves, once the parts that it
notes have nothing to do. -/
theorem present_full {v : State} {ts : List Task} (hr : s.Routes x i (.put base exponent n))
    (hd : x.direction = .write) (hq : s.PutQuiet n)
    (hk : ¬ ((s.lane n).openParcel.isSome = true ∧ (s.lane n).keptBytes x = []))
    (hs : s.spaceCheck n (s.lane n).openParcel.isNone ((s.lane n).putNeed x) = .full kind)
    (hv : (s.enteredPut x i n).fullPut n (arrivedPut x i) kind = v.schedule ts) (ht : v.todo = [])
    (hts : ∀ y ∈ ts, v.doTask y = v) (hlen : ts.length ≤ 4094) (hc : v.Calm) : present x s = .next v := by
  have hl := s.enteredPut_lane x i n
  have hfull : (s.enteredPut x i n).spaceCheck n ((s.enteredPut x i n).lane n).openParcel.isNone
      (((s.enteredPut x i n).lane n).putNeed x) = .full kind := by
    rw [State.spaceCheck_congr (s := s) (t := s.enteredPut x i n) rfl rfl hl rfl rfl rfl rfl, hl, Lane.putNeed_putLine]
    exact hs
  have heval : (s.enteredPut x i n).evalPut n = v.schedule ts := by
    rw [State.evalPut_put (e := arrivedPut x i) (by rw [hl]) rfl (arrivedPut_kind x i),
      State.evaluatePut_full (e := arrivedPut x i) (by rw [hl, Lane.keptBytes_putLine]; exact hk) hfull]
    exact hv
  exact present_task hr.calm hr.free (hr.take_put hd hq) rfl heval ht hts hlen hc

/-- A put that finds the lane full is refused LANE_FULL at once under REFUSE, and under EVICT with no ready parcel. -/
theorem present_refusesFull (hr : s.Routes x i (.put base exponent n)) (hd : x.direction = .write) (hq : s.PutQuiet n)
    (hk : ¬ ((s.lane n).openParcel.isSome = true ∧ (s.lane n).keptBytes x = []))
    (hs : s.spaceCheck n (s.lane n).openParcel.isNone ((s.lane n).putNeed x) = .full kind)
    (ha : (s.lane n).desc.fullAction = .refuse ∨ ((s.lane n).desc.fullAction = .evict ∧ (s.lane n).ready = 0)) :
    present x s = .next ((((s.begin.occupy x).answer x.tag true 0).produce
      (refusalNotice x (entryByte i) reasonLaneFull)).setLane n
        { s.lane n with refusals := satInc (s.lane n).refusals, putLine := [] }) := by
  have hl := s.enteredPut_lane x i n
  have hv := (State.fullPut_refuses (s := s.enteredPut x i n) (e := arrivedPut x i) (by rw [hl]; exact ha) kind).trans
    (State.refusePut_waiting (s := s.begin.occupy x) rfl hq.putHeld rfl)
  refine present_full hr hd hq hk hs hv (by simp) ?_ (by simp) (hr.calm.congr (by simp) (by simp) (by simp))
  exact State.leavePut_noops (by simp) (by simpa using hq.opened) (by simpa using hq.clear) (by simpa using hq.closing)

end Refuses

/-- Settles O27: the space check, claims and pushes as they are computed, and the event of a refused put. -/
theorem fullLaneRefusesPut : Obligations.FullLaneRefusesPut := by
  refine ⟨fun s n x opens need => ⟨(s.lane n).putNeed_eq x, s.spaceCheck_eq n opens need⟩,
    fun s n => ⟨fun e he hk => ?_, fun h => ?_⟩, fun s master x rest hf => State.claim_pops hf master,
    State.pushSegments_eq, fun c s x i base exponent n kind hx hr hd hq hk hs ha => ?_⟩
  · rw [State.aheadAtPool_pool he hk, State.length_filter_poolWaiters]
    simp only [State.ranksBefore_eq]
  · rw [State.aheadAtPool_other h]
    exact (sortEntries_perm s.ranksBefore _).length_eq
  · rw [exec_of_presents hx, present_refusesFull hr hd hq hk hs ha, State.updLane_eq, State.produce_setLane, ← hq.putLine]
    rfl

end Sys2Proof.Machine

namespace Sys2Proof.Machine

variable {s u v V : State} {n : LaneNo} {r : MemRequest} {rest : List Outstanding} {m : MemResponse}

/-! ## The aperture table of a list (R103) -/

/-- What the entries of a table are after those below `k` were set. -/
theorem getElem_foldl_setIfInBounds (f : Nat → Aperture) (v : Vector Aperture 23) (k i : Nat) (hi : i < 23) :
    ((List.range k).foldl (fun w j => w.setIfInBounds j (f j)) v)[i] = if i < k then f i else v[i] := by
  induction k with
  | zero => simp
  | succ k ih =>
    rw [List.range_succ, List.foldl_append]
    simp only [List.foldl_cons, List.foldl_nil]
    rw [Vector.getElem_setIfInBounds hi, ih]
    by_cases h : k = i
    · subst h
      simp
    · have : i < k + 1 ↔ i < k := by omega
      simp [h, this]

/-- The table holds the entries of the list, in order. -/
theorem tableOf_getElem {es : List Aperture} (h : es.length = 23) (i : Fin 23) :
    some (tableOf es)[i.val] = es[i.val]? := by
  unfold tableOf
  rw [getElem_foldl_setIfInBounds, if_pos i.isLt, List.getElem?_eq_getElem (by omega)]
  simp [List.getD, h]

/-- Validation that succeeds gives one entry for each image (R103). -/
theorem validateFrom_length {words : List (Nat × Word)} {control : Nat} {es : List Aperture} : ∀ {fuel : Nat}
    {lower : List Aperture}, validateFrom words control fuel lower = .ok es → es.length = lower.length + fuel := by
  intro fuel
  induction fuel with
  | zero =>
    intro lower h
    cases h
    rfl
  | succ fuel ih =>
    intro lower h
    unfold validateFrom at h
    split at h
    · cases h
    · have := ih h
      rw [List.length_append, List.length_singleton] at this
      omega

/-! ## Events that end with their parts done -/

/-- The parts of an event, done to the end. -/
theorem State.Does.settle {ts : List Task} {k : Nat} (hu : u.todo = []) (hd : u.Does k ts v) (hk : k ≤ 4096) :
    (u.schedule ts).settle = v := by
  have h := hd (4096 - k) []
  rw [List.append_nil, Nat.sub_add_cancel hk, runTasks_nil] at h
  unfold State.settle
  rw [State.schedule_todo, hu, List.nil_append]
  exact (congrArg (runTasks 4096 _) (State.todo_nil (s := u) hu)).trans h

/-- An event whose body notes nothing more to do, with the replacement of the aperture table that follows (R105). -/
theorem event_replaces {body : State → State} (hr : s.rst = false) (hb : body s.begin = u) (hu : u.todo = [])
    (hv : u.replaceTest.settle = v) (hp : v.sys.presented = []) : event body s = .next v := by
  have htodo : v.todo = [] := hv ▸ State.settle_todo _
  have hlast : v.doTask .takePresented = v := by
    show v.takePresented = v
    unfold State.takePresented
    rw [hp]
  unfold event State.finish
  rw [hr, hb, State.settle_of_todo hu, hv]
  exact congrArg _ (State.Does.settle (k := 1) htodo (State.Does.step hlast htodo (.nil v)) (by decide))

/-! ## The command unit between two reads -/

/-- An event of the command unit has nothing else to do: RST_N is high, no transaction waits to be taken, nothing is
noted, no command word waits. -/
structure State.UnitAlone (s : State) : Prop where
  running   : s.rst = false
  presented : s.sys.presented = []
  todo      : s.todo = []
  waiter    : s.hold.waiter = none

/-- The end of a request, in success or in failure, leaves the command unit alone. -/
theorem State.Ends.unitAlone (h : s.Ends r rest) (hq : s.hold.waiter = none) (hV : s.begin.SameWork V) :
    V.UnitAlone :=
  ⟨hV.rst.trans h.calm.running, hV.presented.trans h.calm.presented, hV.todo, by rw [hV.hold]; exact hq⟩

/-- The block with the work of its command unit changed. -/
def State.setWork (s : State) (work : CommandWork) : State := { s with cmd := { s.cmd with work := work } }

theorem State.UnitAlone.setWork (h : s.UnitAlone) (work : CommandWork) : (s.setWork work).UnitAlone :=
  ⟨h.running, h.presented, h.todo, h.waiter⟩

theorem State.UnitAlone.setLane (h : s.UnitAlone) (n : LaneNo) (l : Lane) : (s.setLane n l).UnitAlone :=
  ⟨h.running, h.presented, h.todo, h.waiter⟩

theorem State.UnitAlone.applySetup (h : s.UnitAlone) (x : SetupHeader) : (s.applySetup x).UnitAlone :=
  ⟨h.running, h.presented, h.todo, h.waiter⟩

/-! ## Commands and autoload end (R127, R168) -/

/-- A response word of the command unit (R128). -/
def State.responseRequest (s : State) (ticket : Half) (master outcome reason detail code : Byte) : MemRequest :=
  wordRequest (.responseWrite ticket) master (s.controlAddress 0x808) true
    (responseWord ticket outcome reason detail code)

/-- The block after its command, without NOTIFY, has ended (R127). -/
def State.commandOver (s : State) (outcome reason detail : Byte) : State :=
  { s with
    cmd := { s.cmd with running := false, work := .none, current := .none }
    port := { s.port with commandQ := s.port.commandQ ++ [s.responseRequest s.cmd.current.ticket s.cmd.current.master
      outcome reason detail s.cmd.current.code] } }

/-- The block after autoload has ended with the code of a step (R168). -/
def State.autoloadOver (s : State) (code outcome reason detail : Byte) : State :=
  { s with
    cmd := { s.cmd with running := false, autoload := none, work := .none }
    port := { s.port with commandQ := s.port.commandQ ++ [s.responseRequest 0 0xFF outcome reason detail code] } }

/-- The read of the image word at an offset, as autoload issues it (R129, R153). -/
def State.autoloadRead (s : State) (offset : Nat) : MemRequest :=
  wordRequest (.imageRead offset s.cmd.current.ticket) 0xFF (s.controlAddress offset) false 0

/-- The block after autoload has gone on to a step that reads the words at `offsets` (R129, R167). -/
def State.autoloadReads (s : State) (step : AutoStep) (offsets : List Nat) : State :=
  { s with
    cmd := { s.cmd with autoload := some step, work := .images offsets.length [] none }
    port := { s.port with commandQ := s.port.commandQ ++ offsets.map s.autoloadRead } }

theorem State.commandOver_dec (s : State) (outcome reason detail : Byte) :
    (s.commandOver outcome reason detail).dec = s.dec := rfl

theorem State.autoloadReads_dec (s : State) (step : AutoStep) (offsets : List Nat) :
    (s.autoloadReads step offsets).dec = s.dec := rfl

/-- A command without NOTIFY that ends notes the hand-over and no more. -/
theorem State.completeCommand_silent (ha : s.cmd.autoload = none) (hn : s.cmd.current.flags.getLsbD 0 = false)
    (ht : s.todo = []) (outcome reason detail : Byte) :
    s.completeCommand outcome reason detail = (s.commandOver outcome reason detail).schedule [.handover] := by
  have hmaster : s.cmd.master = s.cmd.current.master := by unfold CommandUnit.master; rw [ha]; rfl
  rw [State.completeCommand_eq]
  unfold Command.notify State.respond
  rw [hn, hmaster, ht]
  simp only [Bool.false_eq_true, if_false, List.append_nil, List.nil_append]
  unfold State.commandOver State.schedule State.responseRequest
  simp only [ht]
  rfl

theorem State.endAutoload_eq {step : AutoStep} (ha : s.cmd.autoload = some step) (code outcome reason detail : Byte) :
    s.endAutoload code outcome reason detail = (s.autoloadOver code outcome reason detail).schedule [.handover] := by
  have hmaster : s.cmd.master = 0xFF := by unfold CommandUnit.master; rw [ha]; rfl
  unfold State.endAutoload State.respond
  rw [hmaster]
  rfl

end Sys2Proof.Machine

namespace Sys2Proof.Machine

variable {s u v V : State} {n : LaneNo} {r : MemRequest} {rest : List Outstanding} {m : MemResponse}
  {outcome reason detail code : Byte} {step : AutoStep} {words : List (Nat × Word)}

/-! ## The next step of autoload (R167, R168) -/

theorem State.autoNext_setup (s : State) :
    s.autoNext .setup = s.autoloadReads .apertures ((List.range 46).map fun i => 0x100 + 8 * i) := rfl

theorem State.autoNext_apertures (s : State) : s.autoNext .apertures = s.autoloadReads (.descriptor 0) [0x300, 0x308] :=
  rfl

/-- What autoload does behind the descriptor of a lane, but for the hand-over at its end. -/
def State.autoloadBehind (s : State) (n : LaneNo) : State :=
  if n.val = 15 then s.autoloadOver 3 2 0 0
  else s.autoloadReads (.descriptor (n + 1)) [0x300 + 16 * (n.val + 1), 0x300 + 16 * (n.val + 1) + 8]

/-- Behind the descriptor of a lane autoload ends, or goes on to the next lane. -/
theorem State.autoNext_descriptor (ha : s.cmd.autoload = some step) (n : LaneNo) : s.autoNext (.descriptor n) =
    (s.autoloadBehind n).schedule (if n.val = 15 then [.handover] else []) := by
  unfold State.autoNext State.autoloadBehind
  dsimp only
  by_cases h : n.val = 15
  · rw [dif_neg (by omega), if_pos h, if_pos h]
    exact State.endAutoload_eq ha _ _ _ _
  · have hlt : n.val + 1 < 16 := by omega
    have hnext : n + 1 = ⟨n.val + 1, hlt⟩ := Fin.ext (Fin.val_add_one_of_lt' hlt)
    rw [dif_pos hlt, if_neg h, if_neg h, hnext, State.schedule_nil]
    rfl

theorem State.autoloadBehind_unitAlone (h : s.UnitAlone) (n : LaneNo) : (s.autoloadBehind n).UnitAlone := by
  unfold State.autoloadBehind
  split <;> exact ⟨h.running, h.presented, h.todo, h.waiter⟩

theorem State.autoloadBehind_work (s : State) (n : LaneNo) (table : Vector Aperture 23) :
    (s.autoloadBehind n).cmd.work ≠ .freezing table := by
  unfold State.autoloadBehind
  split <;> nofun

theorem State.autoloadBehind_lane (s : State) (n k : LaneNo) : (s.autoloadBehind n).lane k = s.lane k := by
  unfold State.autoloadBehind
  split <;> rfl

theorem State.autoloadBehind_setLane (s : State) (n k : LaneNo) (l : Lane) :
    (s.setLane k l).autoloadBehind n = (s.autoloadBehind n).setLane k l := by
  unfold State.autoloadBehind
  split <;> rfl

/-! ## What the images give (R128, R129) -/

/-- The images read by the command or the step of autoload at work. -/
theorem CommandUnit.imageKind_auto (c : CommandUnit) : (c.autoload = some .setup → c.imageKind = some .setup) ∧
    (c.autoload = some .apertures → c.imageKind = some .apertures) ∧
    (∀ n, c.autoload = some (.descriptor n) → c.imageKind = some (.descriptor n)) := by
  unfold CommandUnit.imageKind
  exact ⟨fun h => by rw [h], fun h => by rw [h], fun n h => by rw [h]⟩

theorem laneOf_toNat {b : Byte} (h : b.toNat = n.val) : laneOf b = some n := by
  unfold laneOf
  rw [dif_pos (by omega)]
  exact congrArg some (Fin.ext h)

theorem CommandUnit.imageKind_code {c : CommandUnit} (ha : c.autoload = none) :
    (c.current.code = 1 → c.imageKind = some .setup) ∧ (c.current.code = 2 → c.imageKind = some .apertures) ∧
    (∀ n : LaneNo, c.current.code = 3 → c.current.lane.toNat = n.val → c.imageKind = some (.descriptor n)) := by
  unfold CommandUnit.imageKind
  rw [ha]
  refine ⟨fun h => ?_, fun h => ?_, fun n h hl => ?_⟩ <;> rw [h]
  · rfl
  · rfl
  · rw [laneOf_toNat hl]
    rfl

/-- A read that failed rejects what the images are for (R128). -/
theorem State.imagesRead_failed {k : ImageKind} (hk : s.cmd.imageKind = some k) (words : List (Nat × Word)) (f : Nat) :
    s.imagesRead words (some f) = s.rejectCommand 0x0A (k.readErrorDetail f) := by
  unfold State.imagesRead
  rw [hk]
  rfl

/-- The block with decode frozen and its new aperture table at hand (R104). -/
def State.freezing (s : State) (table : Vector Aperture 23) : State :=
  { s with cmd := { s.cmd with work := .freezing table }, sys := { s.sys with freeze := true } }

section Setup

variable (hk : s.cmd.imageKind = some .setup)

include hk

theorem State.imagesRead_setup : s.imagesRead words none = s.setupRead words := by
  unfold State.imagesRead
  rw [hk]

/-- A header that fails a test rejects (R131). -/
theorem State.imagesRead_badSetup
    (h : (parseSetup words).rejection (s.controlAddress 0).toNat = some (reason, detail)) :
    s.imagesRead words none = s.rejectCommand reason detail := by
  rw [State.imagesRead_setup hk]
  unfold State.setupRead
  simp only [h]

/-- A header that passes the tests is applied (R132). -/
theorem State.imagesRead_applies (h : (parseSetup words).rejection (s.controlAddress 0).toNat = none) :
    s.imagesRead words none = (s.applySetup (parseSetup words)).commandDone := by
  rw [State.imagesRead_setup hk]
  unfold State.setupRead
  simp only [h]

end Setup

section Apertures

variable (hk : s.cmd.imageKind = some .apertures)

include hk

theorem State.imagesRead_apertures : s.imagesRead words none = s.aperturesRead words := by
  unfold State.imagesRead
  rw [hk]

/-- A table with an entry that fails rejects (R103, R133). -/
theorem State.imagesRead_badTable {i : Nat} (h : validateFrom words (s.controlAddress 0).toNat 23 [] = .error i) :
    s.imagesRead words none = s.rejectCommand 0x06 (BitVec.ofNat 8 i) := by
  rw [State.imagesRead_apertures hk]
  unfold State.aperturesRead
  rw [h]
  rfl

/-- A valid table freezes decode (R104). -/
theorem State.imagesRead_freezes {es : List Aperture}
    (h : validateFrom words (s.controlAddress 0).toNat 23 [] = .ok es) :
    s.imagesRead words none = s.freezing (tableOf es) := by
  rw [State.imagesRead_apertures hk]
  unfold State.aperturesRead
  rw [h]
  rfl

end Apertures

section Descriptor

variable (hk : s.cmd.imageKind = some (.descriptor n))

include hk

theorem State.imagesRead_descriptor : s.imagesRead words none = s.descriptorRead n words := by
  unfold State.imagesRead
  rw [hk]

/-- Autoload passes over a lane whose AUTO_OPEN is clear (R167). -/
theorem State.imagesRead_passes (ha : s.cmd.autoload = some step)
    (h : (parseDescriptor words n).flags.getLsbD 0 = false) : s.imagesRead words none = s.commandDone := by
  rw [State.imagesRead_descriptor hk]
  unfold State.descriptorRead
  exact if_pos (by rw [ha, DescriptorImage.autoOpen, h]; rfl)

variable (hopen : s.cmd.autoload = none ∨ (parseDescriptor words n).flags.getLsbD 0 = true)

include hopen

/-- The descriptor of OPEN LANE, or of a lane that autoload is to open, is validated (R134, R167). -/
theorem State.imagesRead_validates : s.imagesRead words none =
    match (parseDescriptor words n).validate s.pool.count with
    | .error detail => s.rejectCommand reasonBadDescriptor detail
    | .ok desc => s.commandDone.updLane n fun l => l.openWith desc := by
  have hgo : ¬ (s.cmd.autoload.isSome && !(parseDescriptor words n).autoOpen) = true := by
    unfold DescriptorImage.autoOpen
    rcases hopen with h | h <;> simp [h]
  rw [State.imagesRead_descriptor hk]
  unfold State.descriptorRead
  exact if_neg hgo

theorem State.imagesRead_badDescriptor (h : (parseDescriptor words n).validate s.pool.count = .error detail) :
    s.imagesRead words none = s.rejectCommand 0x07 detail := by
  rw [State.imagesRead_validates hk hopen, h]
  rfl

theorem State.imagesRead_opens {d : Descriptor} (h : (parseDescriptor words n).validate s.pool.count = .ok d) :
    s.imagesRead words none = s.commandDone.updLane n fun l => l.openWith d := by
  rw [State.imagesRead_validates hk hopen, h]

end Descriptor

theorem State.commandDone_command (ha : s.cmd.autoload = none) : s.commandDone = s.completeCommand 2 0 0 := by
  unfold State.commandDone
  rw [ha]
  rfl

theorem State.commandDone_auto (ha : s.cmd.autoload = some step) : s.commandDone = s.autoNext step := by
  unfold State.commandDone
  rw [ha]

theorem State.commandDone_descriptor (ha : s.cmd.autoload = some (.descriptor n)) :
    s.commandDone = (s.autoloadBehind n).schedule (if n.val = 15 then [.handover] else []) :=
  (State.commandDone_auto ha).trans (State.autoNext_descriptor ha n)

theorem State.rejectCommand_command (ha : s.cmd.autoload = none) (reason detail : Byte) :
    s.rejectCommand reason detail = s.completeCommand 3 reason detail := by
  unfold State.rejectCommand
  rw [ha]
  rfl

theorem State.rejectCommand_auto (ha : s.cmd.autoload = some step) (reason detail : Byte) :
    s.rejectCommand reason detail = s.endAutoload step.code 3 reason detail := by
  unfold State.rejectCommand
  rw [ha]
  rfl

end Sys2Proof.Machine

namespace Sys2Proof.Machine

variable {s V : State} {n : LaneNo} {r : MemRequest} {rest : List Outstanding} {m : MemResponse} {offset left : Nat}
  {ticket : Half} {words : List (Nat × Word)} {failed : Option Nat} {reason detail : Byte} {step : AutoStep}

/-! ## An image read ends (R129) -/

/-- The lowest failed offset, with a failure at `offset` behind those before (R128, log 27). -/
def lowestFailed (failed : Option Nat) (offset : Nat) : Nat :=
  match failed with
  | some f => min f offset
  | none => offset

theorem firstFailed_eq (failed : Option Nat) (offset : Nat) :
    firstFailed failed offset = some (lowestFailed failed offset) := by cases failed <;> rfl

section Ends

variable (hr : r.owner = .imageRead offset ticket) (hw : s.cmd.work = .images left words failed)

include hr hw

/-- An image read that succeeds adds its word; the last one has the images read. -/
theorem State.requestEnded_image_ok (w : Word) : (s.ended rest).requestEnded r (.ok w) =
    if 1 < left then (s.ended rest).setWork (.images (left - 1) (words ++ [(offset, w)]) failed)
    else ((s.ended rest).setWork .none).imagesRead (words ++ [(offset, w)]) failed := by
  have hwork : (s.ended rest).cmd.work = .images left words failed := hw
  unfold State.requestEnded
  rw [hr]
  show (s.ended rest).imageReadEnded r offset ticket (.ok w) = _
  unfold State.imageReadEnded
  simp only [MemOutcome.failed, Bool.false_eq_true, if_false, hwork]
  rfl

/-- An image read that fails is noticed and adds its offset to those that failed. -/
theorem State.requestEnded_image_error : (s.ended rest).requestEnded r .error =
    if 1 < left then
      (s.endedFailed r rest 0 ticket).setWork (.images (left - 1) words (some (lowestFailed failed offset)))
    else ((s.endedFailed r rest 0 ticket).setWork .none).imagesRead words (some (lowestFailed failed offset)) := by
  have hwork : (s.endedFailed r rest 0 ticket).cmd.work = .images left words failed := by
    unfold State.endedFailed
    rw [State.produce_cmd]
    exact hw
  have hnotice : ((s.ended rest).countFailure .error).produce (memoryErrorNotice r .error 0 ticket)
      = s.endedFailed r rest 0 ticket := rfl
  unfold State.requestEnded
  rw [hr]
  show ((s.ended rest).countFailure .error).imageReadEnded r offset ticket .error = _
  unfold State.imageReadEnded
  simp only [MemOutcome.failed, if_true, hnotice, hwork, firstFailed_eq]
  rfl

end Ends

/-! ## Events of an image read -/

/-- What the command unit makes of the end of an image read, once a hand-over to none is done. -/
theorem exec_imageRead (h : s.Ends r rest) (hV : V.UnitAlone) {ts : List Task}
    (hb : (s.ended rest).requestEnded r (outcomeOf m) = V.schedule ts) (hts : ∀ x ∈ ts, x = .handover)
    (hlen : ts.length ≤ 1) (hwork : ∀ table, V.cmd.work ≠ .freezing table) : exec (.imageReadEnd m) s = .next V :=
  event_response_noops h hb hV.todo (fun x hx => by rw [hts x hx]; exact State.handover_none hV.waiter) (by omega)
    ⟨hV.running, hV.presented, hwork⟩

/-- Other reads are left. -/
theorem exec_imageRead_keeps (h : s.Ends r rest) (hV : s.begin.SameWork V)
    (hb : (s.ended rest).requestEnded r (outcomeOf m) = V.setWork (.images left words failed)) :
    exec (.imageReadEnd m) s = .next (V.setWork (.images left words failed)) :=
  event_response_noops (ts := []) h (hb.trans (State.schedule_nil _).symm) hV.todo nofun (by decide)
    ⟨hV.rst.trans h.calm.running, hV.presented.trans h.calm.presented, nofun⟩

section Unit

variable (h : s.Ends r rest) (hV : V.UnitAlone)

include h hV

/-- The command ends. -/
theorem exec_imageRead_completes {outcome : Byte} (ha : V.cmd.autoload = none)
    (hn : V.cmd.current.flags.getLsbD 0 = false)
    (hb : (s.ended rest).requestEnded r (outcomeOf m) = V.completeCommand outcome reason detail) :
    exec (.imageReadEnd m) s = .next (V.commandOver outcome reason detail) :=
  exec_imageRead h ⟨hV.running, hV.presented, hV.todo, hV.waiter⟩
    (hb.trans (State.completeCommand_silent ha hn hV.todo _ _ _)) (by simp) (by decide) nofun

/-- The command is rejected (R127). -/
theorem exec_imageRead_rejects (ha : V.cmd.autoload = none) (hn : V.cmd.current.flags.getLsbD 0 = false)
    (hb : (s.ended rest).requestEnded r (outcomeOf m) = V.rejectCommand reason detail) :
    exec (.imageReadEnd m) s = .next (V.commandOver 3 reason detail) :=
  exec_imageRead_completes h hV ha hn (hb.trans (State.rejectCommand_command ha _ _))

/-- Autoload stops (R167, R168). -/
theorem exec_imageRead_stops (ha : V.cmd.autoload = some step)
    (hb : (s.ended rest).requestEnded r (outcomeOf m) = V.rejectCommand reason detail) :
    exec (.imageReadEnd m) s = .next (V.autoloadOver step.code 3 reason detail) :=
  exec_imageRead h ⟨hV.running, hV.presented, hV.todo, hV.waiter⟩
    (hb.trans ((State.rejectCommand_auto ha _ _).trans (State.endAutoload_eq ha _ _ _ _))) (by simp) (by decide) nofun

/-- Autoload goes on behind the header (R167). -/
theorem exec_imageRead_goesOn {offsets : List Nat}
    (hb : (s.ended rest).requestEnded r (outcomeOf m) = V.autoloadReads step offsets) :
    exec (.imageReadEnd m) s = .next (V.autoloadReads step offsets) :=
  exec_imageRead (ts := []) h ⟨hV.running, hV.presented, hV.todo, hV.waiter⟩ (hb.trans (State.schedule_nil _).symm)
    nofun (by decide) nofun

/-- Autoload goes on behind the descriptor of a lane, or ends (R167, R168). -/
theorem exec_imageRead_behind (hb : (s.ended rest).requestEnded r (outcomeOf m) =
    (V.autoloadBehind n).schedule (if n.val = 15 then [.handover] else [])) :
    exec (.imageReadEnd m) s = .next (V.autoloadBehind n) :=
  exec_imageRead h (V.autoloadBehind_unitAlone hV n) hb (by split <;> simp) (by split <;> decide)
    (V.autoloadBehind_work n)

end Unit

/-! ## The replacement of the aperture table (R104 to R106) -/

/-- A response that may make the replacement due (R105). -/
theorem event_response_replaces {u v : State} (h : s.Ends r rest)
    (hb : (s.ended rest).requestEnded r (outcomeOf m) = u) (hu : u.todo = []) (hv : u.replaceTest.settle = v)
    (hp : v.sys.presented = []) : event (fun s => s.memoryResponse m) s = .next v :=
  event_replaces h.calm.running ((State.begin_memoryResponse h m).trans hb) hu hv hp

/-- The replacement is due when the port is quiet (R105). -/
theorem State.replaceTest_freezing (V : State) (table : Vector Aperture 23) : (V.freezing table).replaceTest =
    if V.systemQuiet then
      (State.commandDone { V.freezing table with
        dec := { V.dec with entries := table, runs := Vector.replicate 23 .clear } }).schedule [.thaw]
    else V.freezing table := by
  unfold State.replaceTest
  rfl

/-- Not quiet: decode is frozen, and the replacement waits. -/
theorem exec_imageRead_freezes {table : Vector Aperture 23} (h : s.Ends r rest) (hV : V.UnitAlone)
    (hb : (s.ended rest).requestEnded r (outcomeOf m) = V.freezing table) (hquiet : V.systemQuiet = false) :
    exec (.imageReadEnd m) s = .next (V.freezing table) := by
  have hwaits : (V.freezing table).replaceTest = V.freezing table := by
    rw [State.replaceTest_freezing, hquiet]
    exact if_neg Bool.false_ne_true
  refine event_response_replaces h hb hV.todo ?_ hV.presented
  rw [hwaits]
  exact State.settle_of_todo hV.todo

/-- The block with its aperture table replaced, the loss runs clear and decode frozen (R105). -/
def State.replaced (s : State) (table : Vector Aperture 23) : State :=
  { s.freezing table with dec := { s.dec with entries := table, runs := Vector.replicate 23 .clear } }

/-- The block with decode thawed, with nothing frozen (R106). -/
def State.thawed (s : State) : State := { s with sys := { s.sys with freeze := false } }

/-- The command ends in the event of the replacement, or autoload goes on; then decode is thawed. -/
theorem State.commandOver_replaced (s : State) (table : Vector Aperture 23) (outcome reason detail : Byte) :
    ((s.replaced table).commandOver outcome reason detail).thawed = { s.commandOver outcome reason detail with
      dec := { s.dec with entries := table, runs := Vector.replicate 23 .clear }
      sys := { s.sys with freeze := false } } := rfl

theorem State.autoloadReads_replaced (s : State) (table : Vector Aperture 23) (step : AutoStep) (offsets : List Nat) :
    ((s.replaced table).autoloadReads step offsets).thawed = { s.autoloadReads step offsets with
      dec := { s.dec with entries := table, runs := Vector.replicate 23 .clear }
      sys := { s.sys with freeze := false } } := rfl

theorem State.replaceTest_quiet (hquiet : s.systemQuiet = true) (table : Vector Aperture 23) :
    (s.freezing table).replaceTest = (s.replaced table).commandDone.schedule [.thaw] := by
  rw [State.replaceTest_freezing, hquiet]
  rfl

/-- With nothing frozen the end of the freeze changes nothing else (R106). -/
theorem State.thaw_none (h : s.dec.frozen = []) : s.thaw = s.thawed := by
  have hdec : ({ s.dec with frozen := [] } : Decoder) = s.dec := by rw [← h]
  unfold State.thaw
  rw [h, hdec]
  exact State.schedule_nil _

/-- Quiet: the table is replaced in the same event; what the command or autoload does then is followed by the end of the
freeze. -/
theorem exec_imageRead_replaces {table : Vector Aperture 23} {W : State} {ts : List Task} (h : s.Ends r rest)
    (hV : V.UnitAlone) (hb : (s.ended rest).requestEnded r (outcomeOf m) = V.freezing table)
    (hquiet : V.systemQuiet = true) (hdone : (V.replaced table).commandDone = W.schedule ts) (hW : W.UnitAlone)
    (hts : ∀ x ∈ ts, x = .handover) (hlen : ts.length ≤ 1)
    (hdec : W.dec = (V.replaced table).dec) (hf : V.dec.frozen = []) :
    exec (.imageReadEnd m) s = .next W.thawed := by
  have hnoops : ∀ x ∈ ts, W.doTask x = W := fun x hx => by rw [hts x hx]; exact State.handover_none hW.waiter
  have hfrozen : W.dec.frozen = [] := by rw [hdec]; exact hf
  have hthaw : W.Does 1 [.thaw] W.thawed := State.Does.step (State.thaw_none hfrozen) hW.todo (.nil _)
  have hdoes : W.Does (1 + ts.length) (ts ++ [.thaw]) W.thawed := fun fuel more => by
    rw [← Nat.add_assoc, List.append_assoc, runTasks_noops hW.todo _ ts _ hnoops]
    exact hthaw fuel more
  refine event_response_replaces h hb hV.todo ?_ hW.presented
  rw [State.replaceTest_quiet hquiet, hdone, State.schedule_schedule]
  exact State.Does.settle hW.todo hdoes (by omega)

end Sys2Proof.Machine

namespace Sys2Proof.Machine

variable {s V : State} {n : LaneNo} {r : MemRequest} {rest : List Outstanding} {m : MemResponse} {offset left : Nat}
  {ticket : Half} {words : List (Nat × Word)} {failed : Option Nat} {reason detail : Byte} {step : AutoStep}

/-! ## Failed image reads (R128) -/

/-- A failure leaves the command unit's requests and addresses as they are. -/
theorem State.commandOver_endedFailed (s : State) (r : MemRequest) (rest : List Outstanding) (ticket : Half)
    (outcome reason detail : Byte) :
    ((s.endedFailed r rest 0 ticket).setWork .none).commandOver outcome reason detail =
      { s.endedFailed r rest 0 ticket with
        cmd := { s.cmd with running := false, work := .none, current := .none }
        port := { (s.endedFailed r rest 0 ticket).port with
          commandQ := s.port.commandQ ++ [s.responseRequest s.cmd.current.ticket s.cmd.current.master outcome reason
            detail s.cmd.current.code] } } := by
  unfold State.endedFailed
  rw [State.produce_eq]
  rfl

theorem State.autoloadOver_endedFailed (s : State) (r : MemRequest) (rest : List Outstanding) (ticket : Half)
    (code outcome reason detail : Byte) :
    ((s.endedFailed r rest 0 ticket).setWork .none).autoloadOver code outcome reason detail =
      { s.endedFailed r rest 0 ticket with
        cmd := { s.cmd with running := false, autoload := none, work := .none }
        port := { (s.endedFailed r rest 0 ticket).port with
          commandQ := s.port.commandQ ++ [s.responseRequest 0 0xFF outcome reason detail code] } } := by
  unfold State.endedFailed
  rw [State.produce_eq]
  rfl

theorem State.setWork_endedFailed (s : State) (r : MemRequest) (rest : List Outstanding) (ticket : Half)
    (work : CommandWork) : (s.endedFailed r rest 0 ticket).setWork work =
      { s.endedFailed r rest 0 ticket with cmd := { s.cmd with work := work } } := by
  unfold State.endedFailed
  rw [State.produce_eq]
  rfl

/-- What a command's images are, and the detail that a failed read of them gives (R128). -/
theorem CommandUnit.readErrorDetail_code {c : CommandUnit} (ha : c.autoload = none)
    (hc : c.current.code = 1 ∨ c.current.code = 2 ∨ (c.current.code = 3 ∧ c.current.lane.toNat < 16)) :
    ∃ k, c.imageKind = some k ∧ ∀ f, k.readErrorDetail f =
      if c.current.code = 1 then BitVec.ofNat 8 f
      else if c.current.code = 2 then BitVec.ofNat 8 ((f - 0x100) / 16 + 1)
      else c.current.lane := by
  obtain ⟨hsetup, htable, hlane⟩ := CommandUnit.imageKind_code ha
  rcases hc with hc | hc | ⟨hc, hl⟩
  · exact ⟨_, hsetup hc, fun f => (if_pos hc).symm⟩
  · refine ⟨_, htable hc, fun f => ?_⟩
    rw [hc]
    rfl
  · refine ⟨_, hlane ⟨_, hl⟩ hc rfl, fun f => ?_⟩
    rw [hc]
    exact BitVec.ofNat_toNat _ _

/-- What the images of a step of autoload are, and the detail that a failed read of them gives (R128). -/
theorem CommandUnit.readErrorDetail_auto {c : CommandUnit} (ha : c.autoload = some step) :
    ∃ k, c.imageKind = some k ∧ ∀ f, k.readErrorDetail f = match step with
      | .setup => BitVec.ofNat 8 f
      | .apertures => BitVec.ofNat 8 ((f - 0x100) / 16 + 1)
      | .descriptor n => BitVec.ofNat 8 n.val := by
  obtain ⟨hsetup, htable, hlane⟩ := c.imageKind_auto
  cases step with
  | setup => exact ⟨_, hsetup ha, fun _ => rfl⟩
  | apertures => exact ⟨_, htable ha, fun _ => rfl⟩
  | descriptor n => exact ⟨_, hlane n ha, fun _ => rfl⟩

/-! ## The last image read -/

/-- The block as the end of its last image read in success finds it: no read is left. -/
def State.lastRead (s : State) (rest : List Outstanding) : State := (s.ended rest).setWork .none

theorem State.Ends.unitAlone_lastRead (h : s.Ends r rest) (hq : s.hold.waiter = none) : (s.lastRead rest).UnitAlone :=
  (h.unitAlone hq h.sameWork).setWork .none

section Last

variable (h : s.Ends r rest) (hr : r.owner = .imageRead offset ticket) (hw : s.cmd.work = .images left words failed)

include hr hw

theorem requestEnded_lastImage_ok (hl : left = 1) (w : Word) : (s.ended rest).requestEnded r (.ok w) =
    (s.lastRead rest).imagesRead (words ++ [(offset, w)]) failed :=
  (State.requestEnded_image_ok hr hw w).trans (if_neg (by omega))

theorem requestEnded_lastImage_error (hl : left = 1) : (s.ended rest).requestEnded r .error =
    ((s.endedFailed r rest 0 ticket).setWork .none).imagesRead words (some (lowestFailed failed offset)) :=
  (State.requestEnded_image_error hr hw).trans (if_neg (by omega))

include h

/-- An image read that ends before the last. -/
theorem imageReadEnd_left (hl : 1 < left) : (∀ w, exec (.imageReadEnd (.ok w)) s =
      .next { s.ended rest with cmd := { s.cmd with work := .images (left - 1) (words ++ [(offset, w)]) failed } }) ∧
    exec (.imageReadEnd .error) s = .next { s.endedFailed r rest 0 ticket with
      cmd := { s.cmd with work := .images (left - 1) words (some (lowestFailed failed offset)) } } := by
  refine ⟨fun w => exec_imageRead_keeps h h.sameWork ((State.requestEnded_image_ok hr hw w).trans (if_pos hl)), ?_⟩
  rw [← State.setWork_endedFailed]
  exact exec_imageRead_keeps h (h.sameWork_failed 0 ticket) ((State.requestEnded_image_error hr hw).trans (if_pos hl))

variable (hl : left = 1) (hq : s.hold.waiter = none)

include hl hq

section Command

variable (ha : s.cmd.autoload = none) (hn : s.cmd.current.flags.getLsbD 0 = false)

include ha hn

/-- The last image read of a command finds something to reject. -/
theorem imageReadEnd_rejects {w : Word}
    (hb : (s.lastRead rest).imagesRead (words ++ [(offset, w)]) failed =
      (s.lastRead rest).rejectCommand reason detail) :
    exec (.imageReadEnd (.ok w)) s = .next ((s.lastRead rest).commandOver 3 reason detail) :=
  exec_imageRead_rejects h (h.unitAlone_lastRead hq) ha hn
    ((requestEnded_lastImage_ok hr hw hl w).trans hb)

/-- A read of a command's images that failed rejects the command when the last has ended (R128). -/
theorem imageReadEnd_failed {k : ImageKind} (hk : s.cmd.imageKind = some k) :
    exec (.imageReadEnd .error) s = .next (((s.endedFailed r rest 0 ticket).setWork .none).commandOver 3 0x0A
      (k.readErrorDetail (lowestFailed failed offset))) ∧
    ∀ w f, failed = some f → exec (.imageReadEnd (.ok w)) s =
      .next ((s.lastRead rest).commandOver 3 0x0A (k.readErrorDetail f)) := by
  have hV := h.sameWork_failed 0 ticket
  refine ⟨exec_imageRead_rejects h ((h.unitAlone hq hV).setWork .none) ?_ ?_
    ((requestEnded_lastImage_error hr hw hl).trans (State.imagesRead_failed ?_ words _)), fun w f hf => ?_⟩
  · exact (congrArg CommandUnit.autoload hV.cmd).trans ha
  · exact (congrArg (fun c : CommandUnit => c.current.flags.getLsbD 0) hV.cmd).trans hn
  · exact (congrArg (fun c : CommandUnit => c.imageKind) hV.cmd).trans hk
  · subst hf
    exact imageReadEnd_rejects h hr hw hl hq ha hn (State.imagesRead_failed (s := s.lastRead rest) hk _ f)

end Command

section Auto

variable (ha : s.cmd.autoload = some step)

include ha

/-- The last image read of a step of autoload finds something to reject. -/
theorem imageReadEnd_stops {w : Word}
    (hb : (s.lastRead rest).imagesRead (words ++ [(offset, w)]) failed =
      (s.lastRead rest).rejectCommand reason detail) :
    exec (.imageReadEnd (.ok w)) s = .next ((s.lastRead rest).autoloadOver step.code 3 reason detail) :=
  exec_imageRead_stops h (h.unitAlone_lastRead hq) ha
    ((requestEnded_lastImage_ok hr hw hl w).trans hb)

/-- A read of a step's images that failed stops autoload when the last has ended (R128, R168). -/
theorem imageReadEnd_failedAuto {k : ImageKind} (hk : s.cmd.imageKind = some k) :
    exec (.imageReadEnd .error) s = .next (((s.endedFailed r rest 0 ticket).setWork .none).autoloadOver step.code 3 0x0A
      (k.readErrorDetail (lowestFailed failed offset))) ∧
    ∀ w f, failed = some f → exec (.imageReadEnd (.ok w)) s =
      .next ((s.lastRead rest).autoloadOver step.code 3 0x0A (k.readErrorDetail f)) := by
  have hV := h.sameWork_failed 0 ticket
  refine ⟨exec_imageRead_stops h ((h.unitAlone hq hV).setWork .none) ?_
    ((requestEnded_lastImage_error hr hw hl).trans (State.imagesRead_failed ?_ words _)), fun w f hf => ?_⟩
  · exact (congrArg CommandUnit.autoload hV.cmd).trans ha
  · exact (congrArg (fun c : CommandUnit => c.imageKind) hV.cmd).trans hk
  · subst hf
    exact imageReadEnd_stops h hr hw hl hq ha (State.imagesRead_failed (s := s.lastRead rest) hk _ f)

end Auto

end Last
end Sys2Proof.Machine

namespace Sys2Proof.Machine

variable {s : State} {n : LaneNo} {r : MemRequest} {rest : List Outstanding} {offset : Nat} {ticket : Half} {w : Word}
  {words : List (Nat × Word)} {reason detail : Byte} {step : AutoStep}

/-! ## The last image read, with none that failed -/

section Last

variable (h : s.Ends r rest) (hr : r.owner = .imageRead offset ticket) (hw : s.cmd.work = .images 1 words none)
  (hq : s.hold.waiter = none)

include h hr hw hq

section Command

variable (ha : s.cmd.autoload = none) (hn : s.cmd.current.flags.getLsbD 0 = false)

include ha hn

/-- LOAD SETUP applies a header that passes the tests, and ends DONE (R132). -/
theorem imageReadEnd_applies (hc : s.cmd.current.code = 1)
    (hok : (parseSetup (words ++ [(offset, w)])).rejection (s.controlAddress 0).toNat = none) :
    exec (.imageReadEnd (.ok w)) s = .next
      (((s.lastRead rest).applySetup (parseSetup (words ++ [(offset, w)]))).commandOver 2 0 0) := by
  have happly := State.imagesRead_applies (s := s.lastRead rest) ((CommandUnit.imageKind_code ha).1 hc) hok
  refine exec_imageRead_completes h ((h.unitAlone_lastRead hq).applySetup _) ha hn
    ((requestEnded_lastImage_ok hr hw rfl w).trans (happly.trans (State.commandDone_command ?_)))
  exact ha

/-- OPEN LANE opens its lane with a valid descriptor, and ends DONE (R3, R134). -/
theorem imageReadEnd_opens {d : Descriptor} (hc : s.cmd.current.code = 3) (hl : s.cmd.current.lane.toNat = n.val)
    (hok : (parseDescriptor (words ++ [(offset, w)]) n).validate s.pool.count = .ok d) :
    exec (.imageReadEnd (.ok w)) s = .next
      (((s.lastRead rest).setLane n ((s.lane n).openWith d)).commandOver 2 0 0) := by
  have hopens := State.imagesRead_opens (s := s.lastRead rest) ((CommandUnit.imageKind_code ha).2.2 n hc hl)
    (.inl ha) hok
  refine exec_imageRead_completes h ((h.unitAlone_lastRead hq).setLane n _) ha hn
    ((requestEnded_lastImage_ok hr hw rfl w).trans (hopens.trans ?_))
  rw [State.commandDone_command (s := s.lastRead rest) ha, State.updLane_eq, State.completeCommand_lane,
    State.completeCommand_setLane]
  rfl

end Command

section Table

variable {es : List Aperture} (ha : s.cmd.autoload = none) (hc : s.cmd.current.code = 2)
  (hok : validateFrom (words ++ [(offset, w)]) (s.controlAddress 0).toNat 23 [] = .ok es)

include ha hc hok

/-- LOAD APERTURES freezes decode with a valid table, and waits (R104). -/
theorem imageReadEnd_freezes (hquiet : (s.ended rest).systemQuiet = false) :
    exec (.imageReadEnd (.ok w)) s = .next ((s.lastRead rest).freezing (tableOf es)) := by
  have hfreeze := State.imagesRead_freezes (s := s.lastRead rest) ((CommandUnit.imageKind_code ha).2.1 hc) hok
  exact exec_imageRead_freezes h (h.unitAlone_lastRead hq) ((requestEnded_lastImage_ok hr hw rfl w).trans hfreeze)
    hquiet

/-- LOAD APERTURES replaces the table in the same event, and ends DONE (R105, R106). -/
theorem imageReadEnd_replaces (hn : s.cmd.current.flags.getLsbD 0 = false)
    (hquiet : (s.ended rest).systemQuiet = true) (hf : s.dec.frozen = []) :
    exec (.imageReadEnd (.ok w)) s =
      .next (((s.lastRead rest).replaced (tableOf es)).commandOver 2 0 0).thawed := by
  have hV := h.unitAlone_lastRead hq
  have hfreeze := State.imagesRead_freezes (s := s.lastRead rest) ((CommandUnit.imageKind_code ha).2.1 hc) hok
  have hdone : ((s.lastRead rest).replaced (tableOf es)).commandDone
      = (((s.lastRead rest).replaced (tableOf es)).commandOver 2 0 0).schedule [.handover] :=
    (State.commandDone_command (by exact ha)).trans
      (State.completeCommand_silent (by exact ha) (by exact hn) (by exact hV.todo) 2 0 0)
  exact exec_imageRead_replaces h hV ((requestEnded_lastImage_ok hr hw rfl w).trans hfreeze) hquiet hdone
    ⟨hV.running, hV.presented, hV.todo, hV.waiter⟩ (by simp) (by decide) (State.commandOver_dec _ _ _ _) hf

end Table

/-- Autoload applies a header that passes the tests, and reads the aperture images (R167). -/
theorem imageReadEnd_autoSetup (ha : s.cmd.autoload = some .setup)
    (hok : (parseSetup (words ++ [(offset, w)])).rejection (s.controlAddress 0).toNat = none) :
    exec (.imageReadEnd (.ok w)) s =
      .next (((s.lastRead rest).applySetup (parseSetup (words ++ [(offset, w)]))).autoloadReads .apertures
        ((List.range 46).map fun i => 0x100 + 8 * i)) := by
  have happly := State.imagesRead_applies (s := s.lastRead rest) (s.cmd.imageKind_auto.1 ha) hok
  have hdone : ((s.lastRead rest).applySetup (parseSetup (words ++ [(offset, w)]))).commandDone = _ :=
    (State.commandDone_auto (by exact ha)).trans (State.autoNext_setup _)
  exact exec_imageRead_goesOn h ((h.unitAlone_lastRead hq).applySetup _)
    ((requestEnded_lastImage_ok hr hw rfl w).trans (happly.trans hdone))

/-- Autoload replaces the table, and reads the descriptor of lane 0 (R167). -/
theorem imageReadEnd_autoApertures {es : List Aperture} (ha : s.cmd.autoload = some .apertures)
    (hok : validateFrom (words ++ [(offset, w)]) (s.controlAddress 0).toNat 23 [] = .ok es)
    (hquiet : (s.ended rest).systemQuiet = true) (hf : s.dec.frozen = []) : exec (.imageReadEnd (.ok w)) s =
      .next (((s.lastRead rest).replaced (tableOf es)).autoloadReads (.descriptor 0) [0x300, 0x308]).thawed := by
  have hV := h.unitAlone_lastRead hq
  have hfreeze := State.imagesRead_freezes (s := s.lastRead rest) (s.cmd.imageKind_auto.2.1 ha) hok
  have hdone : ((s.lastRead rest).replaced (tableOf es)).commandDone
      = (((s.lastRead rest).replaced (tableOf es)).autoloadReads (.descriptor 0) [0x300, 0x308]).schedule [] :=
    ((State.commandDone_auto (by exact ha)).trans (State.autoNext_apertures _)).trans (State.schedule_nil _).symm
  exact exec_imageRead_replaces h hV ((requestEnded_lastImage_ok hr hw rfl w).trans hfreeze) hquiet hdone
    ⟨hV.running, hV.presented, hV.todo, hV.waiter⟩ nofun (by decide) (State.autoloadReads_dec _ _ _) hf

section Descriptor

variable (ha : s.cmd.autoload = some (.descriptor n))

include ha

/-- Autoload passes over a lane whose AUTO_OPEN is clear (R167). -/
theorem imageReadEnd_autoPasses (hopen : (parseDescriptor (words ++ [(offset, w)]) n).flags.getLsbD 0 = false) :
    exec (.imageReadEnd (.ok w)) s = .next ((s.lastRead rest).autoloadBehind n) := by
  have hpass := State.imagesRead_passes (s := s.lastRead rest) (s.cmd.imageKind_auto.2.2 n ha) ha hopen
  have hdone := State.commandDone_descriptor (s := s.lastRead rest) ha
  exact exec_imageRead_behind h (h.unitAlone_lastRead hq)
    ((requestEnded_lastImage_ok hr hw rfl w).trans (hpass.trans hdone))

/-- Autoload opens a lane whose AUTO_OPEN is set with its valid descriptor (R167). -/
theorem imageReadEnd_autoOpens {d : Descriptor}
    (hopen : (parseDescriptor (words ++ [(offset, w)]) n).flags.getLsbD 0 = true)
    (hok : (parseDescriptor (words ++ [(offset, w)]) n).validate s.pool.count = .ok d) :
    exec (.imageReadEnd (.ok w)) s =
      .next (((s.lastRead rest).setLane n ((s.lane n).openWith d)).autoloadBehind n) := by
  have hopens := State.imagesRead_opens (s := s.lastRead rest) (s.cmd.imageKind_auto.2.2 n ha) (.inr hopen) hok
  refine exec_imageRead_behind h ((h.unitAlone_lastRead hq).setLane n _)
    ((requestEnded_lastImage_ok hr hw rfl w).trans (hopens.trans ?_))
  rw [State.commandDone_descriptor (s := s.lastRead rest) ha, State.updLane_eq, State.schedule_lane,
    State.autoloadBehind_lane, State.autoloadBehind_setLane]
  rfl

end Descriptor

end Last
end Sys2Proof.Machine

namespace Sys2Proof.Machine

/-- Settles O53: the last read decides what the images are for, and each outcome of that is one of the events above. -/
theorem imageReadEndCompletes : Obligations.ImageReadEndCompletes := by
  refine ⟨fun s r rest offset ticket w left words h hr hw => ⟨fun hl => (imageReadEnd_left h hr hw hl).1 w,
      fun hl ha hq hn hc => ?_, fun n d hl ha hq hn hc hlane hok => ?_⟩,
    fun s r rest offset ticket left words failed h hr hw ha hq hn => ?_,
    fun s r rest offset ticket w words h hr hw hq => ?_,
    fun s r rest offset ticket left words failed step h hr hw ha hq => ?_⟩
  · intro x hok
    subst hl
    refine ⟨_, imageReadEnd_applies h hr hw hq ha hn hc hok, rfl, rfl, rfl, rfl, rfl, rfl, rfl, rfl, rfl, rfl, rfl,
      rfl, ?_, rfl, rfl, rfl, ?_, rfl, rfl⟩
    · show (!(x.enable && (0 : Half) != 0)) = true
      simp
    · have hport : ((((s.lastRead rest).applySetup x).commandOver 2 0 0).port) = { s.port with
          outstanding := rest
          limit := x.responseLimit
          commandQ := s.port.commandQ ++ [s.responseRequest s.cmd.current.ticket s.cmd.current.master 2 0 0
            s.cmd.current.code] } := rfl
      rw [hc] at hport
      exact hport
  · subst hl
    refine ⟨_, imageReadEnd_opens h hr hw hq ha hn hc hlane hok, rfl, ?_, fun m hm => ?_, rfl, rfl, rfl, ?_⟩
    · exact State.lane_setLane_same _ _ _
    · exact State.lane_setLane_ne _ _ hm
    · have hqueue : (((s.lastRead rest).setLane n ((s.lane n).openWith d)).commandOver 2 0 0).port.commandQ =
          s.port.commandQ ++ [s.responseRequest s.cmd.current.ticket s.cmd.current.master 2 0 0 s.cmd.current.code] :=
        rfl
      rw [hc] at hqueue
      exact hqueue
  · intro c ended failure lowest detail
    refine ⟨fun hl => (imageReadEnd_left h hr hw hl).2, fun hl hc => ?_, fun hl hf w => ?_⟩
    · obtain ⟨k, hk, hdetail⟩ := CommandUnit.readErrorDetail_code ha hc
      obtain ⟨herror, hok⟩ := imageReadEnd_failed h hr hw hl hq ha hn hk
      rw [State.commandOver_endedFailed, hdetail] at herror
      refine ⟨herror, fun w f hf => (hok w f hf).trans ?_⟩
      rw [hdetail]
      rfl
    · subst hl hf
      obtain ⟨hsetup, htable, hlane⟩ := CommandUnit.imageKind_code ha
      refine ⟨fun reason detail hc hbad => ?_, fun n detail hc hl hbad => ?_, fun i hc hbad => ?_,
        fun es hc hok => ?_⟩
      · exact imageReadEnd_rejects h hr hw rfl hq ha hn
          (State.imagesRead_badSetup (s := s.lastRead rest) (hsetup hc) hbad)
      · exact imageReadEnd_rejects h hr hw rfl hq ha hn
          (State.imagesRead_badDescriptor (s := s.lastRead rest) (hlane n hc hl) (.inl ha) hbad)
      · exact imageReadEnd_rejects h hr hw rfl hq ha hn
          (State.imagesRead_badTable (s := s.lastRead rest) (htable hc) hbad)
      · exact ⟨tableOf es, tableOf_getElem (validateFrom_length hok),
          fun hquiet => imageReadEnd_freezes h hr hw hq ha hc hok hquiet,
          fun hquiet hf => (imageReadEnd_replaces h hr hw hq ha hc hok hn hquiet hf).trans
            (congrArg _ (State.commandOver_replaced _ _ _ _ _))⟩
  · intro images reads response goesOn ends behind
    refine ⟨fun ha => ⟨fun hok => ?_, fun reason detail hbad => ?_⟩,
      fun ha => ⟨fun i hbad => ?_, fun es hok hquiet hf => ?_⟩,
      fun n ha => ⟨fun hopen => ?_, fun d hopen hok => ?_, fun detail hopen hbad => ?_⟩⟩
    · exact imageReadEnd_autoSetup h hr hw hq ha hok
    · exact imageReadEnd_stops h hr hw rfl hq ha
        (State.imagesRead_badSetup (s := s.lastRead rest) (s.cmd.imageKind_auto.1 ha) hbad)
    · exact imageReadEnd_stops h hr hw rfl hq ha
        (State.imagesRead_badTable (s := s.lastRead rest) (s.cmd.imageKind_auto.2.1 ha) hbad)
    · exact (imageReadEnd_autoApertures h hr hw hq ha hok hquiet hf).trans
        (congrArg _ (State.autoloadReads_replaced _ _ _ _))
    · exact imageReadEnd_autoPasses h hr hw hq ha hopen
    · exact imageReadEnd_autoOpens h hr hw hq ha hopen hok
    · exact imageReadEnd_stops h hr hw rfl hq ha
        (State.imagesRead_badDescriptor (s := s.lastRead rest) (s.cmd.imageKind_auto.2.2 n ha) (.inr hopen) hbad)
  · intro failure lowest stops
    refine ⟨fun hl => (imageReadEnd_left h hr hw hl).2, fun hl => ?_⟩
    obtain ⟨k, hk, hdetail⟩ := CommandUnit.readErrorDetail_auto ha
    obtain ⟨herror, hok⟩ := imageReadEnd_failedAuto h hr hw hl hq ha hk
    rw [State.autoloadOver_endedFailed, hdetail] at herror
    refine ⟨?_, fun w f hf => (hok w f hf).trans ?_⟩
    · cases step <;> exact herror
    · rw [hdetail]
      cases step <;> rfl

end Sys2Proof.Machine

namespace Sys2Proof.Machine

variable {s : State} {n : LaneNo} {x : Transaction} {i : Fin 23} {base : Addr} {exponent : Nat}

/-! ## The put status word (R40) -/

/-- The fields of the put status word (R40, 12.6). -/
theorem putStatusWord_fields (l : Lane) (free : Nat) :
    quadOf (putStatusWord l free) 0 = BitVec.ofNat 32 (l.freeBytes free) ∧
    halfOf (putStatusWord l free) 4 = BitVec.ofNat 16 l.openLength ∧
    byteOf (putStatusWord l free) 6 = BitVec.ofNat 8 (min l.ready 255) ∧
    byteOf (putStatusWord l free) 7 = l.state.code := by
  obtain ⟨hlength, hready, hstate⟩ := extract_pairHalf (BitVec.ofNat 16 l.openLength)
    (BitVec.ofNat 8 (min l.ready 255)) l.state.code
  exact ⟨quadOf_packQuads_low _ _, (halfOf_packQuads_high _ _ 4 (by decide)).trans hlength,
    (byteOf_packQuads_high _ _ 6 (by decide)).trans hready, (byteOf_packQuads_high _ _ 7 (by decide)).trans hstate⟩

/-- The free bytes count only on an OPEN lane that is not busy (R40). -/
theorem ofNat_freeBytes (l : Lane) (free : Nat) : BitVec.ofNat 32 (l.freeBytes free) =
    if l.state = .opened ∧ l.busy = .clear then
      BitVec.ofNat 32 (min (l.desc.quota - l.chain.length) free * 512 + if l.chain = [] then 0 else 512 - l.tailOffset)
    else 0 := by
  unfold Lane.freeBytes
  rw [Lane.room_eq]
  by_cases h : l.state = .opened ∧ l.busy = .clear
  · rw [if_pos (by simpa using h), if_pos h]
    rfl
  · rw [if_neg (by simpa using h), if_neg h]
    rfl

/-- The ready count of the put status word saturates (R40). -/
theorem ofNat_min_ready (ready : Nat) :
    (BitVec.ofNat 8 (min ready 255) : Byte) = if ready < 255 then BitVec.ofNat 8 ready else 255 := by
  by_cases h : ready < 255
  · rw [if_pos h, Nat.min_eq_left h.le]
  · rw [if_neg h, Nat.min_eq_right (Nat.le_of_not_lt h)]
    rfl

/-- A read in a PUT aperture is answered in the event that presents it, whatever its lane does (R40, R99). -/
theorem present_putStatus (hr : s.Routes x i (.put base exponent n)) (hd : x.direction = .read) :
    present x s = .next ((s.begin.occupy x).answer x.tag false
      (maskWord (laneEnables x) (putStatusWord (s.lane n) s.pool.freeCount))) := by
  have htake : s.begin.take x = (s.begin.occupy x).answer x.tag false
      (maskWord (laneEnables x) (putStatusWord (s.lane n) s.pool.freeCount)) := by
    rw [hr.take]
    unfold State.byEntry
    simp only [hd]
    unfold State.putStatus
    rw [State.answerOk_eq, if_pos hd]
    rfl
  rw [← htake]
  exact present_done hr.calm hr.free (by rw [htake]; exact hr.calm.congr rfl rfl rfl) (by rw [htake]; rfl)

/-- Settles O22: the event of the read, and the fields of the word it answers. -/
theorem putStatusReadCompletes : Obligations.PutStatusReadCompletes := by
  intro s x i base exponent n hr hd
  obtain ⟨hfree, hlength, hready, hstate⟩ := putStatusWord_fields (s.lane n) s.pool.freeCount
  refine ⟨putStatusWord (s.lane n) s.pool.freeCount, (exec_of_presents rfl).trans (present_putStatus hr hd),
    hfree.trans (ofNat_freeBytes _ _), hlength.trans ?_, hready.trans (ofNat_min_ready _), hstate.trans ?_⟩
  · unfold Lane.openLength
    cases (s.lane n).openParcel <;> rfl
  · cases (s.lane n).state <;> rfl

end Sys2Proof.Machine

namespace Sys2Proof.Machine

variable {s v : State} {n : LaneNo} {l : Lane} {e : PutEntry} {p : OpenParcel} {x : Transaction} {i : Fin 23}
  {base : Addr} {exponent : Nat}

/-! ## A put that keeps nothing (R42, R51) -/

/-- A parcel at the maximum length keeps no byte of a put (R42). -/
theorem Lane.keptBytes_atLimit (hp : l.openParcel = some p) (hmax : l.desc.maxLength ≤ p.length) (x : Transaction) :
    l.keptBytes x = [] := by
  have hlength : l.openLength = p.length := by
    unfold Lane.openLength
    rw [hp]
  unfold Lane.keptBytes
  rw [hlength, Nat.sub_eq_zero_of_le hmax, List.take_zero]

/-- The lane whose open parcel a put has reached that kept none of its bytes: CLIPPED is set if it carried any (R42). -/
def Lane.clipped (l : Lane) (p : OpenParcel) (x : Transaction) : Lane :=
  { l with openParcel := some { p with flags := p.flags ||| (if 0 < (writeBytes x).length then flagClipped else 0) } }

/-- Placing no byte moves nothing (R42, R51). -/
theorem Lane.placePut_nothing (hp : l.openParcel = some p) (hk : l.keptBytes x = []) :
    l.placePut x none = l.clipped p x := by
  have hneed : l.putNeed x = 0 := by
    unfold Lane.putNeed
    rw [hp, hk]
    rfl
  unfold Lane.placePut Lane.tailPosition Lane.clipped
  dsimp only
  rw [hneed, hk, hp]
  simp only [Option.toList_none, List.append_nil, Nat.add_zero, Nat.add_sub_cancel_left, List.length_nil,
    Option.isNone_some, Bool.false_eq_true, if_false]

/-- The start of a put that keeps nothing creates no body write: a body put is answered, a final put closes its parcel
(R51, R53). -/
theorem State.startPut_nothing (hh : s.heldOf n .put = none) (hp : (s.lane n).openParcel = some p)
    (hk : (s.lane n).keptBytes e.tx = []) :
    (e.kind = .body → s.startPut n e none = (s.setLane n ((s.lane n).clipped p e.tx)).answerPut n e true) ∧
    ∀ tag, e.kind = .final tag →
      s.startPut n e none = (s.setLane n ((s.lane n).clipped p e.tx)).closePut n e tag false := by
  have hwrites : ∀ (u : State) (pos : Nat), u.chainWrites n (.bodyWrite n) (masterByte e.tx) pos [] = [] :=
    fun _ _ => rfl
  unfold State.startPut
  simp only [State.unhold_none hh, hk, hwrites, List.isEmpty_nil, if_true, Lane.placePut_nothing hp hk]
  exact ⟨fun h => by rw [h], fun tag h => by rw [h]⟩

/-- A put that keeps nothing, evaluated beside its open parcel, starts without a space check (R42). -/
theorem State.evaluatePut_nothing (ho : (s.lane n).openParcel = some p) (hk : (s.lane n).keptBytes e.tx = []) :
    s.evaluatePut n e = s.startPut n e none := by
  unfold State.evaluatePut
  exact if_pos (by simp [ho, hk])

/-- A put that joins an empty put line, in the event that presents it: what its evaluation leaves, once the parts that it
notes have nothing to do. -/
theorem present_evaluates {ts : List Task} (hr : s.Routes x i (.put base exponent n)) (hd : x.direction = .write)
    (hq : s.PutQuiet n) (hv : (s.enteredPut x i n).evaluatePut n (arrivedPut x i) = v.schedule ts) (ht : v.todo = [])
    (hts : ∀ y ∈ ts, v.doTask y = v) (hlen : ts.length ≤ 4094) (hc : v.Calm) : present x s = .next v := by
  have heval : (s.enteredPut x i n).evalPut n = v.schedule ts :=
    (State.evalPut_put (e := arrivedPut x i) (by rw [State.enteredPut_lane]) rfl (arrivedPut_kind x i)).trans hv
  exact present_task hr.calm hr.free (hr.take_put hd hq) rfl heval ht hts hlen hc

/-- An address in the lower half of a PUT aperture is that of a body put, any other that of a final put (R39). -/
theorem arrivedPut_body (h : x.address.toNat % 4096 < 0x800) (i : Fin 23) : (arrivedPut x i).kind = .body := if_pos h

theorem arrivedPut_final (h : 0x800 ≤ x.address.toNat % 4096) (i : Fin 23) :
    (arrivedPut x i).kind = .final (finalTag x) := if_neg (Nat.not_lt.mpr h)

section Nothing

variable (hr : s.Routes x i (.put base exponent n)) (hd : x.direction = .write) (hq : s.PutQuiet n)
  (hp : (s.lane n).openParcel = some p) (hmax : (s.lane n).desc.maxLength ≤ p.length)

include hq hp hmax

/-- The evaluation of a put that has joined the line of a lane whose parcel is at the maximum length: for a body put and
for a final put. -/
theorem State.enteredPut_nothing (x : Transaction) (i : Fin 23) :
    ((arrivedPut x i).kind = .body → (s.enteredPut x i n).evaluatePut n (arrivedPut x i) =
      ((s.begin.occupy x).setLane n { (s.lane n).clipped p x with putLine := [arrivedPut x i] }).answerPut n
        (arrivedPut x i) true) ∧
    ∀ tag, (arrivedPut x i).kind = .final tag → (s.enteredPut x i n).evaluatePut n (arrivedPut x i) =
      ((s.begin.occupy x).setLane n { (s.lane n).clipped p x with putLine := [arrivedPut x i] }).closePut n
        (arrivedPut x i) tag false := by
  have hl := s.enteredPut_lane x i n
  have hopen : ((s.enteredPut x i n).lane n).openParcel = some p := by rw [hl]; exact hp
  have hk : ((s.enteredPut x i n).lane n).keptBytes (arrivedPut x i).tx = [] := by
    rw [hl, Lane.keptBytes_putLine]
    exact Lane.keptBytes_atLimit hp hmax _
  have hplace : (s.enteredPut x i n).setLane n (((s.enteredPut x i n).lane n).clipped p (arrivedPut x i).tx) =
      (s.begin.occupy x).setLane n { (s.lane n).clipped p x with putLine := [arrivedPut x i] } := by
    rw [hl]
    exact State.setLane_setLane _ _ _ _
  obtain ⟨hbody, hfinal⟩ := State.startPut_nothing (e := arrivedPut x i) (by exact hq.putHeld) hopen hk
  rw [State.evaluatePut_nothing hopen hk, ← hplace]
  exact ⟨hbody, hfinal⟩

include hr hd

/-- A body put that keeps nothing is answered OK at once. -/
theorem present_bodyKeepsNothing (ha : x.address.toNat % 4096 < 0x800) :
    present x s = .next (((s.begin.occupy x).setLane n ((s.lane n).clipped p x)).answer x.tag false 0) := by
  have hempty : { (s.lane n).clipped p x with putLine := [] } = (s.lane n).clipped p x := by
    rw [← show ((s.lane n).clipped p x).putLine = [] from hq.putLine]
  have hv := (State.enteredPut_nothing hq hp hmax x i).1 (arrivedPut_body ha i)
  rw [State.answerPut_setLane (by exact hq.putHeld) rfl (by exact hd)] at hv
  dsimp only at hv
  rw [hempty] at hv
  refine present_evaluates hr hd hq hv rfl ?_ (by simp) (hr.calm.congr rfl rfl rfl)
  have hlane : (((s.begin.occupy x).setLane n ((s.lane n).clipped p x)).answer x.tag false 0).lane n
      = (s.lane n).clipped p x := State.lane_setLane_same _ _ _
  refine State.leavePut_noops ?_ ?_ ?_ hq.closing
  · exact (congrArg Lane.putLine hlane).trans hq.putLine
  · exact (congrArg Lane.state hlane).trans hq.opened
  · exact (congrArg Lane.busy hlane).trans hq.clear

/-- A final put that keeps nothing closes its parcel at once. -/
theorem present_finalKeepsNothing (ha : 0x800 ≤ x.address.toNat % 4096) :
    present x s = .next (((s.begin.occupy x).setLane n { (s.lane n).clipped p x with
        tailOffset := roundUp8 (s.lane n).tailOffset
        putLine := [{ arrivedPut x i with stage := .writingHeader false }] }).request
      { owner := .headerWrite n, master := masterByte x, address := s.poolAddress p.segment p.offset, write := true,
        enables := 0xFF
        data := (closingHeader (BitVec.ofNat 16 p.length) p.sequence (finalTag x)
          (p.flags ||| (if 0 < (writeBytes x).length then flagClipped else 0))).word }) := by
  have hv := (State.enteredPut_nothing hq hp hmax x i).2 _ (arrivedPut_final ha i)
  rw [State.closePut_setLane rfl rfl] at hv
  exact present_evaluates (ts := []) hr hd hq hv rfl (by simp) (by simp) (hr.calm.congr rfl rfl rfl)

end Nothing

/-- Settles O26: the put keeps nothing, and its kind decides between the answer and the header write. -/
theorem putThatKeepsNothingStarts : Obligations.PutThatKeepsNothingStarts := by
  intro c s x i base exponent n p hx hr hd hq hp hmax
  refine ⟨fun ha => (exec_of_presents hx).trans (present_bodyKeepsNothing hr hd hq hp hmax ha), fun ha => ?_⟩
  rw [exec_of_presents hx, present_finalKeepsNothing hr hd hq hp hmax ha]
  unfold arrivedPut
  rw [if_neg (Nat.not_lt.mpr ha)]
  rfl

end Sys2Proof.Machine

namespace Sys2Proof.Machine

variable {s : State} {n : LaneNo} {l : Lane} {e : PutEntry} {x : Transaction} {i : Fin 23} {base : Addr}
  {exponent : Nat} {kind : WaitKind}

/-! ## The full action HOLD (R45, R78 to R80) -/

theorem State.fullPut_hold (ha : (s.lane n).desc.fullAction = .hold) (kind : WaitKind) :
    s.fullPut n e kind = s.holdPut n e kind := by
  unfold State.fullPut; rw [ha]

/-- With a place free in the held table a put that is not held yet is recorded (R78, R79). -/
theorem State.holdPut_records (hh : s.heldOf n .put = none) (hroom : s.hold.held.length < Config.heldEntries)
    (kind : WaitKind) : s.holdPut n e kind = s.recordHeld n .put e.tx.tag kind := by
  unfold State.holdPut
  rw [hh, if_neg (by simp), if_pos hroom]

/-- A pool waiter that leaves wakes nobody where no other waits for the pool (R34). -/
theorem State.waiterLeft_none (h : ∀ w ∈ s.hold.held, w.kind ≠ .pool) : s.waiterLeft = s :=
  State.wake_none fun w hw => by simp [h w hw]

/-- The answer and the notice of an expiry do not meet a change of its lane (R84). -/
theorem State.expire_setLane (s : State) (n : LaneNo) (l : Lane) (x : Transaction) (reason : Byte) (value16 : Half)
    (value32 : Quad) : (s.setLane n l).expire n x reason value16 value32 =
      ((s.answer x.tag true 0).produce (holdExpiredNotice n x reason value16 value32)).setLane n
        { l with expiries := satInc l.expiries } := by
  unfold State.expire
  rw [State.answerError_setLane, State.updLane_setLane, State.produce_setLane]
  rfl

/-- The only put of a line is ended as on expiry and leaves it (R80, R84). -/
theorem State.expirePut_setLane (hk : ∀ hold o, e.kind ≠ .capture hold o) (hh : s.heldOf n .put = none)
    (hl : l.putLine = [e]) (reason : Byte) (value16 : Half) (value32 : Quad) :
    (s.setLane n l).expirePut n e reason value16 value32 =
      (((s.answer e.tx.tag true 0).produce (holdExpiredNotice n e.tx reason value16 value32)).setLane n
        { l with expiries := satInc l.expiries, putLine := [] }).schedule [.laneTests n, .evalPut n] := by
  have hkind : (s.setLane n l).expirePut n e reason value16 value32 =
      ((s.setLane n l).expire n e.tx reason value16 value32).leavePutLine n := by
    unfold State.expirePut
    cases h : e.kind with
    | capture hold o => exact absurd h (hk hold o)
    | body => rfl
    | final tag => rfl
  have hheld := ((State.sameWork_produce (s.answer e.tx.tag true 0)
    (holdExpiredNotice n e.tx reason value16 value32)).heldOf n .put).trans hh
  rw [hkind, State.expire_setLane, State.leavePut_setLane hheld (by exact hl)]

/-- With the held table full and no pool waiter in it, the only put of a line is ended with TABLE_FULL (R34, R80). -/
theorem State.holdPut_tableFull (hk : ∀ hold o, e.kind ≠ .capture hold o) (hh : s.heldOf n .put = none)
    (hl : l.putLine = [e]) (hfull : Config.heldEntries ≤ s.hold.held.length)
    (hpool : ∀ w ∈ s.hold.held, w.kind ≠ .pool) (kind : WaitKind) : (s.setLane n l).holdPut n e kind =
      (((s.answer e.tx.tag true 0).produce (holdExpiredNotice n e.tx reasonTableFull 0 s.hold.ticks)).setLane n
        { l with expiries := satInc l.expiries, putLine := [] }).schedule [.laneTests n, .evalPut n] := by
  have hheld : (s.setLane n l).heldOf n .put = none := hh
  unfold State.holdPut
  rw [hheld, if_neg (by simp), if_neg (by simpa using hfull), State.expirePut_setLane hk hh hl]
  dsimp only
  rw [State.waiterLeft_none (by simpa using hpool), ite_self]
  rfl

section Holds

variable (hr : s.Routes x i (.put base exponent n)) (hd : x.direction = .write) (hq : s.PutQuiet n)
  (hk : ¬ ((s.lane n).openParcel.isSome = true ∧ (s.lane n).keptBytes x = []))
  (hs : s.spaceCheck n (s.lane n).openParcel.isNone ((s.lane n).putNeed x) = .full kind)
  (ha : (s.lane n).desc.fullAction = .hold)

include hr hd hq hk hs ha

/-- The put waits in its line, recorded in the held table and not answered. -/
theorem present_holds (hroom : s.hold.held.length < Config.heldEntries) :
    present x s = .next ((s.enteredPut x i n).recordHeld n .put x.tag kind) := by
  have hv : (s.enteredPut x i n).fullPut n (arrivedPut x i) kind = (s.enteredPut x i n).recordHeld n .put x.tag kind :=
    (State.fullPut_hold (by rw [State.enteredPut_lane]; exact ha) kind).trans
      (State.holdPut_records (s := s.enteredPut x i n) hq.putHeld hroom kind)
  exact present_full (ts := []) hr hd hq hk hs (hv.trans (State.schedule_nil _).symm) rfl (by simp) (by simp)
    (hr.calm.congr rfl rfl rfl)

/-- The put is ended as on expiry, with TABLE_FULL. -/
theorem present_tableFull (hfull : Config.heldEntries ≤ s.hold.held.length)
    (hpool : ∀ w ∈ s.hold.held, w.kind ≠ .pool) : present x s = .next ((((s.begin.occupy x).answer x.tag true 0).produce
      (holdExpiredNotice n x reasonTableFull 0 s.hold.ticks)).setLane n
        { s.lane n with expiries := satInc (s.lane n).expiries, putLine := [] }) := by
  have hended : (s.enteredPut x i n).holdPut n (arrivedPut x i) kind = _ :=
    State.holdPut_tableFull (s := s.begin.occupy x) (e := arrivedPut x i) (arrivedPut_kind x i) hq.putHeld rfl hfull
      hpool kind
  have hv := (State.fullPut_hold (by rw [State.enteredPut_lane]; exact ha) kind).trans hended
  refine present_full hr hd hq hk hs hv (by simp) ?_ (by simp) (hr.calm.congr (by simp) (by simp) (by simp))
  exact State.leavePut_noops (by simp) (by simpa using hq.opened) (by simpa using hq.clear) (by simpa using hq.closing)

end Holds

/-- Settles O28: the put is recorded while the held table has room, and ended with TABLE_FULL when it has none. -/
theorem fullLaneHoldsPut : Obligations.FullLaneHoldsPut := by
  intro c s x i base exponent n kind hx hr hd hq hk hs ha
  refine ⟨fun hroom => ?_, fun hfull hpool => ?_⟩
  · rw [exec_of_presents hx, present_holds hr hd hq hk hs ha hroom]
    unfold State.recordHeld
    dsimp only
    rw [State.enteredPut_lane, List.length_append]
    rfl
  · rw [exec_of_presents hx, present_tableFull hr hd hq hk hs ha hfull.ge hpool, State.updLane_eq,
      State.produce_setLane, ← hq.putLine]
    rfl

end Sys2Proof.Machine

namespace Sys2Proof.Machine

variable {s v V : State} {n : LaneNo} {l : Lane} {e : TakeEntry} {es : List TakeEntry} {x : Transaction} {i : Fin 23}
  {base : Addr} {exponent : Nat} {c : HeadCache}

/-! ## A write in a TAKE aperture (R57) -/

/-- The direction is looked at before the lane is. -/
theorem State.arriveTake_write (hd : x.direction = .write) :
    s.arriveTake n i x = s.laneRefuse n i x reasonWrongDirection := by
  unfold State.arriveTake; rw [hd]

/-- Settles O24: the direction alone decides, so the lane state and its busy mark play no part. -/
theorem writeToTakeApertureIsRefused : Obligations.WriteToTakeApertureIsRefused := by
  intro c s x i base exponent n hx hr hd
  rw [exec_of_presents hx, present_refused hr (State.arriveTake_write hd)]
  unfold State.laneRefuse refusalNotice
  rw [hd]
  rfl

/-! ## The first take of a line is evaluated (R59, R64, R70 to R72) -/

/-- The first take of a line, held or not, finds its lane empty. -/
theorem State.evalTake_empty (hl : (s.lane n).takeLine = e :: es) (hs : e.stage = .waiting)
    (hscan : (s.lane n).scanning = false) (hr : (s.lane n).ready = 0) : s.evalTake n = s.takeEmpty n e := by
  unfold State.evalTake
  simp [hl, hs, hscan, hr]

theorem State.takeEmpty_release (hk : e.kind = .release) :
    s.takeEmpty n e = s.answerTake n e (emptyWord (s.lane n).gap) := by
  unfold State.takeEmpty; rw [hk]

/-- What a read that takes nothing of an empty lane is answered with: zeros, or the empty head info word (R72). -/
def emptyRead (kind : TakeKind) (gap : Bool) : Word := if kind = .data then 0 else emptyWord gap

/-- A data read or head info read that finds its lane empty is a matter of the empty action. -/
theorem State.takeEmpty_read (hk : e.kind ≠ .release) :
    s.takeEmpty n e = s.emptyTake n e (emptyRead e.kind (s.lane n).gap) := by
  unfold State.takeEmpty
  cases h : e.kind with
  | data => rfl
  | info => rfl
  | release => exact absurd h hk

theorem State.emptyTake_fill (ha : (s.lane n).desc.emptyAction = .fill) (word : Word) :
    s.emptyTake n e word = (s.updLane n Lane.overread).answerTake n e word := by
  unfold State.emptyTake; rw [ha]

theorem State.emptyTake_hold (ha : (s.lane n).desc.emptyAction = .hold) (word : Word) :
    s.emptyTake n e word = s.holdTake n e := by
  unfold State.emptyTake; rw [ha]

/-- The first take of a line waits for the header of the head parcel (R59). -/
theorem State.fetchHead_cons (hl : l.takeLine = e :: es) : (s.setLane n l).fetchHead n e =
    (s.setLane n { l with takeLine := { e with stage := .fetching } :: es }).request
      (wordRequest (.headFetch n) (masterByte e.tx) (s.poolAddress (segmentAt l.chain l.headOffset) (l.headOffset % 512))
        false 0) := by
  unfold State.fetchHead State.chainAddress
  rw [State.setTakeStage_cons hl, State.lane_setLane_same]
  rfl

/-- A data read for which no byte is left is an overread (R64). -/
theorem State.startDataRead_overreads (hk : takeCount c e.tx = 0) :
    s.startDataRead n e c = (s.updLane n Lane.overread).answerTake n e 0 := by
  unfold State.startDataRead
  exact if_pos hk

/-! ## A take is held (R71, R78 to R80) -/

/-- With a place free in the held table a take that is not held yet is recorded (R78, R79). -/
theorem State.holdTake_records (hh : s.heldOf n .take = none) (hroom : s.hold.held.length < Config.heldEntries) :
    s.holdTake n e = s.recordHeld n .take e.tx.tag .parcel := by
  unfold State.holdTake
  rw [hh, if_neg (by simp), if_pos hroom]

/-- The first take of a line is ended as on expiry and leaves it (R80, R84). -/
theorem State.expireTake_cons (hh : s.heldOf n .take = none) (hl : l.takeLine = e :: es) (reason : Byte)
    (value16 : Half) (value32 : Quad) : (s.setLane n l).expireTake n e reason value16 value32 =
      (((s.answer e.tx.tag true 0).produce (holdExpiredNotice n e.tx reason value16 value32)).setLane n
        { l with expiries := satInc l.expiries, takeLine := es }).schedule [.laneTests n, .waitEnd n, .evalTake n] := by
  have hheld := ((State.sameWork_produce (s.answer e.tx.tag true 0)
    (holdExpiredNotice n e.tx reason value16 value32)).heldOf n .take).trans hh
  unfold State.expireTake
  rw [State.expire_setLane, State.leaveTake_cons hheld (by exact hl)]

/-- With the held table full the first take of a line is ended with TABLE_FULL (R80). -/
theorem State.holdTake_tableFull (hh : s.heldOf n .take = none) (hl : l.takeLine = e :: es)
    (hfull : Config.heldEntries ≤ s.hold.held.length) : (s.setLane n l).holdTake n e =
      (((s.answer e.tx.tag true 0).produce (holdExpiredNotice n e.tx reasonTableFull 0 s.hold.ticks)).setLane n
        { l with expiries := satInc l.expiries, takeLine := es }).schedule [.laneTests n, .waitEnd n, .evalTake n] := by
  have hheld : (s.setLane n l).heldOf n .take = none := hh
  unfold State.holdTake
  rw [hheld, if_neg (by simp), if_neg (by simpa using hfull), State.expireTake_cons hh hl]
  rfl

/-! ## Events of a take that arrives at an OPEN lane with nothing to do -/

theorem State.TakeQuiet.atRest (hq : s.TakeQuiet n) : (s.lane n).AtRest :=
  ⟨hq.clear, by simp [hq.opened], hq.putLine, hq.takeLine⟩

theorem Lane.AtRest.overread (h : l.AtRest) : l.overread.AtRest := ⟨h.clear, h.state, h.putLine, h.takeLine⟩

section Presents

variable (hr : s.Routes x i (.take base exponent n)) (hd : x.direction = .read) (hq : s.TakeQuiet n)

include hq

/-- The take alone in its line finds the lane empty. -/
theorem State.enteredTake_empty (hready : (s.lane n).ready = 0) :
    (s.enteredTake x i n).evalTake n = (s.enteredTake x i n).takeEmpty n (arrivedTake x i) :=
  State.evalTake_empty (es := []) (by rw [State.enteredTake_lane]) rfl
    (by rw [State.enteredTake_lane]; exact Lane.scanning_nil hq.putLine) (by rw [State.enteredTake_lane]; exact hready)

/-- The take alone in its line goes on with the header at hand. -/
theorem State.enteredTake_proceeds (hready : (s.lane n).ready ≠ 0) (hc : (s.lane n).cache = some c) :
    (s.enteredTake x i n).evalTake n = (s.enteredTake x i n).proceedTake n (arrivedTake x i) c :=
  State.evalTake_proceeds (es := []) (by rw [State.enteredTake_lane]) rfl
    (by rw [State.enteredTake_lane]; exact hq.putLine) (by rw [State.enteredTake_lane]; exact hready)
    (by rw [State.enteredTake_lane]; exact hc) hq.takeHeld

include hr hd

/-- The take waits in its line: its evaluation notes nothing more to do. -/
theorem present_takeWaits (hv : (s.enteredTake x i n).evalTake n = v) (ht : v.todo = []) (hc : v.Calm) :
    present x s = .next v :=
  present_does hr.calm hr.free (hr.take_take hd (Lane.refusal_open hq.opened hq.clear false) hq.takeLine) rfl
    (State.Does.step hv ht (.nil _)) (by decide) ht hc

/-- The take leaves its line, and its lane comes to rest. -/
theorem present_takeLeaves (hV : (s.begin.occupy x).SameWork V) (hl : l.AtRest)
    (hv : (s.enteredTake x i n).evalTake n = (V.setLane n l).schedule [.laneTests n, .waitEnd n, .evalTake n]) :
    present x s = .next (V.setLane n l) := by
  have hwork : (V.setLane n l).cmd.work ≠ .closing n := fun h => hq.closing ((congrArg _ hV.cmd).symm.trans h)
  refine present_task hr.calm hr.free (hr.take_take hd (Lane.refusal_open hq.opened hq.clear false) hq.takeLine) rfl hv
    hV.todo (fun y hy => ?_) (by simp) (hr.calm.congr hV.rst hV.presented (congrArg _ hV.cmd))
  exact State.atRest_noops (by rw [State.lane_setLane_same]; exact hl) hwork y (leaveTake_laneTasks n y hy)

/-- The take is answered OK and leaves its line, and its lane comes to rest. -/
theorem present_answersTake {d : Word} (hl : l.AtRest) (hv : (s.enteredTake x i n).evalTake n =
      ((s.begin.occupy x).setLane n { l with takeLine := [arrivedTake x i] }).answerTake n (arrivedTake x i) d) :
    present x s = .next (((s.begin.occupy x).setLane n l).answer x.tag false (maskWord (laneEnables x) d)) := by
  have hempty : { l with takeLine := [] } = l := by rw [← hl.takeLine]
  rw [State.answerTake_cons (by exact hq.takeHeld) rfl hd] at hv
  dsimp only at hv
  rw [hempty] at hv
  exact present_takeLeaves hr hd hq (State.sameWork_answer _ _ _ _) hl hv

/-- The take is answered OK, and its lane is as it was. -/
theorem present_answersTake_keeps {d : Word}
    (hv : (s.enteredTake x i n).evalTake n = (s.enteredTake x i n).answerTake n (arrivedTake x i) d) :
    present x s = .next ((s.begin.occupy x).answer x.tag false (maskWord (laneEnables x) d)) := by
  have h := present_answersTake hr hd hq hq.atRest hv
  rwa [State.setLane_self (s.begin.occupy x) (n := n) (l := s.lane n) rfl] at h

/-- The take is an overread: it is answered OK, and its lane counts it (R64, R72). -/
theorem present_overreads {d : Word} (hv : (s.enteredTake x i n).evalTake n =
      ((s.enteredTake x i n).updLane n Lane.overread).answerTake n (arrivedTake x i) d) :
    present x s = .next (((s.begin.occupy x).updLane n Lane.overread).answer x.tag false
      (maskWord (laneEnables x) d)) := by
  refine present_answersTake hr hd hq hq.atRest.overread (hv.trans ?_)
  unfold State.enteredTake
  rw [State.updLane_setLane]
  rfl

end Presents

/-! ## The takes with a ready parcel (R58, R59, R62 to R65) -/

/-- Settles O29: the evaluation of the arriving take is the head fetch. -/
theorem takeFetchesHead : Obligations.TakeFetchesHead := by
  intro c s x i base exponent n hx hr hd hq hready hc
  have hfetch : (s.enteredTake x i n).evalTake n = (s.enteredTake x i n).fetchHead n (arrivedTake x i) := by
    rw [State.evalTake_fetches (e := arrivedTake x i) (es := []) (by rw [State.enteredTake_lane]) rfl
      (by rw [State.enteredTake_lane]; exact hq.putLine) (by rw [State.enteredTake_lane]; exact hready)
      (by rw [State.enteredTake_lane]; exact hc), State.unhold_none (by exact hq.takeHeld)]
  rw [exec_of_presents hx]
  exact present_takeWaits hr hd hq (hfetch.trans (State.fetchHead_cons rfl)) rfl (hr.calm.congr rfl rfl rfl)

theorem takeRegion_data (h : x.address.toNat % 4096 < 0x800) : takeRegion x = .data := if_pos h

/-- Settles O30: the bytes left decide between the body reads and the overread. -/
theorem dataReadCompletes : Obligations.DataReadCompletes := by
  intro s x i base exponent n c hr hd ha hq hready hc
  have hregion := takeRegion_data ha
  have hstart : (s.enteredTake x i n).evalTake n = (s.enteredTake x i n).startDataRead n (arrivedTake x i) c :=
    (State.enteredTake_proceeds hq hready hc).trans (State.proceedTake_data hregion c)
  refine ⟨fun hk => ?_, fun hk => ?_⟩
  · have hreads := hstart.trans (State.startDataRead_cons (s := s.begin.occupy x) rfl c hk)
    refine (exec_of_presents rfl).trans (present_takeWaits hr hd hq (hreads.trans ?_) rfl (hr.calm.congr rfl rfl rfl))
    unfold arrivedTake
    rw [hregion]
    rfl
  · exact (exec_of_presents rfl).trans
      (present_overreads hr hd hq (hstart.trans (State.startDataRead_overreads hk)))

/-- Settles O31: the read is answered at its evaluation. -/
theorem headInfoReadCompletes : Obligations.HeadInfoReadCompletes := by
  intro s x i base exponent n c hr hd hk hq hready hc
  have hanswer : (s.enteredTake x i n).evalTake n =
      (s.enteredTake x i n).answerTake n (arrivedTake x i) (headInfoWord c (s.lane n).gap) := by
    rw [State.enteredTake_proceeds hq hready hc, State.proceedTake_info hk]
    unfold State.answerHeadInfo
    rw [State.enteredTake_lane]
  exact (exec_of_presents rfl).trans (present_answersTake_keeps hr hd hq hanswer)

/-! ## The takes that find their lane empty (R70 to R72) -/

/-- Settles O33: the evaluation in every state, and the event of a release that arrives alone. -/
theorem emptyReleaseIsAnswered : Obligations.EmptyReleaseIsAnswered := by
  refine ⟨fun s n e rest hl hk hs hscan hready => ?_, fun c s x i base exponent n hx hr hd hk hq hready => ?_⟩
  · exact (State.evalTake_empty hl hs hscan hready).trans (State.takeEmpty_release hk)
  · have hanswer := (State.enteredTake_empty (x := x) (i := i) hq hready).trans (State.takeEmpty_release hk)
    rw [State.enteredTake_lane] at hanswer
    exact (exec_of_presents hx).trans (present_answersTake_keeps hr hd hq hanswer)

/-- Settles O34: the empty action answers the read and counts an overread. -/
theorem emptyLaneFills : Obligations.EmptyLaneFills := by
  intro c s x i base exponent n hx hr hd hk hq hready ha
  have hfill := (State.enteredTake_empty (x := x) (i := i) hq hready).trans ((State.takeEmpty_read hk).trans
    (State.emptyTake_fill (by rw [State.enteredTake_lane]; exact ha) _))
  rw [State.enteredTake_lane] at hfill
  exact (exec_of_presents hx).trans (present_overreads hr hd hq hfill)

/-- Settles O35: the read is recorded while the held table has room, and ended with TABLE_FULL when it has none. -/
theorem emptyLaneHoldsTake : Obligations.EmptyLaneHoldsTake := by
  intro c s x i base exponent n hx hr hd hk hq hready ha
  have hhold : (s.enteredTake x i n).evalTake n = (s.enteredTake x i n).holdTake n (arrivedTake x i) :=
    (State.enteredTake_empty hq hready).trans ((State.takeEmpty_read hk).trans
      (State.emptyTake_hold (by rw [State.enteredTake_lane]; exact ha) _))
  refine ⟨fun hroom => ?_, fun hfull => ?_⟩
  · have hrecord := hhold.trans (State.holdTake_records (s := s.enteredTake x i n) hq.takeHeld hroom)
    rw [exec_of_presents hx, present_takeWaits hr hd hq hrecord rfl (hr.calm.congr rfl rfl rfl)]
    unfold State.recordHeld
    dsimp only
    rw [State.enteredTake_lane, List.length_append]
    rfl
  · have hended := hhold.trans (State.holdTake_tableFull (s := s.begin.occupy x) hq.takeHeld rfl hfull.ge)
    have hsame := (State.sameWork_answer (s.begin.occupy x) x.tag true 0).trans
      (State.sameWork_produce _ (holdExpiredNotice n x reasonTableFull 0 s.hold.ticks))
    have hleaves := present_takeLeaves
      (l := { s.lane n with expiries := satInc (s.lane n).expiries, takeLine := [] }) hr hd hq hsame
      ⟨hq.atRest.clear, hq.atRest.state, hq.atRest.putLine, rfl⟩ hended
    rw [exec_of_presents hx, hleaves, State.updLane_eq, State.produce_setLane, ← hq.takeLine]
    rfl

end Sys2Proof.Machine

namespace Sys2Proof.Machine

variable {s : State} {t : Transaction}

/-! ## An empty queue (R76) -/

theorem step_of_empty (h : s.pending = []) : step s = idleCycle s := by
  unfold step; rw [h]

/-- Settles O3: an empty queue is an idle cycle, by its three cases. -/
theorem emptyQueueIsOneCycle : Obligations.EmptyQueueIsOneCycle := by
  intro s hp
  rw [step_of_empty hp]
  unfold idleCycle
  refine ⟨fun hr => if_pos hr, fun hr hlt => ?_, fun hr hle => ?_⟩
  · rw [if_neg (by simp [hr]), if_neg (by omega)]
  · rw [if_neg (by simp [hr]), if_pos hle]
    rfl

/-! ## Command words that are refused (R87, R88, R121) -/

/-- A refused command word leaves alone what an event goes on with. -/
theorem State.sameWork_refuseCommand (s : State) (t : Transaction) (reason : Byte) :
    s.SameWork (s.refuseCommand t reason) :=
  State.SameWork.trans (t := { s with dec := { s.dec with otherRefusals := s.dec.otherRefusals + 1 } })
    ⟨rfl, rfl, rfl, rfl, rfl, rfl, rfl, rfl⟩
    ((State.sameWork_answer _ t.tag true 0).trans (State.sameWork_produce _ _))

/-- The block with an empty waiter slot. -/
def State.slotFreed (s : State) : State := { s with hold := { s.hold with waiter := none } }

/-- A command word whose deadline was reached leaves the slot and is refused. -/
theorem State.waiterExpiry_due {w : Waiter} (hw : s.hold.waiter = some w) (hd : w.due = true) :
    s.waiterExpiry = s.slotFreed.refuseCommand w.tx reasonCommandBusy := by
  unfold State.waiterExpiry
  rw [hw]
  exact if_pos hd

/-- Settles O9: the word that leaves the slot is refused, and nothing is noted. -/
theorem commandWaiterExpiryCompletes : Obligations.CommandWaiterExpiryCompletes := by
  intro s w hc hw hd
  have hsame := s.begin.slotFreed.sameWork_refuseCommand w.tx reasonCommandBusy
  exact event_eq hc.running (State.waiterExpiry_due (s := s.begin) hw hd)
    (hsame.calm (hc.congr rfl rfl rfl)) hsame.todo

/-! ## A command word that finds the unit RUNNING (R87, R125) -/

/-- The path of a command word that is written whole, as a write of 8 bytes at 0x800. -/
theorem State.Decodes.take_commandWord (h : s.Decodes t) (hin : s.inControl t.address = true)
    (hoffset : s.controlOffset t.address = 0x800) (hsize : t.size = 8) (hd : t.direction = .write) :
    s.begin.take t = (s.begin.occupy t).commandWord t := by
  have hin' : (s.begin.occupy t).inControl t.address = true := hin
  have hoffset' : (s.begin.occupy t).controlOffset t.address = 0x800 := hoffset
  have hfreeze : (s.begin.occupy t).sys.freeze = false := h.thawed
  unfold State.take State.decode State.control
  simp only [h.aligned, hfreeze, hin', hoffset', hsize, hd]
  rfl

/-- The three things that can become of a command word that finds the unit RUNNING: the slot is looked at first. -/
theorem State.commandWord_running (hr : s.cmd.running = true) :
    (s.hold.waiter = none → s.hold.commandLimit ≠ 0 → s.commandWord t = { s with hold := { s.hold with
      waiter := some { tx := t, arrival := s.hold.ticks, deadline := s.hold.ticks + s.hold.commandLimit.zeroExtend 32,
                       due := false } } }) ∧
    (s.hold.waiter ≠ none → s.commandWord t = s.refuseCommand t reasonCommandQueueFull) ∧
    (s.hold.waiter = none → s.hold.commandLimit = 0 → s.commandWord t = s.refuseCommand t reasonCommandBusy) := by
  unfold State.commandWord State.enterWaiter
  rw [if_pos hr]
  refine ⟨fun hw hl => ?_, fun hw => if_pos (Option.isSome_iff_ne_none.mpr hw), fun hw hl => ?_⟩
  · rw [if_neg (by simp [hw]), if_neg hl]
  · rw [if_neg (by simp [hw]), if_pos hl]

/-- The event of a command word is over when the word has been dealt with. -/
theorem exec_commandWord {c : Instr} {v : State} (hx : s.presents c = some t) (h : s.Decodes t)
    (htake : s.begin.take t = v) (htodo : v.todo = []) (hcalm : v.Calm) : exec c s = .next v := by
  subst htake
  exact (exec_of_presents hx).trans (present_done h.calm h.free hcalm htodo)

/-- Settles O43: the word waits or is refused, and its event is over. -/
theorem commandWaitsForTheUnit : Obligations.CommandWaitsForTheUnit := by
  intro c s t hx h hin hoffset hsize hd hr refused
  have htake := h.take_commandWord hin hoffset hsize hd
  have hcalm : (s.begin.occupy t).Calm := h.calm.congr rfl rfl rfl
  obtain ⟨hwaits, hfull, hbusy⟩ := State.commandWord_running (s := s.begin.occupy t) (t := t) hr
  have refuses {reason : Byte} (hv : (s.begin.occupy t).commandWord t = (s.begin.occupy t).refuseCommand t reason) :
      exec c s = .next ((s.begin.occupy t).refuseCommand t reason) :=
    have hsame := State.sameWork_refuseCommand (s.begin.occupy t) t reason
    exec_commandWord hx h (htake.trans hv) hsame.todo (hsame.calm hcalm)
  exact ⟨fun hw hl => exec_commandWord hx h (htake.trans (hwaits hw hl)) rfl (hcalm.congr rfl rfl rfl),
    fun hw => refuses (hfull hw), fun hw hl => refuses (hbusy hw hl)⟩

end Sys2Proof.Machine

namespace Sys2Proof.Machine

variable {s u : State} {xs front rest : List Outstanding} {e : Outstanding} {now : Quad} {r : MemRequest}
  {t : Transaction} {source : Byte}

/-! ## Outstanding requests at a tick (R165) -/

/-- The tick whose new counter value is `now` abandons the entry: it is not abandoned yet, and its deadline is
reached. -/
def Outstanding.reached (now : Quad) (e : Outstanding) : Bool := !e.abandoned && (e.due || e.deadline == some now)

/-- The entry as a tick that abandons the entries whose deadlines are reached leaves it. -/
def Outstanding.afterTick (now : Quad) (e : Outstanding) : Outstanding :=
  if e.reached now then { e with due := true, abandoned := true } else e

/-- A tick marks an entry whose deadline is reached, and leaves every other as it is. -/
theorem Outstanding.tick_eq (now : Quad) (e : Outstanding) :
    e.tick now = if e.reached now then { e with due := true } else e := by
  unfold Outstanding.tick Outstanding.reached
  obtain ⟨request, issueTick, deadline, due, abandoned⟩ := e
  cases abandoned <;> cases due <;> cases deadline == some now <;> simp

theorem Outstanding.tick_reached (h : e.reached now = true) : e.tick now = { e with due := true } := by
  rw [e.tick_eq, if_pos h]

theorem Outstanding.tick_unreached (h : e.reached now = false) : e.tick now = e := by
  rw [e.tick_eq, if_neg (by simp [h])]

theorem Outstanding.afterTick_reached (h : e.reached now = true) :
    e.afterTick now = { e with due := true, abandoned := true } := if_pos h

theorem Outstanding.afterTick_unreached (h : e.reached now = false) : e.afterTick now = e := if_neg (by simp [h])

/-- The entries that a tick marks are those that are to be abandoned. -/
theorem Outstanding.expires_tick (now : Quad) (e : Outstanding) : (e.tick now).expires = e.reached now := by
  unfold Outstanding.tick Outstanding.expires Outstanding.reached
  cases e.abandoned <;> simp

theorem Outstanding.expires_unreached (h : e.reached now = false) : e.expires = false := by
  have hx := e.expires_tick now
  rwa [Outstanding.tick_unreached h, h] at hx

theorem map_tick_unreached (h : ∀ x ∈ xs, x.reached now = false) : xs.map (Outstanding.tick now) = xs :=
  (List.map_congr_left fun x hx => Outstanding.tick_unreached (h x hx)).trans xs.map_id

theorem Outstanding.expires_iff (e : Outstanding) : e.expires = true ↔ e.due = true ∧ e.abandoned = false := by
  simp [Outstanding.expires]

theorem Outstanding.expires_eq_false_iff (e : Outstanding) :
    e.expires = false ↔ (e.due = true → e.abandoned = true) := by
  simp [Outstanding.expires]

/-! ## The tick before an abandonment (R76, R77, R83, R88, R146) -/

/-- The block with another outstanding list. -/
def State.setOutstanding (s : State) (xs : List Outstanding) : State :=
  { s with port := { s.port with outstanding := xs } }

/-- The block at a tick, with its counters, timers and marks, and the outstanding list `xs`. -/
def State.ticked (s : State) (xs : List Outstanding) : State := s.begin.countTick.setOutstanding xs

/-- A tick counts, and then abandons the requests whose deadlines it reaches. -/
theorem State.tick_begin (s : State) : s.begin.tick =
    (s.ticked (s.port.outstanding.map (Outstanding.tick (s.hold.ticks + 1)))).abandonReached
      s.port.outstanding.length := rfl

theorem State.Calm.ticked (h : s.Calm) (xs : List Outstanding) : (s.ticked xs).Calm := h.congr rfl rfl rfl

/-- A tick that reaches no deadline of a request does not touch the outstanding list. -/
theorem exec_tick_quiet (h : s.Calm) (hq : ∀ x ∈ s.port.outstanding, x.reached (s.hold.ticks + 1) = false) :
    exec .tick s = .next (s.ticked s.port.outstanding) := by
  refine event_eq h.running ?_ (h.ticked _) rfl
  rw [State.tick_begin, map_tick_unreached hq]
  have hnone : ∀ x ∈ s.port.outstanding, x.expires = false := fun x hx => Outstanding.expires_unreached (hq x hx)
  exact State.abandonReached_none (s := s.ticked s.port.outstanding) hnone _

/-- The block with one more memory-port timeout counted (R165). -/
def State.countTimeout (s : State) : State := { s with port := { s.port with timeouts := satInc s.port.timeouts } }

/-- The tick whose oldest request to be abandoned is `e`. -/
theorem exec_tick_first (h : s.port.outstanding = front ++ e :: rest)
    (hf : ∀ x ∈ front, x.reached (s.hold.ticks + 1) = false) (he : e.reached (s.hold.ticks + 1) = true) :
    exec .tick s = event (fun _ => ((((s.ticked (front ++ e.afterTick (s.hold.ticks + 1) ::
        rest.map (Outstanding.tick (s.hold.ticks + 1)))).countTimeout).requestEnded e.request
          .timeout).settle).abandonReached (front.length + rest.length)) s := by
  refine event_congr ?_
  rw [State.tick_begin, h, List.map_append, List.map_cons, map_tick_unreached hf, List.length_append, List.length_cons,
    ← Nat.add_assoc, State.abandonReached_first rfl (fun x hx => Outstanding.expires_unreached (hf x hx))
      ((e.expires_tick _).trans he), Outstanding.tick_reached he, Outstanding.afterTick_reached he]
  rfl

/-! ## Forwarded accesses that are abandoned (R100, R153, R158) -/

/-- The access `t`, forwarded with request `r` and not captured, is abandoned: the timeout and the error are counted,
the failure is noticed, the access is answered ERROR. -/
def State.timedOut (s : State) (r : MemRequest) (t : Transaction) (source : Byte) : State :=
  (({ s with port := { s.port with
      timeouts := satInc s.port.timeouts, errors := s.port.errors + 1 } } : State).produce
    { kind := .memoryError, source := source, reason := 0x29, master := r.master, value16 := BitVec.ofNat 16 t.size,
      address := r.address, value32 := 1 }).answer t.tag true 0

theorem State.timedOut_setOutstanding (s : State) (xs : List Outstanding) (r : MemRequest) (t : Transaction)
    (source : Byte) : (s.setOutstanding xs).timedOut r t source = (s.timedOut r t source).setOutstanding xs := by
  unfold State.timedOut
  simp only [State.produce_eq]
  rfl

theorem State.sameWork_timedOut (s : State) (r : MemRequest) (t : Transaction) (source : Byte) :
    s.SameWork (s.timedOut r t source) := by
  unfold State.timedOut
  constructor <;> simp

/-- The owner of a forwarded access that is not captured receives the outcome timeout. -/
theorem State.requestEnded_timeout (h : r.owner = .forward t source none) :
    s.countTimeout.requestEnded r .timeout = s.timedOut r t source := by
  unfold State.requestEnded
  rw [h]
  show State.answerError (State.produce _ _) t = _
  unfold memoryErrorNotice
  rw [h]
  rfl

/-- The oldest entry that a tick reaches is a forwarded access that is not captured. -/
theorem State.abandonReached_forward (ht : u.todo = []) (hf : ∀ x ∈ front, x.expires = false)
    (he : e.reached now = true) (ho : e.request.owner = .forward t source none) (count : Nat) :
    (u.setOutstanding (front ++ e.tick now :: rest)).abandonReached (count + 1) =
      ((u.timedOut e.request t source).setOutstanding (front ++ e.afterTick now :: rest)).abandonReached count := by
  have hend := State.requestEnded_timeout (s := u.setOutstanding (front ++ e.afterTick now :: rest)) ho
  rw [State.timedOut_setOutstanding] at hend
  rw [State.abandonReached_first rfl hf ((e.expires_tick now).trans he), Outstanding.tick_reached he,
    ← Outstanding.afterTick_reached he]
  refine congrArg _ ((congrArg State.settle hend).trans (State.settle_of_todo ?_))
  exact (State.sameWork_timedOut u _ _ _).todo.trans ht

section Forwards

variable {fails : State → Outstanding → State}
  (hfails : ∀ u e t source, e.request.owner = .forward t source none → fails u e = u.timedOut e.request t source)

include hfails

/-- Where every entry that a tick reaches is a forwarded access that is not captured, they are abandoned in the order of
issue, and nothing comes of one before the next. -/
theorem State.abandonReached_forwards : ∀ (xs front : List Outstanding) (u : State) (count : Nat), u.todo = [] →
    (∀ x ∈ front, x.expires = false) →
    (∀ x ∈ xs, x.reached now = true → ∃ t source, x.request.owner = .forward t source none) → xs.length ≤ count →
    (u.setOutstanding (front ++ xs.map (Outstanding.tick now))).abandonReached count =
      (xs.filter (Outstanding.reached now)).foldl fails
        (u.setOutstanding (front ++ xs.map (Outstanding.afterTick now))) := by
  intro xs
  induction xs with
  | nil =>
    intro front u count _ hf _ _
    exact State.abandonReached_none (by simpa [State.setOutstanding] using hf) count
  | cons x xs ih =>
    intro front u count ht hf hxs hcount
    have hfront {y : Outstanding} (hy : y.expires = false) : ∀ z ∈ front ++ [y], z.expires = false := by
      rw [List.forall_mem_append, List.forall_mem_singleton]
      exact ⟨hf, hy⟩
    have htail := fun y hy => hxs y (List.mem_cons_of_mem x hy)
    cases hx : x.reached now with
    | false =>
      have hnext := ih (front ++ [x]) u count ht (hfront (Outstanding.expires_unreached hx)) htail
        (Nat.le_of_succ_le hcount)
      rw [List.map_cons, List.map_cons, Outstanding.tick_unreached hx, Outstanding.afterTick_unreached hx,
        List.filter_cons_of_neg (by simp [hx])]
      simpa using hnext
    | true =>
      obtain ⟨t, source, ho⟩ := hxs x List.mem_cons_self hx
      obtain ⟨count, rfl⟩ : ∃ k, count = k + 1 := ⟨count - 1, by rw [List.length_cons] at hcount; omega⟩
      have hdone : (x.afterTick now).expires = false := by
        rw [Outstanding.afterTick_reached hx]; simp [Outstanding.expires]
      have hnext := ih (front ++ [x.afterTick now]) (u.timedOut x.request t source) count
        ((State.sameWork_timedOut u _ _ _).todo.trans ht) (hfront hdone) htail (Nat.le_of_succ_le_succ hcount)
      rw [List.map_cons, List.map_cons, State.abandonReached_forward ht hf hx ho, List.filter_cons_of_pos hx,
        List.foldl_cons, hfails _ _ _ _ ho, State.timedOut_setOutstanding]
      simpa using hnext

/-- The tick that abandons forwarded accesses alone. -/
theorem exec_tick_forwards (h : s.Calm) (hxs : ∀ x ∈ s.port.outstanding, x.reached (s.hold.ticks + 1) = true →
    ∃ t source, x.request.owner = .forward t source none) : exec .tick s =
      .next ((s.port.outstanding.filter (Outstanding.reached (s.hold.ticks + 1))).foldl fails
        (s.ticked (s.port.outstanding.map (Outstanding.afterTick (s.hold.ticks + 1))))) := by
  have hsame : (s.ticked (s.port.outstanding.map (Outstanding.afterTick (s.hold.ticks + 1)))).SameWork
      ((s.port.outstanding.filter (Outstanding.reached (s.hold.ticks + 1))).foldl fails
        (s.ticked (s.port.outstanding.map (Outstanding.afterTick (s.hold.ticks + 1))))) := by
    refine List.foldlRecOn _ _ (State.SameWork.refl _) fun u hu x hx => ?_
    obtain ⟨hmem, hreached⟩ := List.mem_filter.mp hx
    obtain ⟨t, source, ho⟩ := hxs x hmem hreached
    rw [hfails _ _ _ _ ho]
    exact hu.trans (State.sameWork_timedOut _ _ _ _)
  refine event_eq h.running ?_ (hsame.calm (h.ticked _)) (hsame.todo.trans rfl)
  rw [State.tick_begin]
  exact State.abandonReached_forwards hfails s.port.outstanding [] s.begin.countTick _ rfl (by simp) hxs le_rfl

end Forwards

/-- Settles O8: a tick counts, then abandons what it reaches, the oldest first, each with what comes of it. -/
theorem tickCompletes : Obligations.TickCompletes := by
  intro s h reached ticked fails
  refine ⟨exec_tick_quiet h, fun hxs => exec_tick_forwards (fun u e t source ho => ?_) h hxs,
    fun front e rest hs hf he => ?_, fun u count => ⟨fun hu => ?_, fun front e rest hu hf hd ha => ?_⟩⟩
  · simp only [fails, ho]
    rfl
  · rw [exec_tick_first hs hf he, Outstanding.afterTick_reached he, funext (Outstanding.tick_eq (s.hold.ticks + 1))]
    rfl
  · exact State.abandonReached_none (fun x hx => x.expires_eq_false_iff.mpr (hu x hx)) count
  · exact State.abandonReached_first hu (fun x hx => x.expires_eq_false_iff.mpr (hf x hx))
      (e.expires_iff.mpr ⟨hd, ha⟩) count

end Sys2Proof.Machine

namespace Sys2Proof.Machine

variable {s V : State} {n : LaneNo} {h : HeldEntry}

/-! ## Held entries that expire (R84, R116) -/

/-- The expiry of a held put ends the first entry of its line. -/
theorem State.takeExpiry_put {e : PutEntry} {es : List PutEntry} (hh : s.heldOf n .put = some h) (hd : h.due = true)
    (hl : (s.lane n).putLine = e :: es) : s.takeExpiry n .put =
      s.expirePut n e reasonExpired ((h.deadline - h.start).setWidth 16) h.start := by
  unfold State.takeExpiry
  rw [hh, hl]
  simp [hd]

/-- The expiry of a held take ends the first entry of its line. -/
theorem State.takeExpiry_take {e : TakeEntry} {es : List TakeEntry} (hh : s.heldOf n .take = some h)
    (hd : h.due = true) (hl : (s.lane n).takeLine = e :: es) : s.takeExpiry n .take =
      s.expireTake n e reasonExpired ((h.deadline - h.start).setWidth 16) h.start := by
  unfold State.takeExpiry
  rw [hh, hl]
  simp [hd]

theorem State.expirePut_capture {e : PutEntry} {hold : Bool} {o : MemOutcome} (hk : e.kind = .capture hold o)
    (reason : Byte) (value16 : Half) (value32 : Quad) :
    s.expirePut n e reason value16 value32 = (s.discardCapture n e o).leavePutLine n := by
  unfold State.expirePut; rw [hk]

theorem State.expirePut_put {e : PutEntry} (hk : e.kind = .body ∨ ∃ tag, e.kind = .final tag) (reason : Byte)
    (value16 : Half) (value32 : Quad) :
    s.expirePut n e reason value16 value32 = (s.expire n e.tx reason value16 value32).leavePutLine n := by
  unfold State.expirePut
  obtain hk | ⟨tag, hk⟩ := hk <;> rw [hk]

/-! ## The only entry of a line leaves it and the held table -/

/-- The only put of a line leaves it, and the held table without waking another pool waiter. -/
theorem State.LeavesQuietly.leavePutLine {e : PutEntry} (hq : s.LeavesQuietly n .put) (hl : (s.lane n).putLine = [e]) :
    s.leavePutLine n = ((s.unhold n .put).updLane n fun l => { l with putLine := [] }).schedule
      [.laneTests n, .evalPut n] := by
  unfold State.leavePutLine
  rw [hq.dropHeld, State.putLine_tail (s := s.unhold n .put) hl]

/-- The only take of a line leaves it, and the held table without waking a pool waiter. -/
theorem State.LeavesQuietly.leaveTakeLine {e : TakeEntry} (hq : s.LeavesQuietly n .take)
    (hl : (s.lane n).takeLine = [e]) :
    s.leaveTakeLine n = ((s.unhold n .take).updLane n fun l => { l with takeLine := [] }).schedule
      [.laneTests n, .waitEnd n, .evalTake n] := by
  unfold State.leaveTakeLine
  rw [hq.dropHeld, State.takeLine_tail (s := s.unhold n .take) hl]

section Leaves

variable {body : State → State} (hc : s.Calm) (hw : s.cmd.work ≠ .closing n) (hV : s.begin.SameRun V)
  (ho : (V.lane n).state = .opened) (hb : (V.lane n).busy = .clear)

include hc hw hV ho hb

/-- An event in which the only put of an OPEN lane leaves its line: nothing follows. -/
theorem event_leavesPut {e : PutEntry} (hbody : body s.begin = V.leavePutLine n) (hq : V.LeavesQuietly n .put)
    (hl : (V.lane n).putLine = [e]) :
    event body s = .next ((V.unhold n .put).updLane n fun l => { l with putLine := [] }) := by
  have hwork : V.cmd.work ≠ .closing n := by rw [hV.cmd]; exact hw
  exact event_runs hc.running (hbody.trans (hq.leavePutLine hl))
    (State.settle_leavePut hV.todo (by simp) (by simpa using ho) (by simpa using hb) hwork)
    (hc.congr hV.rst hV.presented (congrArg _ hV.cmd))

/-- An event in which the only take of an OPEN lane leaves its line, with no put that waits for it: nothing follows. -/
theorem event_leavesTake {e : TakeEntry} (hbody : body s.begin = V.leaveTakeLine n) (hq : V.LeavesQuietly n .take)
    (hl : (V.lane n).takeLine = [e]) (hp : ∀ p ∈ (V.lane n).putLine, p.stage ≠ .waitTake) :
    event body s = .next ((V.unhold n .take).updLane n fun l => { l with takeLine := [] }) := by
  have hwork : V.cmd.work ≠ .closing n := by rw [hV.cmd]; exact hw
  exact event_runs hc.running (hbody.trans (hq.leaveTakeLine hl))
    (State.settle_leaveTake hV.todo (by simp) (by simpa using hp) (by simpa using ho) (by simpa using hb) hwork)
    (hc.congr hV.rst hV.presented (congrArg _ hV.cmd))

end Leaves

/-! ## Entries ended as on expiry -/

/-- An expiry answers, counts and notices, and the rest of an event does not see it. -/
theorem State.sameRun_expire (s : State) (n : LaneNo) (t : Transaction) (reason : Byte) (value16 : Half)
    (value32 : Quad) : s.SameRun (s.expire n t reason value16 value32) := by
  unfold State.expire State.answerError
  constructor <;> simp

theorem State.expire_lane (s : State) (n : LaneNo) (t : Transaction) (reason : Byte) (value16 : Half)
    (value32 : Quad) : (s.expire n t reason value16 value32).lane n =
      { s.lane n with expiries := satInc (s.lane n).expiries } := by
  unfold State.expire State.answerError
  simp

theorem State.expire_hold (s : State) (n : LaneNo) (t : Transaction) (reason : Byte) (value16 : Half)
    (value32 : Quad) : (s.expire n t reason value16 value32).hold = s.hold := by
  unfold State.expire State.answerError
  simp

section Expires

variable (hc : s.Calm) (hw : s.cmd.work ≠ .closing n) (ho : (s.lane n).state = .opened)
  (hb : (s.lane n).busy = .clear) (hd : h.due = true)

include hc hw ho hb hd

/-- The only put of an OPEN lane expires (R84). -/
theorem exec_holdExpiry_put {e : PutEntry} (hh : s.heldOf n .put = some h) (hq : s.LeavesQuietly n .put)
    (hl : (s.lane n).putLine = [e]) (hk : e.kind = .body ∨ ∃ tag, e.kind = .final tag) : exec (.holdExpiry n .put) s =
      .next (((s.begin.expire n e.tx reasonExpired ((h.deadline - h.start).setWidth 16) h.start).unhold n
        .put).updLane n fun l => { l with putLine := [] }) := by
  have hbegin := State.takeExpiry_put (s := s.begin) hh hd hl
  have hlane := s.begin.expire_lane n e.tx reasonExpired ((h.deadline - h.start).setWidth 16) h.start
  exact event_leavesPut (body := fun u => u.takeExpiry n .put) hc hw (s.begin.sameRun_expire n e.tx _ _ _)
    (by rw [hlane]; exact ho) (by rw [hlane]; exact hb)
    (hbegin.trans (State.expirePut_put hk _ _ _)) (hq.congr (State.expire_hold ..)) (by rw [hlane]; exact hl)

/-- The only capture of an OPEN lane, held, expires: it is lost, and its access answered (R116, R118). -/
theorem exec_holdExpiry_capture {e : PutEntry} {hold : Bool} {o : MemOutcome} (hh : s.heldOf n .put = some h)
    (hq : s.LeavesQuietly n .put) (hl : (s.lane n).putLine = [e]) (hk : e.kind = .capture hold o) :
    exec (.holdExpiry n .put) s =
      .next (((s.begin.discardCapture n e o).unhold n .put).updLane n fun l => { l with putLine := [] }) := by
  have hbegin := State.takeExpiry_put (s := s.begin) hh hd hl
  have hsame := s.begin.sameWork_discardCapture n e o
  have hlane := hsame.lane n
  exact event_leavesPut (body := fun u => u.takeExpiry n .put) hc hw hsame.run
    (by rw [hlane]; exact ho) (by rw [hlane]; exact hb)
    (hbegin.trans (State.expirePut_capture hk _ _ _)) (hq.congr hsame.hold) (by rw [hlane]; exact hl)

/-- The only take of an OPEN lane expires, with no put that waits for it (R84). -/
theorem exec_holdExpiry_take {e : TakeEntry} (hh : s.heldOf n .take = some h) (hq : s.LeavesQuietly n .take)
    (hl : (s.lane n).takeLine = [e]) (hp : ∀ p ∈ (s.lane n).putLine, p.stage ≠ .waitTake) :
    exec (.holdExpiry n .take) s =
      .next (((s.begin.expire n e.tx reasonExpired ((h.deadline - h.start).setWidth 16) h.start).unhold n
        .take).updLane n fun l => { l with takeLine := [] }) := by
  have hbegin := State.takeExpiry_take (s := s.begin) hh hd hl
  have hlane := s.begin.expire_lane n e.tx reasonExpired ((h.deadline - h.start).setWidth 16) h.start
  exact event_leavesTake (body := fun u => u.takeExpiry n .take) hc hw (s.begin.sameRun_expire n e.tx _ _ _)
    (by rw [hlane]; exact ho) (by rw [hlane]; exact hb)
    hbegin (hq.congr (State.expire_hold ..)) (by rw [hlane]; exact hl) (by rw [hlane]; exact hp)

end Expires

/-- Settles O12: each entry is ended as its kind says, and leaves its line and the held table with nothing to follow. -/
theorem holdExpiryCompletes : Obligations.HoldExpiryCompletes := by
  intro s n h hc ho hb hw hd expired
  refine ⟨fun e hl hh hpool => ?_, fun e hl hp hh hk => ?_⟩
  · have hq := State.leavesQuietly_of_only hpool
    exact ⟨exec_holdExpiry_put hc hw ho hb hd hh hq hl, fun hold o => exec_holdExpiry_capture hc hw ho hb hd hh hq hl⟩
  · have hq : s.LeavesQuietly n .take := State.leavesQuietly_of_parcel fun x hx =>
      Option.some.inj (hh.symm.trans hx) ▸ hk
    exact exec_holdExpiry_take hc hw ho hb hd hh hq hl hp

end Sys2Proof.Machine

namespace Sys2Proof.Machine

variable {s : State} {w : Waiter} {t : Transaction} {r : MemRequest} {rest : List Outstanding}

/-! ## The hand-over (R88) -/

/-- The IDLE unit takes the command word in the slot. -/
theorem State.handover_takes (hw : s.hold.waiter = some w) (hr : s.cmd.running = false) :
    s.handover = s.slotFreed.takeCommand w.tx := by
  unfold State.handover
  rw [hw]
  exact if_neg (by simp [hr])

/-- The requests of the command unit for the LOAD APERTURES of `t`: the IN_PROGRESS response word, and the image reads
(R128, R129, R133). -/
def State.apertureRequests (s : State) (t : Transaction) : List MemRequest :=
  wordRequest (.responseWrite (halfOf t.data 4)) (masterByte t) (s.controlAddress 0x808) true
    (responseWord (halfOf t.data 4) 1 0 0 2) ::
  (List.range 46).map fun i => wordRequest (.imageRead (0x100 + 8 * i) (halfOf t.data 4)) (masterByte t)
    (s.controlAddress (0x100 + 8 * i)) false 0

/-- The block after the LOAD APERTURES of `t` has been taken (R124, R133). -/
def State.loadsApertures (s : State) (t : Transaction) : State :=
  { s with
    cmd :=
      { running := true, autoload := none, work := .images 46 [] none, taken := s.cmd.taken + 1,
        current := { code := 2, lane := byteOf t.data 1, flags := byteOf t.data 2, ticket := halfOf t.data 4,
                     master := masterByte t } }
    port := { s.port with
      commandQ := s.port.commandQ ++ s.apertureRequests t
      systemQ := s.port.systemQ ++ [forwardRequest t t.address 0 none] } }

theorem State.loadsApertures_calm (hr : s.rst = false) (hp : s.sys.presented = []) (t : Transaction) :
    (s.loadsApertures t).Calm :=
  ⟨hr, hp, fun _ hx => by cases hx⟩

theorem State.takeCommand_apertures (ha : s.cmd.autoload = none) (hcode : byteOf t.data 0 = 2) :
    s.takeCommand t = s.loadsApertures t := by
  unfold State.takeCommand commandOf
  rw [hcode]
  show State.readImages _ apertureOffsets = _
  unfold State.readImages State.respond CommandUnit.master State.request State.commandRequests
  simp only [ha, List.append_assoc]
  rfl

/-! ## How a command completes (R127) -/

/-- The value32 of a COMMAND_DONE notice. -/
theorem detail_append_outcome_code (detail outcome code : Byte) :
    ((0 : Byte) ++ detail ++ outcome ++ code : BitVec 32) =
      BitVec.ofNat 32 (code.toNat + 256 * outcome.toNat + 65536 * detail.toNat) := by
  have hd := detail.isLt
  have ho := outcome.isLt
  have hc := code.isLt
  refine BitVec.eq_of_toNat_eq ?_
  rw [BitVec.toNat_append, BitVec.toNat_append, BitVec.toNat_append, BitVec.toNat_ofNat,
    ← Nat.shiftLeft_add_eq_or_of_lt hc, ← Nat.shiftLeft_add_eq_or_of_lt ho, ← Nat.shiftLeft_add_eq_or_of_lt hd]
  simp only [Nat.shiftLeft_eq]
  have : (0 : Byte).toNat = 0 := rfl
  omega

theorem State.commandDoneNotice_eq (s : State) (outcome reason detail : Byte) :
    s.commandDoneNotice outcome reason detail =
      { kind := .commandDone, reason := reason, master := s.cmd.current.master, value16 := s.cmd.current.ticket,
        source := if 3 ≤ s.cmd.current.code.toNat ∧ s.cmd.current.code.toNat ≤ 6 ∧ s.cmd.current.lane.toNat < 16
          then s.cmd.current.lane else 0xFF,
        address := s.controlAddress 0x800,
        value32 := BitVec.ofNat 32
          (s.cmd.current.code.toNat + 256 * outcome.toNat + 65536 * detail.toNat) } := by
  unfold State.commandDoneNotice isLaneCode
  simp only [detail_append_outcome_code, Bool.and_eq_true, decide_eq_true_eq, and_assoc]

/-- The response word of the running command, outside autoload. -/
theorem State.respond_command (ha : s.cmd.autoload = none) (outcome reason detail : Byte) :
    s.respond s.cmd.current.ticket outcome reason detail s.cmd.current.code =
      s.commandRequests [s.responseRequest s.cmd.current.ticket s.cmd.current.master outcome reason detail
        s.cmd.current.code] := by
  unfold State.respond CommandUnit.master
  rw [ha]
  rfl

/-- A command completes by its response word, then its notice if NOTIFY is set, then the IDLE unit. -/
theorem State.completeCommand_parts (ha : s.cmd.autoload = none) (outcome reason detail : Byte) :
    let responded := s.commandRequests
      [s.responseRequest s.cmd.current.ticket s.cmd.current.master outcome reason detail s.cmd.current.code]
    let noticed := if s.cmd.current.flags.getLsbD 0 then responded.produce (s.commandDoneNotice outcome reason detail)
      else responded
    s.completeCommand outcome reason detail = { noticed with
      cmd := { s.cmd with running := false, work := .none, current := .none }
      todo := s.todo ++ [.handover] } := by
  intro responded noticed
  have hcmd : noticed.cmd = s.cmd := by
    unfold noticed
    split
    · exact (State.sameWork_produce responded _).cmd
    · rfl
  have htodo : noticed.todo = s.todo := by
    unfold noticed
    split
    · exact (State.sameWork_produce responded _).todo
    · rfl
  unfold State.completeCommand
  dsimp only
  rw [State.respond_command ha]
  show State.schedule
    { noticed with cmd := { noticed.cmd with running := false, current := .none, work := .none } } [.handover] = _
  unfold State.schedule
  rw [hcmd, htodo]

/-! ## The end of a write-back that WRITE STATUS waits for (R137) -/

theorem State.requestEnded_generation (h : r.owner = .statusWrite 74) (d : Word) :
    s.requestEnded r (.ok d) = s.endWriteBack := by
  unfold State.requestEnded; rw [h]; rfl

/-- The block with no write-back in progress. -/
def State.wroteBack (s : State) : State := { s with status := { s.status with inProgress := false } }

/-- The end of the last write-back ends the WRITE STATUS that waits for it. -/
theorem State.endWriteBack_completes (hw : s.cmd.work = .status false) (hf : s.status.followOn = false) :
    s.endWriteBack = s.wroteBack.completeCommand outcomeDone 0 0 := by
  have hstatus : (s.wroteBack.completeCommand outcomeDone 0 0).status.followOn = false := by
    rw [State.completeCommand_eq]; exact hf
  unfold State.endWriteBack
  dsimp only
  rw [if_pos (c := (s.cmd.work == .status false) = true) (by simp [hw])]
  exact if_neg (Bool.eq_false_iff.mp hstatus)

/-- The end of the last write-back, with a LOAD APERTURES in the slot: the WRITE STATUS that waits for it completes, and
the word in the slot is taken in the same event. -/
theorem statusWriteEnd_handsOver {d : Word} (h : s.Ends r rest) (hr : r.owner = .statusWrite 74)
    (hwork : s.cmd.work = .status false) (ha : s.cmd.autoload = none) (hf : s.status.followOn = false)
    (hn : s.cmd.current.flags.getLsbD 0 = false) (hw : s.hold.waiter = some w) (hcode : byteOf w.tx.data 0 = 2) :
    exec (.statusWriteEnd (.ok d)) s =
      .next (((s.ended rest).wroteBack.commandOver outcomeDone 0 0).slotFreed.loadsApertures w.tx) := by
  have hends : (s.ended rest).requestEnded r (outcomeOf (.ok d)) = _ :=
    (State.requestEnded_generation (s := s.ended rest) hr d).trans
      ((State.endWriteBack_completes (s := s.ended rest) hwork hf).trans
        (State.completeCommand_silent (s := (s.ended rest).wroteBack) ha hn rfl outcomeDone 0 0))
  have htakes : ((s.ended rest).wroteBack.commandOver outcomeDone 0 0).doTask .handover = _ :=
    (State.handover_takes (s := (s.ended rest).wroteBack.commandOver outcomeDone 0 0) hw rfl).trans
      (State.takeCommand_apertures (s := ((s.ended rest).wroteBack.commandOver outcomeDone 0 0).slotFreed) ha hcode)
  exact event_response h hends rfl rfl (State.Does.step htakes rfl (.nil _)) (by decide)
    (State.loadsApertures_calm (s := ((s.ended rest).wroteBack.commandOver outcomeDone 0 0).slotFreed) h.calm.running
      h.calm.presented w.tx)

/-- Settles O44: the row's event; how a command completes; and the event that completes one and hands over. -/
theorem commandWaiterHandoverCompletes : Obligations.CommandWaiterHandoverCompletes := by
  refine ⟨fun s w hc hw hr => ?_, fun s outcome reason detail ha => ?_,
    fun s r rest m w h hr hwork ha hf hn hw hcode hm => ?_⟩
  · have htakes := State.handover_takes (s := s.begin) hw hr
    refine ⟨event_congr htakes, fun ha hcode => ?_⟩
    exact event_eq hc.running (htakes.trans (State.takeCommand_apertures (s := s.begin.slotFreed) ha hcode))
      (State.loadsApertures_calm (s := s.begin.slotFreed) hc.running hc.presented w.tx) rfl
  · rw [State.completeCommand_parts ha, State.commandDoneNotice_eq]
    rfl
  · cases m with
    | error => exact absurd rfl hm
    | ok d =>
      refine (statusWriteEnd_handsOver h hr hwork ha hf hn hw hcode).trans ?_
      unfold State.loadsApertures State.slotFreed State.commandOver
      simp only [List.append_assoc]
      rfl

end Sys2Proof.Machine

namespace Sys2Proof.Machine

variable {s u v : State} {t : Transaction} {c : Instr} {i : Fin 23} {a : Aperture}

/-! ## Transactions that are taken and note nothing more (R92, R161) -/

/-- The path of a transaction that is taken and decoded in the event that presents it. -/
theorem State.Decodes.take_decode (h : s.Decodes t) : s.begin.take t = (s.begin.occupy t).decode t := by
  have hfreeze : (s.begin.occupy t).sys.freeze = false := h.thawed
  unfold State.take
  simp only [h.aligned, hfreeze, Bool.not_true, Bool.false_eq_true, if_false]

/-- An event that takes a transaction is over when its path notes nothing more. -/
theorem exec_taken (hx : s.presents c = some t) (h : s.Calm) (hf : s.tagFree t.tag = true)
    (htake : s.begin.take t = u) (hu : (s.begin.occupy t).SameWork u) : exec c s = .next u := by
  subst htake
  exact (exec_of_presents hx).trans (present_done h hf (hu.calm (h.congr rfl rfl rfl)) hu.todo)

theorem exec_decoded (hx : s.presents c = some t) (h : s.Decodes t) (hd : (s.begin.occupy t).decode t = u)
    (hu : (s.begin.occupy t).SameWork u) : exec c s = .next u :=
  exec_taken hx h.calm h.free (h.take_decode.trans hd) hu

theorem exec_routed (hx : s.presents c = some t) (h : s.Routes t i a) (hb : (s.begin.occupy t).byEntry t i a = u)
    (hu : (s.begin.occupy t).SameWork u) : exec c s = .next u :=
  exec_taken hx h.calm h.free (h.take.trans hb) hu

theorem State.sameWork_request (s : State) (r : MemRequest) : s.SameWork (s.request r) :=
  ⟨rfl, rfl, rfl, rfl, rfl, rfl, rfl, rfl⟩

/-- A refusal counts in the decoder, answers and notices (R101). -/
theorem State.sameWork_refused (s : State) (d : Decoder) (tag : Tag) (x : Notice) :
    s.SameWork ((({ s with dec := d } : State).answer tag true 0).produce x) :=
  State.SameWork.trans (t := { s with dec := d }) ⟨rfl, rfl, rfl, rfl, rfl, rfl, rfl, rfl⟩
    ((State.sameWork_answer _ tag true 0).trans (State.sameWork_produce _ x))

theorem State.sameWork_refuseGuard (s : State) (t : Transaction) (source reason : Byte) :
    s.SameWork (s.refuseGuard t source reason) := s.sameWork_refused _ t.tag _

theorem State.sameWork_refuseMisaligned (s : State) (t : Transaction) : s.SameWork (s.refuseMisaligned t) :=
  s.sameWork_refused _ t.tag _

theorem State.sameWork_refuseSize (s : State) (t : Transaction) : s.SameWork (s.refuseSize t) :=
  s.sameWork_refused _ t.tag _

/-! ## Step 1: alignment (R93) -/

theorem aligned_iff (t : Transaction) : aligned t = true ↔
    (t.size = 1 ∨ t.size = 2 ∨ t.size = 4 ∨ t.size = 8) ∧ t.address.toNat % t.size = 0 := by
  unfold aligned legalSize
  simp only [Bool.and_eq_true, Bool.or_eq_true, beq_iff_eq, or_assoc]

theorem State.take_misaligned (h : aligned t = false) : s.take t = (s.occupy t).refuseMisaligned t := by
  unfold State.take
  exact if_pos (by simp [h])

/-- Settles O13: the test, the refusal, and the event that is over with it. -/
theorem misalignedIsRefused : Obligations.MisalignedIsRefused := by
  refine ⟨aligned_iff, fun s t h => ⟨State.take_misaligned h, ?_⟩, fun c s t hc hx hf h => ?_⟩
  · rw [State.take_misaligned h]
    exact (State.sameWork_refuseMisaligned _ t).lanes
  · rw [State.take_misaligned h]
    exact exec_taken hx hc hf (State.take_misaligned h) (State.sameWork_refuseMisaligned _ t)

/-! ## Transactions that wait (R104, R161) -/

/-- The first presented transaction whose tag is free is taken, and the next is then looked at. -/
theorem State.takePresented_first {rest : List Transaction} (hp : s.sys.presented = t :: rest) (hr : s.rst = false)
    (hf : s.tagFree t.tag = true) : s.takePresented =
      (({ s with sys := { s.sys with presented := rest } } : State).take t).schedule [.takePresented] := by
  unfold State.takePresented
  rw [hp]
  exact if_pos (by simp [hr, hf])

theorem State.takePresented_nil (hp : s.sys.presented = []) : s.takePresented = s := by
  unfold State.takePresented
  rw [hp]

/-- The replacement of the aperture table waits for the requests that are unended (R105). -/
theorem State.replaceTest_waits (hq : s.systemQuiet = false) : s.replaceTest = s := by
  unfold State.replaceTest
  split
  · exact if_neg (by simp [hq])
  · rfl

/-- The end of an event in which no replacement is due, by the transactions that it takes. -/
theorem State.finish_takes {k : Nat} (ht : s.todo = []) (hq : s.replaceTest = s) (hd : s.Does k [.takePresented] v)
    (hk : k ≤ 4096) : s.finish = v := by
  unfold State.finish
  rw [State.settle_of_todo ht, hq, State.settle_of_todo ht]
  exact State.Does.settle ht hd hk

/-- The block with a taken transaction behind those that decode freezes (R104). -/
def State.withFrozen (s : State) (t : Transaction) : State :=
  { s.occupy t with dec := { s.dec with frozen := s.dec.frozen ++ [t] } }

theorem State.take_frozen (ha : aligned t = true) (hz : s.sys.freeze = true) : s.take t = s.withFrozen t := by
  have hfreeze : (s.occupy t).sys.freeze = true := hz
  unfold State.take
  simp only [ha, hfreeze, Bool.not_true, Bool.false_eq_true, if_false, if_true]
  rfl

/-- The event that presents a transaction while decode is frozen, and accesses delay the replacement. -/
theorem present_frozen (hr : s.rst = false) (hp : s.sys.presented = []) (hz : s.sys.freeze = true)
    (hq : s.systemQuiet = false) (hf : s.tagFree t.tag = true) (ha : aligned t = true) :
    present t s = .next (s.begin.withFrozen t) := by
  have hoffered : (s.begin.offer t).sys.presented = [t] := congrArg (· ++ [t]) hp
  have hback : ({ s.begin.offer t with sys := { (s.begin.offer t).sys with presented := [] } } : State) = s.begin := by
    rw [← hp]
    rfl
  have htakes : (s.begin.offer t).takePresented = (s.begin.withFrozen t).schedule [.takePresented] := by
    rw [State.takePresented_first hoffered hr hf, hback, State.take_frozen (s := s.begin) ha hz]
  have hlast : (s.begin.withFrozen t).takePresented = s.begin.withFrozen t := State.takePresented_nil hp
  have hdoes : (s.begin.offer t).Does 2 [.takePresented] (s.begin.withFrozen t) :=
    State.Does.cons htakes rfl (State.Does.step hlast rfl (.nil _))
  have hfinish : (s.begin.offer t).finish = s.begin.withFrozen t :=
    State.finish_takes rfl (State.replaceTest_waits hq) hdoes (by decide)
  unfold present event
  rw [hr, hfinish]
  rfl

/-- Settles O14. -/
theorem transactionsThatWait : Obligations.TransactionsThatWait := by
  refine fun c s t hx => ⟨fun h hf => ?_, fun table hr hp _ hz hq hf ha => ?_⟩
  · have hoffered : (s.begin.offer t).sys.presented = [t] := congrArg (· ++ [t]) h.presented
    rw [exec_of_presents hx, present_waits h hf, ← hoffered]
    rfl
  · exact (exec_of_presents hx).trans (present_frozen hr hp hz hq hf ha)

/-! ## Steps 3 to 6 of decode (6.2) -/

theorem State.decode_control (h : s.inControl t.address = true) : s.decode t = s.control t := if_pos h

section Outside

variable (hc : s.inControl t.address = false)

include hc

/-- Step 4: the pool guard range is closed (R95). -/
theorem State.decode_pool (hg : s.dec.guarded t.address = true) : s.decode t = s.refuseGuard t 0xFF reasonPool :=
  (if_neg (Bool.eq_false_iff.mp hc)).trans (if_pos hg)

/-- Steps 5 and 6: the first entry that matches decides, or none does (R96). -/
theorem State.decode_table (hg : s.dec.guarded t.address = false) : s.decode t = match s.dec.firstMatch t with
    | some (i, a) => s.byEntry t i a
    | none => s.forward t t.address 0xFF :=
  (if_neg (Bool.eq_false_iff.mp hc)).trans (if_neg (Bool.eq_false_iff.mp hg))

theorem State.decode_passes (hg : s.dec.guarded t.address = false) (hn : s.dec.firstMatch t = none) :
    s.decode t = s.forward t t.address 0xFF := by
  rw [State.decode_table hc hg, hn]

end Outside

/-- Settles O15: no entry matches, and the access is forwarded at its own address. -/
theorem passThroughCompletes : Obligations.PassThroughCompletes := fun s t h hc hg hn =>
  exec_decoded rfl h (State.decode_passes (s := s.begin.occupy t) hc hg hn) (State.sameWork_request _ _)

/-! ## Entries that forward or refuse (R97, R98, R99) -/

/-- A PASS entry tests the relocated address once against the pool guard range (R98). -/
theorem State.byEntry_pass (s : State) (t : Transaction) (i : Fin 23) (base target : Addr) (exponent : Nat) :
    s.byEntry t i (.pass base exponent target) =
      if s.dec.guarded (relocate base target t.address) then s.refuseGuard t (entryByte i) reasonPool
      else s.forward t (relocate base target t.address) (entryByte i) := rfl

/-- Settles O16: by the test of the relocated address. -/
theorem passEntryRelocates : Obligations.PassEntryRelocates := by
  intro s t i base target exponent h
  have hentry := (s.begin.occupy t).byEntry_pass t i base target exponent
  exact ⟨fun hg => exec_routed rfl h (hentry.trans (if_neg (Bool.eq_false_iff.mp hg))) (State.sameWork_request _ _),
    fun hg => exec_routed rfl h (hentry.trans (if_pos hg)) (State.sameWork_refuseGuard _ t _ _)⟩

/-- A GUARD entry decides by its mode and the direction, in every state (R97). -/
theorem State.byEntry_guard (s : State) (t : Transaction) (i : Fin 23) (base : Addr) (exponent : Nat) (mode : GuardMode)
    (mask : BitVec 16) : s.byEntry t i (.guard base exponent mode mask) =
      if mode.refuses t.direction then s.refuseGuard t (entryByte i) reasonGuard
      else s.forward t t.address (entryByte i) := rfl

/-- Settles O17: by the mode and the direction; a refusal and a forwarded access note nothing more. -/
theorem guardEntryDecides : Obligations.GuardEntryDecides := by
  intro s t i base exponent mode mask decided
  have hdecided : ∀ u : State, u.byEntry t i (.guard base exponent mode mask) = decided u := fun u => by
    rw [State.byEntry_guard]
    unfold decided GuardMode.refuses State.refuseGuard refusalNotice
    cases mode <;> cases t.direction <;> rfl
  refine ⟨hdecided s, fun h => exec_routed rfl h (hdecided _) ?_⟩
  rw [← hdecided, State.byEntry_guard]
  split
  · exact State.sameWork_refuseGuard _ t _ _
  · exact State.sameWork_request _ _

/-- A TAP entry forwards; a write, and with READS a read, carries the capture (R99, R109). -/
theorem State.byEntry_tap (s : State) (t : Transaction) (i : Fin 23) (base : Addr) (exponent : Nat) (n : LaneNo)
    (reads hold : Bool) : s.byEntry t i (.tap base exponent n reads hold) =
      s.request (forwardRequest t t.address (entryByte i)
        (if t.direction = .write ∨ reads = true then some { lane := n, entry := i, hold := hold } else none)) := by
  show s.forwardTapped t i n reads hold = _
  unfold State.forwardTapped
  simp only [Bool.or_eq_true, beq_iff_eq]

/-- Settles O21: the entry forwards with the capture. -/
theorem tappedAccessCompletes : Obligations.TappedAccessCompletes :=
  fun _ t i base exponent n reads hold h =>
    exec_routed rfl h (State.byEntry_tap _ t i base exponent n reads hold) (State.sameWork_request _ _)

/-! ## Step 5: the first entry that matches (R96) -/

/-- An address lies in an entry's range when its low bits, cleared up to the size exponent, leave the base. -/
theorem inRange_iff (base : Addr) (exponent : Nat) (a : Addr) :
    inRange base exponent a = true ↔ a.toNat / 2 ^ exponent * 2 ^ exponent = base.toNat := by
  unfold inRange
  rw [Nat.div_mul_self_eq_mod_sub_self, beq_iff_eq]

theorem Decoder.firstMatch_eq_none (d : Decoder) (t : Transaction) :
    d.firstMatch t = none ↔ ∀ j : Fin 23, (d.entries[j.val]).covers t = false := by
  unfold Decoder.firstMatch
  rw [Option.map_eq_none_iff, ← Fin.find?_eq_find?_finRange, Fin.find?_eq_none_iff]

theorem Decoder.firstMatch_eq_some (d : Decoder) (t : Transaction) (i : Fin 23) (a : Aperture) :
    d.firstMatch t = some (i, a) ↔
      a = d.entries[i.val] ∧ a.covers t = true ∧ ∀ j : Fin 23, j < i → (d.entries[j.val]).covers t = false := by
  have hfind : ∀ k : Fin 23, (List.finRange 23).find? (fun j => (d.entries[j.val]).covers t) = some k ↔
      (d.entries[k.val]).covers t = true ∧ ∀ j < k, (d.entries[j.val]).covers t = false := fun k => by
    rw [← Fin.find?_eq_find?_finRange, Fin.find?_eq_some_iff]
  unfold Decoder.firstMatch
  rw [Option.map_eq_some_iff]
  constructor
  · rintro ⟨k, hk, heq⟩
    obtain ⟨rfl, rfl⟩ := Prod.mk.inj heq
    exact ⟨rfl, (hfind k).mp hk⟩
  · rintro ⟨rfl, hmatch⟩
    exact ⟨i, (hfind i).mpr hmatch, rfl⟩

/-- Settles O18: what matching is, which entry is found, and that it decides. -/
theorem firstMatchingEntryDecides : Obligations.FirstMatchingEntryDecides := by
  refine ⟨fun t b x mode mask n target reads hold => ⟨rfl, inRange_iff b x _, ?_, inRange_iff b x _, inRange_iff b x _,
    inRange_iff b x _⟩, Decoder.firstMatch_eq_some, Decoder.firstMatch_eq_none,
    fun s t hc hg => State.decode_table hc hg⟩
  show (inRange b x t.address && mask.getLsbD t.master.toNat) = true ↔ _
  rw [Bool.and_eq_true, inRange_iff]

/-! ## Step 4: the pool guard range (R95) -/

theorem Decoder.guarded_iff (d : Decoder) (a : Addr) : d.guarded a = true ↔
    d.poolOpen = false ∧ ∃ first last, d.guard = some (first, last) ∧ first ≤ a.toNat ∧ a.toNat < last := by
  unfold Decoder.guarded
  cases d.guard with
  | none => simp
  | some range =>
    obtain ⟨first, last⟩ := range
    simp

/-- Settles O19: the test of step 4, and its refusal. -/
theorem poolRangeIsRefused : Obligations.PoolRangeIsRefused :=
  ⟨Decoder.guarded_iff, fun s t h hc hg => exec_decoded rfl h (State.decode_pool (s := s.begin.occupy t) hc hg)
    (State.sameWork_refuseGuard _ t _ _)⟩

/-! ## Step 3: the control block (R94, R120, R121) -/

theorem State.control_read (hd : t.direction = .read) : s.control t = s.forward t t.address 0 := by
  unfold State.control
  rw [hd]

section Write

variable (hd : t.direction = .write)

include hd

/-- A write that touches neither the command word nor the consumer index is forwarded (R120). -/
theorem State.control_plain (hw : touches (s.controlOffset t.address) t.size 0x800 8 = false)
    (hi : touches (s.controlOffset t.address) t.size 0x810 4 = false) : s.control t = s.forward t t.address 0 := by
  unfold State.control
  simp only [hd, hw, hi, Bool.false_eq_true, if_false]

/-- A write that touches the command word is all of it, or is refused (R121). -/
theorem State.control_partWord (hw : touches (s.controlOffset t.address) t.size 0x800 8 = true)
    (hpart : ¬ (s.controlOffset t.address = 0x800 ∧ t.size = 8)) : s.control t = s.refuseSize t := by
  unfold State.control
  simp only [hd, hw, if_true, if_neg hpart]

/-- A write that touches the consumer index is all of it, or is refused (R121). -/
theorem State.control_partIndex (hw : touches (s.controlOffset t.address) t.size 0x800 8 = false)
    (hi : touches (s.controlOffset t.address) t.size 0x810 4 = true)
    (hpart : ¬ (s.controlOffset t.address = 0x810 ∧ t.size = 4)) : s.control t = s.refuseSize t := by
  unfold State.control
  simp only [hd, hw, hi, Bool.false_eq_true, if_false, if_true, if_neg hpart]

end Write

/-- Settles O20: an access that is not all of a command word or consumer index is forwarded or refused. -/
theorem controlBlockAccess : Obligations.ControlBlockAccess := by
  intro s t h hc
  have hdecode : (s.begin.occupy t).decode t = (s.begin.occupy t).control t := State.decode_control hc
  refine ⟨fun hplain => exec_decoded rfl h (hdecode.trans ?_) (State.sameWork_request _ _),
    fun hd hpart => exec_decoded rfl h (hdecode.trans ?_) (State.sameWork_refuseSize _ t)⟩
  · cases hd : t.direction with
    | read => exact State.control_read hd
    | write =>
      obtain hread | ⟨hword, hindex⟩ := hplain
      · exact absurd (hd.symm.trans hread) nofun
      · exact State.control_plain (s := s.begin.occupy t) hd hword hindex
  · obtain ⟨hword, hpart⟩ | ⟨hword, hindex, hpart⟩ := hpart
    · exact State.control_partWord (s := s.begin.occupy t) hd hword hpart
    · exact State.control_partIndex (s := s.begin.occupy t) hd hword hindex hpart

end Sys2Proof.Machine

namespace Sys2Proof.Machine

variable {s : State} {e : Outstanding} {place : Nat}

/-! ## The abandonment of one request (R163, R165) -/

/-- An entry whose deadline was reached is abandoned once no older one is to be: it keeps its place, and its owner
receives the timeout. -/
theorem State.abandon_due (hg : s.port.outstanding[place]? = some e) (he : e.expires = true)
    (hf : ∀ x ∈ s.port.outstanding.take place, x.expires = false) : s.abandon place =
      (s.setOutstanding (s.port.outstanding.set place { e with abandoned := true })).countTimeout.requestEnded e.request
        .timeout := by
  have holder : (s.port.outstanding.take place).any Outstanding.expires = false := by simpa using hf
  unfold State.abandon
  rw [hg]
  exact if_pos (by simp [he, holder])

/-- A younger entry waits for an older one that is still to be abandoned (log 11). -/
theorem State.abandon_waits {x : Outstanding} (hx : x ∈ s.port.outstanding.take place) (he : x.expires = true) :
    s.abandon place = s := by
  have holder : (s.port.outstanding.take place).any Outstanding.expires = true := List.any_eq_true.mpr ⟨x, hx, he⟩
  unfold State.abandon
  split
  · rfl
  · exact if_neg (by simp [holder])

theorem exec_memoryRequestAbandon (place : Fin 8) (s : State) :
    exec (.memoryRequestAbandon place) s = event (fun u => u.abandon place.val) s := rfl

/-- Settles O11: the entry is abandoned in the event of the row, or waits for an older one. -/
theorem memoryRequestAbandonCompletes : Obligations.MemoryRequestAbandonCompletes := by
  intro s place e h hg hd ha
  rw [exec_memoryRequestAbandon]
  refine ⟨fun hf => ?_, fun ⟨x, hx, hdue, hleft⟩ => ?_⟩
  · have hbody := State.abandon_due (s := s.begin) hg (e.expires_iff.mpr ⟨hd, ha⟩) fun x hx =>
      x.expires_eq_false_iff.mpr (hf x hx)
    refine ⟨event_congr hbody, fun t source ho => ?_⟩
    have hsame := State.sameWork_timedOut
      (s.begin.setOutstanding (s.port.outstanding.set place.val { e with abandoned := true })) e.request t source
    exact event_eq h.running (hbody.trans (State.requestEnded_timeout ho)) (hsame.calm (h.congr rfl rfl rfl)) hsame.todo
  · exact event_eq h.running (State.abandon_waits (s := s.begin) hx (x.expires_iff.mpr ⟨hdue, hleft⟩)) h.begin rfl

end Sys2Proof.Machine

namespace Sys2Proof.Machine

variable {words : List (Nat × Word)} {control : Nat} {lower es : List Aperture}

/-! ## The tests of a setup header (R131) -/

theorem overlap_iff (a sizeA b sizeB : Nat) : overlap a sizeA b sizeB = true ↔ a < b + sizeB ∧ b < a + sizeA := by
  unfold overlap
  rw [Bool.and_eq_true, decide_eq_true_eq, decide_eq_true_eq]

/-- The legal ring sizes are the powers of two from 16 to 4096. -/
theorem legalRing_iff (n : Nat) : legalRing n = true ↔ ∃ k : Fin 9, n = 2 ^ (k.val + 4) := by
  have hsizes : [16, 32, 64, 128, 256, 512, 1024, 2048, 4096] = (List.finRange 9).map fun k => 2 ^ (k.val + 4) := by
    decide
  unfold legalRing
  rw [List.contains_iff_mem, hsizes, List.mem_map]
  simp only [List.mem_finRange, true_and, eq_comm]

theorem not_legalRing_iff (n : Nat) : (!legalRing n) = true ↔ ¬ ∃ k : Fin 9, n = 2 ^ (k.val + 4) := by
  rw [Bool.not_eq_true', Bool.eq_false_iff, ne_eq, legalRing_iff]

/-! ## The validation of an aperture table (R103) -/

/-- The entries of `es` behind those of `lower` are the ones that their images give, in order. -/
def ValidatedFrom (words : List (Nat × Word)) (control : Nat) (lower es : List Aperture) : Prop :=
  es.take lower.length = lower ∧
    ∀ k, lower.length ≤ k → k < es.length → (parseAperture words k).validate control (es.take k) = es[k]?

theorem validatedFrom_nil : ValidatedFrom words control [] es ↔
    ∀ k < es.length, (parseAperture words k).validate control (es.take k) = es[k]? :=
  ⟨fun h k hk => h.2 k (Nat.zero_le k) hk, fun h => ⟨rfl, fun k _ hk => h k hk⟩⟩

theorem validatedFrom_same (h : es.length = lower.length) : ValidatedFrom words control lower es ↔ es = lower := by
  constructor
  · rintro ⟨hlower, -⟩
    rwa [← h, List.take_length] at hlower
  · rintro rfl
    exact ⟨List.take_length, fun k hle hlt => absurd hlt (Nat.not_lt.mpr hle)⟩

/-- The first entry behind those of `lower` is the one that its image gives. -/
theorem validatedFrom_step (h : lower.length < es.length) : ValidatedFrom words control lower es ↔
    ∃ a, (parseAperture words lower.length).validate control lower = some a ∧
      ValidatedFrom words control (lower ++ [a]) es := by
  have hget : es[lower.length]? = some es[lower.length] := List.getElem?_eq_getElem h
  have htake : es.take (lower.length + 1) = es.take lower.length ++ [es[lower.length]] := (List.take_append_getElem h).symm
  unfold ValidatedFrom
  simp only [List.length_append, List.length_singleton, htake]
  constructor
  · rintro ⟨hlower, hvalid⟩
    refine ⟨es[lower.length], ?_, by rw [hlower], fun k hle => hvalid k (Nat.le_of_succ_le hle)⟩
    rw [← hget, ← hvalid _ le_rfl h, hlower]
  · rintro ⟨a, ha, hlower, hvalid⟩
    obtain ⟨hlower, hlast⟩ := List.append_inj' hlower rfl
    refine ⟨hlower, fun k hle hlt => ?_⟩
    obtain rfl | hgt := hle.eq_or_lt
    · rw [hlower, ha, hget, List.singleton_inj.mp hlast]
    · exact hvalid k hgt hlt

/-- Validation goes on with the entry that the next image gives, or stops at it. -/
theorem validateFrom_succ (words : List (Nat × Word)) (control fuel : Nat) (lower : List Aperture) :
    ((parseAperture words lower.length).validate control lower = none →
      validateFrom words control (fuel + 1) lower = .error (lower.length + 1)) ∧
    ∀ a, (parseAperture words lower.length).validate control lower = some a →
      validateFrom words control (fuel + 1) lower = validateFrom words control fuel (lower ++ [a]) := by
  rw [validateFrom]
  exact ⟨fun h => by rw [h], fun a h => by rw [h]⟩

theorem validateFrom_eq_ok (fuel : Nat) (lower es : List Aperture) : validateFrom words control fuel lower = .ok es ↔
    es.length = lower.length + fuel ∧ ValidatedFrom words control lower es := by
  induction fuel generalizing lower with
  | zero =>
    rw [validateFrom, Except.ok.injEq]
    constructor
    · rintro rfl
      exact ⟨rfl, (validatedFrom_same rfl).mpr rfl⟩
    · rintro ⟨hlength, hvalid⟩
      exact ((validatedFrom_same hlength).mp hvalid).symm
  | succ fuel ih =>
    obtain ⟨hstops, hgoes⟩ := validateFrom_succ words control fuel lower
    have hstep (hlength : es.length = lower.length + (fuel + 1)) :=
      validatedFrom_step (words := words) (control := control) (lower := lower) (es := es) (by omega)
    cases hv : (parseAperture words lower.length).validate control lower with
    | none =>
      rw [hstops hv]
      refine ⟨nofun, fun ⟨hlength, hvalid⟩ => ?_⟩
      obtain ⟨a, ha, -⟩ := (hstep hlength).mp hvalid
      cases hv.symm.trans ha
    | some a =>
      rw [hgoes a hv, ih, List.length_append, List.length_singleton, Nat.add_right_comm, Nat.add_assoc]
      refine and_congr_right fun hlength => ?_
      rw [hstep hlength, hv]
      simp

/-- The index of an error is that of the first entry that fails, the first entry being 1. -/
theorem validateFrom_eq_error (fuel i : Nat) (lower : List Aperture) :
    validateFrom words control fuel lower = .error i ↔
      ∃ es : List Aperture, es.length + 1 = i ∧ lower.length ≤ es.length ∧ i ≤ lower.length + fuel ∧
        ValidatedFrom words control lower es ∧ (parseAperture words es.length).validate control es = none := by
  induction fuel generalizing lower with
  | zero =>
    rw [validateFrom]
    refine ⟨nofun, fun ⟨es, hi, hlower, hle, _⟩ => ?_⟩
    omega
  | succ fuel ih =>
    obtain ⟨hstops, hgoes⟩ := validateFrom_succ words control fuel lower
    cases hv : (parseAperture words lower.length).validate control lower with
    | none =>
      rw [hstops hv, Except.error.injEq]
      constructor
      · rintro rfl
        exact ⟨lower, rfl, le_rfl, by omega, (validatedFrom_same rfl).mpr rfl, hv⟩
      · rintro ⟨es, hi, hlower, -, hvalid, -⟩
        obtain hsame | hlt := hlower.eq_or_lt
        · omega
        · obtain ⟨a, ha, -⟩ := (validatedFrom_step hlt).mp hvalid
          cases hv.symm.trans ha
    | some a =>
      rw [hgoes a hv, ih]
      refine exists_congr fun es => and_congr_right fun hi => ?_
      rw [List.length_append, List.length_singleton, Nat.add_right_comm, Nat.add_assoc]
      constructor
      · rintro ⟨hlower, hle, hvalid, hfails⟩
        exact ⟨by omega, hle, (validatedFrom_step hlower).mpr ⟨a, hv, hvalid⟩, hfails⟩
      · rintro ⟨hlower, hle, hvalid, hfails⟩
        obtain hsame | hlt := hlower.eq_or_lt
        · obtain rfl := (validatedFrom_same hsame.symm).mp hvalid
          cases hv.symm.trans hfails
        · obtain ⟨b, hb, hvalid⟩ := (validatedFrom_step hlt).mp hvalid
          obtain rfl : a = b := Option.some.inj (hv.symm.trans hb)
          exact ⟨hlt, hle, hvalid, hfails⟩

/-! ## The validation of an aperture image (R103) -/

section Image

variable (a : ApertureImage)

theorem ApertureImage.rangeValid_iff : a.rangeValid = true ↔
    12 ≤ a.exponent.toNat ∧ a.exponent.toNat ≤ 31 ∧ a.base.toNat % 2 ^ a.exponent.toNat = 0 := by
  unfold ApertureImage.rangeValid
  rw [Bool.and_eq_true, Bool.and_eq_true, decide_eq_true_eq, decide_eq_true_eq, beq_iff_eq, and_assoc]

theorem ApertureImage.not_targetValid_iff (control : Nat) : ¬ a.targetValid control = true ↔
    a.target.toNat % 2 ^ a.exponent.toNat ≠ 0 ∨
      (a.target.toNat < control + 4096 ∧ control < a.target.toNat + 2 ^ a.exponent.toNat) := by
  unfold ApertureImage.targetValid
  rw [Bool.and_eq_true, Bool.not_eq_true', Bool.eq_false_iff, ne_eq, overlap_iff, beq_iff_eq]
  tauto

theorem any_tapLane_iff (n : LaneNo) : (lower.any fun x => x.tapLane == some n) = true ↔
    ∃ b y reads hold, Aperture.tap b y n reads hold ∈ lower := by
  rw [List.any_eq_true]
  constructor
  · rintro ⟨x, hx, hlane⟩
    cases x with
    | tap b y m reads hold =>
      obtain rfl : m = n := by simpa [Aperture.tapLane] using hlane
      exact ⟨b, y, reads, hold, hx⟩
    | _ => cases hlane
  · rintro ⟨b, y, reads, hold, hx⟩
    exact ⟨_, hx, by simp [Aperture.tapLane]⟩

theorem any_putLane_iff (n : LaneNo) : (lower.any fun x => x.putLane == some n) = true ↔
    ∃ b y, Aperture.put b y n ∈ lower := by
  rw [List.any_eq_true]
  constructor
  · rintro ⟨x, hx, hlane⟩
    cases x with
    | put b y m =>
      obtain rfl : m = n := by simpa [Aperture.putLane] using hlane
      exact ⟨b, y, hx⟩
    | _ => cases hlane
  · rintro ⟨b, y, hx⟩
    exact ⟨_, hx, by simp [Aperture.putLane]⟩

theorem laneOf_eq_none {b : Byte} (h : 15 < b.toNat) : laneOf b = none := by
  unfold laneOf
  rw [dif_neg (by omega)]

variable (control : Nat) (lower : List Aperture)

theorem ApertureImage.validate_invalid (h : a.kind = 0) : a.validate control lower = some .invalid := if_pos h

theorem ApertureImage.validate_unknown (h : 5 < a.kind.toNat) : a.validate control lower = none := by
  have hkind : a.kind ≠ 0 := fun h0 => absurd h (by rw [h0]; decide)
  unfold ApertureImage.validate
  rw [if_neg hkind, if_pos (by simp [h])]

theorem ApertureImage.validate_badRange (h : a.kind ≠ 0) (hr : a.rangeValid = false) :
    a.validate control lower = none := by
  unfold ApertureImage.validate
  rw [if_neg h, if_pos (by simp [hr])]

/-- A PUT, TAKE or TAP entry names a lane (R103). -/
theorem ApertureImage.validate_badLane (h : a.kind = 3 ∨ a.kind = 4 ∨ a.kind = 5) (hl : 15 < a.lane.toNat) :
    a.validate control lower = none := by
  unfold ApertureImage.validate
  rcases h with h | h | h <;> simp [h, laneOf_eq_none hl]

section Ranged

variable (hr : a.rangeValid = true)

include hr

theorem ApertureImage.validate_pass (h : a.kind = 1) : a.validate control lower =
    if a.target.toNat % 2 ^ a.exponent.toNat ≠ 0 ∨
      (a.target.toNat < control + 4096 ∧ control < a.target.toNat + 2 ^ a.exponent.toNat) then none
    else some (.pass a.base a.exponent.toNat a.target) := by
  have hpass : a.validate control lower =
      if a.targetValid control then some (.pass a.base a.exponent.toNat a.target) else none := by
    unfold ApertureImage.validate
    simp [h, hr]
  exact hpass.trans ((ite_not _ _ _).symm.trans (if_congr (a.not_targetValid_iff control) rfl rfl))

/-- A GUARD entry has a master in its mask and names a mode (R103). -/
theorem ApertureImage.validate_guard (h : a.kind = 2) : a.validate control lower =
    if a.mask = 0 then none
    else if a.guardMode = 1 then some (.guard a.base a.exponent.toNat .noWrite a.mask)
    else if a.guardMode = 2 then some (.guard a.base a.exponent.toNat .noRead a.mask)
    else if a.guardMode = 3 then some (.guard a.base a.exponent.toNat .noAccess a.mask)
    else none := by
  have hguard : a.validate control lower = (guardModeOf a.guardMode).bind fun m =>
      if a.mask = 0 then none else some (.guard a.base a.exponent.toNat m a.mask) := by
    unfold ApertureImage.validate
    simp only [h, hr]
    cases guardModeOf a.guardMode <;> rfl
  rw [hguard]
  unfold guardModeOf
  split_ifs <;> rfl

variable {n : LaneNo} (hl : a.lane.toNat = n.val)

include hl

/-- A PUT entry does not share its lane with a TAP entry of lower index (R103). -/
theorem ApertureImage.validate_put (h : a.kind = 3) :
    ((∃ b y reads hold, Aperture.tap b y n reads hold ∈ lower) → a.validate control lower = none) ∧
    ((∀ b y reads hold, Aperture.tap b y n reads hold ∉ lower) →
      a.validate control lower = some (.put a.base a.exponent.toNat n)) := by
  have hput : a.validate control lower =
      if lower.any fun x => x.tapLane == some n then none else some (.put a.base a.exponent.toNat n) := by
    unfold ApertureImage.validate
    simp [h, hr, laneOf_toNat hl]
  refine ⟨fun hin => hput.trans (if_pos ((any_tapLane_iff n).mpr hin)), fun hout => hput.trans (if_neg fun hin => ?_)⟩
  obtain ⟨b, y, reads, hold, hmem⟩ := (any_tapLane_iff n).mp hin
  exact hout b y reads hold hmem

theorem ApertureImage.validate_take (h : a.kind = 4) :
    a.validate control lower = some (.take a.base a.exponent.toNat n) := by
  unfold ApertureImage.validate
  simp [h, hr, laneOf_toNat hl]

/-- A TAP entry does not share its lane with a PUT entry of lower index (R103). -/
theorem ApertureImage.validate_tap (h : a.kind = 5) :
    ((∃ b y, Aperture.put b y n ∈ lower) → a.validate control lower = none) ∧
    ((∀ b y, Aperture.put b y n ∉ lower) → a.validate control lower =
      some (.tap a.base a.exponent.toNat n (a.options.getLsbD 0) (a.options.getLsbD 1))) := by
  have htap : a.validate control lower = if lower.any fun x => x.putLane == some n then none
      else some (.tap a.base a.exponent.toNat n (a.options.getLsbD 0) (a.options.getLsbD 1)) := by
    unfold ApertureImage.validate
    simp [h, hr, laneOf_toNat hl]
  refine ⟨fun hin => htap.trans (if_pos ((any_putLane_iff n).mpr hin)), fun hout => htap.trans (if_neg fun hin => ?_)⟩
  obtain ⟨b, y, hmem⟩ := (any_putLane_iff n).mp hin
  exact hout b y hmem

end Ranged

end Image

/-! ## The tests of a lane descriptor (R134) -/

/-- The offset of the first field of a descriptor that fails its test. -/
def DescriptorImage.failing (d : DescriptorImage) (poolCount : Nat) : Option Byte :=
  if ¬ (d.full = 1 ∨ d.full = 2 ∨ d.full = 3) then some 0x1
  else if ¬ (d.empty = 1 ∨ d.empty = 2) then some 0x2
  else if d.threshold.toNat < 1 ∨ 15 < d.threshold.toNat then some 0x3
  else if d.quota.toNat < 1 ∨ 4096 < d.quota.toNat ∨ poolCount < d.quota.toNat then some 0x4
  else if d.maxLength = 0 then some 0x6
  else if (d.full = 1 ∨ d.empty = 1) ∧ d.holdLimit = 0 then some 0x8
  else if d.ready = 0 then some 0xA
  else none

/-- The descriptor that an image gives whose fields pass. -/
def DescriptorImage.copy (d : DescriptorImage) : Descriptor :=
  { autoOpen := d.flags.getLsbD 0, autoRelease := d.flags.getLsbD 1,
    fullAction := if d.full = 1 then .hold else if d.full = 2 then .refuse else .evict,
    emptyAction := if d.empty = 1 then .hold else .fill,
    faultThreshold := d.threshold.toNat, quota := d.quota.toNat, maxLength := d.maxLength.toNat,
    holdLimit := d.holdLimit, readyThreshold := d.ready.toNat }

theorem fullActionOf_some {b : Byte} (h : b = 1 ∨ b = 2 ∨ b = 3) :
    fullActionOf b = some (if b = 1 then .hold else if b = 2 then .refuse else .evict) := by
  rcases h with rfl | rfl | rfl <;> rfl

theorem fullActionOf_none {b : Byte} (h : ¬ (b = 1 ∨ b = 2 ∨ b = 3)) : fullActionOf b = none := by
  obtain ⟨h1, h2, h3⟩ := not_or.mp h |>.imp_right not_or.mp
  unfold fullActionOf
  rw [if_neg h1, if_neg h2, if_neg h3]

theorem emptyActionOf_some {b : Byte} (h : b = 1 ∨ b = 2) :
    emptyActionOf b = some (if b = 1 then .hold else .fill) := by
  rcases h with rfl | rfl <;> rfl

theorem emptyActionOf_none {b : Byte} (h : ¬ (b = 1 ∨ b = 2)) : emptyActionOf b = none := by
  obtain ⟨h1, h2⟩ := not_or.mp h
  unfold emptyActionOf
  rw [if_neg h1, if_neg h2]

/-- A descriptor holds puts exactly where the code of its full action is 1. -/
theorem DescriptorImage.copy_fullAction_eq_hold (d : DescriptorImage) : d.copy.fullAction = .hold ↔ d.full = 1 := by
  show (if d.full = 1 then FullAction.hold else if d.full = 2 then .refuse else .evict) = .hold ↔ _
  split_ifs <;> simp_all

theorem DescriptorImage.copy_emptyAction_eq_hold (d : DescriptorImage) : d.copy.emptyAction = .hold ↔ d.empty = 1 := by
  show (if d.empty = 1 then EmptyAction.hold else .fill) = .hold ↔ _
  split_ifs <;> simp_all

theorem DescriptorImage.validate_eq (d : DescriptorImage) (poolCount : Nat) : d.validate poolCount =
    match d.failing poolCount with
    | some detail => .error detail
    | none => .ok d.copy := by
  unfold DescriptorImage.validate DescriptorImage.failing
  by_cases hfull : d.full = 1 ∨ d.full = 2 ∨ d.full = 3
  · have hf : fullActionOf d.full = some d.copy.fullAction := fullActionOf_some hfull
    rw [if_neg (not_not.mpr hfull), hf]
    by_cases hempty : d.empty = 1 ∨ d.empty = 2
    · have he : emptyActionOf d.empty = some d.copy.emptyAction := emptyActionOf_some hempty
      rw [if_neg (not_not.mpr hempty), he]
      simp only [d.copy_fullAction_eq_hold, d.copy_emptyAction_eq_hold]
      split_ifs <;> rfl
    · rw [if_pos hempty, emptyActionOf_none hempty]
  · rw [if_pos hfull, fullActionOf_none hfull]

end Sys2Proof.Machine

namespace Sys2Proof.Machine

variable {s : State} {c : Instr} {code : Byte} {w : CommandWrite} {n : LaneNo} {x : Command}

/-! ## Commands whose checks fail (R126, R128, R131) -/

/-- The first lane that is not CLOSED, by its number. -/
theorem State.firstNotClosed_eq (hn : (s.lane n).state ≠ .closed) (hbelow : ∀ m, m < n → (s.lane m).state = .closed) :
    s.firstNotClosed = some n.val := by
  refine List.find?_range_eq_some.mpr ⟨?_, List.mem_range.mpr n.isLt, fun k hk => ?_⟩
  · rw [Fin.ofNat_val_eq_self]
    simpa using hn
  · have hlt : k < 16 := hk.trans n.isLt
    have hclosed := hbelow ⟨k, hlt⟩ hk
    have hlane : Fin.ofNat 16 k = (⟨k, hlt⟩ : LaneNo) := Fin.ext (Nat.mod_eq_of_lt hlt)
    rw [hlane]
    simpa using hclosed

/-- LOAD SETUP begins only with every lane CLOSED (R131). -/
theorem State.beginCommand_loadSetup (hx : x.code = 1) (hn : (s.lane n).state ≠ .closed)
    (hbelow : ∀ m, m < n → (s.lane m).state = .closed) :
    s.beginCommand x = s.rejectCommand reasonLanesNotClosed (BitVec.ofNat 8 n.val) := by
  have hbegin : s.beginCommand x = s.beginLoadSetup := if_pos hx
  rw [hbegin]
  unfold State.beginLoadSetup
  rw [State.firstNotClosed_eq hn hbelow]

/-- A code outside the seven is no command (R126). -/
theorem State.beginCommand_unknown (hx : x.code = 0 ∨ 7 < x.code.toNat) :
    s.beginCommand x = s.rejectCommand reasonUnknownCommand 0 := by
  have hne {k : Byte} (hk : 1 ≤ k.toNat) (hk7 : k.toNat ≤ 7) : x.code ≠ k := by
    rintro rfl
    rcases hx with h0 | h7
    · rw [h0] at hk
      exact absurd hk (by decide)
    · omega
  have hlane : isLaneCode x.code = false := by
    unfold isLaneCode
    rcases hx with h0 | h7
    · rw [h0]
      rfl
    · simp only [Bool.and_eq_false_iff, decide_eq_false_iff_not]
      omega
  unfold State.beginCommand
  rw [if_neg (hne (k := codeLoadSetup) (by decide) (by decide)),
    if_neg (hne (k := codeLoadApertures) (by decide) (by decide)),
    if_neg (hne (k := codeWriteStatus) (by decide) (by decide)), if_neg (Bool.eq_false_iff.mp hlane)]

/-- A lane command names one of the sixteen lanes (R126). -/
theorem State.beginCommand_badLane (hx : isLaneCode x.code = true) (hl : 16 ≤ x.lane.toNat) :
    s.beginCommand x = s.rejectCommand reasonBadLaneNumber x.lane := by
  have hne {k : Byte} (hk : isLaneCode k = false) : x.code ≠ k := by
    rintro rfl
    exact absurd (hk.symm.trans hx) nofun
  unfold State.beginCommand
  rw [if_neg (hne (k := codeLoadSetup) (by decide)), if_neg (hne (k := codeLoadApertures) (by decide)),
    if_neg (hne (k := codeWriteStatus) (by decide)), if_pos hx, laneOf_eq_none hl]

/-- A command that is taken and rejected in the event that presents it, with no other waiting. -/
theorem exec_rejected {reason detail : Byte} (hx : s.presents c = some (commandTransaction s code w))
    (h : s.Decodes (commandTransaction s code w)) (hw : s.hold.waiter = none)
    (htake : s.begin.take (commandTransaction s code w) =
      (s.commandTaken code w s.cmd.work []).rejectCommand reason detail) :
    exec c s = .next (s.commandEnded code w 3 reason detail) := by
  have hreject : s.begin.take (commandTransaction s code w) =
      (s.commandTaken code w s.cmd.work []).completeCommand 3 reason detail :=
    htake.trans (State.rejectCommand_command rfl reason detail)
  have hends : s.begin.take (commandTransaction s code w) =
      (s.commandEnded code w 3 reason detail).schedule [.handover] := by
    rw [hreject, State.completeCommand_schedule rfl, State.commandTaken_completes]
  have hended := s.commandTaken_completes code w s.cmd.work 3 reason detail
  have hcalm : (s.commandEnded code w 3 reason detail).Calm :=
    hended ▸ State.completeCommand_calm (u := s.commandTaken code w s.cmd.work []) h.calm rfl rfl 3 reason detail
  have htodo : (s.commandEnded code w 3 reason detail).todo = [] := hended ▸ rfl
  have hwaiter : (s.commandEnded code w 3 reason detail).hold.waiter = none :=
    hended ▸ (State.completeCommand_waiter _ _ _).trans hw
  exact (exec_of_presents hx).trans
    (present_does h.calm h.free hends htodo (State.handover_does htodo hwaiter) (by decide) htodo hcalm)

section Taken

variable (hr : s.cmd.running = false) (ha : s.cmd.autoload = none) (hw : s.hold.waiter = none)
  (hx : s.presents c = some (commandTransaction s code w)) (h : s.Decodes (commandTransaction s code w))

include hr ha hw hx h

/-- A command that is rejected as it begins. -/
theorem exec_beginsRejected {reason detail : Byte} (hb : (s.commandTaken code w s.cmd.work []).beginCommand
      { code := code, lane := w.lane, flags := w.flags, ticket := w.ticket, master := w.master.zeroExtend 8 } =
      (s.commandTaken code w s.cmd.work []).rejectCommand reason detail) :
    exec c s = .next (s.commandEnded code w 3 reason detail) :=
  exec_rejected hx h hw ((State.take_command h hr).trans ((State.takeCommand_begin ha).trans hb))

theorem exec_badLane (hc : isLaneCode code = true) (hl : 16 ≤ w.lane.toNat) :
    exec c s = .next (s.commandEnded code w 3 0x08 w.lane) :=
  exec_beginsRejected hr ha hw hx h (State.beginCommand_badLane hc hl)

/-- A lane command whose lane is in the wrong state. -/
theorem exec_laneState (hc : isLaneCode code = true) (hl : w.lane.toNat = n.val)
    (hb : (s.commandTaken code w s.cmd.work []).beginLaneCommand code n =
      (s.commandTaken code w s.cmd.work []).rejectCommand reasonLaneState (s.lane n).state.code) :
    exec c s = .next (s.commandEnded code w 3 0x09 (s.lane n).state.code) :=
  exec_rejected hx h hw ((State.take_laneCommand h hr ha hc hl).trans hb)

end Taken

/-- The twelve tests of a setup header, in order (R131). -/
theorem SetupHeader.rejection_eq (h : SetupHeader) (control : Nat) : h.rejection control =
    let pool := h.poolBase.toNat
    let poolEnd := pool + 512 * h.poolCount
    let ring := h.ringBase.toNat
    let ringEnd := ring + 16 * h.ringEntries
    if h.magic ≠ 0xC4125E70 then some (0x02, 0x00)
    else if h.divider = 0 then some (0x02, 0x14)
    else if pool % 512 ≠ 0 then some (0x04, 0x04)
    else if h.poolCount < 16 ∨ 4096 < h.poolCount then some (0x04, 0x08)
    else if 2 ^ 32 < poolEnd then some (0x04, 0x08)
    else if pool < control + 4096 ∧ control < poolEnd then some (0x04, 0x04)
    else if h.poolCount < h.watermark then some (0x04, 0x0A)
    else if ring % 16 ≠ 0 then some (0x05, 0x10)
    else if ¬ ∃ k : Fin 9, h.ringEntries = 2 ^ (k.val + 4) then some (0x05, 0x0C)
    else if 2 ^ 32 < ringEnd then some (0x05, 0x0C)
    else if ring < control + 4096 ∧ control < ringEnd then some (0x05, 0x10)
    else if ring < poolEnd ∧ pool < ringEnd then some (0x05, 0x10)
    else none :=
  if_congr Iff.rfl rfl <| if_congr Iff.rfl rfl <| if_congr Iff.rfl rfl <| if_congr Iff.rfl rfl <|
    if_congr Iff.rfl rfl <| if_congr (overlap_iff _ _ _ _) rfl <| if_congr Iff.rfl rfl <| if_congr Iff.rfl rfl <|
    if_congr (not_legalRing_iff _) rfl <| if_congr Iff.rfl rfl <| if_congr (overlap_iff _ _ _ _) rfl <|
    if_congr (overlap_iff _ _ _ _) rfl rfl

/-- Settles O39: the rejections, and the tests of the three images. -/
theorem rejectedCommandsComplete : Obligations.RejectedCommandsComplete := by
  refine ⟨fun s w hr ha hw => ⟨fun code h hcode => ?_, fun h n hn hbelow => ?_, fun hl => ?_, fun n hl =>
    ⟨fun h hs => ?_, fun h hs => ?_, fun h ho hd => ?_⟩⟩, SetupHeader.rejection_eq,
    fun words control => ⟨fun es => ?_, fun i => ?_⟩, fun a control lower => ?_, fun d poolCount => ?_⟩
  · exact exec_beginsRejected hr ha hw rfl h (State.beginCommand_unknown hcode)
  · exact exec_beginsRejected hr ha hw rfl h (State.beginCommand_loadSetup rfl hn hbelow)
  · refine ⟨?_, ?_, ?_, ?_⟩ <;> exact fun h => exec_badLane hr ha hw rfl h (by decide) hl
  · exact exec_laneState hr ha hw rfl h (by decide) hl (if_neg hs)
  · exact exec_laneState hr ha hw rfl h (by decide) hl (if_neg hs)
  · exact exec_laneState hr ha hw rfl h (by decide) hl (if_neg (not_or.mpr ⟨ho, hd⟩))
  · rw [validateFrom_eq_ok, validatedFrom_nil, List.length_nil, Nat.zero_add]
    exact and_congr_right fun hlength => by rw [hlength]
  · rw [validateFrom_eq_error]
    simp only [validatedFrom_nil, List.length_nil, Nat.zero_add, Nat.zero_le, true_and]
  · have hvalid := a.rangeValid_iff.mpr
    exact ⟨a.validate_invalid control lower, a.validate_unknown control lower, fun hk hbad =>
      a.validate_badRange control lower hk (Bool.eq_false_iff.mpr (mt a.rangeValid_iff.mp hbad)),
      fun hk hrange => a.validate_pass control lower (hvalid hrange) hk,
      fun hk hrange => a.validate_guard control lower (hvalid hrange) hk, a.validate_badLane control lower,
      fun n hl hrange =>
        have hput := a.validate_put control lower (hvalid hrange) hl
        have htap := a.validate_tap control lower (hvalid hrange) hl
        ⟨fun hk => (hput hk).1, fun hk => (hput hk).2, a.validate_take control lower (hvalid hrange) hl,
          fun hk => (htap hk).1, fun hk => (htap hk).2⟩⟩
  · have hfields := d.validate_eq poolCount
    refine ⟨fun detail => ?_, fun hnone => ?_⟩
    · show _ ↔ d.failing poolCount = some detail
      rw [hfields]
      cases d.failing poolCount <;> simp
    · rw [hfields, show d.failing poolCount = none from hnone]
      rfl

end Sys2Proof.Machine

namespace Sys2Proof.Machine

variable {s u V : State} {w : NoticeWriter} {x : Notice} {more : List Notice}

/-! ## The choice of the next notice write (R140) -/

theorem satInc_eq (c : Half) : satInc c = if c = 65535 then 65535 else c + 1 := by
  unfold satInc
  split_ifs with h
  · exact h
  · rfl

theorem NoticeWriter.full_iff (w : NoticeWriter) : w.full = true ↔ (w.producer - w.consumer).toNat = w.entries :=
  beq_iff_eq

/-- A NOTICE_LOSS is due: a loss is counted, its kind enabled and the ring not full. -/
theorem NoticeWriter.reportsLoss_iff (w : NoticeWriter) : w.reportsLoss = true ↔
    w.loss ≠ 0 ∧ w.mask.getLsbD 10 = true ∧ ¬ (w.producer - w.consumer).toNat = w.entries := by
  unfold NoticeWriter.reportsLoss
  rw [Bool.and_eq_true, Bool.and_eq_true, bne_iff_ne, Bool.not_eq_true', Bool.eq_false_iff, ne_eq w.full,
    w.full_iff, and_assoc]
  rfl

/-- The write that the notice writer has begun. -/
def NoticeWriter.writing (w : NoticeWriter) (carried : Option Half) : NoticeWriter :=
  { w with write := some { carried := carried, left := 2, failed := false, stale := false } }

theorem NoticeWriter.choose_loss (hl : w.reportsLoss = true) (ns : List Notice) :
    w.choose ns = ({ w.writing (some w.loss) with waiting := ns }, w.requests w.lossNotice) := by
  cases ns <;> exact if_pos hl

section NoLoss

variable (hl : w.reportsLoss = false)

include hl

theorem NoticeWriter.choose_nil : w.choose [] = ({ w with waiting := [] }, []) := if_neg (Bool.eq_false_iff.mp hl)

/-- With a full ring the first pending notice is lost, and the choice made again. -/
theorem NoticeWriter.choose_lost (hf : w.full = true) :
    w.choose (x :: more) = ({ w with loss := satInc w.loss } : NoticeWriter).choose more :=
  (if_neg (Bool.eq_false_iff.mp hl)).trans (if_pos hf)

/-- Else the first pending notice is written. -/
theorem NoticeWriter.choose_first (hf : w.full = false) :
    w.choose (x :: more) = ({ w.writing none with waiting := x :: more }, w.requests x) :=
  (if_neg (Bool.eq_false_iff.mp hl)).trans (if_neg (Bool.eq_false_iff.mp hf))

end NoLoss

/-- The choice goes by the notices that it is made from, not by the pending list that it replaces. -/
theorem NoticeWriter.choose_setWaiting (ns : List Notice) : ∀ (w : NoticeWriter) (old : List Notice),
    ({ w with waiting := old } : NoticeWriter).choose ns = w.choose ns := by
  induction ns with
  | nil => exact fun _ _ => rfl
  | cons x more ih =>
    intro w old
    cases hl : w.reportsLoss with
    | true =>
      rw [NoticeWriter.choose_loss hl, NoticeWriter.choose_loss (by exact hl)]
      rfl
    | false =>
      cases hf : w.full with
      | true =>
        rw [NoticeWriter.choose_lost hl hf, NoticeWriter.choose_lost (by exact hl) (by exact hf)]
        exact ih { w with loss := satInc w.loss } old
      | false =>
        rw [NoticeWriter.choose_first hl hf, NoticeWriter.choose_first (by exact hl) (by exact hf)]
        rfl

/-- The block with the two writes of a notice begun. -/
def State.writesNotice (s : State) (carried : Option Half) (x : Notice) : State :=
  { s with
    notice := s.notice.writing carried
    port := { s.port with noticeQ := s.port.noticeQ ++ s.notice.requests x } }

theorem State.chooseNotice_busy (h : s.notice.write ≠ none) : s.chooseNotice = s :=
  if_pos (Option.isSome_iff_ne_none.mpr h)

section Idle

variable (h : s.notice.write = none)

include h

theorem State.chooseNotice_idle : s.chooseNotice = { s with
    notice := (s.notice.choose s.notice.waiting).1
    port := { s.port with noticeQ := s.port.noticeQ ++ (s.notice.choose s.notice.waiting).2 } } :=
  if_neg (by simp [h])

theorem State.chooseNotice_loss (hl : s.notice.reportsLoss = true) :
    s.chooseNotice = s.writesNotice (some s.notice.loss) s.notice.lossNotice := by
  rw [State.chooseNotice_idle h, NoticeWriter.choose_loss hl]
  rfl

variable (hl : s.notice.reportsLoss = false)

include hl

theorem State.chooseNotice_none (hw : s.notice.waiting = []) : s.chooseNotice = s := by
  have hsame : ({ s.notice with waiting := [] } : NoticeWriter) = s.notice := by rw [← hw]
  rw [State.chooseNotice_idle h, hw, NoticeWriter.choose_nil hl, hsame, List.append_nil]

theorem State.chooseNotice_lost (hw : s.notice.waiting = x :: more) (hf : s.notice.full = true) : s.chooseNotice =
    State.chooseNotice { s with notice := { s.notice with waiting := more, loss := satInc s.notice.loss } } := by
  have hchoose : s.notice.choose (x :: more) =
      ({ s.notice with waiting := more, loss := satInc s.notice.loss } : NoticeWriter).choose more :=
    (NoticeWriter.choose_lost hl hf).trans (NoticeWriter.choose_setWaiting more _ more).symm
  rw [State.chooseNotice_idle h, hw, hchoose, State.chooseNotice_idle (by exact h)]

theorem State.chooseNotice_first (hw : s.notice.waiting = x :: more) (hf : s.notice.full = false) :
    s.chooseNotice = s.writesNotice none x := by
  rw [State.chooseNotice_idle h, hw, NoticeWriter.choose_first hl hf, ← hw]
  rfl

end Idle

/-! ## A notice is produced (R138) -/

theorem State.produce_masked (h : s.notice.enables x.kind = false) : s.produce x = s := if_pos (by simp [h])

section Enabled

variable (h : s.notice.enables x.kind = true)

include h

/-- A notice is lost where there is no ring, or eight are pending. -/
theorem State.produce_lost (hl : s.notice.entries = 0 ∨ 8 ≤ s.notice.waiting.length) :
    s.produce x = { s with notice := { s.notice with loss := satInc s.notice.loss } } :=
  (if_neg (by simp [h])).trans (if_pos ((Bool.or_eq_true _ _).mpr (hl.imp beq_iff_eq.mpr decide_eq_true)))

theorem State.produce_joins (he : s.notice.entries ≠ 0) (hl : s.notice.waiting.length < 8) : s.produce x =
    State.chooseNotice { s with notice := { s.notice with waiting := s.notice.waiting ++ [x] } } :=
  (if_neg (by simp [h])).trans (if_neg fun hlost => ((Bool.or_eq_true _ _).mp hlost).elim
    (fun hnone => he (beq_iff_eq.mp hnone)) fun hfull => absurd (of_decide_eq_true hfull) (Nat.not_le.mpr hl))

end Enabled

/-- The fields of the first word of a notice record (12.7). -/
theorem noticeWord0_fields (x : Notice) (sequence : Half) :
    byteOf (noticeWord0 x sequence) 0 = BitVec.ofNat 8 x.kind.code ∧ byteOf (noticeWord0 x sequence) 1 = x.source ∧
    byteOf (noticeWord0 x sequence) 2 = x.reason ∧ byteOf (noticeWord0 x sequence) 3 = x.master ∧
    halfOf (noticeWord0 x sequence) 4 = sequence ∧ halfOf (noticeWord0 x sequence) 6 = x.value16 := by
  obtain ⟨h0, h2, h4, h6⟩ := halfOf_packHalves (packPair (BitVec.ofNat 8 x.kind.code) x.source)
    (packPair x.reason x.master) sequence x.value16
  obtain ⟨hkind, hsource⟩ := extract_packPair (BitVec.ofNat 8 x.kind.code) x.source
  obtain ⟨hreason, hmaster⟩ := extract_packPair x.reason x.master
  have hbyte := fun k j hj => byteOf_halfOf (noticeWord0 x sequence) k j hj
  exact ⟨(hbyte 0 0 (by omega)).trans ((congrArg _ h0).trans hkind),
    (hbyte 0 1 (by omega)).trans ((congrArg _ h0).trans hsource),
    (hbyte 2 0 (by omega)).trans ((congrArg _ h2).trans hreason),
    (hbyte 2 1 (by omega)).trans ((congrArg _ h2).trans hmaster), h4, h6⟩

/-! ## The replacement of the aperture table and the end of the freeze (R104 to R106) -/

/-- The owners whose requests do not delay a replacement (R105). -/
theorem Owner.systemDerived_eq_false (o : Owner) : o.systemDerived = false ↔
    (∃ offset ticket, o = .imageRead offset ticket) ∨ (∃ ticket, o = .responseWrite ticket) ∨ o = .noticeWrite ∨
      ∃ i, o = .statusWrite i := by
  cases o <;> simp [Owner.systemDerived]

theorem State.systemQuiet_iff (s : State) : s.systemQuiet = true ↔
    s.port.systemQ = [] ∧ ∀ x ∈ s.port.outstanding, x.abandoned = true ∨ x.request.owner.systemDerived = false := by
  unfold State.systemQuiet
  simp only [Bool.and_eq_true, List.isEmpty_iff, List.all_eq_true, Bool.or_eq_true, Bool.not_eq_true']

variable {table : Vector Aperture 23}

/-- The block with its aperture table replaced and its loss runs clear (R105). -/
def State.withTable (s : State) (table : Vector Aperture 23) : State :=
  { s with dec := { s.dec with entries := table, runs := Vector.replicate 23 .clear } }

/-- A replacement that is due puts the table in force and ends LOAD APERTURES; a hand-over and the end of the freeze
follow. -/
theorem State.replaceTest_due (hw : s.cmd.work = .freezing table) (hz : s.sys.freeze = true)
    (hq : s.systemQuiet = true) (ha : s.cmd.autoload = none) (ht : s.todo = []) :
    s.replaceTest = ((s.withTable table).completed 2 0 0).schedule [.handover, .thaw] := by
  have hdone : (s.withTable table).commandDone = ((s.withTable table).completed 2 0 0).schedule [.handover] :=
    (State.commandDone_command (by exact ha)).trans (State.completeCommand_schedule (by exact ht) 2 0 0)
  have htest : s.replaceTest = (s.withTable table).commandDone.schedule [.thaw] := by
    unfold State.replaceTest
    rw [hw]
    exact if_pos (by simp [hz, hq])
  rw [htest, hdone, State.schedule_schedule]
  rfl

/-- The block with decode thawed and the frozen list empty (R106). -/
def State.unfrozen (s : State) : State :=
  { s with sys := { s.sys with freeze := false }, dec := { s.dec with frozen := [] } }

/-- The requests of transactions that pass through, in their order. -/
def passedThrough (xs : List Transaction) : List MemRequest := xs.map fun x => forwardRequest x x.address 0xFF none

theorem State.requestAll_nil (s : State) : s.requestAll [] = s := by
  unfold State.requestAll
  rw [List.append_nil]

theorem State.requestAll_first (h : s.port.systemQ = []) (rs : List MemRequest) :
    s.requestAll rs = { s with port := { s.port with systemQ := rs } } := by
  unfold State.requestAll
  rw [h, List.nil_append]

theorem State.request_requestAll (s : State) (r : MemRequest) (rs : List MemRequest) :
    (s.request r).requestAll rs = s.requestAll (r :: rs) := by
  unfold State.request State.requestAll
  simp only [List.append_assoc, List.singleton_append]

/-- Transactions that no entry matches pass through one after the other. -/
theorem State.decodes_does (xs : List Transaction) : ∀ V : State, V.todo = [] →
    (∀ x ∈ xs, V.inControl x.address = false ∧ V.dec.guarded x.address = false ∧ V.dec.firstMatch x = none) →
    V.Does xs.length (xs.map .decode) (V.requestAll (passedThrough xs)) := by
  induction xs with
  | nil =>
    intro V _ _
    show V.Does 0 [] (V.requestAll [])
    rw [State.requestAll_nil]
    exact .nil V
  | cons x xs ih =>
    intro V ht hpass
    obtain ⟨hc, hg, hn⟩ := hpass x List.mem_cons_self
    have hrest := ih (V.forward x x.address 0xFF) ht fun y hy => hpass y (List.mem_cons_of_mem x hy)
    rw [State.forward, State.request_requestAll] at hrest
    exact State.Does.step (State.decode_passes hc hg hn) ht hrest

/-- What follows the replacement with no command waiting, where the frozen transactions pass through: the freeze lifts,
and they are decoded, oldest first. -/
theorem State.thaw_does (ht : V.todo = []) (hw : V.hold.waiter = none)
    (hpass : ∀ x ∈ V.dec.frozen, V.inControl x.address = false ∧ V.dec.guarded x.address = false ∧
      V.dec.firstMatch x = none) :
    V.Does (V.dec.frozen.length + 2) [.handover, .thaw] (V.unfrozen.requestAll (passedThrough V.dec.frozen)) := by
  have hdecodes := State.decodes_does V.dec.frozen V.unfrozen ht hpass
  have hthaw : V.Does (V.dec.frozen.length + 1) [.thaw] (V.unfrozen.requestAll (passedThrough V.dec.frozen)) :=
    State.Does.cons (u := V.unfrozen) rfl ht (by rwa [List.append_nil])
  exact State.Does.step (State.handover_none hw) ht hthaw

theorem State.completed_calm (hr : s.rst = false) (hp : s.sys.presented = []) (outcome reason detail : Byte) :
    (s.completed outcome reason detail).Calm := by
  unfold State.completed
  rw [State.completeCommand_eq]
  exact ⟨hr, hp, nofun⟩

/-- The end of a command leaves the ports and the decoder alone. -/
theorem State.completed_frame (s : State) (outcome reason detail : Byte) :
    (s.completed outcome reason detail).sys = s.sys ∧ (s.completed outcome reason detail).dec = s.dec ∧
      (s.completed outcome reason detail).hold = s.hold := by
  unfold State.completed
  rw [State.completeCommand_eq]
  exact ⟨rfl, rfl, rfl⟩

theorem State.thawed_completed (s : State) (outcome reason detail : Byte) :
    (s.completed outcome reason detail).thawed =
      { s.completed outcome reason detail with sys := { s.sys with freeze := false } } := by
  unfold State.thawed
  rw [(s.completed_frame outcome reason detail).1]

/-- APERTURE_REPLACEMENT that is due, with nothing frozen. -/
theorem exec_replaces (hr : s.rst = false) (hp : s.sys.presented = []) (hz : s.sys.freeze = true)
    (hw : s.cmd.work = .freezing table) (hq : s.systemQuiet = true) (ha : s.cmd.autoload = none)
    (hwaiter : s.hold.waiter = none) (hf : s.dec.frozen = []) :
    exec .apertureReplacement s = .next ((s.begin.withTable table).completed 2 0 0).thawed := by
  obtain ⟨-, hdec, hhold⟩ := (s.begin.withTable table).completed_frame 2 0 0
  have hdoes : ((s.begin.withTable table).completed 2 0 0).Does 2 [.handover, .thaw]
      ((s.begin.withTable table).completed 2 0 0).thawed :=
    State.Does.step (State.handover_none (by rw [hhold]; exact hwaiter)) rfl
      (State.Does.step (State.thaw_none (by rw [hdec]; exact hf)) rfl (.nil _))
  have hcalm := State.completed_calm (s := s.begin.withTable table) hr hp 2 0 0
  exact event_does hr (State.replaceTest_due (s := s.begin) hw hz hq ha rfl) rfl hdoes (by decide)
    (hcalm.congr rfl rfl rfl)

/-- APERTURE_REPLACEMENT before the accesses that delay it have ended. -/
theorem exec_replacementWaits (hr : s.rst = false) (hp : s.sys.presented = []) (hq : s.systemQuiet = false) :
    exec .apertureReplacement s = .next s.begin := by
  have hwaits : s.begin.replaceTest = s.begin := State.replaceTest_waits hq
  exact event_replaces hr hwaits rfl (by rw [hwaits]; exact State.settle_of_todo rfl) hp

/-- The oldest request, which is not abandoned, ends with the response. -/
theorem State.memoryResponse_oldest {old : Outstanding} {rest : List Outstanding}
    (h : s.port.outstanding = old :: rest) (ha : old.abandoned = false) (m : MemResponse) :
    s.begin.memoryResponse m = (s.ended rest).requestEnded old.request (outcomeOf m) := by
  unfold State.memoryResponse
  rw [show s.begin.port.outstanding = old :: rest from h]
  exact if_neg (by simp [ha])

/-- The block after LOAD APERTURES has ended in the event that replaces the table, with decode thawed and the frozen
transactions `frozen` passed through (R105, R106). -/
def State.tableReplaced (s : State) (table : Vector Aperture 23) : State :=
  (((s.withTable table).commandOver 2 0 0).unfrozen).requestAll (passedThrough s.dec.frozen)

theorem State.tableReplaced_eq (h : s.port.systemQ = []) (table : Vector Aperture 23) : s.tableReplaced table =
    { ((s.withTable table).commandOver 2 0 0).unfrozen with
      port := { ((s.withTable table).commandOver 2 0 0).port with systemQ := passedThrough s.dec.frozen } } :=
  State.requestAll_first (s := ((s.withTable table).commandOver 2 0 0).unfrozen) h _

/-- A replacement that is due, of a command without NOTIFY, done to the end. -/
theorem State.replaceTest_settles (hw : s.cmd.work = .freezing table) (hz : s.sys.freeze = true)
    (hq : s.systemQuiet = true) (ha : s.cmd.autoload = none) (hn : s.cmd.current.flags.getLsbD 0 = false)
    (ht : s.todo = []) (hwaiter : s.hold.waiter = none) (hlen : s.dec.frozen.length ≤ 4094)
    (hpass : ∀ x ∈ s.dec.frozen, s.inControl x.address = false ∧ (s.withTable table).dec.guarded x.address = false ∧
      (s.withTable table).dec.firstMatch x = none) : s.replaceTest.settle = s.tableReplaced table := by
  have hsilent : (s.withTable table).completed 2 0 0 = (s.withTable table).commandOver 2 0 0 := by
    unfold State.completed
    rw [State.completeCommand_silent (s := s.withTable table) ha hn ht]
    exact State.todo_nil (s := (s.withTable table).commandOver 2 0 0) ht
  have hdoes := State.thaw_does (V := (s.withTable table).commandOver 2 0 0) ht hwaiter hpass
  rw [State.replaceTest_due hw hz hq ha ht, hsilent]
  exact State.Does.settle (by exact ht) hdoes (Nat.add_le_add_right hlen 2)

/-- The end of the last access that delays a replacement: it is answered, and the replacement is made. -/
theorem exec_passThroughEnd_replaces {old : Outstanding} {t : Transaction} {source : Byte} {d : Word}
    (hr : s.rst = false) (hp : s.sys.presented = []) (hz : s.sys.freeze = true) (hw : s.cmd.work = .freezing table)
    (ha : s.cmd.autoload = none) (hn : s.cmd.current.flags.getLsbD 0 = false) (hwaiter : s.hold.waiter = none)
    (hout : s.port.outstanding = [old]) (hqueue : s.port.systemQ = []) (hold : old.abandoned = false)
    (ho : old.request.owner = .forward t source none) (hlen : s.dec.frozen.length ≤ 8)
    (hpass : ∀ x ∈ s.dec.frozen, s.inControl x.address = false ∧ (s.withTable table).dec.guarded x.address = false ∧
      (s.withTable table).dec.firstMatch x = none) :
    exec (.passThroughEnd (.ok d)) s = .next (((s.ended []).answer t.tag false
      (if t.direction = .read then maskWord (laneEnables t) d else 0)).tableReplaced table) := by
  have hends : s.begin.memoryResponse (.ok d) = (s.ended []).answer t.tag false
      (if t.direction = .read then maskWord (laneEnables t) d else 0) :=
    (State.memoryResponse_oldest hout hold _).trans
      ((State.requestEnded_forward (.ok d) ho).trans (State.answerOk_eq _ t d))
  have hquiet : ((s.ended []).answer t.tag false
      (if t.direction = .read then maskWord (laneEnables t) d else 0)).systemQuiet = true :=
    (State.systemQuiet_iff _).mpr ⟨hqueue, nofun⟩
  exact event_replaces (body := fun u => u.memoryResponse (.ok d)) hr hends rfl
    (State.replaceTest_settles hw hz hquiet ha hn rfl hwaiter (hlen.trans (by decide)) hpass) hp

/-! ## The rows of the notice writer and the status writer (R140, R147, R148) -/

/-- NOTICE_WRITE chooses the oldest pending notice. -/
theorem exec_noticeWrite (h : s.Calm) (hw : s.notice.write = none) (hwaiting : s.notice.waiting = x :: more)
    (hl : s.notice.reportsLoss = false) (hf : s.notice.full = false) :
    exec .noticeWrite s = .next (s.begin.writesNotice none x) :=
  event_eq h.running (State.chooseNotice_first (s := s.begin) hw hl hwaiting hf) (h.congr rfl rfl rfl) rfl

/-- The write-back that was marked to follow begins; no WRITE STATUS waits for it. -/
theorem State.dueWriteBack_follows (hi : s.status.inProgress = false) (hf : s.status.followOn = true)
    (hw : s.cmd.work ≠ .status true) :
    s.dueWriteBack = State.beginWriteBack { s with status := { s.status with followOn := false } } := by
  have hbegin : s.dueWriteBack = s.beginFollowOn := (if_neg (by simp [hi])).trans (if_pos hf)
  rw [hbegin]
  unfold State.beginFollowOn
  dsimp only
  rw [if_neg (by simpa using hw)]

/-- The generation end write is created when the other 73 have ended. -/
theorem State.generationTest_due (hi : s.status.inProgress = true) (hl : s.status.left = 0)
    (hq : s.port.statusQ = []) (ho : ∀ e ∈ s.port.outstanding, e.request.owner ≠ .statusWrite 74) :
    s.generationTest = { s with port := { s.port with statusQ := [74] } } := by
  have hnone : s.endCreated = false := by
    unfold State.endCreated
    rw [hq, Bool.or_eq_false_iff]
    exact ⟨rfl, List.any_eq_false.mpr fun e he => by simp [ho e he]⟩
  have hdue : s.generationTest = { s with port := { s.port with statusQ := s.port.statusQ ++ [74] } } :=
    if_pos (by simp [hi, hl, hnone])
  rw [hdue, hq]
  rfl

/-- Settles O56: the rows, the replacement in the event of the last access, and the notice writer's two operations. -/
theorem unitStepsComplete : Obligations.UnitStepsComplete := by
  refine ⟨fun s table hr hp hz hw => ⟨fun hq ha hwaiter hf => ?_, exec_replacementWaits hr hp⟩,
    fun s h => ⟨fun n rest hw hwaiting hloss hf => ?_, fun hi hf hw => ?_, fun hi hl hq ho => ?_⟩,
    fun s table r old t source d hr hp hz hw ha hn hwaiter hout hqueue hold hreq ho hlen => ?_,
    fun s => ?_, fun s x => ?_, fun s => ?_⟩
  · exact (exec_replaces hr hp hz hw hq ha hwaiter hf).trans (congrArg _ (State.thawed_completed _ 2 0 0))
  · have hl : s.notice.reportsLoss = false := by simp [NoticeWriter.reportsLoss, hloss]
    exact exec_noticeWrite h hw hwaiting hl hf
  · exact event_eq h.running (State.dueWriteBack_follows (s := s.begin) hi hf hw) (h.congr rfl rfl rfl) rfl
  · exact event_eq h.running (State.generationTest_due (s := s.begin) hi hl hq ho) (h.congr rfl rfl rfl) rfl
  · intro dec hpass
    subst hreq
    rw [exec_passThroughEnd_replaces hr hp hz hw ha hn hwaiter hout hqueue hold ho hlen hpass,
      State.tableReplaced_eq (by exact hqueue)]
    rfl
  · rw [s.systemQuiet_iff]
    simp only [Owner.systemDerived_eq_false]
  · intro bit
    have hkind : x.kind.code = bit + 1 := by
      unfold bit
      cases x.kind <;> rfl
    have henables : s.notice.enables x.kind = s.notice.mask.getLsbD bit := by
      unfold NoticeWriter.enables
      rw [hkind, Nat.add_sub_cancel]
    rw [← henables, ← satInc_eq, ← hkind]
    obtain ⟨hvalue, haddress⟩ : quadOf (noticeWord1 x) 4 = x.value32 ∧ quadOf (noticeWord1 x) 0 = x.address :=
      ⟨quadOf_packQuads_high _ _, quadOf_packQuads_low _ _⟩
    refine ⟨State.produce_masked, State.produce_lost, State.produce_joins, fun sequence => ?_⟩
    obtain ⟨h0, h1, h2, h3, h4, h6⟩ := noticeWord0_fields x sequence
    exact ⟨h0, h1, h2, h3, h4, h6, haddress, hvalue⟩
  · intro full lossDue slot writes
    have hfull : s.notice.full = true ↔ full := s.notice.full_iff
    have hdue : s.notice.reportsLoss = true ↔ lossDue := s.notice.reportsLoss_iff
    have hnone (hl : ¬ lossDue) : s.notice.reportsLoss = false := Bool.eq_false_iff.mpr (mt hdue.mp hl)
    refine ⟨State.chooseNotice_busy, fun h hl => State.chooseNotice_loss h (hdue.mpr hl),
      fun h hl => State.chooseNotice_none h (hnone hl), fun x more h hl hw => ⟨fun hf => ?_, fun hf => ?_⟩⟩
    · rw [← satInc_eq]
      exact State.chooseNotice_lost h (hnone hl) hw (hfull.mpr hf)
    · exact State.chooseNotice_first h (hnone hl) hw (Bool.eq_false_iff.mpr (mt hfull.mp hf))

end Sys2Proof.Machine

namespace Sys2Proof.Machine

/-! ## The four rows of R118's table: the loss-run state of a TAP entry -/

section LossRuns
variable {s : State} {e : PutEntry} (n : LaneNo)

/-- The run starts: the count is 1, and the notice RUN_START is produced with the new run in the state. -/
theorem State.captureLost_clear (h : s.dec.runs[e.entry.val].running = false) :
    s.captureLost n e = State.produce { s with dec := { s.dec with
      tapLost := s.dec.tapLost + 1
      runs := s.dec.runs.set e.entry.val { running := true, count := 1 } } }
      (tapLossNotice e n reasonRunStart 1) := by
  simp [State.captureLost, h]

theorem State.captureLost_running (h : s.dec.runs[e.entry.val].running = true) :
    s.captureLost n e = { s with dec := { s.dec with
      tapLost := s.dec.tapLost + 1
      runs := s.dec.runs.set e.entry.val { running := true, count := s.dec.runs[e.entry.val].count + 1 } } } := by
  simp [State.captureLost, h]

theorem State.capturePlaced_clear (h : s.dec.runs[e.entry.val].running = false) : s.capturePlaced n e = s :=
  if_neg (by simp [h])

/-- The run ends: RUN_END carries the count from before it was cleared. -/
theorem State.capturePlaced_running (h : s.dec.runs[e.entry.val].running = true) :
    s.capturePlaced n e = State.produce { s with dec := { s.dec with runs := s.dec.runs.set e.entry.val .clear } }
      (tapLossNotice e n reasonRunEnd s.dec.runs[e.entry.val].count) :=
  if_pos h

end LossRuns

/-- Settles O47, by the run flag before the event: each of its two values has a row for a loss and for a placement. -/
theorem tapLossRuns : Obligations.TapLossRuns := by
  intro s n e run notice lost
  refine ⟨fun hclear => ⟨?_, ?_⟩, fun hset => ⟨?_, ?_⟩⟩
  · exact State.captureLost_clear n hclear
  · exact State.capturePlaced_clear n hclear
  · exact State.captureLost_running n hset
  · exact State.capturePlaced_running n hset

end Sys2Proof.Machine

namespace Sys2Proof.Machine

variable {s u : State} {c : Instr} {code : Byte} {w : CommandWrite} {n : LaneNo} {x : Command}

/-! ## The rise of RST_N (R123, R167) -/

/-- RST_N rises in an event that does no more than the rise itself. -/
theorem exec_resetRelease {cfgb : BitVec 8} {autold : Bool} (hr : s.rst = true)
    (hu : s.begin.releaseReset cfgb autold = u) (hc : u.Calm) (ht : u.todo = []) :
    exec (.resetRelease cfgb autold) s = .next u := by
  subst hu
  exact (if_pos hr).trans (congrArg Host.Outcome.next (State.finish_of_calm hc ht))

/-- Settles O6: with AUTOLD low the straps are all there is; with AUTOLD high the unit's work becomes image reading. -/
theorem resetReleaseCompletes : Obligations.ResetReleaseCompletes := by
  intro s cfgb hr hp hw
  exact ⟨exec_resetRelease hr rfl ⟨rfl, hp, hw⟩ rfl, exec_resetRelease hr rfl ⟨rfl, hp, nofun⟩ rfl⟩

/-! ## The write of the consumer index (R122, R143) -/

/-- The block with another notice writer. -/
def State.withNotice (s : State) (notice : NoticeWriter) : State := { s with notice := notice }

theorem State.sameWork_withNotice (s : State) (notice : NoticeWriter) : s.SameWork (s.withNotice notice) :=
  ⟨rfl, rfl, rfl, rfl, rfl, rfl, rfl, rfl⟩

theorem State.sameWork_chooseNotice (s : State) : s.SameWork s.chooseNotice := by
  constructor <;> simp

/-- A consumer index is a matter of the notice writer. -/
theorem State.sameWork_consumerWrite (s : State) (value : Quad) : s.SameWork (s.consumerWrite value) := by
  unfold State.consumerWrite
  dsimp only
  split_ifs
  · exact .refl s
  · exact (s.sameWork_withNotice _).trans (State.sameWork_chooseNotice _)
  · exact s.sameWork_withNotice _

/-- The consumer index lies in the byte lanes 0 to 3 of its write. -/
theorem firstLane_consumerTransaction (s : State) (master : BitVec 4) (tag : Tag) (value : Quad) :
    firstLane (consumerTransaction s master tag value) = 0 := by
  show (s.controlAddress 0x810).toNat % 8 = 0
  unfold State.controlAddress
  rw [BitVec.toNat_add, BitVec.toNat_shiftLeft, Nat.shiftLeft_eq, BitVec.toNat_ofNat]
  omega

/-- The write of the whole consumer index is forwarded, and its value handed to the notice writer. -/
theorem State.decode_consumerTransaction (s : State) (master : BitVec 4) (tag : Tag) (value : Quad) :
    s.decode (consumerTransaction s master tag value) =
      (s.request (forwardRequest (consumerTransaction s master tag value) (s.controlAddress 0x810) 0 none)).consumerWrite
        value := by
  have hoffset : s.controlOffset (consumerTransaction s master tag value).address = 0x810 :=
    s.controlOffset_address (by decide)
  have hvalue : quadOf (consumerTransaction s master tag value).data
      (firstLane (consumerTransaction s master tag value)) = value := by
    rw [firstLane_consumerTransaction]
    exact quadOf_packQuads_low value 0
  have hin : s.inControl (consumerTransaction s master tag value).address = true := s.inControl_address (by decide)
  rw [State.decode_control hin]
  unfold State.control
  rw [hoffset, hvalue]
  rfl

/-- Settles O36: decode forwards the write and hands its value over, and nothing is noted. -/
theorem noticeConsumerIndexCompletes : Obligations.NoticeConsumerIndexCompletes := by
  intro s master tag value h
  exact exec_decoded rfl h ((s.begin.occupy _).decode_consumerTransaction master tag value)
    ((State.sameWork_request _ _).trans (State.sameWork_consumerWrite _ value))

/-! ## Commands that are taken and go on (R124) -/

/-- A command that the IDLE unit takes, in an event that begins its work and no more. -/
theorem exec_begins (hr : s.cmd.running = false) (ha : s.cmd.autoload = none)
    (hx : s.presents c = some (commandTransaction s code w)) (h : s.Decodes (commandTransaction s code w))
    (hb : (s.commandTaken code w s.cmd.work []).beginCommand
      { code := code, lane := w.lane, flags := w.flags, ticket := w.ticket, master := w.master.zeroExtend 8 } = u)
    (hc : u.Calm) (ht : u.todo = []) : exec c s = .next u :=
  exec_commandWord hx h ((State.take_command h hr).trans ((State.takeCommand_begin ha).trans hb)) ht hc

/-! ## Commands that read images (R129, R131, R133, R134) -/

/-- The block after a command that reads the images at `offsets` has been taken. -/
def State.imagesTaken (s : State) (code : Byte) (w : CommandWrite) (offsets : List Nat) : State :=
  s.commandTaken code w (.images offsets.length [] none) (offsets.map fun o =>
    wordRequest (.imageRead o w.ticket) (w.master.zeroExtend 8) (s.controlAddress o) false 0)

/-- The image reads of a command go behind its IN_PROGRESS response word. -/
theorem State.commandTaken_readImages (s : State) (code : Byte) (w : CommandWrite) (work : CommandWork)
    (offsets : List Nat) : (s.commandTaken code w work []).readImages offsets = s.imagesTaken code w offsets := by
  unfold State.readImages State.imagesTaken State.commandTaken State.commandRequests
  simp only [List.append_assoc, List.singleton_append]
  rfl

theorem exec_readsImages (hr : s.cmd.running = false) (ha : s.cmd.autoload = none)
    (hx : s.presents c = some (commandTransaction s code w)) (h : s.Decodes (commandTransaction s code w))
    {offsets : List Nat} (hb : (s.commandTaken code w s.cmd.work []).beginCommand
      { code := code, lane := w.lane, flags := w.flags, ticket := w.ticket, master := w.master.zeroExtend 8 } =
      (s.commandTaken code w s.cmd.work []).readImages offsets) :
    exec c s = .next (s.imagesTaken code w offsets) :=
  exec_begins hr ha hx h (hb.trans (s.commandTaken_readImages code w _ offsets))
    ⟨h.calm.running, h.calm.presented, nofun⟩ rfl

theorem State.firstNotClosed_of_allClosed (h : s.allClosed) : s.firstNotClosed = none := by
  unfold State.firstNotClosed
  rw [List.find?_eq_none]
  intro i _
  simpa using h (Fin.ofNat 16 i)

/-- LOAD SETUP reads the setup header once every lane is CLOSED (R131). -/
theorem State.beginCommand_readsSetup (hx : x.code = 1) (h : s.allClosed) :
    s.beginCommand x = s.readImages setupOffsets := by
  have hbegin : s.beginCommand x = s.beginLoadSetup := if_pos hx
  rw [hbegin]
  unfold State.beginLoadSetup
  rw [State.firstNotClosed_of_allClosed h]

/-- LOAD APERTURES has no precondition (R133). -/
theorem State.beginCommand_readsApertures (hx : x.code = 2) : s.beginCommand x = s.readImages apertureOffsets := by
  unfold State.beginCommand
  rw [hx]
  rfl

/-- OPEN LANE reads the descriptor of a CLOSED lane (R134). -/
theorem State.beginCommand_readsDescriptor (hx : x.code = 3) (hl : laneOf x.lane = some n)
    (hn : (s.lane n).state = .closed) : s.beginCommand x = s.readImages (descriptorOffsets n) := by
  have hbegin : s.beginCommand x = s.beginLaneCommand 3 n := by
    unfold State.beginCommand
    rw [hx, hl]
    rfl
  exact hbegin.trans (if_pos hn)

/-- Settles O38: what each of the three commands reads once its precondition holds. -/
theorem imageCommandsComplete : Obligations.ImageCommandsComplete := by
  intro s w hr ha read
  refine ⟨fun h hclosed => ?_, fun h => ?_, fun n h hl hn => ?_⟩
  · exact exec_readsImages hr ha rfl h (State.beginCommand_readsSetup rfl hclosed)
  · exact exec_readsImages hr ha rfl h (State.beginCommand_readsApertures rfl)
  · exact exec_readsImages hr ha rfl h (State.beginCommand_readsDescriptor rfl (laneOf_eq hl) hn)

/-! ## WRITE STATUS (R137) -/

/-- WRITE STATUS has no precondition, and starts a write-back or marks one to follow. -/
theorem State.beginCommand_writeStatus (hx : x.code = 7) : s.beginCommand x = s.takeWriteStatus := by
  unfold State.beginCommand
  rw [hx]
  rfl

/-- With no write-back running, one begins at once (R147, R148). -/
theorem State.takeWriteStatus_starts (hi : s.status.inProgress = false) :
    s.takeWriteStatus = (s.setWork (.status false)).beginWriteBack := if_neg (by simp [hi])

/-- With one running, the next is marked to follow (R147). -/
theorem State.takeWriteStatus_marks (hi : s.status.inProgress = true) : s.takeWriteStatus =
    { s.setWork (.status true) with status := { s.status with followOn := true } } := if_pos hi

/-- Settles O40, by whether a write-back is running. -/
theorem writeStatusCompletes : Obligations.WriteStatusCompletes := by
  intro s w hr ha h
  have begins {u : State} (htake : (s.commandTaken 7 w s.cmd.work []).takeWriteStatus = u) (hc : u.Calm)
      (ht : u.todo = []) : exec (.writeStatus w) s = .next u :=
    exec_begins hr ha rfl h ((State.beginCommand_writeStatus rfl).trans htake) hc ht
  refine ⟨fun hi => ?_, fun hi => ?_⟩
  · exact begins (State.takeWriteStatus_starts hi) ⟨h.calm.running, h.calm.presented, nofun⟩ rfl
  · exact begins (State.takeWriteStatus_marks hi) ⟨h.calm.running, h.calm.presented, nofun⟩ rfl

end Sys2Proof.Machine

namespace Sys2Proof.Machine

variable {s : State} {r : MemRequest} {rest : List Outstanding} {m : MemResponse} {w : NoticeWrite} {i : Nat}

/-! ## The ends of the units' own requests (R152, R163) -/

/-- The block as the response `m` to its oldest request finds the owner: the entry has left the list, and a failure is
counted. -/
def State.endedCounted (s : State) (rest : List Outstanding) (m : MemResponse) : State :=
  { s.ended rest with port := { s.port with
      outstanding := rest, errors := if m = .error then s.port.errors + 1 else s.port.errors } }

theorem State.countFailure_ended (s : State) (rest : List Outstanding) (m : MemResponse) :
    (s.ended rest).countFailure (outcomeOf m) = s.endedCounted rest m := by cases m <;> rfl

theorem State.Ends.sameWork_counted (h : s.Ends r rest) (m : MemResponse) : s.begin.SameWork (s.endedCounted rest m) :=
  h.sameWork.trans ⟨rfl, rfl, rfl, rfl, rfl, rfl, rfl, rfl⟩

theorem State.requestEnded_responseWrite {ticket : Half} (h : r.owner = .responseWrite ticket) (m : MemResponse) :
    (s.ended rest).requestEnded r (outcomeOf m) =
      (s.endedCounted rest m).responseWriteEnded r ticket (outcomeOf m) := by
  rw [← s.countFailure_ended rest m]
  unfold State.requestEnded
  rw [h]

theorem State.requestEnded_noticeWrite (h : r.owner = .noticeWrite) (m : MemResponse) :
    (s.ended rest).requestEnded r (outcomeOf m) =
      (s.endedCounted rest m).noticeRequestEnded !(outcomeOf m).failed := by
  rw [← s.countFailure_ended rest m]
  unfold State.requestEnded
  rw [h]

theorem State.requestEnded_statusWrite (h : r.owner = .statusWrite i) (m : MemResponse) :
    (s.ended rest).requestEnded r (outcomeOf m) = (s.endedCounted rest m).statusWriteEnded i := by
  rw [← s.countFailure_ended rest m]
  unfold State.requestEnded
  rw [h]

/-- The event of a response is over when the owner notes nothing more. -/
theorem event_response_ends {v : State} (h : s.Ends r rest) (hb : (s.ended rest).requestEnded r (outcomeOf m) = v)
    (hc : v.Calm) (ht : v.todo = []) : event (fun s => s.memoryResponse m) s = .next v :=
  event_eq (body := fun s => s.memoryResponse m) h.calm.running ((State.begin_memoryResponse h m).trans hb) hc ht

/-- The event of a response whose owner leaves alone what an event goes on with. -/
theorem event_response_same {v : State} (h : s.Ends r rest) (hb : (s.ended rest).requestEnded r (outcomeOf m) = v)
    (hv : s.begin.SameWork v) : event (fun s => s.memoryResponse m) s = .next v :=
  event_response_ends h hb (hv.calm h.calm.begin) hv.todo

/-! ## The end of a response word write (R130) -/

theorem exec_responseWriteEnd {ticket : Half} (h : s.Ends r rest) (hr : r.owner = .responseWrite ticket) :
    (∀ d, exec (.responseWriteEnd (.ok d)) s = .next (s.ended rest)) ∧
      exec (.responseWriteEnd .error) s = .next (s.endedFailed r rest 0 ticket) :=
  ⟨fun d => event_response_same h (State.requestEnded_responseWrite hr (.ok d)) h.sameWork,
    event_response_same h (State.requestEnded_responseWrite hr .error) (h.sameWork_failed 0 ticket)⟩

/-! ## The writes of a notice end (R141, R142, R145) -/

/-- The notice writer with one request of its write `w` ended in success or not, and others left. -/
def NoticeWriter.countedOff (x : NoticeWriter) (w : NoticeWrite) (ok : Bool) : NoticeWriter :=
  { x with write := some { w with left := w.left - 1, failed := w.failed || !ok } }

theorem NoticeWriter.countedOff_ok (x : NoticeWriter) (w : NoticeWrite) :
    x.countedOff w true = { x with write := some { w with left := w.left - 1 } } := by
  unfold NoticeWriter.countedOff
  rw [Bool.not_true, Bool.or_false]

theorem NoticeWriter.countedOff_error (x : NoticeWriter) (w : NoticeWrite) :
    x.countedOff w false = { x with write := some { w with left := w.left - 1, failed := true } } := by
  unfold NoticeWriter.countedOff
  rw [Bool.not_false, Bool.or_true]

/-- The pending list once the write `w` is over: its first notice goes, unless the write was a NOTICE_LOSS (R142). -/
def NoticeWriter.settled (x : NoticeWriter) (w : NoticeWrite) : List Notice :=
  if w.carried = none then x.waiting.tail else x.waiting

/-- The notice writer after its write `w` failed: the notice is lost, the producer index stands (R141). -/
def NoticeWriter.discards (x : NoticeWriter) (w : NoticeWrite) : NoticeWriter :=
  { x with
    write := none
    waiting := x.settled w
    loss := if x.loss = 65535 then 65535 else x.loss + 1
    writeErrors := if x.writeErrors = 65535 then 65535 else x.writeErrors + 1 }

/-- The notice writer after its write `w` succeeded: the producer index advances, a loss that was reported is taken
from the count, and INT_N is driven (R141, R142, R144). -/
def NoticeWriter.delivers (x : NoticeWriter) (w : NoticeWrite) : NoticeWriter :=
  { x with
    write := none
    waiting := x.settled w
    producer := x.producer + 1
    loss := x.loss - w.carried.getD 0
    intN := !(x.enable && x.producer + 1 != x.consumer) }

/-- The model's choice of the list that stays is `settled`. -/
theorem NoticeWriter.settled_eq (x : NoticeWriter) (w : NoticeWrite) :
    (if w.carried.isSome then x.waiting else x.waiting.tail) = x.settled w := by
  unfold NoticeWriter.settled
  cases w.carried <;> rfl

/-- The end of a write to a replaced ring moves no index and no count (R145). -/
theorem State.noticeWriteDone_stale (hs : w.stale = true) (failed : Bool) :
    s.noticeWriteDone w failed = (s.withNotice { s.notice with write := none }).chooseNotice := if_pos hs

theorem State.noticeWriteDone_failed (hs : w.stale = false) :
    s.noticeWriteDone w true = (s.withNotice (s.notice.discards w)).chooseNotice := by
  unfold State.noticeWriteDone NoticeWriter.discards State.withNotice
  simp only [hs, Bool.false_eq_true, if_false, if_true, NoticeWriter.settled_eq, satInc_eq]

theorem State.noticeWriteDone_ok (hs : w.stale = false) :
    s.noticeWriteDone w false = (s.withNotice (s.notice.delivers w)).chooseNotice := by
  unfold State.noticeWriteDone NoticeWriter.delivers State.withNotice NoticeWriter.driveIntN
  simp only [hs, Bool.false_eq_true, if_false, NoticeWriter.settled_eq]

section Write

variable (hw : s.notice.write = some w) (ok : Bool)

include hw

theorem State.noticeRequestEnded_left (hl : 1 < w.left) :
    s.noticeRequestEnded ok = s.withNotice (s.notice.countedOff w ok) := by
  unfold State.noticeRequestEnded
  rw [hw]
  exact if_neg (by omega)

theorem State.noticeRequestEnded_last (hl : w.left = 1) :
    s.noticeRequestEnded ok = s.noticeWriteDone w (w.failed || !ok) := by
  unfold State.noticeRequestEnded
  rw [hw]
  exact if_pos hl.le

end Write

/-- The end of a notice write is a matter of the notice writer. -/
theorem State.sameWork_noticeWriteDone (s : State) (w : NoticeWrite) (failed : Bool) :
    s.SameWork (s.noticeWriteDone w failed) := by
  have chooses (x : NoticeWriter) : s.SameWork (s.withNotice x).chooseNotice :=
    (s.sameWork_withNotice x).trans (State.sameWork_chooseNotice _)
  cases hs : w.stale with
  | true =>
    rw [State.noticeWriteDone_stale hs]
    exact chooses _
  | false =>
    cases failed with
    | true =>
      rw [State.noticeWriteDone_failed hs]
      exact chooses _
    | false =>
      rw [State.noticeWriteDone_ok hs]
      exact chooses _

section NoticeWrite

variable (h : s.Ends r rest) (hr : r.owner = .noticeWrite) (hw : s.notice.write = some w)

include h hr hw

/-- The first of the two writes of a notice ends. -/
theorem exec_noticeWriteEnd_left (hl : 1 < w.left) (m : MemResponse) : exec (.noticeWriteEnd m) s =
    .next ((s.endedCounted rest m).withNotice (s.notice.countedOff w !(outcomeOf m).failed)) :=
  event_response_same h ((State.requestEnded_noticeWrite hr m).trans
    (State.noticeRequestEnded_left (s := s.endedCounted rest m) hw _ hl))
    ((h.sameWork_counted m).trans (State.sameWork_withNotice _ _))

/-- The second ends. -/
theorem exec_noticeWriteEnd_last (hl : w.left = 1) (m : MemResponse) : exec (.noticeWriteEnd m) s =
    .next ((s.endedCounted rest m).noticeWriteDone w (w.failed || (outcomeOf m).failed)) := by
  have hdone := State.noticeRequestEnded_last (s := s.endedCounted rest m) hw (!(outcomeOf m).failed) hl
  rw [Bool.not_not] at hdone
  exact event_response_same h ((State.requestEnded_noticeWrite hr m).trans hdone)
    ((h.sameWork_counted m).trans (State.sameWork_noticeWriteDone _ w _))

theorem exec_noticeWriteEnd_stale (hl : w.left = 1) (hs : w.stale = true) (m : MemResponse) :
    exec (.noticeWriteEnd m) s =
      .next ((s.endedCounted rest m).withNotice { s.notice with write := none }).chooseNotice :=
  (exec_noticeWriteEnd_last h hr hw hl m).trans (congrArg _ (State.noticeWriteDone_stale hs _))

theorem exec_noticeWriteEnd_failed (hl : w.left = 1) (hs : w.stale = false) (hf : w.failed = true ∨ m = .error) :
    exec (.noticeWriteEnd m) s =
      .next ((s.endedCounted rest m).withNotice (s.notice.discards w)).chooseNotice := by
  have hfailed : (w.failed || (outcomeOf m).failed) = true := by
    obtain hw | rfl := hf
    · rw [hw, Bool.true_or]
    · exact Bool.or_true _
  have hlast := exec_noticeWriteEnd_last h hr hw hl m
  rw [hfailed] at hlast
  exact hlast.trans (congrArg _ (State.noticeWriteDone_failed hs))

theorem exec_noticeWriteEnd_ok (hl : w.left = 1) (hs : w.stale = false) (hf : w.failed = false) (hm : m ≠ .error) :
    exec (.noticeWriteEnd m) s =
      .next ((s.endedCounted rest m).withNotice (s.notice.delivers w)).chooseNotice := by
  have hok : (w.failed || (outcomeOf m).failed) = false := by
    rw [hf]
    cases m with
    | ok d => rfl
    | error => exact absurd rfl hm
  have hlast := exec_noticeWriteEnd_last h hr hw hl m
  rw [hok] at hlast
  exact hlast.trans (congrArg _ (State.noticeWriteDone_ok hs))

/-- The only pending notice has been written, and there is nothing more to write. -/
theorem exec_noticeWriteEnd_empties {x : Notice} (hl : w.left = 1) (hs : w.stale = false) (hf : w.failed = false)
    (hc : w.carried = none) (hx : s.notice.waiting = [x]) (hloss : s.notice.loss = 0) (d : Word) :
    exec (.noticeWriteEnd (.ok d)) s = .next ((s.ended rest).withNotice { s.notice with
      write := none
      waiting := []
      producer := s.notice.producer + 1
      intN := !(s.notice.enable && s.notice.producer + 1 != s.notice.consumer) }) := by
  have hdelivers : s.notice.delivers w = { s.notice with
      write := none
      waiting := []
      producer := s.notice.producer + 1
      intN := !(s.notice.enable && s.notice.producer + 1 != s.notice.consumer) } := by
    unfold NoticeWriter.delivers NoticeWriter.settled
    simp only [hc, hx, hloss, if_true]
    rfl
  have hreports : (s.notice.delivers w).reportsLoss = false := by
    rw [hdelivers]
    simp [NoticeWriter.reportsLoss, hloss]
  have hrest := State.chooseNotice_none (s := (s.endedCounted rest (.ok d)).withNotice (s.notice.delivers w)) rfl
    hreports (by rw [hdelivers]; rfl)
  rw [exec_noticeWriteEnd_ok (m := .ok d) h hr hw hl hs hf nofun, hrest, hdelivers]
  rfl

end NoticeWrite

/-! ## The writes of a write-back end (R147, R148, R151) -/

/-- The block with one of the writes 1 to 73 counted off. -/
def State.statusCountedOff (s : State) : State := { s with status := { s.status with left := s.status.left - 1 } }

/-- The block with all of the writes 1 to 73 counted off. -/
def State.recordsEnded (s : State) : State := { s with status := { s.status with left := 0 } }

theorem State.statusCountedOff_last (hl : s.status.left = 1) : s.statusCountedOff = s.recordsEnded := by
  unfold State.statusCountedOff State.recordsEnded
  rw [hl]

theorem State.statusWriteEnded_record (hi : i ≠ 74) : s.statusWriteEnded i = s.statusCountedOff.generationTest :=
  if_neg hi

theorem State.statusWriteEnded_generation : s.statusWriteEnded 74 = s.endWriteBack := rfl

/-- The generation end write waits for the others. -/
theorem State.generationTest_waits (hl : s.status.left ≠ 0) : s.generationTest = s := if_neg (by simp [hl])

/-- The generation end write is created behind the others, once, when they have ended. -/
theorem State.generationTest_creates (hi : s.status.inProgress = true) (hl : s.status.left = 0)
    (hq : 74 ∉ s.port.statusQ) (ho : ∀ e ∈ s.port.outstanding, e.request.owner ≠ .statusWrite 74) :
    s.generationTest = { s with port := { s.port with statusQ := s.port.statusQ ++ [74] } } := by
  have hqueue : s.port.statusQ.contains 74 = false := by simpa using hq
  have hout : (s.port.outstanding.any fun e => !e.abandoned && e.request.owner == .statusWrite 74) = false :=
    List.any_eq_false.mpr fun e he => by simp [ho e he]
  have hnone : s.endCreated = false := by
    unfold State.endCreated
    rw [hqueue, hout]
    rfl
  exact if_pos (by simp [hi, hl, hnone])

/-- The block with a write-back begun that had been marked to follow. -/
def State.followed (s : State) : State :=
  State.beginWriteBack { s with status := { s.status with followOn := false } }

theorem State.beginFollowOn_awaited (hw : s.cmd.work = .status true) :
    s.beginFollowOn = s.followed.setWork (.status false) := by
  unfold State.beginFollowOn
  dsimp only
  rw [if_pos (by simp [hw])]
  rfl

theorem State.beginFollowOn_alone (hw : s.cmd.work ≠ .status true) : s.beginFollowOn = s.followed := by
  unfold State.beginFollowOn
  dsimp only
  rw [if_neg (by simpa using hw)]
  rfl

section NoneWaits

variable (hw : s.cmd.work ≠ .status false)

include hw

/-- A write-back that no WRITE STATUS waits for ends without one. -/
theorem State.endWriteBack_alone (hf : s.status.followOn = false) : s.endWriteBack = s.wroteBack := by
  unfold State.endWriteBack
  dsimp only
  rw [if_neg (c := (s.cmd.work == .status false) = true) (by simpa using hw)]
  exact if_neg (by simp [hf])

/-- The write-back that was marked begins as the one before it ends. -/
theorem State.endWriteBack_follows (hf : s.status.followOn = true) : s.endWriteBack = s.wroteBack.beginFollowOn := by
  unfold State.endWriteBack
  dsimp only
  rw [if_neg (c := (s.cmd.work == .status false) = true) (by simpa using hw)]
  exact if_pos hf

end NoneWaits

/-- The event of a status write is over when the status writer has made its test. -/
theorem exec_statusWriteEnd {v : State} (h : s.Ends r rest) (hr : r.owner = .statusWrite i)
    (hv : (s.endedCounted rest m).statusWriteEnded i = v) (hc : v.Calm) (ht : v.todo = []) :
    exec (.statusWriteEnd m) s = .next v :=
  event_response_ends h ((State.requestEnded_statusWrite hr m).trans hv) hc ht

section StatusWrite

variable (h : s.Ends r rest)

include h

/-- A write 1 to 73 that is not the last to end. -/
theorem exec_statusWriteEnd_left (hr : r.owner = .statusWrite i) (hi : i ≠ 74) (hl : 1 < s.status.left)
    (m : MemResponse) : exec (.statusWriteEnd m) s = .next (s.endedCounted rest m).statusCountedOff := by
  have hleft : (s.endedCounted rest m).statusCountedOff.status.left ≠ 0 := Nat.sub_ne_zero_of_lt hl
  exact exec_statusWriteEnd h hr ((State.statusWriteEnded_record hi).trans (State.generationTest_waits hleft))
    (h.calm.congr rfl rfl rfl) rfl

/-- The last of the writes 1 to 73 to end creates the generation end write. -/
theorem exec_statusWriteEnd_creates (hr : r.owner = .statusWrite i) (hi : i ≠ 74) (hl : s.status.left = 1)
    (hp : s.status.inProgress = true) (hq : 74 ∉ s.port.statusQ)
    (ho : ∀ e ∈ rest, e.request.owner ≠ .statusWrite 74) (m : MemResponse) : exec (.statusWriteEnd m) s =
      .next { (s.endedCounted rest m).recordsEnded with
        port := { (s.endedCounted rest m).port with statusQ := s.port.statusQ ++ [74] } } := by
  have hends := State.statusWriteEnded_record (s := s.endedCounted rest m) hi
  rw [State.statusCountedOff_last (s := s.endedCounted rest m) hl,
    State.generationTest_creates (s := (s.endedCounted rest m).recordsEnded) hp rfl hq ho] at hends
  exact exec_statusWriteEnd h hr hends (h.calm.congr rfl rfl rfl) rfl

variable (hr : r.owner = .statusWrite 74)

include hr

/-- A write-back ends that nothing waits for and nothing follows. -/
theorem exec_statusWriteEnd_alone (hw : s.cmd.work ≠ .status false) (hf : s.status.followOn = false)
    (m : MemResponse) : exec (.statusWriteEnd m) s = .next (s.endedCounted rest m).wroteBack :=
  exec_statusWriteEnd h hr (State.endWriteBack_alone (s := s.endedCounted rest m) hw hf) (h.calm.congr rfl rfl rfl) rfl

/-- The write-back that a WRITE STATUS marked begins, and the command waits for it. -/
theorem exec_statusWriteEnd_awaited (hw : s.cmd.work = .status true) (hf : s.status.followOn = true) (m : MemResponse) :
    exec (.statusWriteEnd m) s = .next ((s.endedCounted rest m).wroteBack.followed.setWork (.status false)) := by
  have hnone : s.cmd.work ≠ .status false := by
    rw [hw]
    nofun
  have hends := State.endWriteBack_follows (s := s.endedCounted rest m) hnone hf
  exact exec_statusWriteEnd h hr (hends.trans (State.beginFollowOn_awaited (s := (s.endedCounted rest m).wroteBack) hw))
    ⟨h.calm.running, h.calm.presented, nofun⟩ rfl

/-- A marked write-back begins that no WRITE STATUS waits for. -/
theorem exec_statusWriteEnd_follows (hw : ∀ waits, s.cmd.work ≠ .status waits) (hf : s.status.followOn = true)
    (m : MemResponse) : exec (.statusWriteEnd m) s = .next (s.endedCounted rest m).wroteBack.followed :=
  exec_statusWriteEnd h hr ((State.endWriteBack_follows (s := s.endedCounted rest m) (hw false) hf).trans
    (State.beginFollowOn_alone (s := (s.endedCounted rest m).wroteBack) (hw true))) (h.calm.congr rfl rfl rfl) rfl

/-- The WRITE STATUS that waits for the write-back ends with it. -/
theorem exec_statusWriteEnd_completes (hw : s.cmd.work = .status false) (hf : s.status.followOn = false)
    (hwaiter : s.hold.waiter = none) (m : MemResponse) : exec (.statusWriteEnd m) s =
      .next { (s.endedCounted rest m).wroteBack.completeCommand 2 0 0 with todo := [] } := by
  have hends : (s.ended rest).requestEnded r (outcomeOf m) = (s.endedCounted rest m).wroteBack.completeCommand 2 0 0 :=
    (State.requestEnded_statusWrite hr m).trans (State.endWriteBack_completes (s := s.endedCounted rest m) hw hf)
  exact event_completes (body := fun s => s.memoryResponse m) h.calm ((State.begin_memoryResponse h m).trans hends) rfl
    hwaiter rfl rfl

end StatusWrite

/-! ## Late responses (R163, R165) -/

/-- A response that finds the list empty is ignored. -/
theorem exec_lateResponse_none (h : s.Calm) (ho : s.port.outstanding = []) (m : MemResponse) :
    exec (.lateResponse m) s = .next s.begin := by
  refine event_eq (body := fun s => s.memoryResponse m) h.running ?_ h.begin rfl
  unfold State.memoryResponse
  rw [show s.begin.port.outstanding = [] from ho]

/-- The response of an abandoned entry is discarded with it. -/
theorem exec_lateResponse_abandoned {x : Outstanding} (h : s.Calm) (ho : s.port.outstanding = x :: rest)
    (hx : x.abandoned = true) (m : MemResponse) : exec (.lateResponse m) s = .next (s.ended rest) := by
  refine event_eq (body := fun s => s.memoryResponse m) h.running ?_ (h.congr rfl rfl rfl) rfl
  unfold State.memoryResponse
  rw [show s.begin.port.outstanding = x :: rest from ho]
  exact if_pos hx

/-- Settles O54: response words, notices, the writes of a write-back, and late responses. -/
theorem unitRequestsEnd : Obligations.UnitRequestsEnd := by
  refine ⟨fun s r rest h => ⟨fun ticket hr => exec_responseWriteEnd h hr, fun w d hr hw => ⟨fun hl => ?_,
    fun n hw1 hn hloss => ?_⟩, fun m => ⟨fun i hr hi hl => ?_, fun i hr hi hl hp hq ho => ?_, fun hr =>
    ⟨fun hw hf => ?_, fun hw hf => ?_, fun hw hf => ?_, fun hw hf _ hwaiter => ?_⟩⟩⟩,
    fun s m h => ⟨fun ho => exec_lateResponse_none h ho m, fun x rest ho hx => exec_lateResponse_abandoned h ho hx m⟩,
    fun s r rest w h hr hw => ⟨fun hl => ?_, fun m hl hs => ?_, fun m hl hs hf => ?_, fun m hl hs hf hm => ?_⟩⟩
  · have hends := exec_noticeWriteEnd_left h hr hw hl (.ok d)
    exact hends.trans (congrArg Host.Outcome.next (congrArg (s.ended rest).withNotice (s.notice.countedOff_ok w)))
  · subst hw1
    exact exec_noticeWriteEnd_empties h hr hw rfl rfl rfl rfl hn hloss d
  · exact exec_statusWriteEnd_left h hr hi hl m
  · exact exec_statusWriteEnd_creates h hr hi hl hp hq ho m
  · exact exec_statusWriteEnd_alone h hr hw hf m
  · exact exec_statusWriteEnd_awaited h hr hw hf m
  · exact exec_statusWriteEnd_follows h hr hw hf m
  · exact exec_statusWriteEnd_completes h hr hw hf hwaiter m
  · have hends := exec_noticeWriteEnd_left h hr hw hl .error
    exact hends.trans (congrArg Host.Outcome.next
      (congrArg (s.endedCounted rest .error).withNotice (s.notice.countedOff_error w)))
  · exact exec_noticeWriteEnd_stale h hr hw hl hs m
  · exact exec_noticeWriteEnd_failed h hr hw hl hs hf
  · exact exec_noticeWriteEnd_ok h hr hw hl hs hf hm

end Sys2Proof.Machine

namespace Sys2Proof.Machine

variable {s : State}

/-! ## The interval of the status writer (R147) -/

/-- The expiry of the interval has been taken. -/
def State.intervalTaken (s : State) : State := { s with status := { s.status with expiryDue := false } }

section ExpiryDue

variable (hd : s.status.expiryDue = true)

include hd

theorem State.takeIntervalExpiry_starts (hi : s.status.inProgress = false) :
    s.takeIntervalExpiry = s.intervalTaken.beginWriteBack := (if_pos hd).trans (if_neg (by simp [hi]))

theorem State.takeIntervalExpiry_skips (hi : s.status.inProgress = true) : s.takeIntervalExpiry = s.intervalTaken :=
  (if_pos hd).trans (if_pos hi)

end ExpiryDue

/-- Settles O10, by whether a write-back is running. -/
theorem statusIntervalExpiryCompletes : Obligations.StatusIntervalExpiryCompletes := by
  intro s h hd
  refine ⟨fun hi => ?_, fun hi => ?_⟩
  · exact event_eq h.running (State.takeIntervalExpiry_starts (s := s.begin) hd hi) (h.congr rfl rfl rfl) rfl
  · exact event_eq h.running (State.takeIntervalExpiry_skips (s := s.begin) hd hi) (h.congr rfl rfl rfl) rfl

end Sys2Proof.Machine

namespace Sys2Proof.Machine

variable {s : State} {t : Transaction} {value : Quad}

/-! ## The consumer index (R143) -/

/-- The whole consumer index is forwarded and handed over (R122). -/
theorem State.control_index (hd : t.direction = .write) (ho : s.controlOffset t.address = 0x810) (hz : t.size = 4) :
    s.control t = (s.forward t t.address 0).consumerWrite (quadOf t.data (firstLane t)) := by
  unfold State.control
  rw [hd, ho, hz]
  rfl

/-- The choice of the next notice write moves neither the consumer index nor INT_N. -/
theorem NoticeWriter.choose_keeps_consumer (ns : List Notice) : ∀ w : NoticeWriter,
    (w.choose ns).1.consumer = w.consumer ∧ (w.choose ns).1.intN = w.intN := by
  induction ns with
  | nil =>
    intro w
    cases hl : w.reportsLoss with
    | true => rw [NoticeWriter.choose_loss hl]; exact ⟨rfl, rfl⟩
    | false => rw [NoticeWriter.choose_nil hl]; exact ⟨rfl, rfl⟩
  | cons x more ih =>
    intro w
    cases hl : w.reportsLoss with
    | true => rw [NoticeWriter.choose_loss hl]; exact ⟨rfl, rfl⟩
    | false =>
      cases hf : w.full with
      | true => rw [NoticeWriter.choose_lost hl hf]; exact ih _
      | false => rw [NoticeWriter.choose_first hl hf]; exact ⟨rfl, rfl⟩

theorem State.chooseNotice_keeps_consumer (s : State) :
    s.chooseNotice.notice.consumer = s.notice.consumer ∧ s.chooseNotice.notice.intN = s.notice.intN := by
  by_cases h : s.notice.write = none
  · rw [State.chooseNotice_idle h]
    exact NoticeWriter.choose_keeps_consumer _ _
  · rw [State.chooseNotice_busy h]
    exact ⟨rfl, rfl⟩

/-- The test of R143: the proposed index is not beyond the producer index, both counted from the consumer index. -/
def NoticeWriter.accepts (w : NoticeWriter) (v : Half) : Prop :=
  (v - w.consumer).toNat ≤ (w.producer - w.consumer).toNat

/-- The notice writer with an accepted consumer index and INT_N driven by it. -/
def NoticeWriter.advanced (w : NoticeWriter) (v : Half) : NoticeWriter := { w with consumer := v }.driveIntN

theorem State.consumerWrite_bad (hv : ¬ s.notice.accepts (value.setWidth 16)) : s.consumerWrite value =
    s.withNotice { s.notice with badConsumer := satInc s.notice.badConsumer } := if_neg hv

section Accepted

variable (hv : s.notice.accepts (value.setWidth 16))

include hv

theorem State.consumerWrite_same (hc : value.setWidth 16 = s.notice.consumer) : s.consumerWrite value = s :=
  (if_pos hv).trans (if_pos hc)

theorem State.consumerWrite_advances (hc : value.setWidth 16 ≠ s.notice.consumer) : s.consumerWrite value =
    (s.withNotice (s.notice.advanced (value.setWidth 16))).chooseNotice :=
  (if_pos hv).trans (if_neg hc)

end Accepted

/-- A consumer index is no matter of the decoder or the system port, and creates no request of theirs. -/
theorem State.consumerWrite_outside (s : State) (value : Quad) : (s.consumerWrite value).dec = s.dec ∧
    (s.consumerWrite value).sys = s.sys ∧ (s.consumerWrite value).port.systemQ = s.port.systemQ := by
  by_cases hv : s.notice.accepts (value.setWidth 16)
  · by_cases hc : value.setWidth 16 = s.notice.consumer
    · rw [State.consumerWrite_same hv hc]
      exact ⟨rfl, rfl, rfl⟩
    · rw [State.consumerWrite_advances hv hc]
      exact ⟨State.chooseNotice_dec _, State.chooseNotice_sys _, State.chooseNotice_port_systemQ _⟩
  · rw [State.consumerWrite_bad hv]
    exact ⟨rfl, rfl, rfl⟩

/-- Before any ring only a consumer index of 0 is accepted. -/
theorem NoticeWriter.not_accepts {w : NoticeWriter} {v : Half} (hp : w.producer = 0) (hc : w.consumer = 0)
    (hv : v ≠ 0) : ¬ w.accepts v := by
  unfold NoticeWriter.accepts
  rw [hp, hc]
  bv_omega

/-- Settles O37, by the test of R143 and whether an accepted index differs from the one that stands. -/
theorem consumerIndexRule : Obligations.ConsumerIndexRule := by
  refine ⟨fun s t hin ho hz hd => (State.decode_control hin).trans (State.control_index hd ho hz), ?_⟩
  intro s value v c p
  have hwork := s.sameWork_consumerWrite value
  obtain ⟨hdec, hsys, hqueue⟩ := s.consumerWrite_outside value
  refine ⟨fun hbad => ?_, State.consumerWrite_same, fun hv hne => ?_, fun hp hc hne => ?_,
    hwork.lanes, hwork.pool, hwork.hold, hwork.cmd, hdec, hsys, hqueue⟩
  · rw [← satInc_eq]
    exact State.consumerWrite_bad hbad
  · have hadvances := State.consumerWrite_advances hv hne
    obtain ⟨hconsumer, hintN⟩ := (s.withNotice (s.notice.advanced v)).chooseNotice_keeps_consumer
    rw [hadvances]
    exact ⟨rfl, hconsumer, hintN⟩
  · rw [State.consumerWrite_bad (NoticeWriter.not_accepts hp hc hne), ← satInc_eq]
    exact ⟨hc, rfl⟩

end Sys2Proof.Machine

namespace Sys2Proof.Machine

variable {s u : State} {r : MemRequest} {q : List MemRequest} {i : Nat}

/-! ## Issue (R163, R164) -/

/-- The words of the record being written once write `i` has been issued: write 2 takes those of the global record, the
first of a lane's four writes those of its lane record (R149). -/
def State.snapshotAt (s : State) (i : Nat) : List Word :=
  if i = 2 then s.globalWords
  else if 10 ≤ i ∧ i ≤ 73 ∧ (i - 10) % 4 = 0 then s.laneWords (statusLane i)
  else s.status.snapshot

theorem State.takeSnapshot_eq (s : State) (i : Nat) :
    s.takeSnapshot i = { s with status := { s.status with snapshot := s.snapshotAt i } } := by
  unfold State.takeSnapshot State.snapshotAt
  split_ifs <;> rfl

section Classes

variable (hn : s.port.noticeQ = [])

theorem State.selectRequest_notice (hq : s.port.noticeQ = r :: q) :
    s.selectRequest = some (r, { s with port := { s.port with noticeQ := q } }) := by
  unfold State.selectRequest
  rw [hq]

include hn

theorem State.selectRequest_command (hq : s.port.commandQ = r :: q) :
    s.selectRequest = some (r, { s with port := { s.port with commandQ := q } }) := by
  unfold State.selectRequest
  rw [hn, hq]

variable (hc : s.port.commandQ = [])

include hc

theorem State.selectRequest_system (hq : s.port.systemQ = r :: q) :
    s.selectRequest = some (r, { s with port := { s.port with systemQ := q } }) := by
  unfold State.selectRequest
  rw [hn, hc, hq]

variable (hy : s.port.systemQ = [])

include hy

/-- A status write takes its record's snapshot before its data. -/
theorem State.selectRequest_status {q : List Nat} (hq : s.port.statusQ = i :: q) :
    s.selectRequest = some
      (({ s with status := { s.status with snapshot := s.snapshotAt i } } : State).statusWrite i,
        { s with
          status := { s.status with snapshot := s.snapshotAt i }, port := { s.port with statusQ := q } }) := by
  unfold State.selectRequest
  rw [hn, hc, hy, hq]
  dsimp only
  rw [State.takeSnapshot_eq]
  rfl

theorem State.selectRequest_none (hq : s.port.statusQ = []) : s.selectRequest = none := by
  unfold State.selectRequest
  rw [hn, hc, hy, hq]

end Classes

theorem State.issueRequest_full (h : 8 ≤ s.port.outstanding.length) : s.issueRequest = s :=
  if_neg (Nat.not_lt.mpr h)

theorem State.issueRequest_none (h : s.selectRequest = none) : s.issueRequest = s := by
  unfold State.issueRequest
  rw [h]
  exact ite_self s

theorem State.issueRequest_some (hl : s.port.outstanding.length < 8) (h : s.selectRequest = some (r, u)) :
    s.issueRequest = u.putOut r := by
  have hissue : s.issueRequest = _ := if_pos hl
  rw [hissue, h]

/-- The queues of the memory port and the status writer's record are no matter of the lanes or the command unit. -/
theorem State.sameWork_setPort (s : State) (status : StatusWriter) (port : MemoryPort) :
    s.SameWork { s with status := status, port := port } := ⟨rfl, rfl, rfl, rfl, rfl, rfl, rfl, rfl⟩

/-- With a place free, the request that the issue order selects joins the outstanding list. -/
theorem exec_issues (h : s.Calm) (hl : s.port.outstanding.length < 8) (hs : s.begin.selectRequest = some (r, u))
    (hu : s.begin.SameWork u) : exec .memoryRequestIssue s = .next (u.putOut r) :=
  event_eq h.running (State.issueRequest_some (s := s.begin) hl hs) ((hu.calm h.begin).congr rfl rfl rfl) hu.todo

/-- An event that finds no place free, or no request waiting. -/
theorem exec_issuesNone (h : s.Calm) (hs : s.begin.issueRequest = s.begin) :
    exec .memoryRequestIssue s = .next s.begin :=
  event_eq h.running hs h.begin rfl

/-! ## The records of the status block (12.8) -/

/-- The halves of a quad of two halves. -/
theorem extract_halves (a b : Half) :
    (b ++ a : Quad).extractLsb' 0 16 = a ∧ (b ++ a : Quad).extractLsb' 16 16 = b := by
  refine ⟨?_, ?_⟩
  · rw [BitVec.extractLsb'_append_eq_of_add_le (by omega)]
    exact BitVec.extractLsb'_eq_self
  · rw [BitVec.extractLsb'_append_eq_of_le (by omega)]
    exact BitVec.extractLsb'_eq_self

theorem halfOf_packQuads_halves (p : Quad) (a b : Half) :
    halfOf (packQuads p (b ++ a)) 4 = a ∧ halfOf (packQuads p (b ++ a)) 6 = b :=
  ⟨(halfOf_packQuads_high p _ 4 (by decide)).trans (extract_halves a b).1,
    (halfOf_packQuads_high p _ 6 (by decide)).trans (extract_halves a b).2⟩

theorem fields_packQuads_pairHalf (p : Quad) (a : Half) (x y : Byte) :
    halfOf (packQuads p (packPair x y ++ a)) 4 = a ∧ byteOf (packQuads p (packPair x y ++ a)) 6 = x ∧
    byteOf (packQuads p (packPair x y ++ a)) 7 = y := by
  obtain ⟨ha, hx, hy⟩ := extract_pairHalf a x y
  exact ⟨(halfOf_packQuads_high p _ 4 (by decide)).trans ha, (byteOf_packQuads_high p _ 6 (by decide)).trans hx,
    (byteOf_packQuads_high p _ 7 (by decide)).trans hy⟩

/-- The bytes of the first two halves of a word, where these are pairs. -/
theorem byteOf_packHalves_pairs (x₀ x₁ x₂ x₃ : Byte) (c d : Half) :
    byteOf (packHalves (packPair x₀ x₁) (packPair x₂ x₃) c d) 0 = x₀ ∧
    byteOf (packHalves (packPair x₀ x₁) (packPair x₂ x₃) c d) 1 = x₁ ∧
    byteOf (packHalves (packPair x₀ x₁) (packPair x₂ x₃) c d) 2 = x₂ ∧
    byteOf (packHalves (packPair x₀ x₁) (packPair x₂ x₃) c d) 3 = x₃ := by
  obtain ⟨hfirst, hsecond, -, -⟩ := halfOf_packHalves (packPair x₀ x₁) (packPair x₂ x₃) c d
  have hbyte := byteOf_halfOf (packHalves (packPair x₀ x₁) (packPair x₂ x₃) c d)
  rw [hbyte 0 0 (by decide), hbyte 0 1 (by decide), hbyte 2 0 (by decide), hbyte 2 1 (by decide), hfirst, hsecond]
  exact ⟨(extract_packPair x₀ x₁).1, (extract_packPair x₀ x₁).2, (extract_packPair x₂ x₃).1, (extract_packPair x₂ x₃).2⟩

theorem State.lineFlags_eq (s : State) (n : LaneNo) : s.lineFlags n =
    (if s.heldOf n .put = none then 0 else 1) + (if s.heldOf n .take = none then 0 else 2) := by
  unfold State.lineFlags
  simp only [Option.isSome_iff_ne_none, ne_eq, ite_not]
  split_ifs <;> rfl

/-- The bytes of the head parcel consumed so far, or 0 with no head cache (R150). -/
def Lane.consumed (l : Lane) : Nat :=
  match l.cache with
  | some c => c.consumed
  | none => 0

theorem Lane.ofNat_openLength (l : Lane) : BitVec.ofNat 16 l.openLength = (match l.openParcel with
    | some p => BitVec.ofNat 16 p.length
    | none => 0) := by
  unfold Lane.openLength
  cases l.openParcel <;> rfl

theorem Lane.ofNat_consumed (l : Lane) : BitVec.ofNat 16 l.consumed = (match l.cache with
    | some c => BitVec.ofNat 16 c.consumed
    | none => 0) := by
  unfold Lane.consumed
  cases l.cache <;> rfl

/-! ## The 74 writes of a write-back (R148) -/

/-- A write into the status block: the bytes of `data` that `enables` names, at an offset of the control block. -/
def State.statusWriteTo (s : State) (i offset : Nat) (enables : BitVec 8) (data : Word) : MemRequest :=
  { owner := .statusWrite i, master := 0xFF, address := s.controlAddress offset, write := true,
    enables := enables, data := maskWord enables data }

/-- Writes 3 to 8 carry words 1 to 6 of the global record. -/
theorem State.statusWrite_global (s : State) (hfirst : 3 ≤ i) (hlast : i ≤ 8) : s.statusWrite i =
    s.statusWriteTo i (0xC08 + 8 * (i - 3)) 0xFF (s.status.snapshot.getD (i - 2) 0) := by
  unfold State.statusWrite
  dsimp only
  rw [if_neg (by omega), if_neg (by omega), if_pos hlast]
  rfl

/-- The four writes from 10 + 4 n on carry the record of lane n. -/
theorem State.statusWrite_lane (s : State) (n : LaneNo) (k : Fin 4) : s.statusWrite (10 + 4 * n.val + k.val) =
    s.statusWriteTo (10 + 4 * n.val + k.val) (0xC40 + 32 * n.val + 8 * k.val) 0xFF
      (s.status.snapshot.getD k.val 0) := by
  have hoffset : 0xC40 + 8 * (10 + 4 * n.val + k.val - 10) = 0xC40 + 32 * n.val + 8 * k.val := by omega
  have hword : (10 + 4 * n.val + k.val - 10) % 4 = k.val := by omega
  unfold State.statusWrite
  dsimp only
  rw [if_neg (by omega), if_neg (by omega), if_neg (by omega), if_neg (by omega), if_pos (by omega), hoffset, hword]
  rfl

theorem statusLane_eq (n : LaneNo) (k : Fin 4) : statusLane (10 + 4 * n.val + k.val) = n := by
  have hlane : (10 + 4 * n.val + k.val - 10) / 4 = n.val := by omega
  unfold statusLane
  rw [hlane]
  exact Fin.ofNat_val_eq_self n

/-- Settles O45: issue class by class, the fields of the two records word by word, and the writes of a write-back by
their indices. -/
theorem requestIssueCompletes : Obligations.RequestIssueCompletes := by
  refine ⟨?_, ?_, ?_, ?_⟩
  · intro s h out
    refine ⟨fun hl => exec_issuesNone h (State.issueRequest_full hl), fun hn hc hy hq => exec_issuesNone h
      (State.issueRequest_none (State.selectRequest_none (s := s.begin) hn hc hy hq)), fun hl =>
      ⟨fun r q hq => ?_, fun r q hn hq => ?_, fun r q hn hc hq => ?_, fun i q hn hc hy hq => ?_⟩⟩
    · exact exec_issues h hl (State.selectRequest_notice (s := s.begin) hq) (State.sameWork_setPort _ _ _)
    · exact exec_issues h hl (State.selectRequest_command (s := s.begin) hn hq) (State.sameWork_setPort _ _ _)
    · exact exec_issues h hl (State.selectRequest_system (s := s.begin) hn hc hq) (State.sameWork_setPort _ _ _)
    · exact exec_issues h hl (State.selectRequest_status (s := s.begin) hn hc hy hq) (State.sameWork_setPort _ _ _)
  · intro s
    obtain ⟨hfree, hmin⟩ := halfOf_packQuads_halves s.status.generation (BitVec.ofNat 16 s.pool.freeCount)
      (BitVec.ofNat 16 s.pool.minFree)
    obtain ⟨hproducer, hloss, hbad, herrors⟩ :=
      halfOf_packHalves s.notice.producer s.notice.loss s.notice.badConsumer s.notice.writeErrors
    obtain ⟨htimeouts, hhigh, hheld⟩ := fields_packQuads_pairHalf s.port.errors s.port.timeouts
      (BitVec.ofNat 8 s.hold.highWater) (BitVec.ofNat 8 s.hold.held.length)
    exact ⟨_, _, _, _, _, _, rfl, quadOf_packQuads_low _ _, hfree, hmin, hproducer, hloss, hbad, herrors,
      quadOf_packQuads_low _ _, htimeouts, hhigh, hheld, quadOf_packQuads_low _ _, quadOf_packQuads_high _ _,
      quadOf_packQuads_low _ _, quadOf_packQuads_high _ _, quadOf_packQuads_low _ _, quadOf_packQuads_high _ _⟩
  · intro s n l
    obtain ⟨hstate, hcause, hcount, hflags⟩ := byteOf_packHalves_pairs l.state.code l.cause.code
      (BitVec.ofNat 8 l.errors) (s.lineFlags n) (BitVec.ofNat 16 l.ready) (BitVec.ofNat 16 l.chain.length)
    obtain ⟨-, -, hready, hchain⟩ := halfOf_packHalves (packPair l.state.code l.cause.code)
      (packPair (BitVec.ofNat 8 l.errors) (s.lineFlags n)) (BitVec.ofNat 16 l.ready) (BitVec.ofNat 16 l.chain.length)
    obtain ⟨hopen, hput, htake, hconsumed⟩ := halfOf_packHalves (BitVec.ofNat 16 l.openLength) l.putSeq l.takeSeq
      (BitVec.ofNat 16 l.consumed)
    obtain ⟨hevicted, hrefusals, hexpiries, hoverreads⟩ :=
      halfOf_packHalves l.evicted l.refusals l.expiries l.overreads
    exact ⟨_, _, _, _, rfl, hstate, hcause, hcount, hflags.trans (s.lineFlags_eq n), hready, hchain,
      hopen.trans l.ofNat_openLength, hput, htake, hconsumed.trans l.ofNat_consumed, quadOf_packQuads_low _ _,
      quadOf_packQuads_high _ _, hevicted, hrefusals, hexpiries, hoverreads⟩
  · intro s i kept write
    refine ⟨fun hi => ?_, fun hi => ?_, s.statusWrite_global, fun hi => ?_, fun n k hi => ?_, fun hi => ?_⟩
    · subst hi; rfl
    · subst hi; rfl
    · subst hi; rfl
    · subst hi; exact ⟨s.statusWrite_lane n k, statusLane_eq n k⟩
    · subst hi; rfl

end Sys2Proof.Machine

namespace Sys2Proof.Machine

/-! ## RST_N low (R166) -/

/-- While RST_N is low an event is its begin, whatever its body. -/
theorem event_of_reset {s : State} (hr : s.rst = true) (body : State → State) : event body s = .next s.begin :=
  congrArg Host.Outcome.next (if_pos hr)

/-- Settles O7: every command but those of RST_N is one event, and RST_N low suppresses the body of an event. -/
theorem nothingHappensInReset : Obligations.NothingHappensInReset := by
  intro c s hr hhard hrelease
  obtain ⟨body, hevent⟩ := exec_event c s hhard hrelease
  exact hevent.trans (event_of_reset hr body)

/-- Settles O5: the meaning of HARD_RESET is this state, with no case to distinguish. -/
theorem hardResetCompletes : Obligations.HardResetCompletes := fun _ => rfl

end Sys2Proof.Machine

namespace Sys2Proof.Machine

variable {s : State}

/-! ## The queue, and progress -/

/-- A step on a queue that is not empty is its front command, executed behind the queue's rest. -/
theorem step_of_front {c : Instr} {rest : List Instr} (h : s.pending = c :: rest) :
    step s = exec c { s with pending := rest } := by
  unfold step; rw [h]

/-- Settles O1. -/
theorem stepRunsFrontCommand : Obligations.StepRunsFrontCommand := fun _ _ _ => step_of_front rfl

/-- An event always ends in a next state: its body and what follows it are functions of the state. -/
theorem event_answersNext (body : State → State) (s : State) : ∃ t, event body s = .next t := ⟨_, rfl⟩

/-- RESET_RELEASE ends in a next state whether or not RST_N is low before it. -/
theorem exec_resetRelease_answersNext (cfgb : BitVec 8) (autold : Bool) (s : State) :
    ∃ t, exec (.resetRelease cfgb autold) s = .next t := by
  cases hr : s.rst with
  | true => exact ⟨(s.begin.releaseReset cfgb autold).finish, if_pos hr⟩
  | false => exact ⟨s.begin, if_neg (by simp [hr])⟩

/-- Settles O2: the two commands of RST_N have meanings of their own, and every other command is one event. -/
theorem everyCommandAnswersNext : Obligations.EveryCommandAnswersNext := by
  intro c s
  by_cases hhard : c = .hardReset
  · subst hhard
    exact ⟨_, hardResetCompletes s⟩
  by_cases hrelease : ∃ cfgb autold, c = .resetRelease cfgb autold
  · obtain ⟨cfgb, autold, rfl⟩ := hrelease
    exact exec_resetRelease_answersNext cfgb autold s
  · obtain ⟨body, hevent⟩ := exec_event c s hhard fun cfgb autold h => hrelease ⟨cfgb, autold, h⟩
    rw [hevent]
    exact event_answersNext body s

end Sys2Proof.Machine
